-- ==== Sys2Proof/Word.lean ====
section
/-! DEFINITION. The bytes of the links, the numbers of heads and needles, and sets of heads. -/

namespace Sys2Proof

/-- One byte of the request link or of the head link. -/
abbrev Byte := BitVec 8

/-- A set of heads as the links carry it: head h is bit h − 1 (R181). -/
abbrev HeadSet := BitVec 16

/-- Head 1..16, counted from 0 inside the model: head h is `h − 1`. -/
abbrev HeadId := Fin 16

/-- Needle 1..12, counted from 0 inside the model: needle n is `n − 1`. -/
abbrev NeedleId := Fin 12

end Sys2Proof
end

