-- ==== Sys2Proof/Syntax.lean ====
section
/-! DEFINITION. The commands of the part: one constructor for each row of spec/opcode_table.json.
Requests carry the fields of their payload (R183) as the bytes of the frame give them; events of the
machine carry what the input or the head link brings. -/

namespace Sys2Proof

/-- A stitch triple of SEG_WRITE as sent (R183). -/
structure RawStitch where
  dx : Byte
  dy : Byte
  kind : Byte
  deriving DecidableEq, Repr

/-- A whole rule of the Fault Policy Table as sent, without its number (R183). -/
structure RawRule where
  patternEnables : Byte
  actionEnables : Byte
  useDefaults : Byte
  kinds : BitVec 16
  heads : BitVec 16
  invert : Byte
  passKind : Byte
  indexMin : BitVec 16
  indexMax : BitVec 16
  minSpeed : BitVec 16
  minFaults : Byte
  reaction : Byte
  speedCap : BitVec 16
  backtrack : Byte
  rejoin : Byte
  severity : Byte
  deriving DecidableEq, Repr

/-- The commands of the part. -/
inductive Instr where
  /-- A select assertion and release: the bytes the host clocks in (R172). -/
  | transaction (rx : List Byte)
  | jobOpen (segments heads : BitVec 16) (repairWhen : Byte) (pinCeiling : BitVec 16) (powerBacktrack : Byte)
  | jobClose
  | start
  | stop
  | resume
  | repairRun
  | frameSet (x y : BitVec 16)
  | segOpen (number thread count x y : BitVec 16) (flags : Byte)
  | segWrite (number offset : BitVec 16) (stitches : List RawStitch)
  | segClose (number : BitVec 16) (x y : BitVec 32)
  | segDiscard (number : BitVec 16)
  | segQuery (number : BitVec 16)
  | segLocate (number k : BitVec 16)
  | needleSet (head needle given : Byte) (code : BitVec 16) (state : Byte)
  | needleQuery (head needle : Byte)
  | headMode (head mode : Byte)
  | headRejoin (head : Byte)
  | headQuery (head : Byte)
  | headClear (head : Byte)
  | headBobbin (head : Byte) (length : BitVec 24)
  | repairList (present : Byte) (segment : BitVec 16) (head : Byte) (first : BitVec 16)
  | repairCancel (by_ which : Byte)
  /-- The rule number, and the rule or nothing (the 1-byte form, R181). -/
  | ruleWrite (number : Byte) (rule : Option RawRule)
  | ruleRead (number : Byte)
  | tableWrite (axis first count : Byte) (entries : List (BitVec 16))
  | configWrite (ident : Byte) (value : BitVec 24)
  | configRead (ident : Byte)
  | status
  | attentionRead
  | nop
  | reset
  | estopAssert
  | estopRelease
  /-- The warning input asserts; `backup` is the backup-present input as sampled then (R166). -/
  | powerFailWarning (backup : Bool)
  | warningClear
  /-- Power returns; `backup` is the backup-present input as read then (R168). -/
  | powerReturn (backup : Bool)
  | resetLineAssert
  | resetLineRelease
  /-- The spindle angle input now reads `angle` (R47). -/
  | shaftAngleChange (angle : Fin 360)
  | spindleAtRest
  | moveCompletion
  | standstillExchange
  /-- The bytes the board of `head` answered on the head link (R186). -/
  | headReport (head : HeadId) (message : List Byte)
  | reportDue (head : HeadId)
  | shiftTimerExpiry (head : HeadId)
  | trimTimerExpiry (head : HeadId)
  | mainSupplyFailure
  | backupFailure
  deriving DecidableEq, Repr

end Sys2Proof
end

