-- ==== Sys2Proof/WellFormed.lean ====
section
/-! DEFINITION. Which commands a frame can spell: the payload lengths of R183 and the value widths
of R185. A command that fails the check is one no frame carries; as a request it is answered
BAD_REQUEST, its length not suiting its kind (R173, R181). -/

namespace Sys2Proof

/-- The identifier of BOBBIN_LOW_MARK, the one parameter of 3 bytes (R185). -/
def bobbinLowMarkIdent : Byte := 31

/-- The width in bytes of the value of a parameter (R185). -/
def configWidth (ident : Byte) : Nat := if ident = bobbinLowMarkIdent then 3 else 2

/-- R183, R185, R181: SEG_WRITE carries 1..64 stitches, TABLE_WRITE always 32 entries, and a
CONFIG_WRITE value fits the width of its parameter. -/
def Instr.wellFormed : Instr → Bool
  | .segWrite _ _ stitches => decide (1 ≤ stitches.length) && decide (stitches.length ≤ 64)
  | .tableWrite _ _ _ entries => decide (entries.length = 32)
  | .configWrite ident value => decide (value.toNat < 256 ^ configWidth ident)
  | _ => true

end Sys2Proof
end

