-- ==== Sys2Proof/Config.lean ====
section
/-! DEFINITION. The sizes the publication fixes, and the values it leaves open (opaque, so that no
proof can see one). -/

namespace Sys2Proof.Config

/-- Pages of the Stitch Memory (section 1.2 of the Design Store chapter). -/
def pageCount : Nat := 4096
/-- Stitch entries of one page. -/
def pageSize : Nat := 16
/-- Slots of the Segment Table (section 1.1). -/
def segmentSlots : Nat := 256
/-- Slots of the Repair Table (R148). -/
def repairSlots : Nat := 128
/-- Stitches of the look-ahead window (R43). -/
def windowSize : Nat := 32
/-- The thread code EMPTY (section 1.6 of the introduction). -/
def emptyThread : Nat := 65535

/-- How many spontaneous transitions the part may make inside one step (DESIGN CHOICE, log 8): above the longest
chain that 65,536 stored stitches, 256 segments and 128 records can give rise to. -/
def driveBound : Nat := 1099511627776

/-- FREE VALUE (DESIGN CHOICE, log 5): the move time of a distance above 127 units, which no Move-Time Table entry
gives; a retraction asks for it after AXIS_SCALE was lowered (R54). -/
opaque timeBeyondTable : Nat → Nat

/-- The places of a report whose bytes the Formats chapter does not state while the thing they
describe is absent (DESIGN CHOICE, log 6). -/
inductive Unstated where
  /-- Staged code of NEEDLE_QUERY when no code is staged. -/
  | stagedCode
  /-- Staged state of NEEDLE_QUERY when no state is staged. -/
  | stagedState
  /-- Latch segment of the head report when no replay latch is held. -/
  | latchSegment
  /-- Segment of a fault context that has none. -/
  | faultSegment
  /-- E of a fault context that has none. -/
  | faultExpected
  /-- M of a fault context that has none. -/
  | faultMeasured
  deriving DecidableEq, Repr

/-- FREE VALUE (DESIGN CHOICE, log 6): what the part sends, for the head given, in a place whose value is not stated. -/
opaque unstated : Unstated → HeadId → BitVec 16

end Sys2Proof.Config
end

