-- ==== Sys2Proof/Machine/State.lean ====
section
/-! DEFINITION. The state of the part, block by block (section 1.3 of the introduction), and the
state after a cold start. -/

namespace Sys2Proof.Machine

/-! ## Names of states and enumerated values (section 1.9, R182) -/

inductive PassState where
  | idle | standby | sewing | repair | travel | change | stopping | halted | finished
  deriving DecidableEq, Repr

/-- The halt causes in the order of section 4.3 (R73, R182). -/
inductive HaltCause where
  | none | stopRequest | faultHold | repairFull | designPause | starved | pinCeiling
  | repairsOutstanding | frameLate | spindlePosition | estop | powerLoss | reset
  deriving DecidableEq, Repr

inductive Result where
  | done | accepted | clamped | refused | noResponse | linkBusy | badRequest
  deriving DecidableEq, Repr

inductive Reason where
  | none | noJob | busy | duplicate | stale | noSlot | noSpace | badOffset | badStitch | badArgument
  | incomplete | geometry | outOfField | notFound | pinned | tableInvalid | unreferenced | estopActive
  deriving DecidableEq, Repr

/-- A present segment record is in one of these; a FREE record is one the table does not list (R1). -/
inductive SegState where
  | loading | ready | active | sewn
  deriving DecidableEq, Repr

inductive CloseResult where
  | none | geometry | outOfField
  deriving DecidableEq, Repr

inductive StitchKind where
  | normal | jump | trim | pause
  deriving DecidableEq, Repr

inductive PassKind where
  | main | repair
  deriving DecidableEq, Repr

/-- A SHIFTING head keeps its state before the shift: `rejoining` when it was REJOIN_WAIT (R103). -/
inductive HeadState where
  | excluded | active | shifting (rejoining : Bool) | off | rejoinWait | benched
  deriving DecidableEq, Repr

inductive RejoinMode where
  | auto | operator
  deriving DecidableEq, Repr

inductive Colour where
  | green | yellow | red
  deriving DecidableEq, Repr

/-- The thirteen kinds of fault in the order of R132. -/
inductive FaultKind where
  | upperBreak | bobbinOut | bobbinLow | tensionWarn | tensionLoose | tensionTight | needleShiftFail
  | trimFail | noThread | needleWithdrawn | headSilent | headDrive | breakStorm
  deriving DecidableEq, Repr

inductive Reaction where
  | continue_ | headOff | hold
  deriving DecidableEq, Repr

inductive Severity where
  | notice | head | machine
  deriving DecidableEq, Repr

inductive RepairWhen where
  | segmentEnd | jobEnd | onRequest
  deriving DecidableEq, Repr

inductive RecordState where
  | opened | closed | active
  deriving DecidableEq, Repr

/-- The cause of a repair record: a fault kind, or CARRY (R148). -/
inductive RepairCause where
  | fault (kind : FaultKind)
  | carry
  deriving DecidableEq, Repr

inductive StartKind where
  | cold | warmPower | warmReset
  deriving DecidableEq, Repr

/-- The attention causes in the order of R177. -/
inductive Attention where
  | loadWant | halted | fault | threadMissing | repairDone | finished | start
  deriving DecidableEq, Repr

/-! ## Request Link -/

/-- A response: result, reason and payload (R181). -/
structure Response where
  result : Result
  reason : Reason
  payload : List Byte
  deriving DecidableEq, Repr

/-- What is being handled while the slot is PENDING (R172, R173). -/
inductive Handling where
  /-- A request that is to be carried out. -/
  | request (i : Instr)
  /-- A malformed frame, to be answered BAD_REQUEST. -/
  | malformed
  /-- A reset that waits for the warning to clear or the supply to fail (R170). -/
  | waits
  deriving DecidableEq, Repr

/-- The response slot (R172). -/
inductive Slot where
  | pending (handling : Handling)
  | ready (response : Response)
  | noResponse
  deriving DecidableEq, Repr

structure Link where
  slot : Slot
  /-- What the last transaction shifted out; `none` is a filler byte, whose value is not given. -/
  shiftedOut : List (Option Byte)
  /-- The sticky causes pending, cause code c as bit c − 1. -/
  sticky : BitVec 16
  /-- The attention enable set. -/
  enable : BitVec 16
  deriving DecidableEq, Repr

/-! ## Design Store -/

/-- A position or a displacement on the frame, in units. -/
structure Pos where
  x : Int
  y : Int
  deriving DecidableEq, Repr

/-- A stored stitch (section 1.2 of the Design Store chapter). -/
structure Stitch where
  dx : Int
  dy : Int
  kind : StitchKind
  deriving DecidableEq, Repr

structure Box where
  minX : Int
  maxX : Int
  minY : Int
  maxY : Int
  deriving DecidableEq, Repr

/-- A present segment record (R1). -/
structure SegRecord where
  slot : Nat
  number : Nat
  state : SegState
  thread : Nat
  count : Nat
  written : Nat
  start : Pos
  runEnd : Pos
  box : Box
  pages : List Nat
  tieIn : Bool
  tieOff : Bool
  close : CloseResult
  unthreaded : HeadSet
  pins : Nat
  deriving DecidableEq, Repr

/-- The Stitch Memory: entry number (page × 16 + place) and stitch, addresses rising, no entry
listed that equals what an unlisted one reads as (DESIGN CHOICE, log 4). -/
abbrev Memory := List (Nat × Stitch)

structure Store where
  /-- The present records, by rising slot; a slot not listed is FREE. -/
  segs : List SegRecord
  memory : Memory
  /-- The free-page pool. It is unordered (R3): the order of the list is the part's own choice of
  which pages the next SEG_OPEN takes (DESIGN CHOICE, log 23). -/
  pool : List Nat
  mark : Option Nat
  /-- Thread code of the segment the mark names: the selection at a segment end reads it after the
  segment itself may have been freed (R157; the model's own field: DEDUCED, log 24). -/
  markThread : Nat
  loadWant : Bool
  served : Option Nat
  deriving DecidableEq, Repr

/-! ## Stitch Stream Editor -/

inductive TieMark where
  | none | tieIn | tieOff
  deriving DecidableEq, Repr

/-- An issued stitch (R24); `lowest` is the lowest covered index. -/
structure Issued where
  dx : Int
  dy : Int
  jump : Bool
  tie : TieMark
  index : Option Nat
  lowest : Option Nat
  anchor : Option Nat
  part : Option (Nat × Nat)
  deriving DecidableEq, Repr

/-- A stop marker (R24). -/
inductive Marker where
  | trim (index : Nat)
  | pause (index : Nat)
  | endOfPass
  deriving DecidableEq, Repr

/-- The pending sum of a merge and the lowest index it covers (R23). -/
structure Carry where
  dx : Int
  dy : Int
  lowest : Nat
  deriving DecidableEq, Repr

/-- The issue context (R23). -/
structure IssueContext where
  segment : Nat
  first : Nat
  last : Nat
  kind : PassKind
  barrier : Option Nat
  readIndex : Nat
  carry : Option Carry
  /-- Tie stitches placed and split parts made that are not yet issued, in stream order. -/
  waiting : List Issued
  tieInPending : Bool
  tieOffDue : Bool
  held : Option Marker
  /-- First index of the present stretch (R30). -/
  stretch : Nat
  /-- Index of the last stitch with an index put into the stream in this stretch (R30). -/
  lastIndex : Option Nat
  /-- The sewn frontier (R32). -/
  frontier : Nat
  /-- PAUSE indices of a repair pass that the read index has passed (R25, R32). -/
  passedPauses : List Nat
  deriving DecidableEq, Repr

structure Editor where
  context : Option IssueContext
  /-- The travel steps not yet handed over (R33). -/
  plan : Option (List Pos)
  deriving DecidableEq, Repr

/-! ## Motion Planner -/

inductive Mode where
  | atRest | running | runningDown | travelling
  deriving DecidableEq, Repr

inductive Shaft where
  | turning | inWindow | outOfWindow
  deriving DecidableEq, Repr

inductive MoveKind where
  | stitch | step | retraction
  deriving DecidableEq, Repr

/-- A move whose pulses are being issued: its delta, on each axis the pulses to issue, their
direction and the time they are spread over, and the µs since it began (R48, R53, R54). -/
structure Move where
  kind : MoveKind
  dx : Int
  dy : Int
  pulsesX : Nat
  pulsesY : Nat
  signX : Int
  signY : Int
  timeX : Nat
  timeY : Nat
  elapsed : Nat
  deriving DecidableEq, Repr

/-- A stitch of the look-ahead window with its static cap (R43). -/
structure Planned where
  stitch : Issued
  cap : Nat
  deriving DecidableEq, Repr

structure Motion where
  tableX : List Nat
  tableY : List Nat
  mode : Mode
  shaft : Shaft
  spindle : Nat
  /-- Direction outputs of the axes, as the sign last set (R48). -/
  dirX : Int
  dirY : Int
  window : List Planned
  marker : Option Marker
  passKind : PassKind
  /-- Planned speed of the stitch taken last in the present run (p_prev of R45). -/
  prevSpeed : Option Nat
  policyCeiling : Option Nat
  stopCeiling : Bool
  /-- The end of stopping has been reached (R49). -/
  stopEnd : Bool
  move : Option Move
  /-- Pulses of an unfinished move on each axis, signed by direction (R54). -/
  unfinished : Option (Int × Int)
  position : Pos
  referenced : Bool
  deriving DecidableEq, Repr

/-! ## Pass Controller -/

/-- The job record (R61). -/
structure Job where
  segments : Nat
  heads : HeadSet
  repairWhen : RepairWhen
  pinCeiling : Nat
  powerBacktrack : Nat
  deriving DecidableEq, Repr

/-- The resume point (R77). -/
inductive ResumePoint where
  | atStitch (segment k : Nat)
  | atEnd (segment : Nat)
  | beforeTake
  | jobEnd
  deriving DecidableEq, Repr

/-- An entry of the faulted set: its target, or none, and the cause its record will carry (R77, R79). -/
structure Faulted where
  target : Option Nat
  cause : RepairCause
  deriving DecidableEq, Repr

/-- The points of the round at which repairs are offered (R157). -/
inductive RepairPoint where
  | segmentEnd | jobEnd | forced | run
  deriving DecidableEq, Repr

/-- What a CHANGE with a needle choice, a travel or a begin-pass request leads to. `onward` is the
begin-pass request after a mid-segment trim (R66). -/
inductive Aim where
  | segmentStart | resume | repairPass | onward
  deriving DecidableEq, Repr

/-- Why a trim-only CHANGE is made (R66, R68, R69, R75, R79, R82). -/
inductive TrimAim where
  | midMain | midRepair | endMain | endRepair | stopRepair | owed | repairRun
  deriving DecidableEq, Repr

/-- The place in the round: what the controller is doing and what it waits for. -/
inductive Phase where
  /-- IDLE, STANDBY, HALTED, FINISHED: nothing is in progress. -/
  | rest
  /-- The next take is due (R64). -/
  | take
  /-- A needle choice is in progress (CHANGE). -/
  | choice (aim : Aim)
  /-- A travel is asked for or under way (TRAVEL). -/
  | travel (aim : Aim)
  /-- A begin-pass request has been given and is not yet taken. -/
  | begin (aim : Aim)
  /-- A stretch is being sewn (SEWING, REPAIR, STOPPING). -/
  | sew
  /-- A trim-only CHANGE is in progress. -/
  | trim (aim : TrimAim)
  /-- The next schedule request is due (R157). -/
  | schedule
  deriving DecidableEq, Repr

/-- The start index chosen by a resume, whether it is the backtrack target, whether replay latches are
set, and the heads that stay out of them (R80). -/
structure ResumePlan where
  start : Nat
  fromTarget : Bool
  latch : Bool
  rejoined : HeadSet
  deriving DecidableEq, Repr

structure Pass where
  state : PassState
  cause : HaltCause
  /-- The cause of a soft halt being made (STOPPING) or of a pending halt (TRAVEL, CHANGE). -/
  due : Option HaltCause
  job : Option Job
  phase : Phase
  repairPoint : RepairPoint
  /-- The cause REPAIR_RUN returns to (R82). -/
  runCause : HaltCause
  /-- The halt cause a RESUME found (R80). -/
  resumeCause : HaltCause
  resumePlan : ResumePlan
  /-- The resume context is held when a point is held; the five fields below are its rest (R77). -/
  point : Option ResumePoint
  faulted : Vector (Option Faulted) 16
  carryOwed : Bool
  trimmed : Bool
  owedTrims : HeadSet
  wasMoving : Bool
  deriving DecidableEq, Repr

/-! ## Thread Selector -/

/-- A staged edit: a code, a state (true: DISABLED), or both (R84). -/
structure StagedEdit where
  code : Option Nat
  disabled : Option Bool
  deriving DecidableEq, Repr

structure NeedleEntry where
  code : Nat
  disabled : Bool
  staged : Option StagedEdit
  deriving DecidableEq, Repr

/-- Where a shift or a trim stands with the head link: no command has carried it; its first exchange
has, whose report is not judged; reports are judged (R91, R94). -/
inductive OrderPhase where
  | unsent | sent | judged
  deriving DecidableEq, Repr

/-- A needle shift in flight; `timeout` is the length of its timer in ms, which runs from the first
exchange on, and `named` says that a report since the command has named a needle (R91, R93, R98). -/
structure Shift where
  target : NeedleId
  order : OrderPhase
  timeout : Nat
  named : Bool
  deriving DecidableEq, Repr

/-- A trim in flight, with the length of its timer in ms (R94, R98). -/
structure Trim where
  order : OrderPhase
  timeout : Nat
  deriving DecidableEq, Repr

/-- What the Thread Selector holds of one head. -/
structure SelectorHead where
  needles : Vector NeedleEntry 12
  current : Option NeedleId
  shift : Option Shift
  trim : Option Trim
  deriving DecidableEq, Repr

/-- The working context (R86). -/
structure Working where
  thread : Nat
  segment : Nat
  kind : PassKind
  beginIndex : Nat
  involved : HeadSet
  deriving DecidableEq, Repr

structure Selector where
  heads : Vector SelectorHead 16
  working : Option Working
  /-- The heads the trim request in progress named (R94, R110). -/
  trimNamed : HeadSet
  deriving DecidableEq, Repr

/-! ## Head Supervisor -/

/-- The fields of a valid report (R100); `needle` is none while the case is moving. -/
structure Report where
  feed : Nat
  bobbin : Bool
  button : Bool
  trimDone : Bool
  driveFault : Bool
  needle : Option NeedleId
  deriving DecidableEq, Repr

/-- A head record (R103) with what the head link keeps for the head. -/
structure HeadRecord where
  state : HeadState
  rejoin : RejoinMode
  /-- The replay latch: segment and index. -/
  replay : Option (Nat × Nat)
  ranges : List (Nat × Nat)
  silentRun : Nat
  silentRaised : Bool
  driveSeen : Bool
  lastReport : Option Report
  inTrim : Bool
  sewn : Nat
  sewnRepair : Nat
  /-- A report of the last exchange is still awaited. -/
  awaiting : Bool
  /-- The report of the last exchange was taken when due. -/
  taken : Bool
  /-- The report of the exchange before it was taken when due. -/
  takenBefore : Bool
  /-- The latch of the last exchange was DOWN. -/
  latch : Bool
  /-- The latch of the exchange before it was DOWN. -/
  latchBefore : Bool
  /-- The needle sent while no shift is in flight (R100, R93). -/
  selectNeedle : Option NeedleId
  /-- The bytes of the last command message sent to the head (R186). -/
  command : List Byte
  deriving DecidableEq, Repr

/-- A stitch taken at a window open of the run. -/
structure Taken where
  stitch : Issued
  segment : Nat
  kind : PassKind
  completed : Bool
  deriving DecidableEq, Repr

structure Supervisor where
  heads : Vector HeadRecord 16
  /-- The last exchange was a revolution exchange. -/
  revolution : Bool
  /-- The stitch taken at the window open of the last exchange, and of the one before it. -/
  current : Option Taken
  previous : Option Taken
  /-- Index or anchor of the last stitch taken in the run (R101). -/
  lastTake : Option Nat
  deriving DecidableEq, Repr

/-! ## Thread Meter -/

/-- The meter of a head (R116). -/
structure Meter where
  breakRun : Nat
  loose : Nat
  tight : Nat
  colour : Colour
  bobbin : Nat
  lowArmed : Bool
  bobbinAbsent : Nat
  storm : Nat
  stormLeak : Nat
  deriving DecidableEq, Repr

/-! ## Fault Resolver -/

/-- The context of a fault (R133). -/
structure FaultContext where
  kind : FaultKind
  segment : Option Nat
  index : Option Nat
  needle : Option NeedleId
  pass : Option PassKind
  expected : Option Nat
  measured : Option Nat
  deriving DecidableEq, Repr

/-- What the Fault Resolver holds of one head (R146). -/
structure FaultHead where
  first : Option FaultContext
  latest : Option FaultKind
  count : Nat
  overflow : Bool
  deriving DecidableEq, Repr

/-- An action field of a rule: enabled, use-default flag, value (R137). -/
structure Action (α : Type) where
  enabled : Bool
  useDefault : Bool
  value : α
  deriving DecidableEq, Repr

/-- A rule of the Fault Policy Table (R137). `passKind` is none where the code 0 was stored. -/
structure PolicyRule where
  byKind : Bool
  byHead : Bool
  byPass : Bool
  byIndex : Bool
  bySpeed : Bool
  byFaults : Bool
  kinds : BitVec 16
  heads : HeadSet
  invert : Bool
  passKind : Option PassKind
  indexMin : Nat
  indexMax : Nat
  minSpeed : Nat
  minFaults : Nat
  reaction : Action Reaction
  speedCap : Action Nat
  backtrack : Action Nat
  rejoin : Action RejoinMode
  severity : Action Severity
  deriving DecidableEq, Repr

structure Resolver where
  heads : Vector FaultHead 16
  rules : Vector PolicyRule 32
  /-- The enable set, kind code c as bit c − 1. -/
  enable : BitVec 16
  /-- The count-select set. -/
  countSelect : BitVec 16
  deriving DecidableEq, Repr

/-! ## Repair Table -/

/-- A repair record (R148). -/
structure RepairRecord where
  slot : Nat
  head : HeadId
  segment : Nat
  first : Nat
  last : Option Nat
  thread : Nat
  cause : RepairCause
  state : RecordState
  /-- Repaired through, an index first − 1..last − 1. -/
  through : Option Int
  deriving DecidableEq, Repr

/-- The repair pass that has been formed: segment, pass range and involved heads (R158). -/
structure RepairPass where
  segment : Nat
  first : Nat
  last : Nat
  involved : HeadSet
  deriving DecidableEq, Repr

structure Repairs where
  /-- The records held, by rising slot. -/
  records : List RepairRecord
  roundMark : Option Nat
  retiredInPass : Bool
  pass : Option RepairPass
  deriving DecidableEq, Repr

/-! ## Supply Monitor and inputs -/

structure Supply where
  /-- The main supply is present. -/
  powered : Bool
  retention : Bool
  startKind : StartKind
  /-- A warning has been taken and no start has been made since (R166). -/
  warned : Bool
  /-- A reset waits for the warning to clear or the supply to fail (R170). -/
  resetWaits : Bool
  /-- Levels of the inputs. -/
  warningInput : Bool
  backupInput : Bool
  resetLine : Bool
  estopInput : Bool
  angle : Fin 360
  deriving DecidableEq, Repr

/-! ## Parameters (R185) -/

structure Params where
  loadLow : Nat
  loadHigh : Nat
  minStitch : Nat
  tieLength : Nat
  travelStep : Nat
  sMin : Nat
  sMax : Nat
  accelUp : Nat
  accelDown : Nat
  windowDeg : Nat
  jumpCap : Nat
  repairCap : Nat
  axisScaleX : Nat
  axisScaleY : Nat
  fieldXLow : Int
  fieldXHigh : Int
  fieldYLow : Int
  fieldYHigh : Int
  shiftTimeout : Nat
  trimTimeout : Nat
  silentRun : Nat
  kAllow : Nat
  gain : Nat
  breakRun : Nat
  tol : Nat
  leak : Nat
  yellowMark : Nat
  redMark : Nat
  yellowCap : Nat
  bobbinAllow : Nat
  bobbinLowMark : Nat
  bobbinRun : Nat
  stormWeight : Nat
  stormMark : Nat
  stormLeak : Nat
  deriving DecidableEq, Repr

/-- The state of the part, and the queue of the commands that wait. -/
structure State where
  rl : Link
  ds : Store
  se : Editor
  mp : Motion
  pc : Pass
  ts : Selector
  hs : Supervisor
  tm : Vector Meter 16
  fr : Resolver
  rt : Repairs
  sm : Supply
  par : Params
  pending : List Instr
  deriving DecidableEq, Repr

/-- Why the part would stop. The spec gives every command an effect, so no command raises it. -/
inductive Fault where
  /-- Raised by nothing: a type needs a name for a stop that does not occur (safe). -/
  | unused
  deriving DecidableEq, Repr

/-- Why a command would be refused a meaning. -/
inductive Refusal where
  /-- The command has no meaning in the model yet (safe); raised by no arm of exec. -/
  | notModelled (mnemonic : String)
  deriving DecidableEq, Repr

/-! ## The state after a cold start -/

/-- R37: T0 = 0 and Td = 3,000 + 150 × d. -/
def Motion.coldTable : List Nat := 0 :: (List.range 127).map fun d => 3000 + 150 * (d + 1)

/-- The defaults of R20, R35, R57, R58, R98, R114 and R130. -/
def Params.cold : Params where
  loadLow := 2000
  loadHigh := 6000
  minStitch := 0
  tieLength := 8
  travelStep := 100
  sMin := 100
  sMax := 1000
  accelUp := 40
  accelDown := 60
  windowDeg := 120
  jumpCap := 600
  repairCap := 600
  axisScaleX := 8
  axisScaleY := 8
  fieldXLow := -3000
  fieldXHigh := 3000
  fieldYLow := -2000
  fieldYHigh := 2000
  shiftTimeout := 1500
  trimTimeout := 600
  silentRun := 2
  kAllow := 20
  gain := 16
  breakRun := 3
  tol := 12
  leak := 4
  yellowMark := 200
  redMark := 600
  yellowCap := 500
  bobbinAllow := 4
  bobbinLowMark := 20000
  bobbinRun := 4
  stormWeight := 64
  stormMark := 192
  stormLeak := 64

/-- R179: NO_RESPONSE, START raised, all seven causes enabled. The first values of the fields that are
the model's own, here and below, are DESIGN CHOICE, log 22. -/
def Link.cold : Link where
  slot := .noResponse
  shiftedOut := []
  sticky := 0x0040
  enable := 0x007F

/-- R22. -/
def Store.cold : Store where
  segs := []
  memory := []
  pool := List.range Config.pageCount
  mark := none
  markThread := 0
  loadWant := false
  served := none

/-- R36. -/
def Editor.cold : Editor where
  context := none
  plan := none

/-- R59. -/
def Motion.cold : Motion where
  tableX := Motion.coldTable
  tableY := Motion.coldTable
  mode := .atRest
  shaft := .turning
  spindle := 0
  dirX := 0
  dirY := 0
  window := []
  marker := none
  passKind := .main
  prevSpeed := none
  policyCeiling := none
  stopCeiling := false
  stopEnd := false
  move := none
  unfinished := none
  position := ⟨0, 0⟩
  referenced := false

/-- R83. -/
def Pass.cold : Pass where
  state := .idle
  cause := .none
  due := none
  job := none
  phase := .rest
  repairPoint := .segmentEnd
  runCause := .none
  resumeCause := .none
  resumePlan := ⟨0, false, false, 0⟩
  point := none
  faulted := Vector.replicate 16 none
  carryOwed := false
  trimmed := false
  owedTrims := 0
  wasMoving := false

/-- R99: every entry EMPTY and READY, current needles unknown. -/
def Selector.cold : Selector where
  heads := Vector.replicate 16
    { needles := Vector.replicate 12 ⟨Config.emptyThread, false, none⟩
      current := none, shift := none, trim := none }
  working := none
  trimNamed := 0

/-- R115: a head record at a cold start. -/
def HeadRecord.cold : HeadRecord where
  state := .excluded
  rejoin := .auto
  replay := none
  ranges := []
  silentRun := 0
  silentRaised := false
  driveSeen := false
  lastReport := none
  inTrim := false
  sewn := 0
  sewnRepair := 0
  awaiting := false
  taken := false
  takenBefore := false
  latch := false
  latchBefore := false
  selectNeedle := none
  command := []

/-- R115. -/
def Supervisor.cold : Supervisor where
  heads := Vector.replicate 16 HeadRecord.cold
  revolution := false
  current := none
  previous := none
  lastTake := none

/-- R131. -/
def Meter.cold : Meter where
  breakRun := 0
  loose := 0
  tight := 0
  colour := .green
  bobbin := 0
  lowArmed := false
  bobbinAbsent := 0
  storm := 0
  stormLeak := 0

/-- R137: a rule with every pattern field and every action field disabled; its stored values are the
model's choice (DESIGN CHOICE, log 7). -/
def PolicyRule.disabled : PolicyRule where
  byKind := false
  byHead := false
  byPass := false
  byIndex := false
  bySpeed := false
  byFaults := false
  kinds := 0
  heads := 0
  invert := false
  passKind := none
  indexMin := 0
  indexMax := 0
  minSpeed := 0
  minFaults := 0
  reaction := ⟨false, false, .continue_⟩
  speedCap := ⟨false, false, 0⟩
  backtrack := ⟨false, false, 0⟩
  rejoin := ⟨false, false, .auto⟩
  severity := ⟨false, false, .notice⟩

/-- R147: all kinds enabled; all kinds but TENSION_WARN and BOBBIN_LOW counted. -/
def Resolver.cold : Resolver where
  heads := Vector.replicate 16 ⟨none, none, 0, false⟩
  rules := Vector.replicate 32 PolicyRule.disabled
  enable := 0x1FFF
  countSelect := 0x1FF3

/-- R165. -/
def Repairs.cold : Repairs where
  records := []
  roundMark := none
  retiredInPass := false
  pass := none

/-- R168: the retention flag is clear and the start kind COLD; the input levels are the model's
choice (DESIGN CHOICE, log 3). -/
def Supply.cold : Supply where
  powered := true
  retention := false
  startKind := .cold
  warned := false
  resetWaits := false
  warningInput := false
  backupInput := false
  resetLine := false
  estopInput := false
  angle := 0

/-- The part right after a cold start (R168), with no command waiting. -/
def State.reset : State where
  rl := Link.cold
  ds := Store.cold
  se := Editor.cold
  mp := Motion.cold
  pc := Pass.cold
  ts := Selector.cold
  hs := Supervisor.cold
  tm := Vector.replicate 16 Meter.cold
  fr := Resolver.cold
  rt := Repairs.cold
  sm := Supply.cold
  par := Params.cold
  pending := []

end Sys2Proof.Machine
end

