-- ==== Sys2Proof/Machine/Operands.lean ====
section
/-! DEFINITION. The operand forms of the links: bytes and quantities, the CRC, the codes of the
enumerations, head and needle numbers, sets, and roundings (sections 1.6, 1.7, R181, R182). -/

namespace Sys2Proof.Machine

/-! ## Quantities of several bytes (R181) -/

/-- `n` bytes of a quantity, most significant first, two's complement. -/
def beBytes (n : Nat) (v : Int) : List Byte :=
  (List.range n).map fun i => BitVec.ofInt 8 (v / (256 : Int) ^ (n - 1 - i))

/-- The unsigned quantity that bytes spell, most significant first. -/
def ofBytes (bs : List Byte) : Nat := bs.foldl (fun a b => a * 256 + b.toNat) 0

/-- One shift of the CRC register, generator x¹⁶ + x¹² + x⁵ + 1. -/
def crcShift (r : BitVec 16) : BitVec 16 :=
  if r.msb then (r <<< 1) ^^^ 0x1021 else r <<< 1

def crcByte (r : BitVec 16) (b : Byte) : BitVec 16 :=
  (List.range 8).foldl (fun r _ => crcShift r) (r ^^^ (b.zeroExtend 16 <<< 8))

/-- The CRC over bytes: register at all ones, no final inversion (R181). -/
def crc16 (bs : List Byte) : BitVec 16 := bs.foldl crcByte 0xFFFF

/-- The bytes with their CRC after them. -/
def withCrc (bs : List Byte) : List Byte := bs ++ beBytes 2 (crc16 bs).toNat

/-! ## Numbers of heads and needles (section 1.6) -/

/-- Head 1..16 of a byte, or nothing outside that range. -/
def headOf (b : Byte) : Option HeadId :=
  if h : 1 ≤ b.toNat ∧ b.toNat ≤ 16 then some ⟨b.toNat - 1, by omega⟩ else none

/-- Needle 1..12 of a byte, or nothing outside that range. -/
def needleOf (b : Byte) : Option NeedleId :=
  if h : 1 ≤ b.toNat ∧ b.toNat ≤ 12 then some ⟨b.toNat - 1, by omega⟩ else none

def headNumber (h : HeadId) : Nat := h.val + 1

/-- The needle's number, 0 when absent or unknown (R181). -/
def needleNumber : Option NeedleId → Nat
  | some n => n.val + 1
  | none => 0

/-- The sixteen heads in head order. -/
def allHeads : List HeadId := List.finRange 16

/-- The twelve needles in order. -/
def allNeedles : List NeedleId := List.finRange 12

/-! ## Sets of heads -/

def inSet (set : HeadSet) (h : HeadId) : Bool := set.getLsbD h.val

def single (h : HeadId) : HeadSet := 1#16 <<< h.val

/-- The set of the heads that pass a test. -/
def headSetOf (p : HeadId → Bool) : HeadSet :=
  allHeads.foldl (fun acc h => if p h then acc ||| single h else acc) 0

/-! ## Codes of the enumerations (R182) -/

def boolCode (b : Bool) : Nat := if b then 1 else 0

def PassState.code : PassState → Nat
  | .idle => 0 | .standby => 1 | .sewing => 2 | .repair => 3 | .travel => 4 | .change => 5
  | .stopping => 6 | .halted => 7 | .finished => 8

def HaltCause.code : HaltCause → Nat
  | .none => 0 | .stopRequest => 1 | .faultHold => 2 | .repairFull => 3 | .designPause => 4
  | .starved => 5 | .pinCeiling => 6 | .repairsOutstanding => 7 | .frameLate => 8
  | .spindlePosition => 9 | .estop => 10 | .powerLoss => 11 | .reset => 12

def Result.code : Result → Nat
  | .done => 0 | .accepted => 1 | .clamped => 2 | .refused => 3 | .noResponse => 4
  | .linkBusy => 5 | .badRequest => 6

def Reason.code : Reason → Nat
  | .none => 0 | .noJob => 1 | .busy => 2 | .duplicate => 3 | .stale => 4 | .noSlot => 5
  | .noSpace => 6 | .badOffset => 7 | .badStitch => 8 | .badArgument => 9 | .incomplete => 10
  | .geometry => 11 | .outOfField => 12 | .notFound => 13 | .pinned => 14 | .tableInvalid => 15
  | .unreferenced => 16 | .estopActive => 17

/-- FREE is 0; a present record is in one of the others. -/
def SegState.code : SegState → Nat
  | .loading => 1 | .ready => 2 | .active => 3 | .sewn => 4

def CloseResult.code : CloseResult → Nat
  | .none => 0 | .geometry => 1 | .outOfField => 2

def HeadState.code : HeadState → Nat
  | .excluded => 0 | .active => 1 | .shifting _ => 2 | .off => 3 | .rejoinWait => 4 | .benched => 5

def RejoinMode.code : RejoinMode → Nat
  | .auto => 0 | .operator => 1

def Colour.code : Colour → Nat
  | .green => 0 | .yellow => 1 | .red => 2

def RecordState.code : RecordState → Nat
  | .opened => 0 | .closed => 1 | .active => 2

/-- Codes 1..13; 0 is absent. -/
def FaultKind.code : FaultKind → Nat
  | .upperBreak => 1 | .bobbinOut => 2 | .bobbinLow => 3 | .tensionWarn => 4 | .tensionLoose => 5
  | .tensionTight => 6 | .needleShiftFail => 7 | .trimFail => 8 | .noThread => 9
  | .needleWithdrawn => 10 | .headSilent => 11 | .headDrive => 12 | .breakStorm => 13

def RepairCause.code : RepairCause → Nat
  | .fault k => k.code
  | .carry => 14

def passKindCode : Option PassKind → Nat
  | none => 0
  | some .main => 1
  | some .repair => 2

def Reaction.code : Reaction → Nat
  | .continue_ => 0 | .headOff => 1 | .hold => 2

def Severity.code : Severity → Nat
  | .notice => 0 | .head => 1 | .machine => 2

def StartKind.code : StartKind → Nat
  | .cold => 0 | .warmPower => 1 | .warmReset => 2

/-- Codes 1..7. -/
def Attention.code : Attention → Nat
  | .loadWant => 1 | .halted => 2 | .fault => 3 | .threadMissing => 4 | .repairDone => 5
  | .finished => 6 | .start => 7

def reactionOf (b : Byte) : Option Reaction :=
  match b.toNat with
  | 0 => some .continue_
  | 1 => some .headOff
  | 2 => some .hold
  | _ => none

def rejoinOf (b : Byte) : Option RejoinMode :=
  match b.toNat with
  | 0 => some .auto
  | 1 => some .operator
  | _ => none

def severityOf (b : Byte) : Option Severity :=
  match b.toNat with
  | 0 => some .notice
  | 1 => some .head
  | 2 => some .machine
  | _ => none

def repairWhenOf (b : Byte) : Option RepairWhen :=
  match b.toNat with
  | 0 => some .segmentEnd
  | 1 => some .jobEnd
  | 2 => some .onRequest
  | _ => none

def stitchKindOf (b : Byte) : Option StitchKind :=
  match b.toNat with
  | 0 => some .normal
  | 1 => some .jump
  | 2 => some .trim
  | 3 => some .pause
  | _ => none

/-- A stored stitch of a triple, or nothing where R7 finds it a BAD_STITCH. -/
def stitchOf (r : RawStitch) : Option Stitch :=
  match stitchKindOf r.kind with
  | none => none
  | some k =>
    if r.dx.toInt = -128 ∨ r.dy.toInt = -128 then none
    else if (k = .trim ∨ k = .pause) ∧ (r.dx ≠ 0 ∨ r.dy ≠ 0) then none
    else some ⟨r.dx.toInt, r.dy.toInt, k⟩

/-! ## Membership of kinds and causes in their sets -/

def kindInSet (set : BitVec 16) (k : FaultKind) : Bool := set.getLsbD (k.code - 1)

def attentionBit (a : Attention) : BitVec 16 := 1#16 <<< (a.code - 1)

/-! ## Roundings and lengths (section 1.7) -/

/-- ceil(a / b). -/
def ceilDiv (a b : Nat) : Nat := (a + b - 1) / b

/-- a / b rounded to the nearest whole number, halves away from zero (b above 0). -/
def roundDiv (a : Int) (b : Nat) : Int := a.sign * ((2 * a.natAbs + b) / (2 * b) : Nat)

/-- The Chebyshev length of a delta. -/
def chebyshev (dx dy : Int) : Nat := max dx.natAbs dy.natAbs

/-- The partition formula of R28: sign(D) × floor(|D| × k / n). -/
def partitionOffset (d : Int) (n k : Nat) : Int := d.sign * ((d.natAbs * k / n : Nat) : Int)

/-- Part k of n (k from 1) of a delta component (R28). -/
def partitionPart (d : Int) (n k : Nat) : Int := partitionOffset d n k - partitionOffset d n (k - 1)

/-- The nearest value of a range (section 1.7). -/
def clampNat (low high v : Nat) : Nat := max low (min high v)

def clampInt (low high v : Int) : Int := max low (min high v)

end Sys2Proof.Machine
end

