-- ==== Sys2Proof/Machine/Flags.lean ====
section
/-! DEFINITION. The flags and conditions of the part: attention causes and line (R177), the job's
being open, LOAD_WANT with the counts behind it (R18, R19), the yellow condition (R123), and the
machine's being able to act (R170). -/

namespace Sys2Proof.Machine

/-! ## Attention (R177) -/

/-- Makes a sticky cause pending. -/
def State.raise (a : Attention) (s : State) : State :=
  { s with rl := { s.rl with sticky := s.rl.sticky ||| attentionBit a } }

/-- The pending set: the sticky causes, and LOAD_WANT exactly while its flag is set. -/
def State.pendingSet (s : State) : BitVec 16 :=
  if s.ds.loadWant then s.rl.sticky ||| attentionBit .loadWant else s.rl.sticky

/-- The attention line is driven low exactly when an enabled cause is pending; a part without supply
drives nothing. -/
def State.attentionLine (s : State) : Bool :=
  s.sm.powered && (s.pendingSet &&& s.rl.enable != 0)

/-! ## The job and the part as a whole -/

/-- A job is open (R60). -/
def State.jobOpen (s : State) : Bool := s.pc.state != .idle

/-- The segment count N of the open job. -/
def State.segmentCount (s : State) : Nat := s.pc.job.elim 0 (·.segments)

/-- The heads of the open job. -/
def State.jobHeads (s : State) : HeadSet := s.pc.job.elim 0 (·.heads)

/-- The part acts: it has supply, the reset line does not hold it, no reset waits (R170). -/
def State.operating (s : State) : Bool :=
  s.sm.powered && !s.sm.resetLine && !s.sm.resetWaits

/-! ## The counts of the Design Store (R5, R18) and LOAD_WANT (R19) -/

/-- The present record of a segment number. -/
def State.findSeg (s : State) (n : Nat) : Option SegRecord := s.ds.segs.find? (·.number == n)

def State.present (s : State) (n : Nat) : Bool := (s.findSeg n).isSome

/-- The start of the chain of work ahead (R5). -/
def State.chainStart (s : State) : Nat := s.ds.mark.elim 0 (· + 1)

/-- Stitches of the unbroken chain of READY records from `n` on, over at most `fuel` records. -/
def State.readyFrom (s : State) : (fuel n : Nat) → Nat
  | 0, _ => 0
  | fuel + 1, n =>
    match s.findSeg n with
    | some r => if r.state = .ready then r.count + s.readyFrom fuel (n + 1) else 0
    | none => 0

/-- The ready-ahead count (R18); 0 while no job is open (R176). -/
def State.readyAhead (s : State) : Nat := s.readyFrom s.ds.segs.length s.chainStart

/-- The lowest number from `n` on that is not present, over at most `fuel` records. -/
def State.nextAbsent (s : State) : (fuel n : Nat) → Nat
  | 0, n => n
  | fuel + 1, n => if s.present n then s.nextAbsent fuel (n + 1) else n

/-- The next wanted number (R5). -/
def State.nextWanted (s : State) : Nat := s.nextAbsent s.ds.segs.length s.chainStart

/-- What R19 makes of the LOAD_WANT flag. -/
def State.loadWantNow (s : State) : Bool :=
  if s.jobOpen then
    if s.readyAhead < s.par.loadLow ∧ 0 < s.ds.pool.length ∧ s.nextWanted < s.segmentCount then true
    else if s.par.loadHigh ≤ s.readyAhead ∨ s.ds.pool.length = 0 ∨ s.segmentCount ≤ s.nextWanted then
      false
    else s.ds.loadWant
  else false

/-- Evaluates the LOAD_WANT flag (R19). -/
def State.evalLoad (s : State) : State := { s with ds := { s.ds with loadWant := s.loadWantNow } }

/-! ## Heads -/

def State.head (s : State) (h : HeadId) : HeadRecord := s.hs.heads[h]
def State.sel (s : State) (h : HeadId) : SelectorHead := s.ts.heads[h]
def State.meter (s : State) (h : HeadId) : Meter := s.tm[h]
def State.faultHead (s : State) (h : HeadId) : FaultHead := s.fr.heads[h]

/-- The yellow condition (R123): a head is ACTIVE with colour YELLOW or RED. It is computed where it
is read, so it follows every change of a colour or a head state (DEDUCED, log 40). -/
def State.yellow (s : State) : Bool :=
  allHeads.any fun h => (s.head h).state == .active && (s.meter h).colour != .green

end Sys2Proof.Machine
end

