-- ==== Sys2Proof/Machine/Ops.lean ====
section
/-! DEFINITION. The named operations over the Stitch Memory, the per-head records and the response
slot, and the two shapes every meaning has: a request and an event. -/

namespace Sys2Proof.Machine

/-! ## The Stitch Memory (section 1.2 of the Design Store chapter, R2) -/

/-- What an entry that nothing has written reads as (DESIGN CHOICE, log 4). -/
def unwritten : Stitch := ⟨0, 0, .normal⟩

/-- The stitch of an entry. -/
def memRead : Memory → Nat → Stitch
  | [], _ => unwritten
  | (b, v) :: rest, a => if b = a then v else memRead rest a

/-- Stores a stitch in an entry, keeping the canonical form. -/
def memWrite : Memory → Nat → Stitch → Memory
  | [], a, v => if v = unwritten then [] else [(a, v)]
  | (b, w) :: rest, a, v =>
    if b < a then (b, w) :: memWrite rest a v
    else
      let tail := if b = a then rest else (b, w) :: rest
      if v = unwritten then tail else (a, v) :: tail

/-- The canonical form: addresses strictly rising, no entry that reads as an unlisted one. -/
def Memory.wf : Memory → Bool
  | [] => true
  | [(_, v)] => v != unwritten
  | (a, v) :: (b, w) :: rest => decide (a < b) && v != unwritten && Memory.wf ((b, w) :: rest)

/-- The entry that holds stitch i of a segment (R2). -/
def SegRecord.entry (r : SegRecord) (i : Nat) : Nat :=
  r.pages.getD (i / Config.pageSize) 0 * Config.pageSize + i % Config.pageSize

/-- Stored stitch i of a record (R2). -/
def State.storedStitch (s : State) (r : SegRecord) (i : Nat) : Stitch :=
  memRead s.ds.memory (r.entry i)

/-- The position before stitch k: the start plus the stored deltas of stitches 0..k−1 (R12). -/
def State.positionBefore (s : State) (r : SegRecord) : Nat → Pos
  | 0 => r.start
  | k + 1 =>
    let p := s.positionBefore r k
    let st := s.storedStitch r k
    ⟨p.x + st.dx, p.y + st.dy⟩

/-- A position lies in the frame field, the limits inclusive (R58). -/
def State.inField (s : State) (p : Pos) : Bool :=
  decide (s.par.fieldXLow ≤ p.x) && decide (p.x ≤ s.par.fieldXHigh) &&
  decide (s.par.fieldYLow ≤ p.y) && decide (p.y ≤ s.par.fieldYHigh)

/-! ## Per-head records -/

def State.setHead (s : State) (h : HeadId) (r : HeadRecord) : State :=
  { s with hs := { s.hs with heads := s.hs.heads.set h r } }

def State.setSel (s : State) (h : HeadId) (r : SelectorHead) : State :=
  { s with ts := { s.ts with heads := s.ts.heads.set h r } }

def State.setMeter (s : State) (h : HeadId) (m : Meter) : State := { s with tm := s.tm.set h m }

def State.setFaultHead (s : State) (h : HeadId) (f : FaultHead) : State :=
  { s with fr := { s.fr with heads := s.fr.heads.set h f } }

/-- Gives a head another state. -/
def State.setHeadState (s : State) (h : HeadId) (st : HeadState) : State :=
  s.setHead h { s.head h with state := st }

/-- Does something for every head that passes a test, in head order. -/
def State.forHeads (p : HeadId → Bool) (f : HeadId → State → State) (s : State) : State :=
  allHeads.foldl (fun s h => if p h then f h s else s) s

/-- The head is polled: it is not EXCLUDED (R100). -/
def State.polled (s : State) (h : HeadId) : Bool := (s.head h).state != .excluded

/-- The head is OFF or BENCHED. -/
def State.isOut (s : State) (h : HeadId) : Bool :=
  (s.head h).state == .off || (s.head h).state == .benched

/-- The head is out of the work or waits to come back: OFF, BENCHED or REJOIN_WAIT (R152, R153). -/
def State.absentee (s : State) (h : HeadId) : Bool :=
  s.isOut h || (s.head h).state == .rejoinWait

/-! ## The response slot and the shape of the meanings -/

/-- Places a response in the slot, which becomes READY (R172), whatever the slot held (DESIGN CHOICE,
log 10). -/
def State.answer (r : Response) (s : State) : State := { s with rl := { s.rl with slot := .ready r } }

/-- A REFUSED response changes nothing but the slot (R174). -/
def State.refuse (why : Reason) (s : State) : State := s.answer ⟨.refused, why, []⟩

def State.done (payload : List Byte) (s : State) : State := s.answer ⟨.done, .none, payload⟩
def State.accepted (s : State) : State := s.answer ⟨.accepted, .none, []⟩

/-- DONE, or CLAMPED where a value was stored at the end of its range. -/
def State.stored (clamped : Bool) (s : State) : State :=
  s.answer ⟨if clamped then .clamped else .done, .none, []⟩

def State.badRequest (s : State) : State := s.answer ⟨.badRequest, .none, []⟩

/-- The first reason that applies, in the order listed (R174). -/
def firstReason : List (Bool × Reason) → Option Reason
  | [] => none
  | (applies, why) :: rest => if applies then some why else firstReason rest

/-- A request that is refused for the first reason that applies, and carried out otherwise. -/
def State.unless (s : State) (reasons : List (Bool × Reason)) (carryOut : State → State) : State :=
  match firstReason reasons with
  | some why => s.refuse why
  | none => carryOut s

/-- The outcome of a command that a part which does not act leaves without effect (DEDUCED, log 2). -/
def whenOperating (s : State) (f : State → State) : Host.Outcome State Fault Refusal :=
  .next (if s.operating then f s else s)

end Sys2Proof.Machine
end

