-- ==== Sys2Proof/Machine/DesignStore.lean ====
section
/-! DEFINITION. The Design Store's own operations (chapter 1): the records, the pool, service, the
take, the mark-sewn request, pins. -/

namespace Sys2Proof.Machine

/-- Replaces the record of the same slot. -/
def State.putSeg (s : State) (r : SegRecord) : State :=
  { s with ds := { s.ds with segs := s.ds.segs.map fun q => if q.slot = r.slot then r else q } }

/-- Puts a record among the others by its slot. -/
def insertSeg (r : SegRecord) : List SegRecord → List SegRecord
  | [] => [r]
  | q :: rest => if q.slot < r.slot then q :: insertSeg r rest else r :: q :: rest

/-- The lowest slot, from `slot` on, that no record of the list (by rising slot) holds. -/
def lowestFreeSlot : List Nat → (slot : Nat) → Nat
  | [], slot => slot
  | q :: rest, slot => if q = slot then lowestFreeSlot rest (slot + 1) else slot

/-- Frees a record: its slot, its number and its pages (R3, R4, R16); R19 is evaluated again. -/
def State.freeSeg (s : State) (r : SegRecord) : State :=
  { s with ds := { s.ds with
      segs := s.ds.segs.filter (·.slot != r.slot)
      pool := s.ds.pool ++ r.pages } }.evalLoad

/-- Frees the record of a number when it is SEWN, unpinned and not being served (R14, R15, R16). -/
def State.freeIfDone (s : State) (n : Nat) : State :=
  match s.findSeg n with
  | some r => if r.state = .sewn ∧ r.pins = 0 ∧ s.ds.served ≠ some n then s.freeSeg r else s
  | none => s

/-- The pin request (R16). -/
def State.pin (s : State) (n : Nat) : State :=
  match s.findSeg n with
  | some r => s.putSeg { r with pins := r.pins + 1 }
  | none => s

/-- The release request (R16). -/
def State.release (s : State) (n : Nat) : State :=
  match s.findSeg n with
  | some r => (s.putSeg { r with pins := r.pins - 1 }).freeIfDone n
  | none => s

/-- Opens service on a segment (R14). -/
def State.openService (s : State) (n : Nat) : State := { s with ds := { s.ds with served := some n } }

/-- Ends service, freeing a SEWN segment no record pins (R14). -/
def State.endService (s : State) : State :=
  match s.ds.served with
  | some n => ({ s with ds := { s.ds with served := none } }).freeIfDone n
  | none => s

/-- The number the next take names: mark + 1, or 0 (R64). -/
def State.awaited (s : State) : Nat := s.chainStart

/-- The take request (R13): nothing when the segment is not ready. -/
def State.takeSegment (s : State) (n : Nat) : Option State :=
  match s.findSeg n with
  | some r =>
    if r.state = .ready then
      let s := s.putSeg { r with state := .active }
      some { s with ds := { s.ds with mark := some n, markThread := r.thread } }.evalLoad
    else none
  | none => none

/-- The ACTIVE record (R1). -/
def State.activeSeg (s : State) : Option SegRecord := s.ds.segs.find? (·.state == .active)

/-- The mark-sewn request (R15). -/
def State.markSewn (s : State) : State :=
  match s.activeSeg with
  | some r => (s.putSeg { r with state := .sewn }).freeIfDone r.number
  | none => s

/-- The pinned pages (R17). -/
def State.pinnedPages (s : State) : Nat :=
  (s.ds.segs.map fun r => if r.state = .sewn ∧ 0 < r.pins then r.pages.length else 0).sum

/-- Every record FREE and every page in the pool (R21, R22). -/
def State.freeAll (s : State) : State :=
  { s with ds := { s.ds with
      segs := []
      pool := s.ds.pool ++ s.ds.segs.flatMap (·.pages)
      mark := none
      markThread := 0
      loadWant := false
      served := none } }

end Sys2Proof.Machine
end

