-- ==== Sys2Proof/Machine/Editor.lean ====
section
/-! DEFINITION. The move times and the geometric cap the editor asks the Motion Planner for (R37,
R40), and the Stitch Stream Editor (chapter 2): the stages of the stream, one issued stitch for each
request, and the travel plan. -/

namespace Sys2Proof.Machine

/-! ## Move times and the geometric cap -/

/-- Td of a Move-Time Table (R37); a distance no entry gives has a free time (DESIGN CHOICE, log 5). -/
def tableTime (table : List Nat) (d : Nat) : Nat :=
  if d < 128 then table.getD d 0 else Config.timeBeyondTable d

def State.timeX (s : State) (dx : Int) : Nat := tableTime s.mp.tableX dx.natAbs
def State.timeY (s : State) (dy : Int) : Nat := tableTime s.mp.tableY dy.natAbs

/-- The geometric cap of a delta (R40). -/
def State.geometricCap (s : State) (dx dy : Int) : Nat :=
  let t := max (s.timeX dx) (s.timeY dy)
  if 0 < t then s.par.windowDeg * 500000 / (3 * t) else s.par.sMax

/-- Every entry is no greater than the one after it. -/
def nonDecreasing : List Nat → Bool
  | a :: b :: rest => decide (a ≤ b) && nonDecreasing (b :: rest)
  | _ => true

/-- The validity check of the Move-Time Tables (R39). -/
def State.tablesValid (s : State) : Bool :=
  nonDecreasing s.mp.tableX && nonDecreasing s.mp.tableY && decide (s.par.sMin ≤ s.geometricCap 16 16)

/-! ## The overlong split (R28) -/

/-- Part k of n of a stitch. -/
def Issued.partOf (st : Issued) (n k : Nat) : Issued :=
  { st with dx := partitionPart st.dx n k, dy := partitionPart st.dy n k, part := some (k, n) }

/-- The n parts of a stitch. -/
def Issued.parts (st : Issued) (n : Nat) : List Issued :=
  (List.range n).map fun i => st.partOf n (i + 1)

/-- Every part of the cut into n has a geometric cap of S_MIN or more. -/
def State.partsFit (s : State) (st : Issued) (n : Nat) : Bool :=
  (st.parts n).all fun p => decide (s.par.sMin ≤ s.geometricCap p.dx p.dy)

/-- The smallest number of parts in n..8 that fits, 8 when none of them does. -/
def State.splitCount (s : State) (st : Issued) : (fuel n : Nat) → Nat
  | 0, n => n
  | fuel + 1, n => if s.partsFit st n then n else s.splitCount st fuel (n + 1)

/-- The overlong split (R28): the stitch itself, or its parts. -/
def State.split (s : State) (st : Issued) : List Issued :=
  if s.par.sMin ≤ s.geometricCap st.dx st.dy then [st] else st.parts (s.splitCount st 6 2)

/-! ## Ties (R29 to R31) -/

/-- A NORMAL stitch that is no point. -/
def Stitch.directs (st : Stitch) : Bool := st.kind == .normal && chebyshev st.dx st.dy != 0

/-- The direction of a tie-in: the first directing stitch of `n` indices from i up to the next stop
marker; a repair pass passes PAUSE stitches over (R25, R29). -/
def State.firstDirection (s : State) (r : SegRecord) (kind : PassKind) : (n i : Nat) → Option Stitch
  | 0, _ => none
  | n + 1, i =>
    let st := s.storedStitch r i
    match st.kind with
    | .trim => none
    | .pause => if kind = .main then none else s.firstDirection r kind n (i + 1)
    | _ => if st.directs then some st else s.firstDirection r kind n (i + 1)

/-- The direction of a tie-off: the last directing stitch below index `from_ + n`, searched back to
`from_` (R30). -/
def State.lastDirection (s : State) (r : SegRecord) (from_ : Nat) : (n : Nat) → Option Stitch
  | 0 => none
  | n + 1 =>
    let st := s.storedStitch r (from_ + n)
    if st.directs then some st else s.lastDirection r from_ n

/-- The tie vector along a stitch (R29). -/
def State.tieVector (s : State) (st : Stitch) : Int × Int :=
  let m := chebyshev st.dx st.dy
  (roundDiv (s.par.tieLength * st.dx) m, roundDiv (s.par.tieLength * st.dy) m)

/-- One stitch of a tie. -/
def tieStitch (mark : TieMark) (dx dy : Int) (anchor : Option Nat) : Issued :=
  { dx := dx, dy := dy, jump := false, tie := mark, index := none, lowest := none
    anchor := anchor, part := none }

/-- The tie-in before the stitch whose lowest covered index is `lowest`: both stitches, each through
the split, or nothing where no tie is made (R29, R31). -/
def State.tieIn (s : State) (r : SegRecord) (c : IssueContext) (lowest : Nat) : List Issued :=
  if r.tieIn && decide (0 < s.par.tieLength) then
    match s.firstDirection r c.kind (c.last + 1 - lowest) lowest with
    | none => []
    | some st =>
      let u := s.tieVector st
      let p := s.positionBefore r lowest
      if s.inField ⟨p.x + u.1, p.y + u.2⟩ then
        s.split (tieStitch .tieIn u.1 u.2 (some lowest)) ++
          s.split (tieStitch .tieIn (-u.1) (-u.2) (some lowest))
      else []
  else []

/-- The tie-off before a marker that stands before stored index `bound` (R30, R31); the stretch of a
repair pass is the whole pass (DEDUCED, log 41). -/
def State.tieOff (s : State) (r : SegRecord) (c : IssueContext) (bound : Nat) : List Issued :=
  if r.tieOff && decide (0 < s.par.tieLength) then
    match s.lastDirection r c.stretch (bound - c.stretch) with
    | none => []
    | some st =>
      let v := s.tieVector st
      let q := s.positionBefore r bound
      if s.inField ⟨q.x - v.1, q.y - v.2⟩ then
        s.split (tieStitch .tieOff (-v.1) (-v.2) c.lastIndex) ++
          s.split (tieStitch .tieOff v.1 v.2 c.lastIndex)
      else []
  else []

/-! ## The merge (R26, R27) -/

/-- The stitch or sum (dx, dy) whose last index is i becomes the carry. -/
def State.carries (s : State) (r : SegRecord) (c : IssueContext) (i : Nat) (dx dy : Int) : Bool :=
  let next := s.storedStitch r (i + 1)
  c.kind == .main && decide (chebyshev dx dy < s.par.minStitch) && decide (i < c.last) &&
  next.kind == .normal && decide ((dx + next.dx).natAbs ≤ 127) && decide ((dy + next.dy).natAbs ≤ 127) &&
  c.barrier != some (i + 1)

/-! ## The issue (R24, R25) -/

/-- What the editor answers to a request for the next issued stitch. -/
inductive Answer where
  | stitch (st : Issued)
  | marker (m : Marker)
  | nothing
  deriving DecidableEq, Repr

/-- The frontier after the PAUSE indices a repair pass has passed over (R32). -/
def skipPauses (frontier : Nat) (pauses : List Nat) : Nat :=
  pauses.foldl (fun f p => if p = f then f + 1 else f) frontier

/-- The context after a stretch of covered indices up to i has been put into the stream. -/
def IssueContext.streamed (c : IssueContext) (i : Nat) (waiting : List Issued) : IssueContext :=
  { c with readIndex := i + 1, carry := none, waiting := waiting, lastIndex := some i }

/-- One request to the editor: the answer and the context it leaves. `fuel` bounds the stored
stitches and tie points passed before something is issued. -/
def State.issueFrom (s : State) (r : SegRecord) : (fuel : Nat) → IssueContext → Answer × IssueContext
  | 0, c => (.nothing, c)
  | fuel + 1, c =>
    match c.waiting with
    | st :: rest => (.stitch st, { c with waiting := rest })
    | [] =>
      if c.held.isSome then (.nothing, c)
      else
        let i := c.readIndex
        if c.last < i then
          if c.tieOffDue then
            s.issueFrom r fuel { c with tieOffDue := false, waiting := s.tieOff r c (c.last + 1) }
          else (.marker .endOfPass, { c with held := some .endOfPass })
        else
          let st := s.storedStitch r i
          match st.kind with
          | .trim =>
            if c.kind = .main ∧ c.tieOffDue then
              s.issueFrom r fuel { c with tieOffDue := false, waiting := s.tieOff r c i }
            else (.marker (.trim i), { c with held := some (.trim i), readIndex := i + 1 })
          | .pause =>
            if c.kind = .main then
              (.marker (.pause i), { c with held := some (.pause i), readIndex := i + 1 })
            else
              let pauses := c.passedPauses ++ [i]
              s.issueFrom r fuel
                { c with readIndex := i + 1, passedPauses := pauses
                         frontier := skipPauses c.frontier pauses }
          | .jump =>
            let out : Issued :=
              { dx := st.dx, dy := st.dy, jump := true, tie := .none, index := some i, lowest := some i
                anchor := none, part := none }
            s.issueFrom r fuel (c.streamed i (s.split out))
          | .normal =>
            let dx := st.dx + c.carry.elim 0 (·.dx)
            let dy := st.dy + c.carry.elim 0 (·.dy)
            let lowest := c.carry.elim i (·.lowest)
            if s.carries r c i dx dy then
              s.issueFrom r fuel { c with readIndex := i + 1, carry := some ⟨dx, dy, lowest⟩ }
            else
              let out : Issued :=
                { dx := dx, dy := dy, jump := false, tie := .none, index := some i, lowest := some lowest
                  anchor := none, part := none }
              let tie := if c.tieInPending then s.tieIn r c lowest else []
              s.issueFrom r fuel { c.streamed i (tie ++ s.split out) with tieInPending := false }

/-- Puts an issue context in the place of the one that is open (R23). -/
def State.setContext (s : State) (c : IssueContext) : State :=
  { s with se := { s.se with context := some c } }

/-- One request of the Motion Planner to the editor (R24). -/
def State.issue (s : State) : Answer × State :=
  match s.se.context with
  | none => (.nothing, s)
  | some c =>
    match s.findSeg c.segment with
    | none => (.nothing, s)
    | some r =>
      let (a, c) := s.issueFrom r (c.last + 4 - c.readIndex) c
      (a, s.setContext c)

/-- The begin-issue request (R23). -/
def State.beginIssue (s : State) (g first last : Nat) (kind : PassKind) (tieIn : Bool)
    (barrier : Option Nat) : State :=
  s.setContext
    { segment := g, first := first, last := last, kind := kind, barrier := barrier
      readIndex := first, carry := none, waiting := [], tieInPending := tieIn, tieOffDue := true
      held := none, stretch := first, lastIndex := none, frontier := first, passedPauses := [] }

/-- The end-issue request (R34). -/
def State.endIssue (s : State) : State := { s with se := { s.se with context := none } }

/-- The continue request (R25): releases a held TRIM stop; in the main pass a tie-in is pending then
and a new stretch begins (R29, R30). -/
def State.continueIssue (s : State) : State :=
  match s.se.context with
  | some c =>
    match c.held with
    | some (.trim i) =>
      let c := { c with held := none }
      let c := if c.kind = .main then
          { c with tieInPending := true, tieOffDue := true, stretch := i + 1, lastIndex := none }
        else c
      s.setContext c
    | _ => s
  | none => s

/-- The sewn frontier of the open context (R32). -/
def State.frontier (s : State) : Nat := s.se.context.elim 0 (·.frontier)

/-- Every index up to i counts as sewn (R32). -/
def State.sewnThrough (s : State) (i : Nat) : State :=
  match s.se.context with
  | some c =>
    s.setContext { c with frontier := skipPauses (max c.frontier (i + 1)) c.passedPauses }
  | none => s

/-! ## Travel (R33) -/

/-- The steps of a travel plan over a displacement, of J units or less (R33). -/
def travelSteps (d : Pos) (j : Nat) : List Pos :=
  let n := max (max (ceilDiv d.x.natAbs j) (ceilDiv d.y.natAbs j)) 1
  (List.range n).map fun i => ⟨partitionPart d.x n (i + 1), partitionPart d.y n (i + 1)⟩

/-- The travel request to a target: the editor forms its plan from the commanded position (R33). -/
def State.planTravel (s : State) (target : Pos) : State :=
  let away : Pos := ⟨target.x - s.mp.position.x, target.y - s.mp.position.y⟩
  { s with se := { s.se with plan := some (travelSteps away s.par.travelStep) } }

/-- The abandon request (R34). -/
def State.abandonTravel (s : State) : State := { s with se := { s.se with plan := none } }

end Sys2Proof.Machine
end

