-- ==== Sys2Proof/Machine/RepairTable.lean ====
section
/-! DEFINITION. The Repair Table's own operations (chapter 9). -/

namespace Sys2Proof.Machine

/-- Replaces the record of the same slot. -/
def State.putRecord (s : State) (r : RepairRecord) : State :=
  { s with rt := { s.rt with records := s.rt.records.map fun q => if q.slot = r.slot then r else q } }

def insertRecord (r : RepairRecord) : List RepairRecord → List RepairRecord
  | [] => [r]
  | q :: rest => if q.slot < r.slot then q :: insertRecord r rest else r :: q :: rest

/-- Retires a record: its slot is free and its pin released (R149). -/
def State.retire (s : State) (r : RepairRecord) : State :=
  ({ s with rt := { s.rt with records := s.rt.records.filter (·.slot != r.slot) } }).release r.segment

/-- Retires the records of a list, in its order. -/
def State.retireAll (s : State) (rs : List RepairRecord) : State := rs.foldl State.retire s

/-- The OPEN record of a head in a segment. -/
def State.openRecord (s : State) (h : HeadId) (g : Nat) : Option RepairRecord :=
  s.rt.records.find? fun r => r.head == h && r.segment == g && r.state == .opened

/-- The records an open request for head h, segment g and first index f merges (R150). -/
def mergedBy (h : HeadId) (g f : Nat) (r : RepairRecord) : Bool :=
  r.head == h && r.segment == g &&
    match r.state with
    | .opened => true
    | .closed => r.last.elim false fun l => f ≤ l + 1
    | .active => false

/-- The record of a list with the least first index. -/
def leastFirst : List RepairRecord → Option RepairRecord
  | [] => none
  | r :: rest =>
    match leastFirst rest with
    | none => some r
    | some q => if q.first < r.first then some q else some r

/-- Creates an OPEN record in the lowest free slot, with its pin; nothing when no slot is free
(R148, R149, R151). -/
def State.createRecord (s : State) (h : HeadId) (g f : Nat) (cause : RepairCause) : Option State :=
  let slot := lowestFreeSlot (s.rt.records.map (·.slot)) 0
  if slot < Config.repairSlots then
    let r : RepairRecord :=
      { slot := slot, head := h, segment := g, first := f, last := none
        thread := (s.findSeg g).elim 0 (·.thread), cause := cause, state := .opened, through := none }
    some (({ s with rt := { s.rt with records := insertRecord r s.rt.records } }).pin g)
  else none

/-- The first index a range of segment g may begin at (R148): a request from past the segment's last
stitch begins at that stitch (DEDUCED, log 21). -/
def State.firstIndex (s : State) (g f : Nat) : Nat := (s.findSeg g).elim f fun r => min f (r.count - 1)

/-- The open request (R150) from a first index that lies in the segment; where f is the first index of
a merged record already, that record's cause stays (DESIGN CHOICE, log 28). -/
def State.openAt (s : State) (h : HeadId) (g f : Nat) (cause : RepairCause) : Option State :=
  let merged := s.rt.records.filter (mergedBy h g f)
  match leastFirst merged with
  | none => s.createRecord h g f cause
  | some least =>
    let kept := (merged.find? (·.state == .opened)).getD least
    let s := s.putRecord { kept with
      first := min f least.first
      last := none
      cause := if f < least.first then cause else least.cause
      state := .opened
      through := none }
    some (s.retireAll (merged.filter (·.slot != kept.slot)))

/-- A segment that a record may name: present as ACTIVE or SEWN (R16). -/
def State.recordable (s : State) (g : Nat) : Bool :=
  (s.findSeg g).elim false fun r => r.state == .active || r.state == .sewn

/-- The open request (R150): nothing stands for the answer REPAIR_FULL (R151). Records are created only
against the segment being sewn or one already sewn (R16); a request for another number, which no run
makes, makes no record (DESIGN CHOICE, log 42). -/
def State.openRequest (s : State) (h : HeadId) (g f : Nat) (cause : RepairCause) : Option State :=
  if s.recordable g then s.openAt h g (s.firstIndex g f) cause else some s

/-- Closes an OPEN record below index `bound`, its last index becoming bound − 1; retires it when
that leaves its range empty (R154). -/
def State.closeBelow (s : State) (r : RepairRecord) (bound : Nat) : State :=
  if r.first < bound then s.putRecord { r with last := some (bound - 1), state := .closed }
  else s.retire r

/-- Closes every OPEN record of a segment of `count` stitches at count − 1 (R155). -/
def State.closeSegmentRecords (s : State) (g count : Nat) : State :=
  { s with rt := { s.rt with records := s.rt.records.map fun r =>
      if r.segment = g ∧ r.state = .opened then { r with last := some (count - 1), state := .closed }
      else r } }

/-- Open requests for the heads of a list from index f with cause CARRY, for those that hold no OPEN
record in g; nothing stands for REPAIR_FULL, with the state it leaves and the head (R151 to R153). The
first such answer ends the requests (DEDUCED, log 53). -/
def State.carryFor (g f : Nat) : List HeadId → State → State × Option HeadId
  | [], s => (s, none)
  | h :: rest, s =>
    if s.absentee h && inSet s.jobHeads h && (s.openRecord h g).isNone then
      match s.openRequest h g f .carry with
      | some s => State.carryFor g f rest s
      | none => (s, some h)
    else State.carryFor g f rest s

/-- A needle entry is fit for a thread (R84). -/
def NeedleEntry.fit (e : NeedleEntry) (thread : Nat) : Bool := !e.disabled && e.code == thread

/-- The lowest-numbered needle of a head that is fit for a thread (R89). -/
def State.fitNeedle (s : State) (h : HeadId) (thread : Nat) : Option NeedleId :=
  allNeedles.find? fun n => ((s.sel h).needles[n]).fit thread

/-- A record is eligible (R156). -/
def State.eligible (s : State) (r : RepairRecord) : Bool :=
  r.state == .closed &&
  ((s.head r.head).state == .active || (s.head r.head).state == .rejoinWait) &&
  (s.fitNeedle r.head r.thread).isSome

/-- The selection of a point of the round (R157); `mark` is the segment that has just ended. -/
def State.selected (s : State) (p : RepairPoint) (r : RepairRecord) : Bool :=
  match p with
  | .segmentEnd =>
    match s.pc.job, s.ds.mark with
    | some j, some m =>
      j.repairWhen == .segmentEnd && decide (r.segment ≤ m) && r.thread == s.ds.markThread
    | _, _ => false
  | .jobEnd => s.pc.job.elim false (·.repairWhen != .onRequest)
  | .forced => true
  | .run => true

/-- The lowest segment above the round mark with an eligible record of the selection (R157). -/
def State.scheduled (s : State) (p : RepairPoint) : Option Nat :=
  (s.rt.records.filter fun r =>
      s.eligible r && s.selected p r && s.rt.roundMark.elim true fun m => decide (m < r.segment)).foldl
    (fun acc r => some (acc.elim r.segment (min r.segment))) none

/-- Forms the repair pass of segment g (R158): the eligible records of the selection become ACTIVE,
the round mark becomes g, the retired-in-pass flag is cleared. -/
def State.formPass (s : State) (p : RepairPoint) (g : Nat) : State :=
  let chosen := fun r : RepairRecord => r.segment == g && s.eligible r && s.selected p r
  let mine := s.rt.records.filter chosen
  { s with rt := { s.rt with
      records := s.rt.records.map fun r =>
        if chosen r then { r with state := .active, through := some ((r.first : Int) - 1) } else r
      roundMark := some g
      retiredInPass := false
      pass := some
        { segment := g
          first := mine.foldl (fun a r => min a r.first) ((mine.head?.elim 0 (·.first)))
          last := mine.foldl (fun a r => max a (r.last.getD 0)) 0
          involved := headSetOf fun h => mine.any (·.head == h) } } }

/-- The heads involved in the repair pass (R158). -/
def State.involved (s : State) : HeadSet := s.rt.pass.elim 0 (·.involved)

/-- The ranges of a head's records being repaired (R109). -/
def State.rangesOf (s : State) (h : HeadId) : List (Nat × Nat) :=
  (s.rt.records.filter fun r => r.head == h && r.state == .active).map fun r => (r.first, r.last.getD r.first)

/-- One index of a pass done for a head: each ACTIVE record of the head whose next index it is
advances, and is retired at its last index (R159). -/
def State.advanceRecords (h : HeadId) (i : Nat) (s : State) : State :=
  (s.rt.records.filter fun r =>
      r.head == h && r.state == .active && r.through == some ((i : Int) - 1)).foldl
    (fun s r =>
      if r.last = some i then
        let s := s.retire r
        { s with rt := { s.rt with retiredInPass := true } }
      else s.putRecord { r with through := some (i : Int) }) s

/-- The sewn frontier passes index i of the repaired segment: a stored JUMP, TRIM or PAUSE there is
done for the records of the ACTIVE heads (R159). -/
def State.passIndex (s : State) (g i : Nat) : State :=
  match s.findSeg g with
  | some r =>
    if (s.storedStitch r i).kind = .normal then s
    else s.forHeads (fun h => (s.head h).state == .active) (fun h => State.advanceRecords h i)
  | none => s

/-- The frontier passes the indices from `i` on, `n` of them. -/
def State.passIndices (g : Nat) : (n i : Nat) → State → State
  | 0, _, s => s
  | n + 1, i, s => State.passIndices g n (i + 1) (s.passIndex g i)

/-- Truncates the ACTIVE records of a head (R160): first index at least d − b, back to CLOSED, or
retired when that leaves nothing, which is a retirement in the pass (DEDUCED, log 27). -/
def State.truncate (h : HeadId) (from_ : Nat) (s : State) : State :=
  (s.rt.records.filter fun r => r.head == h && r.state == .active).foldl
    (fun s r =>
      let first := max r.first from_
      if first ≤ r.last.getD first then
        s.putRecord { r with first := first, state := .closed, through := none }
      else
        let s := s.retire r
        { s with rt := { s.rt with retiredInPass := true } }) s

/-- A record as a pass end leaves it: back to CLOSED, its first index one above its repaired through
when that lies at or above the first index (R161). -/
def RepairRecord.settled (r : RepairRecord) : RepairRecord :=
  if r.state = .active then
    { r with
      first := if (r.first : Int) ≤ r.through.getD (-1) then (r.through.getD (-1) + 1).toNat else r.first
      state := .closed
      through := none }
  else r

/-- The records of a pass settle, and the pass is over (R161, R165). -/
def State.settleRecords (s : State) : State :=
  { s with rt := { s.rt with
      records := s.rt.records.map RepairRecord.settled
      retiredInPass := false
      pass := none } }

/-- The end of a repair pass (R161), with REPAIR_DONE where a record was retired and others remain;
the heads' repair ranges are emptied (R109). -/
def State.endRepairPass (s : State) : State :=
  let announce := s.rt.retiredInPass && !s.rt.records.isEmpty
  let s := s.settleRecords
  let s := s.forHeads (fun _ => true) fun h s => s.setHead h { s.head h with ranges := [] }
  if announce then s.raise .repairDone else s

/-- Retires every record of a head (R164). -/
def State.retireHead (s : State) (h : HeadId) : State :=
  s.retireAll (s.rt.records.filter (·.head == h))

end Sys2Proof.Machine
end

