-- ==== Sys2Proof/Machine/Planner.lean ====
section
/-! DEFINITION. The Motion Planner's own operations (chapter 3): caps, the look-ahead window, the
plan of a stitch, the moves and their pulses, the returns to rest. -/

namespace Sys2Proof.Machine

/-! ## Caps and ceilings (R41, R42) -/

/-- The static cap of an issued stitch (R41). -/
def State.staticCap (s : State) (st : Issued) : Nat :=
  let cap := min (s.geometricCap st.dx st.dy) s.par.sMax
  let cap := if st.jump then min cap s.par.jumpCap else cap
  if s.mp.passKind = .repair then min cap s.par.repairCap else cap

/-- The live ceiling E (R42). -/
def State.liveCeiling (s : State) : Nat :=
  let e := s.mp.policyCeiling.elim s.par.sMax (min s.par.sMax)
  let e := if s.yellow then min e s.par.yellowCap else e
  let e := if s.mp.stopCeiling then min e s.par.sMin else e
  max e s.par.sMin

/-! ## The look-ahead window (R43) -/

/-- Lowers the static cap of the last stitch of the window (R41). -/
def lowerLast (sMin : Nat) : List Planned → List Planned
  | [] => []
  | [w] => [{ w with cap := sMin }]
  | w :: rest => w :: lowerLast sMin rest

/-- Fills the window from the editor, by at most `fuel` requests (R43). -/
def State.fillWindow : (fuel : Nat) → State → State
  | 0, s => s
  | fuel + 1, s =>
    if s.mp.marker.isSome || decide (Config.windowSize ≤ s.mp.window.length) then s
    else
      match s.issue with
      | (.nothing, s) => s
      | (.marker m, s) =>
        { s with mp := { s.mp with marker := some m, window := lowerLast s.par.sMin s.mp.window } }
      | (.stitch st, s) =>
        State.fillWindow fuel
          { s with mp := { s.mp with window := s.mp.window ++ [⟨st, s.staticCap st⟩] } }

/-- Fills the window, and lets the repair records follow the PAUSE indices that a repair pass passes
over as they are read (R32, R43, R159). -/
def State.refill (s : State) : State :=
  let before := s.frontier
  let s := s.fillWindow (Config.windowSize + 1)
  match s.se.context with
  | some c =>
    if c.kind = .repair then State.passIndices c.segment (s.frontier - before) before s else s
  | none => s

/-! ## The plan of a stitch (R44, R45) -/

/-- The backward pass: b(1) of a window (R44). -/
def backwardPass (sMin accelDown : Nat) (window : List Planned) : Nat :=
  window.foldr (fun w b => min w.cap (b + accelDown)) sMin

/-- The forward step (R45): the planned speed of the first stitch of the window. -/
def State.plannedSpeed (s : State) : Nat :=
  match s.mp.prevSpeed with
  | none => s.par.sMin
  | some p =>
    min (min (backwardPass s.par.sMin s.par.accelDown s.mp.window) (p + s.par.accelUp))
      (max s.liveCeiling (p - s.par.accelDown))

/-! ## Moves (R48, R53, R54) -/

/-- The move of a delta: delta × AXIS_SCALE pulses on each axis, over the table times (R48). -/
def State.moveOf (s : State) (kind : MoveKind) (dx dy : Int) : Move where
  kind := kind
  dx := dx
  dy := dy
  pulsesX := dx.natAbs * s.par.axisScaleX
  pulsesY := dy.natAbs * s.par.axisScaleY
  signX := dx.sign
  signY := dy.sign
  timeX := s.timeX dx
  timeY := s.timeY dy
  elapsed := 0

/-- The retraction of an unfinished move: its pulses the other way, over the table time of
ceil(pulses / AXIS_SCALE) units of each axis (R54). -/
def State.retractionOf (s : State) (u : Int × Int) : Move where
  kind := .retraction
  dx := 0
  dy := 0
  pulsesX := u.1.natAbs
  pulsesY := u.2.natAbs
  signX := -u.1.sign
  signY := -u.2.sign
  timeX := tableTime s.mp.tableX (ceilDiv u.1.natAbs s.par.axisScaleX)
  timeY := tableTime s.mp.tableY (ceilDiv u.2.natAbs s.par.axisScaleY)
  elapsed := 0

/-- The time of the last pulse of a move on either axis (R49): the time of an axis that has no pulse does not count,
though R48 and R53 put a move's end at the greater of both table times, which differ where T0 was written above 0
(DESIGN CHOICE, log 59). -/
def Move.duration (m : Move) : Nat :=
  max (if m.pulsesX = 0 then 0 else m.timeX) (if m.pulsesY = 0 then 0 else m.timeY)

/-- Pulses of n, spread evenly over t µs, that have been issued after e µs (R48). -/
def pulsesIssued (n t e : Nat) : Nat := if t = 0 then n else min n (e * n / t)

/-- The pulses a move has issued on each axis, signed by direction. -/
def Move.issued (m : Move) : Int × Int :=
  (m.signX * pulsesIssued m.pulsesX m.timeX m.elapsed, m.signY * pulsesIssued m.pulsesY m.timeY m.elapsed)

/-- One µs passes; the last pulse is issued by the move completion alone (DESIGN CHOICE, log 1). -/
def Move.tick (m : Move) : Move := { m with elapsed := min (m.elapsed + 1) (m.duration - 1) }

/-- Begins a move: the direction outputs are set and its pulses begin (R48). The sign of an axis that does
not move is 0, which stands for neither level of its output (DESIGN CHOICE, log 43). -/
def State.beginMove (s : State) (m : Move) : State :=
  { s with mp := { s.mp with
      move := some m
      dirX := m.signX
      dirY := m.signY } }

/-! ## Rest (R46, R54) -/

/-- The entry to AT_REST: stop ceiling cleared, window emptied, p_prev forgotten (R46). -/
def State.toRest (s : State) : State :=
  { s with mp := { s.mp with
      mode := .atRest
      spindle := 0
      window := []
      marker := none
      prevSpeed := none
      stopCeiling := false
      stopEnd := false } }

/-- The unfinished move that a stop leaves (R54): the pulses issued of a stitch or step when not all
were; of a retraction, the original pulses less those taken back. -/
def State.unfinishedAfterStop (s : State) : Option (Int × Int) :=
  match s.mp.move with
  | none => s.mp.unfinished
  | some m =>
    let owed : Int × Int :=
      match m.kind with
      | .retraction =>
        let u := s.mp.unfinished.getD (0, 0)
        (u.1 + m.issued.1, u.2 + m.issued.2)
      | _ => m.issued
    if owed = (0, 0) then none else some owed

/-- The immediate stop (R54). -/
def State.immediateStop (s : State) : State :=
  let owed := s.unfinishedAfterStop
  let s := s.toRest.abandonTravel
  { s with mp := { s.mp with move := none, unfinished := owed } }

/-- Lowers the policy ceiling (R42, R145). -/
def State.lowerPolicy (cap : Nat) (s : State) : State :=
  { s with mp := { s.mp with policyCeiling := some (s.mp.policyCeiling.elim cap (min cap)) } }

/-- Removes the policy ceiling (R42). -/
def State.clearPolicy (s : State) : State := { s with mp := { s.mp with policyCeiling := none } }

/-- Sets the stop ceiling (R42, R75). -/
def State.setStopCeiling (s : State) : State := { s with mp := { s.mp with stopCeiling := true } }

/-- An angle lies in the move window (R47), by the WINDOW_DEG that stands, also before the next begin-pass or travel
request (DESIGN CHOICE, log 61). -/
def State.angleInWindow (s : State) (angle : Nat) : Bool :=
  decide (360 - s.par.windowDeg / 2 ≤ angle) || decide (angle ≤ s.par.windowDeg / 2)

end Sys2Proof.Machine
end

