-- ==== Sys2Proof/Machine/Selector.lean ====
section
/-! DEFINITION. The Thread Selector's own operations (chapter 5): the Needle Map, unthreaded-head
sets, shifts and trims as orders to the head link. -/

namespace Sys2Proof.Machine

/-! ## Unthreaded heads (R96, R97) -/

/-- The heads of the job with no needle fit for a thread (R96). -/
def State.unthreadedFor (s : State) (thread : Nat) : HeadSet :=
  headSetOf fun h => inSet s.jobHeads h && (s.fitNeedle h thread).isNone

/-- Computes the set of every READY segment, raising THREAD_MISSING once when one or more turn from
empty to non-empty (R96, R97). -/
def State.computeUnthreaded (s : State) : State :=
  let raises := s.ds.segs.any fun r =>
    r.state == .ready && r.unthreaded == 0 && s.unthreadedFor r.thread != 0
  let s := { s with ds := { s.ds with segs := s.ds.segs.map fun r =>
    if r.state = .ready then { r with unthreaded := s.unthreadedFor r.thread } else r } }
  if raises then s.raise .threadMissing else s

/-! ## The Needle Map (R84, R85, R88) -/

/-- The entry with an edit's code, state or both in the place of its own (R85). -/
def NeedleEntry.edit (e : NeedleEntry) (edit : StagedEdit) : NeedleEntry :=
  { code := edit.code.getD e.code, disabled := edit.disabled.getD e.disabled, staged := none }

/-- The entry with its staged edit applied (R88). -/
def NeedleEntry.applyStaged (e : NeedleEntry) : NeedleEntry := e.staged.elim e e.edit

def State.needle (s : State) (h : HeadId) (n : NeedleId) : NeedleEntry := (s.sel h).needles[n]

def State.setNeedle (s : State) (h : HeadId) (n : NeedleId) (e : NeedleEntry) : State :=
  s.setSel h { s.sel h with needles := (s.sel h).needles.set n e }

/-- Some entry of the map holds a staged edit. -/
def State.anyStaged (s : State) : Bool :=
  allHeads.any fun h => allNeedles.any fun n => (s.needle h n).staged.isSome

/-- Applies every staged edit of the map; the unthreaded-head sets follow when there was one (R88). -/
def State.applyStagedEdits (s : State) : State :=
  let any := s.anyStaged
  let s := s.forHeads (fun _ => true) fun h s =>
    s.setSel h { s.sel h with needles := (s.sel h).needles.map NeedleEntry.applyStaged }
  if any then s.computeUnthreaded else s

/-- The head's current needle is known and fit for a thread. -/
def State.currentFit (s : State) (h : HeadId) (thread : Nat) : Bool :=
  (s.sel h).current.elim false fun n => (s.needle h n).fit thread

/-! ## Shifts (R91 to R93) -/

/-- Begins the shift of a head to a needle; the head becomes SHIFTING (R89, R91). -/
def State.beginShift (s : State) (h : HeadId) (n : NeedleId) : State :=
  let back := (s.head h).state == .rejoinWait
  (s.setSel h { s.sel h with
    shift := some { target := n, order := .unsent, timeout := s.par.shiftTimeout, named := false } }).setHeadState h
      (.shifting back)

/-- The state a SHIFTING head had before its shift (R103). -/
def beforeShift : HeadState → HeadState
  | .shifting true => .rejoinWait
  | .shifting false => .active
  | st => st

/-- Abandons a shift in flight (R93): the present needle of the case is repeated, the current needle
becomes unknown. The head's state is left to the caller. -/
def State.abandonShift (s : State) (h : HeadId) : State :=
  match (s.sel h).shift with
  | none => s
  | some sh =>
    let s := if sh.named then s else s.setHead h { s.head h with selectNeedle := (s.sel h).current }
    s.setSel h { s.sel h with shift := none, current := none }

/-- A head's orders are abandoned, a shifting head back in its state before the shift (R93, R95, DEDUCED, log 12). -/
def State.dropOrders (h : HeadId) (s : State) : State :=
  let s := (s.abandonShift h).setHeadState h (beforeShift (s.head h).state)
  s.setSel h { s.sel h with trim := none }

/-- No trim request is in progress. -/
def State.forgetTrims (s : State) : State := { s with ts := { s.ts with trimNamed := 0 } }

/-- Every head's orders are abandoned (R93, R95). -/
def State.abandonOrders (s : State) : State := (s.forHeads (fun _ => true) State.dropOrders).forgetTrims

/-- Some shift is in flight. -/
def State.anyShift (s : State) : Bool := allHeads.any fun h => (s.sel h).shift.isSome

/-! ## Trims (R94) -/

/-- The trim request for a set of heads; heads that are not polled can be sent none (DEDUCED, log 13). Each trim
takes the TRIM_TIMEOUT that stands at the request: a write between it and the trim's first exchange is for later trims
(R98; DESIGN CHOICE, log 64). -/
def State.requestTrim (set : HeadSet) (s : State) : State :=
  let named := headSetOf fun h => inSet set h && s.polled h
  let s := s.forHeads (inSet named) fun h s =>
    s.setSel h { s.sel h with trim := some { order := .unsent, timeout := s.par.trimTimeout } }
  { s with ts := { s.ts with trimNamed := set } }

/-- Some trim is in flight. -/
def State.anyTrim (s : State) : Bool := allHeads.any fun h => (s.sel h).trim.isSome

/-- The trim set: the heads that sewed the last NORMAL stitch taken (R110). -/
def State.trimSet (s : State) : HeadSet := headSetOf fun h => (s.head h).inTrim

/-- The trim request has ended: the heads it named leave the trim set (R94, R110). -/
def State.endTrimRequest (s : State) : State :=
  let named := s.ts.trimNamed
  let s := s.forHeads (inSet named) fun h s => s.setHead h { s.head h with inTrim := false }
  { s with ts := { s.ts with trimNamed := 0 } }

def State.clearWorking (s : State) : State := { s with ts := { s.ts with working := none } }

end Sys2Proof.Machine
end

