-- ==== Sys2Proof/Machine/ResumeContext.lean ====
section
/-! DEFINITION. The Pass Controller's resume context (R77, R78), and what a hold does to the pass
(R75, R78, R144). -/

namespace Sys2Proof.Machine

/-- A repair pass is in progress in the present phase (R69). -/
def State.inRepairPass (s : State) : Bool :=
  match s.pc.phase with
  | .choice .repairPass => true
  | .travel .repairPass => true
  | .begin .repairPass => true
  | .begin .onward => s.mp.passKind == .repair
  | .sew => s.mp.passKind == .repair
  | .trim .midRepair => true
  | .trim .endRepair => true
  | .trim .stopRepair => true
  | _ => false

/-- The point that repairs in progress leave (R78): a halt during the forced repairs of the pin ceiling
(R70) finds repairs due at a segment end (DESIGN CHOICE, log 44). -/
def State.repairsStand (s : State) : ResumePoint × Bool :=
  match s.pc.repairPoint with
  | .jobEnd => (.jobEnd, true)
  | _ => (.atEnd (s.ds.mark.getD 0), true)

/-- Number of the ACTIVE record. -/
def State.activeNumber (s : State) : Option Nat := s.activeSeg.map (·.number)

/-- The resume point and "trimmed" where a halt finds the controller (R78), when no context is held.
A halt that comes after the trims of a mid-segment TRIM have ended finds the TRIM sewn (DEDUCED, log 11). -/
def State.stands (s : State) : ResumePoint × Bool :=
  let g := s.activeNumber.getD 0
  if s.inRepairPass then s.repairsStand
  else
    match s.pc.phase with
    | .sew => (.atStitch g s.frontier, false)
    | .trim _ => (.atStitch g s.frontier, false)
    | .begin .onward => (.atStitch g s.frontier, true)
    | .choice _ => (.atStitch g 0, true)
    | .travel _ => (.atStitch g 0, true)
    | .begin _ => (.atStitch g 0, true)
    | .schedule => s.repairsStand
    | .take => (.beforeTake, true)
    | .rest => if s.pc.state = .finished then (.jobEnd, true) else (.beforeTake, true)

/-- A point at a stitch: only there do the entries of the faulted set have targets (R77). -/
def ResumePoint.isStitch : ResumePoint → Bool
  | .atStitch _ _ => true
  | _ => false

/-- An entry of the faulted set without its target. -/
def Faulted.dropTarget (f : Faulted) : Faulted := { f with target := none }

/-- Forms the resume context at a point, or keeps the one held (R77). Entries made before the halt
keep their targets only at a point at a stitch (R77, DEDUCED, log 15). -/
def State.formContext (s : State) (at_ : ResumePoint × Bool) : State :=
  if s.pc.point.isSome then s
  else
    let faulted := if at_.1.isStitch then s.pc.faulted else s.pc.faulted.map (·.map Faulted.dropTarget)
    { s with pc := { s.pc with point := some at_.1, trimmed := at_.2, faulted := faulted } }

/-- Clears the resume context (R77). -/
def State.clearContext (s : State) : State :=
  { s with pc := { s.pc with
      point := none
      faulted := Vector.replicate 16 none
      carryOwed := false
      trimmed := false
      owedTrims := 0
      wasMoving := false } }

/-- What an immediate halt or a start adds to the context (R78, R83): was moving, and the heads that
sewed the last stitch of a repair pass as owed trims. -/
def State.noteStop (s : State) : State :=
  let moving := s.pc.phase == .sew && s.mp.passKind == .main
  let owed := if s.inRepairPass then s.pc.owedTrims ||| s.trimSet else s.pc.owedTrims
  { s with pc := { s.pc with wasMoving := s.pc.wasMoving || moving, owedTrims := owed } }

/-- Enters a head in the faulted set; a head already present keeps the lesser target (R78), and the
cause that came with it (DESIGN CHOICE, log 28). -/
def State.addFaulted (h : HeadId) (target : Option Nat) (cause : RepairCause) (s : State) : State :=
  let entry : Faulted :=
    match s.pc.faulted[h], target with
    | none, _ => ⟨target, cause⟩
    | some old, none => old
    | some old, some t =>
      match old.target with
      | none => ⟨some t, cause⟩
      | some u => if t < u then ⟨some t, cause⟩ else old
  { s with pc := { s.pc with faulted := s.pc.faulted.set h (some entry) } }

def State.dropFaulted (h : HeadId) (s : State) : State :=
  { s with pc := { s.pc with faulted := s.pc.faulted.set h none } }

/-- The target a head of the faulted set has. -/
def State.faultedTarget (s : State) (h : HeadId) : Option Nat := (s.pc.faulted[h]).bind (·.target)

/-- The backtrack target t: the least target in the faulted set (R77). -/
def State.backtrackTarget (s : State) : Option Nat :=
  allHeads.foldl
    (fun acc h =>
      match s.faultedTarget h, acc with
      | some t, some u => some (min t u)
      | some t, none => some t
      | none, _ => acc) none

/-- The index a CHANGE or TRAVEL of the main pass leads to (R78). The trims of a halt are made with no
working context, so that no hold taken in them has a pass kind (R86, R133). -/
def State.towardStitch (s : State) : Option Nat :=
  let resumed := match s.pc.point with
    | some (.atStitch _ k) => some k
    | _ => none
  match s.pc.phase with
  | .choice .segmentStart => some 0
  | .travel .segmentStart => some 0
  | .begin .segmentStart => some 0
  | .choice .resume => resumed
  | .travel .resume => resumed
  | .begin .resume => resumed
  | _ => none

/-- The target a hold enters its head with (R78): from the detect index and the backtrack while the
main pass is sewn, slowing, or halted at a stitch; the coming index on the way there; none elsewhere
and for a repair pass. A hold, or a head put out, with no pass kind has no target either, so also in the
CHANGE of a resume's owed trims (DESIGN CHOICE, log 52). -/
def State.holdTarget (s : State) (c : FaultContext) (backtrack : Nat) : Option Nat :=
  let back := c.index.map (· - backtrack)
  if c.pass ≠ some .main then none
  else
    match s.pc.state with
    | .sewing => back
    | .stopping => back
    | .halted =>
      match s.pc.point with
      | some (.atStitch _ _) => back
      | _ => none
    | .change =>
      match s.pc.phase with
      | .trim .midMain => back
      | .begin .onward => back
      | _ => s.towardStitch
    | .travel => s.towardStitch
    | _ => none

/-- The cause of a halt being made: a later REPAIR_FULL replaces STOP_REQUEST or FAULT_HOLD, and
nothing else changes it (R75). -/
def mergeDue (due : Option HaltCause) (cause : HaltCause) : HaltCause :=
  match due with
  | none => cause
  | some c => if cause = .repairFull ∧ (c = .stopRequest ∨ c = .faultHold) then .repairFull else c

/-- Starts a soft halt, or sets a pending halt, according to the pass state (R74, R75). -/
def State.askHalt (cause : HaltCause) (s : State) : State :=
  match s.pc.state with
  | .sewing =>
    { s.setStopCeiling with pc := { s.pc with state := .stopping, due := some cause } }
  | .repair =>
    { s.setStopCeiling with pc := { s.pc with state := .stopping, due := some cause } }
  | .stopping => { s with pc := { s.pc with due := some (mergeDue s.pc.due cause) } }
  | .travel => { s with pc := { s.pc with due := some (mergeDue s.pc.due cause) } }
  | .change => { s with pc := { s.pc with due := some (mergeDue s.pc.due cause) } }
  | _ => s

/-- A hold reaches the Pass Controller (R75, R144): it has no effect in STANDBY, FINISHED and IDLE,
adds its head to the faulted set in every other state, and asks for a halt while the machine works. -/
def State.takeHold (h : HeadId) (target : Option Nat) (record : RepairCause) (cause : HaltCause)
    (s : State) : State :=
  match s.pc.state with
  | .idle => s
  | .standby => s
  | .finished => s
  | _ => (s.askHalt cause).addFaulted h target record

end Sys2Proof.Machine
end

