-- ==== Sys2Proof/Machine/FaultResolver.lean ====
section
/-! DEFINITION. The Fault Resolver (chapter 8): defaults, the Fault Policy Table, adjustment and
combination, and the effects of a resolved group. -/

namespace Sys2Proof.Machine

/-- The resolution of a fault or of a group (R139 to R141). -/
structure Resolution where
  reaction : Reaction
  backtrack : Nat
  rejoin : RejoinMode
  cap : Option Nat
  severity : Severity
  bench : Bool
  deriving DecidableEq, Repr

/-- The disabling kinds (R132). -/
def FaultKind.disabling : FaultKind → Bool
  | .needleShiftFail => true
  | .noThread => true
  | .needleWithdrawn => true
  | .headSilent => true
  | .headDrive => true
  | _ => false

/-- The built-in defaults (R136); SPEED_CAP none. -/
def FaultKind.default : FaultKind → Resolution
  | .upperBreak => ⟨.headOff, 6, .auto, none, .head, false⟩
  | .bobbinOut => ⟨.headOff, 10, .auto, none, .head, false⟩
  | .bobbinLow => ⟨.continue_, 0, .auto, none, .notice, false⟩
  | .tensionWarn => ⟨.continue_, 0, .auto, none, .notice, false⟩
  | .tensionLoose => ⟨.hold, 4, .operator, none, .head, false⟩
  | .tensionTight => ⟨.hold, 4, .operator, none, .head, false⟩
  | .needleShiftFail => ⟨.headOff, 0, .operator, none, .head, false⟩
  | .trimFail => ⟨.hold, 0, .operator, none, .head, false⟩
  | .noThread => ⟨.headOff, 0, .operator, none, .head, false⟩
  | .needleWithdrawn => ⟨.headOff, 0, .operator, none, .notice, false⟩
  | .headSilent => ⟨.headOff, 0, .operator, none, .machine, false⟩
  | .headDrive => ⟨.hold, 0, .operator, none, .machine, false⟩
  | .breakStorm => ⟨.headOff, 0, .operator, none, .machine, false⟩

/-- A rule matches a fault on a head, at a spindle command and a fault count (R138). -/
def PolicyRule.applies (r : PolicyRule) (h : HeadId) (c : FaultContext) (speed count : Nat) : Bool :=
  (!r.byKind || kindInSet r.kinds c.kind) &&
  (!r.byHead || (inSet r.heads h != r.invert)) &&
  (!r.byPass || (c.pass.isSome && c.pass == r.passKind)) &&
  (!r.byIndex || c.index.elim false fun i => decide (r.indexMin ≤ i) && decide (i ≤ r.indexMax)) &&
  (!r.bySpeed || decide (r.minSpeed ≤ speed)) &&
  (!r.byFaults || decide (r.minFaults ≤ count))

/-- The search for one action (R139): the first matching rule that enables it gives its value, or
ends the search with the default. -/
def searchAction {α : Type} (pick : PolicyRule → Action α) (matching : List PolicyRule) (dflt : α) : α :=
  match matching.find? fun r => (pick r).enabled with
  | some r => if (pick r).useDefault then dflt else (pick r).value
  | none => dflt

/-- The same search where the default is none (SPEED_CAP, R136). -/
def searchCap (matching : List PolicyRule) : Option Nat :=
  match matching.find? fun r => r.speedCap.enabled with
  | some r => if r.speedCap.useDefault then none else some r.speedCap.value
  | none => none

/-- The resolution of a taken fault before adjustment (R139). -/
def resolveFault (rules : List PolicyRule) (h : HeadId) (c : FaultContext) (speed count : Nat) :
    Resolution :=
  let matching := rules.filter fun r => r.applies h c speed count
  let d := c.kind.default
  { reaction := searchAction (·.reaction) matching d.reaction
    backtrack := searchAction (·.backtrack) matching d.backtrack
    rejoin := searchAction (·.rejoin) matching d.rejoin
    cap := searchCap matching
    severity := searchAction (·.severity) matching d.severity
    bench := false }

/-- The three adjustments, in order (R140). -/
def adjust (k : FaultKind) (r : Resolution) : Resolution :=
  let r := if k.disabling ∧ r.reaction = .continue_ then { r with reaction := .headOff } else r
  let r := if k = .breakStorm ∧ r.reaction = .headOff then { r with bench := true } else r
  if r.severity = .machine then { r with reaction := .hold } else r

/-- The lowest of the caps present. -/
def lowestCap : Option Nat → Option Nat → Option Nat
  | some a, some b => some (min a b)
  | some a, none => some a
  | none, b => b

/-- Two resolutions combined (R141). -/
def Resolution.combine (a b : Resolution) : Resolution where
  reaction := if a.reaction.code < b.reaction.code then b.reaction else a.reaction
  backtrack := max a.backtrack b.backtrack
  rejoin := if a.rejoin = .operator then .operator else b.rejoin
  cap := lowestCap a.cap b.cap
  severity := if a.severity.code < b.severity.code then b.severity else a.severity
  bench := a.bench || b.bench

/-- Completes a context that names no segment from the working context (R133). -/
def State.completed (s : State) (c : FaultContext) : FaultContext :=
  match c.segment, s.ts.working with
  | none, some w => { c with segment := some w.segment, pass := some w.kind, index := some w.beginIndex }
  | _, _ => c

/-- The kind is in the enable set (R134, R135). -/
def State.takes (s : State) (k : FaultKind) : Bool := kindInSet s.fr.enable k

/-- Records one taken fault against its head (R146). -/
def FaultHead.record (counted : Bool) (f : FaultHead) (c : FaultContext) : FaultHead :=
  { first := if f.first.isSome then f.first else some c
    latest := some c.kind
    count := if counted ∧ f.count < 127 then f.count + 1 else f.count
    overflow := f.overflow || (counted && decide (127 ≤ f.count)) }

/-! ## The reaction on the head (R104) -/

/-- The head state after the head has been put out. -/
def putOut (bench : Bool) : HeadState → HeadState
  | .excluded => .excluded
  | .benched => .benched
  | _ => if bench then .benched else .off

/-- The rejoin mode after a reaction that puts out, by the state it found (R104). A BENCH with AUTO that
finds the head OFF leaves the mode as it stands (DESIGN CHOICE, log 51). -/
def rejoinAfter (found : HeadState) (mode resolved : RejoinMode) : RejoinMode :=
  match found with
  | .excluded => mode
  | .off => if resolved = .operator then .operator else mode
  | .benched => if resolved = .operator then .operator else mode
  | _ => resolved

/-- The Head Supervisor applies HEAD_OFF, HOLD or BENCH (R104): a shift in flight is abandoned. -/
def State.putHeadOut (h : HeadId) (bench : Bool) (resolved : RejoinMode) (s : State) : State :=
  let found := (s.head h).state
  let s := match found with
    | .shifting _ => s.abandonShift h
    | _ => s
  s.setHead h { s.head h with
    state := putOut bench found
    rejoin := rejoinAfter found (s.head h).rejoin resolved }

/-! ## The effects of a group (R142 to R145) -/

/-- The faulted set's entry asked for by R143 when a head is put out in a repair pass while a
context at a stitch is held: target k, the halt cause unchanged. -/
def State.faultAtResume (h : HeadId) (cause : RepairCause) (s : State) : State :=
  match s.pc.point with
  | some (.atStitch _ k) => s.addFaulted h (some k) cause
  | _ => s

/-- The request for a record of missed work, and the hold a group makes (R143, R144). `wasIn` says
that the head was in the work, or waiting to be, when the group was taken. A group whose context names a segment
but no index, a case R143 does not name, opens and truncates nothing: it is treated as one that names no segment
(DESIGN CHOICE, log 60). -/
def State.accountGroup (h : HeadId) (c : FaultContext) (r : Resolution) (wasIn : Bool) (s : State) :
    State :=
  let cause := RepairCause.fault c.kind
  let target := s.holdTarget c r.backtrack
  match r.reaction with
  | .continue_ => s
  | .headOff =>
    match c.segment, c.index with
    | some g, some d =>
      if c.pass = some .repair then (s.truncate h (d - r.backtrack)).faultAtResume h cause
      else
        let from_ := (s.faultedTarget h).elim (d - r.backtrack) (min (d - r.backtrack))
        match s.openRequest h g from_ cause with
        | some s => s
        | none => s.takeHold h (some from_) cause .repairFull
    | _, _ => if s.pc.point.isSome ∧ wasIn then s.addFaulted h target cause else s
  | .hold =>
    match c.segment, c.index with
    | some _, some d =>
      if c.pass = some .repair then
        (s.truncate h (d - r.backtrack)).takeHold h target cause .faultHold
      else s.takeHold h target cause .faultHold
    | _, _ => s.takeHold h target cause .faultHold

/-- The effects of a resolved group, to the Head Supervisor, the Repair Table, the Pass Controller,
the Motion Planner and the Request Link (R134 step 5, R142 to R145). A CONTINUE changes nothing of the
head, its rejoin mode included (DEDUCED, log 50). -/
def State.applyGroup (h : HeadId) (c : FaultContext) (r : Resolution) (s : State) : State :=
  let wasIn := s.polled h && !s.isOut h
  let s := if r.reaction = .continue_ then s else s.putHeadOut h r.bench r.rejoin
  let s := s.accountGroup h c r wasIn
  let s := r.cap.elim s fun cap => s.lowerPolicy cap
  if r.severity = .notice then s else s.raise .fault

/-- Takes a group of faults on one head (R134): faults whose kind is not in the enable set are
discarded; the others are resolved, adjusted, combined and recorded, and the group takes effect. -/
def State.resolveGroup (h : HeadId) (group : List FaultContext) (s : State) : State :=
  match (group.filter fun c => s.takes c.kind).map s.completed with
  | [] => s
  | c :: rest =>
    let rules := s.fr.rules.toList
    let speed := s.mp.spindle
    let count := (s.faultHead h).count
    let one := fun c : FaultContext => adjust c.kind (resolveFault rules h c speed count)
    let r := (rest.map one).foldl Resolution.combine (one c)
    let s := s.setFaultHead h ((c :: rest).foldl
      (fun f c => f.record (kindInSet s.fr.countSelect c.kind) c) (s.faultHead h))
    s.applyGroup h c r

end Sys2Proof.Machine
end

