-- ==== Sys2Proof/Machine/Halts.lean ====
section
/-! DEFINITION. Entering HALTED (R60, R73), the immediate halt (R76), and the needle choice (R89). -/

namespace Sys2Proof.Machine

/-- A repair pass that a halt ends is over (R75, R76, R161). -/
def State.endPassIfAny (s : State) : State := if s.rt.pass.isSome then s.endRepairPass else s

/-- Enters HALTED with a cause, from rest: the context is formed or kept, issue and service end, the
working context is cleared, HALTED is raised (R34, R60, R77, R86). -/
def State.enterHalted (cause : HaltCause) (at_ : ResumePoint × Bool) (s : State) : State :=
  let s := (s.formContext at_).endIssue.endPassIfAny.endService.clearWorking
  { s with pc := { s.pc with state := .halted, cause := cause, due := none, phase := .rest } }.raise .halted

/-- Another halt cause while HALTED raises HALTED (R60); the same cause raises nothing. -/
def State.changeCause (cause : HaltCause) (s : State) : State :=
  if s.pc.cause = cause then s
  else { s with pc := { s.pc with cause := cause } }.raise .halted

/-- The pass states in which an immediate halt acts (R76). -/
def PassState.moving : PassState → Bool
  | .sewing => true
  | .repair => true
  | .stopping => true
  | .travel => true
  | .change => true
  | _ => false

/-- An immediate halt (R76): it acts in SEWING, REPAIR, STOPPING, TRAVEL and CHANGE. -/
def State.immediateHalt (cause : HaltCause) (s : State) : State :=
  if s.pc.state.moving then
    let at_ := s.stands
    ((s.noteStop.immediateStop.abandonOrders).enterHalted cause at_)
  else s

/-! ## The needle choice (R89) -/

/-- The choice for one covered head (R89). -/
def State.chooseNeedle (thread beginIndex : Nat) (h : HeadId) (s : State) : State :=
  if s.currentFit h thread then
    if (s.head h).state = .rejoinWait then s.setHeadState h .active else s
  else
    match s.fitNeedle h thread with
    | some n => s.beginShift h n
    | none =>
      s.resolveGroup h
        [{ kind := .noThread, segment := none, index := some beginIndex, needle := (s.sel h).current
           pass := none, expected := none, measured := none }]

/-- The needle-choice request (R89): staged edits, working context, then each covered head, in head order
(DESIGN CHOICE, log 47). -/
def State.needleChoice (s : State) (thread g : Nat) (kind : PassKind) (beginIndex : Nat)
    (involved covered : HeadSet) : State :=
  let covers := fun h => inSet covered h &&
    ((s.head h).state == .active || (s.head h).state == .rejoinWait)
  let s := s.applyStagedEdits
  let w : Working :=
    { thread := thread, segment := g, kind := kind, beginIndex := beginIndex, involved := involved }
  let s := { s with ts := { s.ts with working := some w } }
  s.forHeads covers (State.chooseNeedle thread beginIndex)

/-- Every head: a main-pass choice covers every ACTIVE and REJOIN_WAIT head (R89). -/
def everyHead : HeadSet := 0xFFFF

end Sys2Proof.Machine
end

