-- ==== Sys2Proof/Machine/ThreadMeter.lean ====
section
/-! DEFINITION. The Thread Meter (chapter 7): the nine steps of a metered report, the bobbin count
and the storm drain of a move completion. -/

namespace Sys2Proof.Machine

/-- The stitch length of a delta, by the octagonal approximation (R118). -/
def stitchLength (dx dy : Int) : Nat :=
  max dx.natAbs dy.natAbs + 3 * min dx.natAbs dy.natAbs / 8

/-- The expected consumption (R118). -/
def Params.expected (p : Params) (dx dy : Int) : Nat :=
  (2 * stitchLength dx dy + p.kAllow) * p.gain / 16

/-- The tolerance (R120). -/
def Params.tolerance (p : Params) (e : Nat) : Nat := e * p.tol / 64

/-- A starved stitch (R119). -/
def starved (e m : Nat) : Bool := decide (8 ≤ e) && decide (4 * m < e)

/-- The break run after a metered stitch (R119). -/
def breakRunAfter (run e m : Nat) : Nat :=
  if e < 8 then run else if starved e m then min (run + 1) 15 else 0

/-- A bucket after a metered stitch: what is added, less LEAK, clamped to 0..4,095 (R120). -/
def bucketAfter (bucket added leak : Nat) : Nat := min (bucket + added - leak) 4095

/-- The colour of a pair of buckets (R121). -/
def Params.colourOf (p : Params) (loose tight : Nat) : Colour :=
  if p.redMark ≤ loose ∨ p.redMark ≤ tight then .red
  else if p.yellowMark ≤ loose ∨ p.yellowMark ≤ tight then .yellow
  else .green

/-- The meter after steps 3 to 6 of R117, before any reset. -/
def Params.meterUpdate (p : Params) (m : Meter) (e measured : Nat) (bobbin : Bool) : Meter :=
  let tol := p.tolerance e
  let loose := bucketAfter m.loose (measured - (e + tol)) p.leak
  let tight := bucketAfter m.tight (if starved e measured then 0 else e - tol - measured) p.leak
  { m with
    breakRun := breakRunAfter m.breakRun e measured
    loose := loose
    tight := tight
    bobbinAbsent := if bobbin then 0 else min (m.bobbinAbsent + 1) 15
    colour := p.colourOf loose tight }

/-- UPPER_BREAK is found: the run, after an addition, stands at BREAK_RUN or more (R119). -/
def Params.breakFound (p : Params) (m : Meter) (e measured : Nat) : Bool :=
  starved e measured && decide (p.breakRun ≤ m.breakRun)

/-- The faults of step 7 of R117 in their order, from the meter before and after steps 3 to 6. -/
def Params.meterFaults (p : Params) (before after : Meter) (e measured : Nat) (bobbin : Bool) :
    List FaultKind :=
  (if p.redMark ≤ after.loose then [.tensionLoose] else []) ++
  (if p.redMark ≤ after.tight then [.tensionTight] else []) ++
  (if before.colour = .green ∧ after.colour = .yellow then [.tensionWarn] else []) ++
  (if p.breakFound after e measured then [.upperBreak] else []) ++
  (if bobbin = false ∧ p.bobbinRun ≤ after.bobbinAbsent then [.bobbinOut] else [])

/-- The resets and the storm addition of step 8 of R117 (R119, R122, R126, R127). -/
def Params.meterResets (p : Params) (m : Meter) (kinds : List FaultKind) (breakTaken : Bool) : Meter :=
  { m with
    loose := if FaultKind.tensionLoose ∈ kinds then 0 else m.loose
    tight := if FaultKind.tensionTight ∈ kinds then 0 else m.tight
    breakRun := if FaultKind.upperBreak ∈ kinds then 0 else m.breakRun
    bobbinAbsent := if FaultKind.bobbinOut ∈ kinds then 0 else m.bobbinAbsent
    storm := if FaultKind.upperBreak ∈ kinds ∧ breakTaken then min (m.storm + p.stormWeight) 255
      else m.storm }

/-- The metered report of a head for a stitch taken in a revolution before (R117): the meter's state
and the faults raised, in their order, with their contexts (R129). -/
def State.meterReport (s : State) (h : HeadId) (r : Report) (t : Taken) : State × List FaultContext :=
  let before := s.meter h
  let e := s.par.expected t.stitch.dx t.stitch.dy
  let after := s.par.meterUpdate before e r.feed r.bobbin
  let kinds := s.par.meterFaults before after e r.feed r.bobbin
  let breakTaken := decide (FaultKind.upperBreak ∈ kinds) && s.takes .upperBreak
  let final := s.par.meterResets after kinds breakTaken
  let storm := breakTaken && decide (s.par.stormMark ≤ final.storm)
  let kinds := if storm then kinds ++ [.breakStorm] else kinds
  let context := fun k : FaultKind =>
    { kind := k, segment := some t.segment
      index := if t.stitch.index.isSome then t.stitch.index else t.stitch.anchor
      needle := (s.sel h).current, pass := some t.kind
      expected := some e, measured := some r.feed : FaultContext }
  (s.setMeter h final, kinds.map context)

/-- The bobbin count and the storm drain of one head at a move completion (R125, R128). -/
def Params.completeStitch (p : Params) (m : Meter) (dx dy : Int) : Meter :=
  let bobbin := m.bobbin - (stitchLength dx dy + p.bobbinAllow)
  let drains := decide (p.stormLeak ≤ m.stormLeak + 1)
  { m with
    bobbin := bobbin
    lowArmed := m.lowArmed && !decide (bobbin < p.bobbinLowMark)
    stormLeak := if drains then 0 else m.stormLeak + 1
    storm := if drains then m.storm - 1 else m.storm }

/-- The meter's share of the move completion of a NORMAL stitch, for one head whose latch was DOWN
(R125, R128): BOBBIN_LOW is a group of its own. -/
def State.meterCompletion (t : Taken) (h : HeadId) (s : State) : State :=
  let before := s.meter h
  let after := s.par.completeStitch before t.stitch.dx t.stitch.dy
  let low := before.lowArmed && !after.lowArmed
  let s := s.setMeter h after
  if low then
    s.resolveGroup h
      [{ kind := .bobbinLow, segment := some t.segment
         index := if t.stitch.index.isSome then t.stitch.index else t.stitch.anchor
         needle := (s.sel h).current, pass := some t.kind, expected := none, measured := none }]
  else s

/-- Clearing a head's meters (R116). -/
def State.clearMeter (h : HeadId) (s : State) : State :=
  s.setMeter h { s.meter h with
    breakRun := 0, loose := 0, tight := 0, bobbinAbsent := 0, colour := .green }

end Sys2Proof.Machine
end

