-- ==== Sys2Proof/Machine/HeadLink.lean ====
section
/-! DEFINITION. The Head Supervisor (chapter 6) and the messages of the head link (R186): exchanges,
the latch decision, rejoins, reports, and the accounts of a move completion. -/

namespace Sys2Proof.Machine

/-! ## Messages (R100, R186) -/

/-- The lamp is lit while the head is OFF, BENCHED or REJOIN_WAIT (R100). -/
def HeadState.lamp : HeadState → Bool
  | .off => true
  | .benched => true
  | .rejoinWait => true
  | _ => false

/-- The command message to a head (R100, R186). -/
def State.commandMessage (s : State) (h : HeadId) (down : Bool) : List Byte :=
  let needle := ((s.sel h).shift.map (·.target)).or (s.head h).selectNeedle
  let flags := boolCode down + 2 * boolCode (s.sel h).trim.isSome + 4 * boolCode (s.head h).state.lamp
  withCrc (beBytes 1 (headNumber h) ++ beBytes 1 flags ++ beBytes 1 (needleNumber needle))

/-- A report as the bytes of a message spell it, when the Head Supervisor takes it as one of the
head polled (R186). -/
def parseReport (h : HeadId) (message : List Byte) : Option Report :=
  match message with
  | [hd, f1, f0, flags, nd, c1, c0] =>
    let feed := ofBytes [f1, f0]
    if withCrc [hd, f1, f0, flags, nd] = [hd, f1, f0, flags, nd, c1, c0] ∧ hd.toNat = headNumber h ∧
        feed ≤ 1023 ∧ nd.toNat ≤ 12 then
      some { feed := feed, bobbin := flags.getLsbD 0, button := flags.getLsbD 1
             trimDone := flags.getLsbD 2, driveFault := flags.getLsbD 3, needle := needleOf nd }
    else none
  | _ => none

/-- The message of a report (R186); the inverse of `parseReport`, for tests. -/
def Report.message (r : Report) (h : HeadId) : List Byte :=
  let flags := boolCode r.bobbin + 2 * boolCode r.button + 4 * boolCode r.trimDone +
    8 * boolCode r.driveFault
  withCrc (beBytes 1 (headNumber h) ++ beBytes 2 r.feed ++ beBytes 1 flags ++
    beBytes 1 (needleNumber r.needle))

/-! ## Exchanges (R100) -/

/-- An order one exchange further: its first exchange carries it and starts its timer, reports are
judged from the next one on (R91, R94). -/
def OrderPhase.next : OrderPhase → OrderPhase
  | .unsent => .sent
  | _ => .judged

/-- The exchange with one polled head. -/
def State.exchangeHead (down : HeadSet) (h : HeadId) (s : State) : State :=
  let message := s.commandMessage h (inSet down h)
  let r := s.head h
  let s := s.setHead h { r with
    awaiting := true
    takenBefore := r.taken
    taken := false
    latchBefore := r.latch
    latch := inSet down h
    command := message }
  s.setSel h { s.sel h with
    shift := (s.sel h).shift.map fun x => { x with order := x.order.next }
    trim := (s.sel h).trim.map fun x => { x with order := x.order.next } }

/-- An exchange with every polled head; `down` are the heads sent DOWN (R100). -/
def State.exchange (revolution : Bool) (down : HeadSet) (taken : Option Taken) (s : State) : State :=
  let s := { s with hs := { s.hs with
    revolution := revolution
    previous := s.hs.current
    current := taken } }
  s.forHeads s.polled (State.exchangeHead down)

/-- A new run begins: no stitch of it has been taken, no report of it is awaited (R100, R102). -/
def State.beginRun (s : State) : State :=
  let s := { s with hs := { s.hs with current := none, previous := none, lastTake := none } }
  s.forHeads (fun _ => true) fun h s =>
    s.setHead h { s.head h with taken := false, takenBefore := false, latch := false, latchBefore := false }

/-! ## The latch decision (R108, R109) -/

/-- The index of a stitch, or its anchor (R109, R129). -/
def Issued.place (st : Issued) : Option Nat := if st.index.isSome then st.index else st.anchor

/-- The head's replay latch covers a stitch of the main pass of segment g (R109). -/
def State.replayCovers (s : State) (g : Nat) (st : Issued) (h : HeadId) : Bool :=
  match (s.head h).replay, st.place with
  | some (seg, k), some i => seg == g && decide (i < k)
  | _, _ => false

/-- The stitch lies in one of the head's repair ranges (R109). -/
def State.inRanges (s : State) (st : Issued) (h : HeadId) : Bool :=
  match st.place with
  | some i => (s.head h).ranges.any fun r => decide (r.1 ≤ i) && decide (i ≤ r.2)
  | none => false

/-- The head's current needle is fit for the working thread. -/
def State.fitNow (s : State) (h : HeadId) : Bool :=
  s.ts.working.elim false fun w => s.currentFit h w.thread

/-- The latch decision (R108): DOWN. -/
def State.latchDown (s : State) (g : Nat) (st : Issued) (h : HeadId) : Bool :=
  (s.head h).state == .active && s.fitNow h && !st.jump &&
    match s.mp.passKind with
    | .main => !s.replayCovers g st h
    | .repair => s.inRanges st h

/-- REJOIN_WAIT heads with a fit needle become ACTIVE at the take of an indexed stitch while SEWING
in the main pass (R106). -/
def State.boundaryRejoins (st : Issued) (s : State) : State :=
  if s.pc.state = .sewing ∧ s.mp.passKind = .main ∧ st.index.isSome then
    s.forHeads (fun h => (s.head h).state == .rejoinWait && s.fitNow h)
      fun h s => s.setHeadState h .active
  else s

/-- The replay latches that a stitch with lowest covered index `lowest` clears (R109). -/
def State.clearReplays (g lowest : Nat) (s : State) : State :=
  s.forHeads (fun h => (s.head h).replay.elim false fun l => l.1 == g && decide (l.2 ≤ lowest))
    fun h s => s.setHead h { s.head h with replay := none }

/-- The OPEN records of the heads that sew a main-pass stitch are closed below it (R107, R154). -/
def State.closeAtRejoin (g lowest : Nat) (down : HeadSet) (s : State) : State :=
  s.forHeads (inSet down) fun h s =>
    match s.openRecord h g with
    | some r => s.closeBelow r lowest
    | none => s

/-- The trim set becomes the heads that sew a NORMAL stitch (R110). -/
def State.noteTrimSet (st : Issued) (down : HeadSet) (s : State) : State :=
  if st.jump then s
  else s.forHeads (fun _ => true) fun h s => s.setHead h { s.head h with inTrim := inSet down h }

/-- The Head Supervisor's part of a take (R106 to R110), with the revolution exchange (R100). -/
def State.superviseTake (st : Issued) (s : State) : State :=
  let g := s.ds.served.getD 0
  let s := s.boundaryRejoins st
  let down := headSetOf (s.latchDown g st)
  let s := match s.mp.passKind, st.index, st.lowest with
    | .main, some _, some lowest => (s.clearReplays g lowest).closeAtRejoin g lowest down
    | _, _, _ => s
  let s := s.noteTrimSet st down
  let s := { s with hs := { s.hs with lastTake := st.place } }
  s.exchange true down (some { stitch := st, segment := g, kind := s.mp.passKind, completed := false })

/-! ## Faults of the Supervisor (R101, R102) -/

/-- A pass is being sewn: a stretch of it, or a trim of it, is in progress (DESIGN CHOICE, log 14). -/
def State.passSewn (s : State) : Bool :=
  match s.pc.phase with
  | .sew => true
  | .begin .onward => true
  | .trim .owed => false
  | .trim .repairRun => false
  | .trim _ => true
  | _ => false

/-- The context of HEAD_SILENT and HEAD_DRIVE (R101, R102); its needle is unknown (DESIGN CHOICE, log 65). -/
def State.supervisorContext (s : State) (k : FaultKind) : FaultContext :=
  if s.passSewn then
    { kind := k, segment := s.ds.served
      index := some (s.hs.lastTake.getD s.frontier)
      needle := none, pass := some s.mp.passKind, expected := none, measured := none }
  else
    { kind := k, segment := none, index := none, needle := none, pass := none
      expected := none, measured := none }

/-! ## Judging a report (R92, R94, R102, R104) -/

/-- A fault of the Thread Selector that the working context completes (R133). -/
def selectorFault (k : FaultKind) (n : Option NeedleId) : FaultContext :=
  { kind := k, segment := none, index := none, needle := n, pass := none, expected := none, measured := none }

/-- A shift that fails (R92, R106): the head is back in its state before, its current needle
unknown. -/
def State.failShift (h : HeadId) (s : State) : State :=
  let s := s.setSel h { s.sel h with shift := none, current := none }
  s.setHeadState h (beforeShift (s.head h).state)

/-- A shift that completes (R92): the head is ACTIVE with the target as its current needle. -/
def State.completeShift (h : HeadId) (n : NeedleId) (s : State) : State :=
  let s := s.setSel h { s.sel h with shift := none, current := some n }
  match (s.head h).state with
  | .shifting _ => s.setHeadState h .active
  | _ => s

/-- The Thread Selector judges the needle in position for a shift in flight (R92). A report that names a
needle after the command has gone out, and is not judged yet, is noted for an abandonment (R93); one that
answers an exchange before the command says nothing of the shift. -/
def State.judgeShift (h : HeadId) (r : Report) (s : State) : State × List FaultContext :=
  match (s.sel h).shift, r.needle with
  | some sh, some m =>
    match sh.order with
    | .judged =>
      if m = sh.target then
        let s := s.completeShift h m
        (s, if s.fitNow h then [] else [selectorFault .needleWithdrawn (some m)])
      else (s.failShift h, [selectorFault .needleShiftFail (some sh.target)])
    | .sent => (s.setSel h { s.sel h with shift := some { sh with named := true } }, [])
    | .unsent => (s, [])
  | _, _ => (s, [])

/-- The Thread Selector judges trim done for a trim in flight (R94). -/
def State.judgeTrim (h : HeadId) (r : Report) (s : State) : State :=
  match (s.sel h).trim with
  | some t => if t.order = .judged ∧ r.trimDone then s.setSel h { s.sel h with trim := none } else s
  | none => s

/-- The stitch a report meters, when it is metered (R102). -/
def State.metered (s : State) (h : HeadId) : Option Taken :=
  match s.hs.previous with
  | some t =>
    if s.hs.revolution && t.completed && (s.head h).latchBefore && (s.head h).takenBefore &&
        (s.head h).state == .active then some t
    else none
  | none => none

/-- The drive fault (R102): HEAD_DRIVE once, until a report is clear of it. -/
def State.judgeDrive (h : HeadId) (r : Report) (s : State) : State × List FaultContext :=
  let raises := r.driveFault && !(s.head h).driveSeen
  let faults := if raises then [s.supervisorContext .headDrive] else []
  (s.setHead h { s.head h with driveSeen := r.driveFault }, faults)

/-- The thread-ready button (R104). -/
def State.judgeButton (h : HeadId) (r : Report) (s : State) : State :=
  if r.button ∧ (s.head h).state = .off ∧ (s.head h).rejoin = .auto then
    s.setHeadState h .rejoinWait
  else s

/-- The head record after a report has been taken when due (R101, R100). -/
def HeadRecord.tookReport (rec_ : HeadRecord) (r : Report) : HeadRecord :=
  { rec_ with
    awaiting := false
    taken := true
    silentRun := 0
    silentRaised := false
    lastReport := some r
    selectNeedle := r.needle.or rec_.selectNeedle }

/-- A report taken when due (R102): handed to the Thread Selector, the Thread Meter and the
Supervisor's own judging in that order, and its faults to the Fault Resolver as one group (R133),
before the Pass Controller goes on (DESIGN CHOICE, log 26). -/
def State.takeReport (h : HeadId) (r : Report) (s : State) : State :=
  let s := s.setHead h ((s.head h).tookReport r)
  let metered := s.metered h
  let (s, shiftFaults) := s.judgeShift h r
  let s := s.judgeTrim h r
  let (s, meterFaults) := match metered with
    | some t => s.meterReport h r t
    | none => (s, [])
  let (s, driveFaults) := s.judgeDrive h r
  let s := s.judgeButton h r
  s.resolveGroup h (shiftFaults ++ meterFaults ++ driveFaults)

/-- The due time with no report taken (R101). -/
def State.missReport (h : HeadId) (s : State) : State :=
  let run := min ((s.head h).silentRun + 1) 255
  let raises := decide (s.par.silentRun ≤ run) && !(s.head h).silentRaised
  let s := s.setHead h { s.head h with
    awaiting := false
    silentRun := run
    silentRaised := (s.head h).silentRaised || raises }
  if raises then s.resolveGroup h [s.supervisorContext .headSilent] else s

/-! ## Move completions (R110) -/

/-- The indices a sewn stitch accounts for: none for a tie stitch or a part that is not the last. -/
def Issued.accounts (st : Issued) : Option (Nat × Nat) :=
  match st.index, st.lowest with
  | some i, some lowest =>
    match st.part with
    | some (k, n) => if k = n then some (lowest, i) else none
    | none => some (lowest, i)
  | _, _ => none

/-- The counters of a head that sewed `n` indices (R110). -/
def HeadRecord.count (r : HeadRecord) (n : Nat) (repair : Bool) : HeadRecord :=
  { r with
    sewn := min (r.sewn + n) 4294967295
    sewnRepair := if repair then min (r.sewnRepair + n) 4294967295 else r.sewnRepair }

/-- Records of a head advance over the indices from `i` on, `n` of them (R159). -/
def State.advanceOver (h : HeadId) : (n i : Nat) → State → State
  | 0, _, s => s
  | n + 1, i, s => State.advanceOver h n (i + 1) (State.advanceRecords h i s)

/-- The Supervisor's and the Repair Table's account of a stitch sewn (R110, R159, R32). -/
def State.countSewn (t : Taken) (s : State) : State :=
  match t.stitch.accounts with
  | none => s
  | some (lowest, i) =>
    let n := i + 1 - lowest
    let repair := t.kind == .repair
    let before := s.frontier
    let s := s.sewnThrough i
    let s := s.forHeads (fun h => (s.head h).latch) fun h s =>
      let s := s.setHead h ((s.head h).count n repair)
      if repair then State.advanceOver h n lowest s else s
    if repair then State.passIndices t.segment (s.frontier - before) before s else s

/-- The stitch taken has reached its move completion. -/
def Taken.complete (t : Taken) : Taken := { t with completed := true }

/-- The move completion of a stitch as the Supervisor and the Thread Meter have it: the indices accounted
and the repair records advanced first (R110, R159), then the bobbins in head order with their BOBBIN_LOW
groups (R125), which may truncate what is left of a record (DESIGN CHOICE, log 49). -/
def State.superviseCompletion (st : Issued) (s : State) : State :=
  let t : Taken :=
    { stitch := st, segment := s.ds.served.getD 0, kind := s.mp.passKind, completed := true }
  let s := { s with hs := { s.hs with current := s.hs.current.map Taken.complete } }
  let s := s.countSewn t
  if st.jump then s
  else s.forHeads (fun h => (s.head h).latch) (State.meterCompletion t)

end Sys2Proof.Machine
end

