-- ==== Sys2Proof/Machine/Rounds.lean ====
section
/-! DEFINITION. The round of the Pass Controller (chapter 4): the take, the thread changes, the
travels, the begin-pass requests, the stops, the repairs and the resumes, as transitions the part
makes of itself until it has to wait (DESIGN CHOICE, log 8). -/

namespace Sys2Proof.Machine

/-- Puts the controller in a pass state and at a place in the round. -/
def State.goTo (st : PassState) (ph : Phase) (s : State) : State :=
  { s with pc := { s.pc with state := st, cause := .none, phase := ph } }

/-- The thread code of a present segment. -/
def State.threadOf (s : State) (g : Nat) : Nat := (s.findSeg g).elim 0 (·.thread)

/-- The stitch count of a present segment. -/
def State.countOf (s : State) (g : Nat) : Nat := (s.findSeg g).elim 0 (·.count)

/-- The position before stitch k of a present segment (R12); here as in its neighbours the value where
the segment is absent is never used (DESIGN CHOICE, log 42). -/
def State.placeOf (s : State) (g k : Nat) : Pos := (s.findSeg g).elim ⟨0, 0⟩ fun r => s.positionBefore r k

/-- The number of the ACTIVE record, 0 when there is none. -/
def State.activeNo (s : State) : Nat := s.activeNumber.getD 0

/-- Halts with the cause that is due (R74, R75), at the point where the controller stands (R78). -/
def State.haltDue (at_ : ResumePoint × Bool) (s : State) : State :=
  s.enterHalted (s.pc.due.getD .stopRequest) at_

/-- SHAFT_OUT (R46, R51 to R53): an immediate halt with cause SPINDLE_POSITION (R76). -/
def State.shaftOut (s : State) : State := s.immediateHalt .spindlePosition

/-! ## The take (R64, R72) -/

/-- The take of the next segment, its carry records and its thread change (R64 steps 1 and 2). -/
def State.stepTake (s : State) : State :=
  let n := s.awaited
  match s.takeSegment n with
  | none => s.enterHalted .starved (.beforeTake, true)
  | some s =>
    match State.carryFor n 0 allHeads s.clearContext with
    | (s, some _) =>
      let s := s.enterHalted .repairFull (.atStitch n 0, true)
      { s with pc := { s.pc with carryOwed := true } }
    | (s, none) =>
      (s.goTo .change (.choice .segmentStart)).needleChoice (s.threadOf n) n .main 0 0 everyHead

/-- The awaited segment is READY and the halt cause is STARVED: the take is repeated after the
reference and validity checks, or the cause becomes STOP_REQUEST (R72); a power-fail warning does not
hold it back (DEDUCED, log 31). -/
def State.starvedRepeat (s : State) : State :=
  if s.pc.state = .halted ∧ s.pc.cause = .starved ∧
      (s.findSeg s.awaited).elim false (·.state == .ready) then
    if s.mp.referenced && s.tablesValid then s.goTo .change .take else s.changeCause .stopRequest
  else s

/-! ## Repairs (R69 to R71, R157) -/

/-- Begins the repairs of a point: the round mark is none; leaving a segment's or the job's end for
its repairs clears the resume context (R77, R157). -/
def State.startRepairs (p : RepairPoint) (s : State) : State :=
  let s := match p with
    | .segmentEnd => s.clearContext
    | .jobEnd => s.clearContext
    | _ => s
  let s := { s with rt := { s.rt with roundMark := none } }
  { s with pc := { s.pc with state := .change, cause := .none, repairPoint := p, phase := .schedule } }

/-- The repairs due at the end of a segment (R68 step 5). -/
def State.repairsAtEnd (g : Nat) (s : State) : State :=
  s.startRepairs (if s.segmentCount ≤ g + 1 then .jobEnd else .segmentEnd)

/-- The job-end test (R71). -/
def State.jobEndTest (s : State) : State :=
  if s.rt.records.isEmpty then
    (s.clearWorking.goTo .finished .rest).raise .finished
  else s.enterHalted .repairsOutstanding (.jobEnd, true)

/-- The pinned pages stand at or over the ceiling (R70). -/
def State.overPinCeiling (s : State) : Bool :=
  s.pc.job.elim false fun j => j.pinCeiling != 0 && decide (j.pinCeiling ≤ s.pinnedPages)

/-- No further segment is named: what follows the repairs of each point (R68 to R71, R82). -/
def State.repairsDone (s : State) : State :=
  match s.pc.repairPoint with
  | .segmentEnd => if s.overPinCeiling then s.startRepairs .forced else s.goTo .change .take
  | .forced =>
    if s.overPinCeiling then s.enterHalted .pinCeiling (.beforeTake, true) else s.goTo .change .take
  | .jobEnd => s.jobEndTest
  | .run => (s.enterHalted s.pc.runCause s.stands).starvedRepeat

/-- One schedule request (R157), and the CHANGE of the pass it names (R69 step 1). -/
def State.stepSchedule (s : State) : State :=
  match s.scheduled s.pc.repairPoint with
  | none => s.repairsDone
  | some g =>
    let s := ((s.formPass s.pc.repairPoint g).openService g).goTo .change (.choice .repairPass)
    s.needleChoice (s.threadOf g) g .repair (s.rt.pass.elim 0 (·.first)) s.involved s.involved

/-! ## Resuming (R79, R80) -/

/-- The faulted heads after the thread change of a resume (R80 stage 2): those OFF again leave the
set, those still REJOIN_WAIT with a target receive their record and leave it; the first
REPAIR_FULL answer ends the requests (DEDUCED, log 53), and `false` says that it came. -/
def State.settleRejoins (g : Nat) : List HeadId → State → State × Bool
  | [], s => (s, true)
  | h :: rest, s =>
    if s.isOut h then State.settleRejoins g rest (s.dropFaulted h)
    else
      match s.faultedTarget h, (s.head h).state with
      | some t, .rejoinWait =>
        match s.openRequest h g t ((s.pc.faulted[h]).elim .carry (·.cause)) with
        | some s => State.settleRejoins g rest (s.dropFaulted h)
        | none => (s, false)
      | _, _ => State.settleRejoins g rest s

/-- The faulted heads that have rejoined. -/
def State.rejoinedFaulted (s : State) : HeadSet :=
  headSetOf fun h => (s.pc.faulted[h]).isSome && (s.head h).state == .active

/-- The causes after which a resume that was moving goes back by POWER_BACKTRACK (R80). -/
def HaltCause.backtracks : HaltCause → Bool
  | .estop => true
  | .frameLate => true
  | .powerLoss => true
  | .reset => true
  | _ => false

/-- The start index of a resume at stitch k (R80 stage 2). Where a faulted head has rejoined and no entry
of the faulted set has a target, the start is that of a resume at which none rejoined (DESIGN CHOICE,
log 45). -/
def State.resumeStart (s : State) (k : Nat) : ResumePlan :=
  let rejoined := s.rejoinedFaulted
  let t := if rejoined = 0 then none else s.backtrackTarget
  if s.pc.wasMoving && s.pc.resumeCause.backtracks then
    let tp := k - s.pc.job.elim 0 (·.powerBacktrack)
    let start := t.elim tp (min tp)
    { start := start, fromTarget := t == some start, latch := false, rejoined := rejoined }
  else
    let start := t.getD k
    { start := start, fromTarget := t.isSome, latch := decide (start < k), rejoined := rejoined }

/-- Enters TRAVEL with a travel to a position (R33, R53). -/
def State.startTravel (aim : Aim) (target : Pos) (s : State) : State :=
  (s.goTo .travel (.travel aim)).planTravel target

/-- Stage 2 of a resume at a stitch (R80). -/
def State.resumeTravel (s : State) : State :=
  match s.pc.point with
  | some (.atStitch g k) =>
    match State.settleRejoins g (allHeads.filter fun h => (s.pc.faulted[h]).isSome) s with
    | (s, false) => s.enterHalted .repairFull s.stands
    | (s, true) =>
      let plan := s.resumeStart k
      let s := { s with pc := { s.pc with resumePlan := plan } }
      s.startTravel .resume (s.placeOf g plan.start)
  | _ => s

/-- The replay latch of a head until k in segment g: the greater index where it holds one (R109). -/
def latchUntil (g k : Nat) (held : Option (Nat × Nat)) : Option (Nat × Nat) :=
  match held with
  | some (seg, j) => if seg = g then some (g, max j k) else some (g, k)
  | none => some (g, k)

/-- The heads a resume holds by replay latches (R80 stage 3). -/
def State.toLatch (s : State) : HeadSet :=
  if s.pc.resumePlan.latch then
    headSetOf fun h => (s.head h).state == .active && !inSet s.pc.resumePlan.rejoined h
  else 0

/-- Some head holds a replay latch until k in segment g. -/
def State.latchedUntil (s : State) (g k : Nat) : Bool :=
  allHeads.any fun h => (s.head h).replay == some (g, k)

/-- The merge barrier of a resume at stitch k of segment g: named where it starts below k at the backtrack
target (R27), and where it starts below k and heads are latched until k, by a latch set now or held
already (R80) (DEDUCED, log 46). -/
def State.resumeBarrier (s : State) (g k : Nat) : Option Nat :=
  if s.pc.resumePlan.start < k ∧ (s.pc.resumePlan.fromTarget ∨ s.latchedUntil g k) then some k else none

/-- Stage 3 of a resume at a stitch, up to its begin-pass request (R80). -/
def State.resumeBegin (s : State) : State :=
  match s.pc.point with
  | some (.atStitch g k) =>
    let s := s.forHeads (inSet s.toLatch) fun h s =>
      s.setHead h { s.head h with replay := latchUntil g k (s.head h).replay }
    let s := (s.openService g).beginIssue g s.pc.resumePlan.start (s.countOf g - 1) .main s.pc.trimmed
      (s.resumeBarrier g k)
    s.goTo .travel (.begin .resume)
  | _ => s

/-- Goes on by the resume point once records and trims are settled (R79); the needle choice of a
resume at a stitch begins at k (DEDUCED, log 25). -/
def State.goOn (s : State) : State :=
  match s.pc.point with
  | some (.atStitch g k) =>
    (s.goTo .change (.choice .resume)).needleChoice (s.threadOf g) g .main k 0 everyHead
  | some (.atEnd g) => s.repairsAtEnd g
  | some .beforeTake => s.goTo .change .take
  | some .jobEnd => s.startRepairs .jobEnd
  | none => s

/-! ## Choice complete, travel, begin pass (R64, R69, R80, R90) -/

/-- CHANGE ends at choice complete (R90). -/
def State.choiceComplete (aim : Aim) (s : State) : State :=
  if s.pc.due.isSome then s.haltDue s.stands
  else
    match aim with
    | .segmentStart => s.startTravel aim (s.placeOf s.activeNo 0)
    | .resume => s.resumeTravel
    | .repairPass => s.startTravel aim (s.rt.pass.elim ⟨0, 0⟩ fun p => s.placeOf p.segment p.first)
    | .onward => s

/-- The heads take their repair ranges from the records of the pass (R109). -/
def State.takeRanges (s : State) : State :=
  s.forHeads (fun _ => true) fun h s => s.setHead h { s.head h with ranges := s.rangesOf h }

/-- TRAVEL ends at travel complete: service, issue and begin-pass request (R64 step 4, R69 steps 2
and 3, R80 stage 3). The pass state stays TRAVEL until that request is taken (DESIGN CHOICE, log 62). -/
def State.travelComplete (aim : Aim) (s : State) : State :=
  let s := s.toRest.abandonTravel
  if s.pc.due.isSome then s.haltDue s.stands
  else
    match aim with
    | .segmentStart =>
      let g := s.activeNo
      ((s.openService g).beginIssue g 0 (s.countOf g - 1) .main true none).goTo .travel (.begin aim)
    | .resume => s.resumeBegin
    | .repairPass =>
      match s.rt.pass with
      | some p =>
        (s.takeRanges.beginIssue p.segment p.first p.last .repair true none).goTo .travel (.begin aim)
      | none => s
    | .onward => s

/-- The retraction of an unfinished move begins, in TRAVELLING (R46, R53, R54); one that takes no
time is complete at once. -/
def State.startRetraction (s : State) : State :=
  let s := { s with mp := { s.mp with mode := .travelling } }
  match s.mp.unfinished with
  | none => s
  | some u =>
    let m := s.retractionOf u
    if m.duration = 0 then
      let s := s.beginMove m
      { s with mp := { s.mp with move := none, unfinished := none } }
    else s.beginMove m

/-- The position advances by a travel step (R53). -/
def State.advancePosition (dx dy : Int) (s : State) : State :=
  { s with mp := { s.mp with position := ⟨s.mp.position.x + dx, s.mp.position.y + dy⟩, move := none } }

/-- The next travel step begins (R53); one that takes no time is complete at once. -/
def State.startStep (d : Pos) (rest : List Pos) (s : State) : State :=
  let s := { s with se := { s.se with plan := some rest } }
  let m := s.moveOf .step d.x d.y
  let s := s.beginMove m
  if m.duration = 0 then s.advancePosition d.x d.y else s

/-- One transition of a travel (R53): the request waits for the shaft, then the steps run. -/
def State.stepTravel (aim : Aim) (s : State) : Option State :=
  match s.mp.mode with
  | .atRest =>
    match s.mp.shaft with
    | .turning => none
    | .outOfWindow => some s.shaftOut
    | .inWindow => some s.startRetraction
  | .travelling =>
    if s.mp.move.isSome then none
    else
      match s.se.plan with
      | some (d :: rest) => some (s.startStep d rest)
      | _ => some (s.travelComplete aim)
  | _ => none

/-- The sewing sweep (R153): OPEN records from s for the heads out of the work that hold none; a
request answered REPAIR_FULL is a hold on its head. -/
def State.sewingSweep (s : State) : State :=
  let g := s.ds.served.getD 0
  let start := s.frontier
  if start < s.countOf g then
    s.forHeads (fun h => inSet s.jobHeads h) fun h s =>
      if s.absentee h && (s.openRecord h g).isNone then
        match s.openRequest h g start .carry with
        | some s => s
        | none => s.takeHold h (some start) .carry .repairFull
      else s
  else s

/-- The planner at rest has reported standstill with a marker or none (R51): what the controller
does (R66 to R69, R75). -/
def State.atStandstill (m : Option Marker) (s : State) : State :=
  let stopping := s.pc.state == .stopping
  match s.mp.passKind, m with
  | .main, some (.trim _) => (s.goTo .change (.trim .midMain)).requestTrim s.trimSet
  | .main, some (.pause i) =>
    let s := s.sewnThrough i
    s.enterHalted (if stopping then s.pc.due.getD .stopRequest else .designPause) s.stands
  | .main, some .endOfPass => (s.goTo .change (.trim .endMain)).requestTrim s.trimSet
  | .main, none => if stopping then s.haltDue s.stands else s
  | .repair, some (.trim _) => (s.goTo .change (.trim .midRepair)).requestTrim s.trimSet
  | .repair, some .endOfPass => (s.goTo .change (.trim .endRepair)).requestTrim s.involved
  | .repair, some (.pause _) => s
  | .repair, none =>
    if stopping then (s.goTo .change (.trim .stopRepair)).requestTrim s.involved else s

/-- The begin-pass request is taken (R46): a resume's context is cleared (R80), the sweep is made
(R153), the window is filled, and the planner runs, or reports standstill at once. -/
def State.beginTaken (s : State) : State :=
  let kind := s.se.context.elim .main (·.kind)
  let s := { s.toRest with mp := { s.toRest.mp with passKind := kind } }
  let s := s.beginRun
  let s := match kind with
    | .main => (s.clearContext.goTo .sewing .sew).sewingSweep
    | .repair => s.goTo .repair .sew
  let s := s.refill
  if s.mp.window.isEmpty then s.toRest.atStandstill s.mp.marker
  else { s with mp := { s.mp with mode := .running, spindle := s.par.sMin } }

/-- One transition of a begin-pass request (R46): a pending halt ends it, an unfinished move is
retracted first, the shaft must rest in the move window. The retraction too begins only with the shaft
IN_WINDOW, as that of a travel does (DESIGN CHOICE, log 54). While the request waits the pass state stays TRAVEL after
a travel (DESIGN CHOICE, log 62), and CHANGE after a mid-segment TRIM (DEDUCED, log 56). -/
def State.stepBegin (s : State) : Option State :=
  match s.mp.mode with
  | .atRest =>
    if s.pc.due.isSome then some (s.haltDue s.stands)
    else
      match s.mp.shaft with
      | .turning => none
      | .outOfWindow => some s.shaftOut
      | .inWindow => some (if s.mp.unfinished.isSome then s.startRetraction else s.beginTaken)
  | .travelling => if s.mp.move.isSome then none else some s.toRest
  | _ => none

/-! ## Trims complete (R66, R68, R69, R75, R79, R82) -/

/-- A held TRIM marker's index counts as sewn, its trim having completed (R32); a repair pass tells
the Repair Table (R159). -/
def State.trimSewn (s : State) : State :=
  match s.se.context with
  | some c =>
    match c.held with
    | some (.trim i) =>
      let before := s.frontier
      let s := s.sewnThrough i
      if c.kind = .repair then State.passIndices c.segment (s.frontier - before) before s else s
    | _ => s
  | none => s

/-- The replay latches of a segment go when it is marked sewn (R109). -/
def State.dropReplays (g : Nat) (s : State) : State :=
  s.forHeads (fun h => (s.head h).replay.elim false (·.1 == g))
    fun h s => s.setHead h { s.head h with replay := none }

/-- Steps 2 to 4 of R68. -/
def State.endMainPass (s : State) : State :=
  let g := s.activeNo
  let s := (s.closeSegmentRecords g (s.countOf g)).endIssue.endService
  ((s.dropReplays g).markSewn).clearPolicy

/-- A trim-only CHANGE ends: every trim of its request has ended (R94). After a mid-segment TRIM the pass
state stays CHANGE until the begin-pass request that follows is taken (DEDUCED, log 56). -/
def State.trimsComplete (aim : TrimAim) (s : State) : State :=
  let s := s.endTrimRequest
  let due := s.pc.due.isSome
  match aim with
  | .midMain =>
    let s := s.trimSewn
    if due then s.haltDue (.atStitch s.activeNo s.frontier, true)
    else s.continueIssue.goTo .change (.begin .onward)
  | .midRepair =>
    let s := s.trimSewn
    if due then s.haltDue s.stands else s.continueIssue.goTo .change (.begin .onward)
  | .endMain =>
    let g := s.activeNo
    let s := s.endMainPass
    if due then s.haltDue (.atEnd g, true) else s.repairsAtEnd g
  | .endRepair =>
    let at_ := s.stands
    let s := s.endIssue.endService.endRepairPass
    if due then s.haltDue at_ else s.goTo .change .schedule
  | .stopRepair => s.haltDue s.stands
  | .owed =>
    let s := { s with pc := { s.pc with owedTrims := 0 } }
    if due then s.haltDue s.stands else s.goOn
  | .repairRun =>
    let s := { s with pc := { s.pc with owedTrims := 0, trimmed := true } }
    if due then s.haltDue s.stands else s.startRepairs .run

/-! ## The drive -/

/-- The transition the part makes of itself, when there is one. -/
def State.microStep (s : State) : Option State :=
  match s.pc.phase with
  | .rest => none
  | .sew => none
  | .take => some s.stepTake
  | .choice aim => if s.anyShift then none else some (s.choiceComplete aim)
  | .travel aim => s.stepTravel aim
  | .begin _ => s.stepBegin
  | .trim aim => if s.anyTrim then none else some (s.trimsComplete aim)
  | .schedule => some s.stepSchedule

/-- Makes such transitions until the part has to wait, at most `fuel` of them. -/
def State.driveFor : (fuel : Nat) → State → State
  | 0, s => s
  | fuel + 1, s =>
    match s.microStep with
    | none => s
    | some s => State.driveFor fuel s

/-- The part goes on by itself as far as it can (DESIGN CHOICE, log 8). -/
def State.drive (s : State) : State := State.driveFor Config.driveBound s

end Sys2Proof.Machine
end

