-- ==== Sys2Proof/Machine/FrameRequests.lean ====
section
/-! DEFINITION. The host's requests to the Motion Planner: FRAME_SET and TABLE_WRITE (R56, R38). -/

namespace Sys2Proof.Machine

/-- The pass states in which the frame and the motion values may be set: IDLE, STANDBY, HALTED. -/
def PassState.settable : PassState → Bool
  | .idle => true
  | .standby => true
  | .halted => true
  | _ => false

/-- FRAME_SET (R56). -/
def execFrameSet (x y : BitVec 16) (s : State) : Host.Outcome State Fault Refusal :=
  whenOperating s fun s =>
    s.unless
      [ (!s.pc.state.settable, .busy),
        (!s.inField ⟨x.toInt, y.toInt⟩, .outOfField) ]
      fun s =>
        let s := { s with mp := { s.mp with
          position := ⟨x.toInt, y.toInt⟩
          referenced := true
          unfinished := none } }
        s.done []

/-- The entries from `first` on replaced by a list (R38). -/
def replaceFrom (table : List Nat) (first : Nat) (entries : List Nat) : List Nat :=
  table.take first ++ entries ++ table.drop (first + entries.length)

/-- TABLE_WRITE (R38): of the entries carried, the first `count` are written (R183); an axis byte above
1 is BAD_ARGUMENT, a list no frame carries a malformed request (DEDUCED, log 30). -/
def execTableWrite (axis first count : Byte) (entries : List (BitVec 16)) (s : State) :
    Host.Outcome State Fault Refusal :=
  whenOperating s fun s =>
    if (Instr.tableWrite axis first count entries).wellFormed then
      s.unless
        [ (!s.pc.state.settable, .busy),
          (decide (1 < axis.toNat) || decide (127 < first.toNat) || decide (count.toNat < 1) ||
            decide (32 < count.toNat) || decide (128 < first.toNat + count.toNat), .badArgument) ]
        fun s =>
          let list := (entries.take count.toNat).map (·.toNat)
          let s := if axis = 0 then { s with mp := { s.mp with tableX := replaceFrom s.mp.tableX first.toNat list } }
            else { s with mp := { s.mp with tableY := replaceFrom s.mp.tableY first.toNat list } }
          s.done []
    else s.badRequest

end Sys2Proof.Machine
end

