-- ==== Sys2Proof/Machine/ConfigRequests.lean ====
section
/-! DEFINITION. The parameters by identifier (R185), CONFIG_WRITE and CONFIG_READ (R175, R20, R35,
R57, R58, R98, R114, R130, R135, R177). -/

namespace Sys2Proof.Machine

/-! ## Ranges and values by identifier -/

/-- The parameter kinds that CONFIG_WRITE treats apart. -/
inductive ConfigKind where
  /-- A number with a range: identifiers 1 to 14 and 19 to 35. -/
  | number
  /-- A limit of the frame field: 15 to 18. -/
  | field
  /-- A set: 36 to 38. -/
  | set
  /-- No parameter. -/
  | absent
  deriving DecidableEq, Repr

/-- What an identifier names (R185). -/
def configKind (i : Nat) : ConfigKind :=
  if i < 1 then .absent
  else if i ≤ 14 then .number
  else if i ≤ 18 then .field
  else if i ≤ 35 then .number
  else if i ≤ 38 then .set
  else .absent

/-- The range of a number parameter, as the others stand (R20, R35, R57, R98, R114, R130). -/
def Params.range (p : Params) (i : Nat) : Nat × Nat :=
  match i with
  | 1 => (0, 65535)
  | 2 => (p.loadLow, 65535)
  | 3 => (0, 10)
  | 4 => (0, 20)
  | 5 => (10, 127)
  | 6 => (60, 400)
  | 7 => (p.sMin, 1200)
  | 8 => (1, 200)
  | 9 => (1, 200)
  | 10 => (60, 240)
  | 11 => (p.sMin, p.sMax)
  | 12 => (p.sMin, p.sMax)
  | 13 => (1, 64)
  | 14 => (1, 64)
  | 19 => (100, 5000)
  | 20 => (100, 2000)
  | 21 => (1, 8)
  | 22 => (0, 255)
  | 23 => (8, 24)
  | 24 => (1, 15)
  | 25 => (0, 63)
  | 26 => (0, 255)
  | 27 => (1, 4095)
  | 28 => (p.yellowMark, 4095)
  | 29 => (p.sMin, p.sMax)
  | 30 => (0, 15)
  | 31 => (0, 16777215)
  | 32 => (1, 15)
  | 33 => (1, 255)
  | 34 => (1, 255)
  | 35 => (1, 1024)
  | _ => (0, 0)

/-- The value stored for a value written: the nearest end of the range; an odd WINDOW_DEG the even
number below it (R57). -/
def Params.fitted (p : Params) (i v : Nat) : Nat :=
  let c := clampNat (p.range i).1 (p.range i).2 v
  if i = 10 then c - c % 2 else c

/-- A number parameter takes a value of its range, with the adjustments to a second parameter
(R20, R57, R130). -/
def Params.put (p : Params) (i v : Nat) : Params :=
  match i with
  | 1 => { p with loadLow := v, loadHigh := max p.loadHigh v }
  | 2 => { p with loadHigh := v }
  | 3 => { p with minStitch := v }
  | 4 => { p with tieLength := v }
  | 5 => { p with travelStep := v }
  | 6 => { p with
      sMin := v, sMax := max p.sMax v, jumpCap := max p.jumpCap v
      repairCap := max p.repairCap v, yellowCap := max p.yellowCap v }
  | 7 => { p with
      sMax := v, jumpCap := min p.jumpCap v, repairCap := min p.repairCap v
      yellowCap := min p.yellowCap v }
  | 8 => { p with accelUp := v }
  | 9 => { p with accelDown := v }
  | 10 => { p with windowDeg := v }
  | 11 => { p with jumpCap := v }
  | 12 => { p with repairCap := v }
  | 13 => { p with axisScaleX := v }
  | 14 => { p with axisScaleY := v }
  | 19 => { p with shiftTimeout := v }
  | 20 => { p with trimTimeout := v }
  | 21 => { p with silentRun := v }
  | 22 => { p with kAllow := v }
  | 23 => { p with gain := v }
  | 24 => { p with breakRun := v }
  | 25 => { p with tol := v }
  | 26 => { p with leak := v }
  | 27 => { p with yellowMark := v, redMark := max p.redMark v }
  | 28 => { p with redMark := v }
  | 29 => { p with yellowCap := v }
  | 30 => { p with bobbinAllow := v }
  | 31 => { p with bobbinLowMark := v }
  | 32 => { p with bobbinRun := v }
  | 33 => { p with stormWeight := v }
  | 34 => { p with stormMark := v }
  | 35 => { p with stormLeak := v }
  | _ => p

/-- A limit of the frame field takes a value (R58). -/
def Params.putField (p : Params) (i : Nat) (v : Int) : Params :=
  match i with
  | 15 => { p with fieldXLow := v }
  | 16 => { p with fieldXHigh := v }
  | 17 => { p with fieldYLow := v }
  | 18 => { p with fieldYHigh := v }
  | _ => p

/-- The value of a number parameter or of a field limit. -/
def Params.get (p : Params) (i : Nat) : Int :=
  match i with
  | 1 => p.loadLow
  | 2 => p.loadHigh
  | 3 => p.minStitch
  | 4 => p.tieLength
  | 5 => p.travelStep
  | 6 => p.sMin
  | 7 => p.sMax
  | 8 => p.accelUp
  | 9 => p.accelDown
  | 10 => p.windowDeg
  | 11 => p.jumpCap
  | 12 => p.repairCap
  | 13 => p.axisScaleX
  | 14 => p.axisScaleY
  | 15 => p.fieldXLow
  | 16 => p.fieldXHigh
  | 17 => p.fieldYLow
  | 18 => p.fieldYHigh
  | 19 => p.shiftTimeout
  | 20 => p.trimTimeout
  | 21 => p.silentRun
  | 22 => p.kAllow
  | 23 => p.gain
  | 24 => p.breakRun
  | 25 => p.tol
  | 26 => p.leak
  | 27 => p.yellowMark
  | 28 => p.redMark
  | 29 => p.yellowCap
  | 30 => p.bobbinAllow
  | 31 => p.bobbinLowMark
  | 32 => p.bobbinRun
  | 33 => p.stormWeight
  | 34 => p.stormMark
  | 35 => p.stormLeak
  | _ => 0

/-! ## CONFIG_WRITE (R175) -/

/-- The pass states in which a parameter may be written (R175). -/
def PassState.writable (st : PassState) (i : Nat) : Bool :=
  if 3 ≤ i ∧ i ≤ 14 then st.settable
  else if 15 ≤ i ∧ i ≤ 18 then st == .idle
  else true

def State.setParams (s : State) (p : Params) : State := { s with par := p }

/-- The write of a number parameter; the load marks have LOAD_WANT evaluated again (R20). -/
def State.writeNumber (i v : Nat) (s : State) : State :=
  let stored := s.par.fitted i v
  let s := s.setParams (s.par.put i stored)
  let s := if i ≤ 2 then s.evalLoad else s
  s.stored (stored != v)

/-- The low limit of an axis stands above its high limit. -/
def Params.fieldCrossed (p : Params) : Bool :=
  decide (p.fieldXHigh < p.fieldXLow) || decide (p.fieldYHigh < p.fieldYLow)

/-- The write of a limit of the frame field (R58). -/
def State.writeField (i : Nat) (v : Int) (s : State) : State :=
  let stored := clampInt (-16000) 16000 v
  let t := s.setParams (s.par.putField i stored)
  s.unless
    [ (t.par.fieldCrossed, .badArgument),
      (s.mp.referenced && !t.inField s.mp.position, .outOfField) ]
    fun s => (s.setParams (s.par.putField i stored)).stored (stored != v)

/-- The attention causes are seven (R181). -/
def attentionMask : BitVec 16 := 0x007F

/-- The kinds are thirteen (R181). -/
def kindMask : BitVec 16 := 0x1FFF

/-- The write of a set: members that do not exist are ignored (R175). -/
def State.writeSet (i : Nat) (v : BitVec 16) (s : State) : State :=
  let s :=
    match i with
    | 36 => { s with fr := { s.fr with enable := v &&& kindMask } }
    | 37 => { s with fr := { s.fr with countSelect := v &&& kindMask } }
    | _ => { s with rl := { s.rl with enable := v &&& attentionMask } }
  s.done []

/-- CONFIG_WRITE (R175); a value wider than its parameter is a malformed request (R185; DEDUCED,
log 30). -/
def execConfigWrite (ident : Byte) (value : BitVec 24) (s : State) : Host.Outcome State Fault Refusal :=
  whenOperating s fun s =>
    if (Instr.configWrite ident value).wellFormed then
      s.unless
        [ (configKind ident.toNat == .absent, .badArgument),
          (!s.pc.state.writable ident.toNat, .busy) ]
        fun s =>
          match configKind ident.toNat with
          | .number => s.writeNumber ident.toNat value.toNat
          | .field => s.writeField ident.toNat (value.setWidth 16).toInt
          | .set => s.writeSet ident.toNat (value.setWidth 16)
          | .absent => s
    else s.badRequest

/-! ## CONFIG_READ (R175) -/

/-- The value of a parameter as the link carries it (R185). -/
def State.configValue (s : State) (ident : Byte) : List Byte :=
  match ident.toNat with
  | 36 => beBytes 2 s.fr.enable.toNat
  | 37 => beBytes 2 s.fr.countSelect.toNat
  | 38 => beBytes 2 s.rl.enable.toNat
  | i => beBytes (configWidth ident) (s.par.get i)

/-- CONFIG_READ (R175). -/
def execConfigRead (ident : Byte) (s : State) : Host.Outcome State Fault Refusal :=
  whenOperating s fun s =>
    s.unless [(configKind ident.toNat == .absent, .badArgument)]
      fun s => s.done (s.configValue ident)

end Sys2Proof.Machine
end

