-- ==== Sys2Proof/Machine/Frames.lean ====
section
/-! DEFINITION. The frames of the request link (R172, R173, R181, R183): response frames as shifted
out, request frames as read, and the TRANSACTION command. -/

namespace Sys2Proof.Machine

/-! ## Response frames (R181) -/

/-- The frame of a response. -/
def Response.frame (r : Response) : List Byte :=
  withCrc (beBytes 1 r.result.code ++ beBytes 1 r.reason.code ++ beBytes 1 r.payload.length ++ r.payload)

/-- The responses that are link results (R174). -/
def noResponseFrame : List Byte := Response.frame ⟨.noResponse, .none, []⟩
def linkBusyFrame : List Byte := Response.frame ⟨.linkBusy, .none, []⟩

/-- The bytes shifted out in a transaction of `n` bytes: the frame, then filler (R172). -/
def shiftOut (frame : List Byte) (n : Nat) : List (Option Byte) :=
  (frame.take n).map some ++ List.replicate (n - frame.length) none

/-! ## Request frames (R181, R183) -/

def word16 (a b : Byte) : BitVec 16 := a ++ b
def word24 (a b c : Byte) : BitVec 24 := a ++ b ++ c
def word32 (a b c d : Byte) : BitVec 32 := a ++ b ++ c ++ d

/-- Stitch triples; nothing where the bytes are no whole number of triples. -/
def triples : List Byte → Option (List RawStitch)
  | [] => some []
  | dx :: dy :: kind :: rest => (triples rest).map (⟨dx, dy, kind⟩ :: ·)
  | _ => none

/-- Entries of two bytes; nothing where a byte is left over. -/
def entries16 : List Byte → Option (List (BitVec 16))
  | [] => some []
  | a :: b :: rest => (entries16 rest).map (word16 a b :: ·)
  | _ => none

/-- A SEG_WRITE of a stitch count and the bytes after it (R173, R181). -/
def segWriteOf (number offset : BitVec 16) (n : Byte) (rest : List Byte) : Option Instr :=
  match triples rest with
  | some ts => if ts.length = n.toNat ∧ 1 ≤ n.toNat ∧ n.toNat ≤ 64 then some (.segWrite number offset ts) else none
  | none => none

/-- A TABLE_WRITE of its 64 bytes of entries. -/
def tableWriteOf (axis first count : Byte) (rest : List Byte) : Option Instr :=
  match entries16 rest with
  | some es => if es.length = 32 then some (.tableWrite axis first count es) else none
  | none => none

/-- A CONFIG_WRITE whose value has the width of its identifier; an identifier that names no
parameter has the width of 2 bytes (R183, R185, DESIGN CHOICE, log 20). -/
def configWriteOf (ident : Byte) (value : List Byte) : Option Instr :=
  match value with
  | [a, b] => if configWidth ident = 2 then some (.configWrite ident (word24 0 a b)) else none
  | [a, b, c] => if configWidth ident = 3 then some (.configWrite ident (word24 a b c)) else none
  | _ => none

/-- The rule of a RULE_WRITE's 22 bytes after its number (R183). -/
def ruleOf : List Byte → Option RawRule
  | [pe, ae, ud, k1, k0, h1, h0, inv, pk, i1, i0, j1, j0, m1, m0, mf, re, c1, c0, bt, rj, sv] =>
    some
      { patternEnables := pe, actionEnables := ae, useDefaults := ud, kinds := word16 k1 k0
        heads := word16 h1 h0, invert := inv, passKind := pk, indexMin := word16 i1 i0
        indexMax := word16 j1 j0, minSpeed := word16 m1 m0, minFaults := mf, reaction := re
        speedCap := word16 c1 c0, backtrack := bt, rejoin := rj, severity := sv }
  | _ => none

/-- The request of a kind byte and a payload, when the kind names a request and the length suits it
(R173, R183). -/
def requestOf (kind : Nat) (payload : List Byte) : Option Instr :=
  match kind, payload with
  | 1, [n1, n0, h1, h0, rw, p1, p0, pb] => some (.jobOpen (word16 n1 n0) (word16 h1 h0) rw (word16 p1 p0) pb)
  | 2, [] => some .jobClose
  | 3, [] => some .start
  | 4, [] => some .stop
  | 5, [] => some .resume
  | 6, [] => some .repairRun
  | 7, [x1, x0, y1, y0] => some (.frameSet (word16 x1 x0) (word16 y1 y0))
  | 8, [n1, n0, t1, t0, c1, c0, x1, x0, y1, y0, f] =>
    some (.segOpen (word16 n1 n0) (word16 t1 t0) (word16 c1 c0) (word16 x1 x0) (word16 y1 y0) f)
  | 9, n1 :: n0 :: o1 :: o0 :: n :: rest => segWriteOf (word16 n1 n0) (word16 o1 o0) n rest
  | 10, [n1, n0, x3, x2, x1, x0, y3, y2, y1, y0] =>
    some (.segClose (word16 n1 n0) (word32 x3 x2 x1 x0) (word32 y3 y2 y1 y0))
  | 11, [n1, n0] => some (.segDiscard (word16 n1 n0))
  | 12, [n1, n0] => some (.segQuery (word16 n1 n0))
  | 13, [n1, n0, k1, k0] => some (.segLocate (word16 n1 n0) (word16 k1 k0))
  | 14, [h, n, g, c1, c0, st] => some (.needleSet h n g (word16 c1 c0) st)
  | 15, [h, n] => some (.needleQuery h n)
  | 16, [h, m] => some (.headMode h m)
  | 17, [h] => some (.headRejoin h)
  | 18, [h] => some (.headQuery h)
  | 19, [h] => some (.headClear h)
  | 20, [h, l2, l1, l0] => some (.headBobbin h (word24 l2 l1 l0))
  | 21, [p, s1, s0, h, f1, f0] => some (.repairList p (word16 s1 s0) h (word16 f1 f0))
  | 22, [b, w] => some (.repairCancel b w)
  | 23, [n] => some (.ruleWrite n none)
  | 23, n :: rest => (ruleOf rest).map fun r => .ruleWrite n (some r)
  | 24, [n] => some (.ruleRead n)
  | 25, a :: f :: c :: rest => tableWriteOf a f c rest
  | 26, i :: value => configWriteOf i value
  | 27, [i] => some (.configRead i)
  | 28, [] => some .status
  | 29, [] => some .attentionRead
  | 30, [] => some .nop
  | 31, [] => some .reset
  | _, _ => none

/-- The request a frame carries, when it passes the checks of R173; bytes after the frame are filler. -/
def frameRequest : List Byte → Option Instr
  | kind :: length :: rest =>
    let n := length.toNat
    let payload := rest.take n
    if n ≤ 200 ∧ n + 2 ≤ rest.length ∧
        (rest.drop n).take 2 = beBytes 2 (crc16 (kind :: length :: payload)).toNat then
      requestOf kind.toNat payload
    else none
  | _ => none

/-- What a frame received sets going. -/
def handlingOf (rx : List Byte) : Handling := (frameRequest rx).elim .malformed .request

/-! ## Frames of requests (R181, R183), written -/

def bytes16 (v : BitVec 16) : List Byte := [v.extractLsb' 8 8, v.extractLsb' 0 8]
def bytes24 (v : BitVec 24) : List Byte := [v.extractLsb' 16 8, v.extractLsb' 8 8, v.extractLsb' 0 8]
def bytes32 (v : BitVec 32) : List Byte :=
  [v.extractLsb' 24 8, v.extractLsb' 16 8, v.extractLsb' 8 8, v.extractLsb' 0 8]

/-- A rule in its 22 bytes after its number (R183). -/
def rawRuleBytes (r : RawRule) : List Byte :=
  [r.patternEnables, r.actionEnables, r.useDefaults] ++ bytes16 r.kinds ++ bytes16 r.heads ++
  [r.invert, r.passKind] ++ bytes16 r.indexMin ++ bytes16 r.indexMax ++ bytes16 r.minSpeed ++
  [r.minFaults, r.reaction] ++ bytes16 r.speedCap ++ [r.backtrack, r.rejoin, r.severity]

/-- Stitch triples as sent. -/
def tripleBytes (l : List RawStitch) : List Byte := l.flatMap fun t => [t.dx, t.dy, t.kind]

/-- A CONFIG_WRITE value at the width of its identifier (R185). -/
def configBytes (ident : Byte) (value : BitVec 24) : List Byte :=
  if configWidth ident = 3 then bytes24 value else bytes16 (value.setWidth 16)

/-- The kind and the payload of a request (R183); events of the machine have none. -/
def requestPayload (i : Instr) : Option (Nat × List Byte) :=
  match i with
  | .jobOpen n h rw p b => some (1, bytes16 n ++ bytes16 h ++ [rw] ++ bytes16 p ++ [b])
  | .jobClose => some (2, [])
  | .start => some (3, [])
  | .stop => some (4, [])
  | .resume => some (5, [])
  | .repairRun => some (6, [])
  | .frameSet x y => some (7, bytes16 x ++ bytes16 y)
  | .segOpen n t c x y f => some (8, bytes16 n ++ bytes16 t ++ bytes16 c ++ bytes16 x ++ bytes16 y ++ [f])
  | .segWrite n o l => some (9, bytes16 n ++ bytes16 o ++ [BitVec.ofNat 8 l.length] ++ tripleBytes l)
  | .segClose n x y => some (10, bytes16 n ++ bytes32 x ++ bytes32 y)
  | .segDiscard n => some (11, bytes16 n)
  | .segQuery n => some (12, bytes16 n)
  | .segLocate n k => some (13, bytes16 n ++ bytes16 k)
  | .needleSet h n g c st => some (14, [h, n, g] ++ bytes16 c ++ [st])
  | .needleQuery h n => some (15, [h, n])
  | .headMode h m => some (16, [h, m])
  | .headRejoin h => some (17, [h])
  | .headQuery h => some (18, [h])
  | .headClear h => some (19, [h])
  | .headBobbin h l => some (20, [h] ++ bytes24 l)
  | .repairList p s h f => some (21, [p] ++ bytes16 s ++ [h] ++ bytes16 f)
  | .repairCancel b w => some (22, [b, w])
  | .ruleWrite n none => some (23, [n])
  | .ruleWrite n (some r) => some (23, [n] ++ rawRuleBytes r)
  | .ruleRead n => some (24, [n])
  | .tableWrite a f c es => some (25, [a, f, c] ++ es.flatMap bytes16)
  | .configWrite k v => some (26, [k] ++ configBytes k v)
  | .configRead k => some (27, [k])
  | .status => some (28, [])
  | .attentionRead => some (29, [])
  | .nop => some (30, [])
  | .reset => some (31, [])
  | .transaction _ => none
  | .estopAssert => none
  | .estopRelease => none
  | .powerFailWarning _ => none
  | .warningClear => none
  | .powerReturn _ => none
  | .resetLineAssert => none
  | .resetLineRelease => none
  | .shaftAngleChange _ => none
  | .spindleAtRest => none
  | .moveCompletion => none
  | .standstillExchange => none
  | .headReport _ _ => none
  | .reportDue _ => none
  | .shiftTimerExpiry _ => none
  | .trimTimerExpiry _ => none
  | .mainSupplyFailure => none
  | .backupFailure => none

/-- The frame of a request: kind, length, payload, CRC (R181). -/
def requestFrame (i : Instr) : Option (List Byte) :=
  (requestPayload i).map fun kp =>
    withCrc (BitVec.ofNat 8 kp.1 :: BitVec.ofNat 8 kp.2.length :: kp.2)

/-! ## The transaction (R172, R173, R179) -/

def State.shifted (out : List (Option Byte)) (s : State) : State :=
  { s with rl := { s.rl with shiftedOut := out } }

def State.setSlot (slot : Slot) (s : State) : State := { s with rl := { s.rl with slot := slot } }

/-- A transaction the part does not take: filler goes out, what comes in is discarded (R179). -/
def State.discardTransaction (rx : List Byte) (s : State) : State :=
  s.shifted (List.replicate rx.length none)

/-- A transaction the part takes (R172): the slot's response goes out, the frame is handled next. -/
def State.takeTransaction (frame rx : List Byte) (s : State) : State :=
  (s.shifted (shiftOut frame rx.length)).setSlot (.pending (handlingOf rx))

/-- TRANSACTION (R172, R173). -/
def execTransaction (rx : List Byte) (s : State) : Host.Outcome State Fault Refusal :=
  .next <|
    if s.sm.powered && !s.sm.resetLine then
      match s.rl.slot with
      | .pending _ => s.shifted (shiftOut linkBusyFrame rx.length)
      | .ready r => if s.sm.resetWaits then s.discardTransaction rx else s.takeTransaction r.frame rx
      | .noResponse =>
        if s.sm.resetWaits then s.discardTransaction rx else s.takeTransaction noResponseFrame rx
    else s.discardTransaction rx

end Sys2Proof.Machine
end

