-- ==== Sys2Proof/Machine/HeadEvents.lean ====
section
/-! DEFINITION. The events of the head link: STANDSTILL_EXCHANGE, HEAD_REPORT, REPORT_DUE,
SHIFT_TIMER_EXPIRY, TRIM_TIMER_EXPIRY (R92, R94, R100 to R102). -/

namespace Sys2Proof.Machine

/-- STANDSTILL_EXCHANGE (R100): made at every time but in RUNNING, with every latch UP; a report still
awaited is given up without a due time (DESIGN CHOICE, log 34). -/
def execStandstillExchange (s : State) : Host.Outcome State Fault Refusal :=
  whenOperating s fun s =>
    if s.mp.mode = .running then s else s.exchange false 0 none

/-- A report of the head is awaited. -/
def State.awaits (s : State) (h : HeadId) : Bool := s.polled h && (s.head h).awaiting

/-- HEAD_REPORT (R101, R102, R186): a report taken when due; any other message is not taken. -/
def execHeadReport (head : HeadId) (message : List Byte) (s : State) : Host.Outcome State Fault Refusal :=
  whenOperating s fun s =>
    if s.awaits head then
      match parseReport head message with
      | some r => (s.takeReport head r).drive
      | none => s
    else s

/-- REPORT_DUE (R101): the due time has come with the report not taken; without effect where none is
awaited (DESIGN CHOICE, log 33). -/
def execReportDue (head : HeadId) (s : State) : Host.Outcome State Fault Refusal :=
  whenOperating s fun s => if s.awaits head then (s.missReport head).drive else s

/-- An order whose timer runs: its first exchange has carried it (R91, R94). -/
def OrderPhase.timed : OrderPhase → Bool
  | .unsent => false
  | _ => true

/-- SHIFT_TIMER_EXPIRY (R92): the shift fails with NEEDLE_SHIFT_FAIL; without effect where no shift
timer runs (DESIGN CHOICE, log 33). -/
def execShiftTimerExpiry (head : HeadId) (s : State) : Host.Outcome State Fault Refusal :=
  whenOperating s fun s =>
    match (s.sel head).shift with
    | some sh =>
      if sh.order.timed then
        ((s.failShift head).resolveGroup head [selectorFault .needleShiftFail (some sh.target)]).drive
      else s
    | none => s

/-- The last index sewn, when there is one (R94): one below the sewn frontier (DEDUCED, log 38). -/
def State.lastSewn (s : State) : Option Nat := if s.frontier = 0 then none else some (s.frontier - 1)

/-- The context of TRIM_FAIL (R94). The trims that a soft halt makes in a repair pass still have the pass's
working context (DEDUCED, log 57). -/
def State.trimContext (s : State) (h : HeadId) : FaultContext where
  kind := .trimFail
  segment := s.ts.working.map (·.segment)
  index := s.ts.working.bind fun _ => s.lastSewn
  needle := (s.sel h).current
  pass := s.ts.working.map (·.kind)
  expected := none
  measured := none

/-- TRIM_TIMER_EXPIRY (R94): the trim fails with TRIM_FAIL; without effect where no trim timer runs
(DESIGN CHOICE, log 33). -/
def execTrimTimerExpiry (head : HeadId) (s : State) : Host.Outcome State Fault Refusal :=
  whenOperating s fun s =>
    match (s.sel head).trim with
    | some t =>
      if t.order.timed then
        let s := s.setSel head { s.sel head with trim := none }
        (s.resolveGroup head [s.trimContext head]).drive
      else s
    | none => s

end Sys2Proof.Machine
end

