-- ==== Sys2Proof/Machine/PassRequests.lean ====
section
/-! DEFINITION. The host's requests to the Pass Controller: JOB_OPEN, JOB_CLOSE, START, STOP, RESUME,
REPAIR_RUN (R61 to R63, R74, R79, R82). -/

namespace Sys2Proof.Machine

/-! ## JOB_OPEN (R61, R21) -/

/-- A head record as an accepted JOB_OPEN leaves it (R61): its last report is none, and the needle to
select stays the needle last reported (DESIGN CHOICE, log 48). -/
def HeadRecord.atJobOpen (r : HeadRecord) (inJob : Bool) : HeadRecord :=
  { r with
    state := if inJob then .active else .excluded
    silentRun := 0
    silentRaised := false
    driveSeen := false
    lastReport := none }

/-- An accepted JOB_OPEN: STANDBY with no resume context, the heads in and out of the job, the
load-ahead opened (R61, R21). -/
def State.openJob (s : State) (job : Job) : State :=
  let s := s.clearContext
  let s := { s with pc := { s.pc with state := .standby, cause := .none, due := none, job := some job, phase := .rest } }
  let s := s.forHeads (fun _ => true) fun h s => s.setHead h ((s.head h).atJobOpen (inSet job.heads h))
  ({ s with ds := { s.ds with mark := none, markThread := 0 } }).evalLoad

/-- JOB_OPEN (R61, R166). -/
def execJobOpen (segments heads : BitVec 16) (repairWhen : Byte) (pinCeiling : BitVec 16)
    (powerBacktrack : Byte) (s : State) : Host.Outcome State Fault Refusal :=
  whenOperating s fun s =>
    s.unless
      [ (s.sm.warned, .busy),
        (s.jobOpen, .busy),
        (decide (segments = 0) || decide (heads = 0) || (repairWhenOf repairWhen).isNone, .badArgument) ]
      fun s =>
        let job : Job :=
          { segments := segments.toNat, heads := heads
            repairWhen := (repairWhenOf repairWhen).getD .segmentEnd
            pinCeiling := min pinCeiling.toNat 4096
            powerBacktrack := min powerBacktrack.toNat 63 }
        (s.openJob job).stored (decide (4096 < pinCeiling.toNat) || decide (63 < powerBacktrack.toNat))

/-! ## JOB_CLOSE (R62) -/

/-- A head record as a job's end, or its exclusion, leaves it: EXCLUDED, no replay latch, not polled,
no report awaited (DEDUCED, log 37). -/
def HeadRecord.leaveJob (r : HeadRecord) : HeadRecord :=
  { r with state := .excluded, replay := none, awaiting := false }

/-- Every repair record retired with the segments it pins freed at the same time (R62, R164). -/
def State.dropRecords (s : State) : State :=
  { s with rt := { s.rt with records := [], roundMark := none, retiredInPass := false, pass := none } }

/-- An accepted JOB_CLOSE (R62, R21, R88, R116): the staged edits are applied while the segments
still stand (DESIGN CHOICE, log 16). -/
def State.closeJob (s : State) : State :=
  let s := s.applyStagedEdits.dropRecords.freeAll
  let s := s.forHeads (fun _ => true) fun h s => (s.setHead h (s.head h).leaveJob).clearMeter h
  let s := s.clearPolicy.clearContext.clearWorking
  { s with pc := { s.pc with state := .idle, cause := .none, due := none, job := none, phase := .rest } }

/-- JOB_CLOSE is accepted in STANDBY, HALTED and FINISHED (R62). -/
def PassState.closes : PassState → Bool
  | .standby => true
  | .halted => true
  | .finished => true
  | _ => false

/-- JOB_CLOSE (R62). -/
def execJobClose (s : State) : Host.Outcome State Fault Refusal :=
  whenOperating s fun s =>
    s.unless [(!s.pc.state.closes, .busy)] fun s => s.closeJob.done []

/-! ## START (R63) -/

/-- START (R63, R166). -/
def execStart (s : State) : Host.Outcome State Fault Refusal :=
  whenOperating s fun s =>
    s.unless
      [ (s.sm.warned, .busy),
        (!s.jobOpen, .noJob),
        (s.pc.state != .standby, .busy),
        (!s.mp.referenced, .unreferenced),
        (!s.tablesValid, .tableInvalid),
        (s.sm.estopInput, .estopActive) ]
      fun s => (s.accepted.goTo .change .take).drive

/-! ## STOP (R74) -/

/-- STOP (R74): a soft halt, a pending halt, the end of a STARVED wait, or nothing. -/
def execStop (s : State) : Host.Outcome State Fault Refusal :=
  whenOperating s fun s =>
    s.unless [(!s.jobOpen, .noJob)] fun s =>
      match s.pc.state with
      | .halted =>
        if s.pc.cause = .starved then (s.changeCause .stopRequest).done [] else s.done []
      | .standby => s.done []
      | .finished => s.done []
      | _ => (s.accepted.askHalt .stopRequest).drive

/-! ## RESUME (R79, R80) -/

/-- The segment of the resume point, 0 where it names none. -/
def State.pointSegment (s : State) : Nat :=
  match s.pc.point with
  | some (.atStitch g _) => g
  | some (.atEnd g) => g
  | _ => 0

/-- The heads of the faulted set that are OFF or BENCHED, in head order. -/
def State.faultedOut (s : State) : List HeadId :=
  allHeads.filter fun h => (s.pc.faulted[h]).isSome && s.isOut h

/-- The records a resume owes the faulted heads of a list: one from its target for each that has
one (R79); the first REPAIR_FULL answer ends the requests of this RESUME (DEDUCED, log 53), and `false`
says that it came. -/
def State.recordFaulted (g : Nat) : List HeadId → State → State × Bool
  | [], s => (s, true)
  | h :: rest, s =>
    match s.faultedTarget h with
    | none => State.recordFaulted g rest s
    | some t =>
      match s.openRequest h g t ((s.pc.faulted[h]).elim .carry (·.cause)) with
      | some s => State.recordFaulted g rest (s.dropFaulted h)
      | none => (s, false)

/-- The records the resume context owes (R79): the carry records, then the faulted heads'. -/
def State.settleOwed (s : State) : State × Bool :=
  let g := s.pointSegment
  let carried := if s.pc.carryOwed then State.carryFor g 0 allHeads s else (s, none)
  match carried with
  | (s, some _) => (s, false)
  | (s, none) => State.recordFaulted g s.faultedOut s

/-- What follows once the records are settled (R79): owed trims, then the resume point. -/
def State.resumeSettled (s : State) : State :=
  let s := s.faultedOut.foldl (fun s h => s.dropFaulted h) s
  let s := { s with pc := { s.pc with carryOwed := false, resumeCause := s.pc.cause } }
  if s.pc.owedTrims = 0 then s.goOn
  else (s.goTo .change (.trim .owed)).requestTrim s.pc.owedTrims

/-- RESUME (R79, R166). -/
def execResume (s : State) : Host.Outcome State Fault Refusal :=
  whenOperating s fun s =>
    s.unless
      [ (s.sm.warned, .busy),
        (!s.jobOpen, .noJob),
        (s.pc.state != .halted || s.pc.cause == .starved, .busy),
        (!s.mp.referenced, .unreferenced),
        (s.sm.estopInput, .estopActive),
        (!s.tablesValid, .tableInvalid) ]
      fun s =>
        match s.accepted.settleOwed with
        | (s, false) => s.changeCause .repairFull
        | (s, true) => s.resumeSettled.drive

/-! ## REPAIR_RUN (R82) -/

/-- The halt causes from which REPAIR_RUN is accepted (R82). -/
def HaltCause.permitsRun : HaltCause → Bool
  | .stopRequest => true
  | .designPause => true
  | .starved => true
  | .pinCeiling => true
  | .repairsOutstanding => true
  | .powerLoss => true
  | .reset => true
  | _ => false

/-- The heads a REPAIR_RUN trims first (R82 step 1). -/
def State.runTrims (s : State) : HeadSet :=
  let last := s.pc.point.elim false (·.isStitch) && !s.pc.trimmed
  if last then s.pc.owedTrims ||| s.trimSet else s.pc.owedTrims

/-- REPAIR_RUN (R82, R166). -/
def execRepairRun (s : State) : Host.Outcome State Fault Refusal :=
  whenOperating s fun s =>
    s.unless
      [ (s.sm.warned, .busy),
        (!s.jobOpen, .noJob),
        (s.pc.state != .halted || !s.pc.cause.permitsRun, .busy),
        (!s.mp.referenced, .unreferenced),
        (s.sm.estopInput, .estopActive),
        (!s.tablesValid, .tableInvalid) ]
      fun s =>
        if s.rt.records.any s.eligible then
          let set := s.runTrims
          let s := { s.accepted with pc := { s.pc with runCause := s.pc.cause } }
          ((s.goTo .change (.trim .repairRun)).requestTrim set).drive
        else s.done []

end Sys2Proof.Machine
end

