-- ==== Sys2Proof/Machine/HeadRequests.lean ====
section
/-! DEFINITION. The host's requests to the Head Supervisor and the Thread Meter: HEAD_MODE,
HEAD_REJOIN, HEAD_QUERY, HEAD_CLEAR, HEAD_BOBBIN (R105, R111 to R113, R124). -/

namespace Sys2Proof.Machine

/-! ## HEAD_MODE (R111) -/

/-- The job's set of heads becomes another one. -/
def State.setJobHeads (s : State) (heads : HeadSet) : State :=
  { s with pc := { s.pc with job := s.pc.job.map fun j => { j with heads := heads } } }

/-- A head in the job is excluded (R111, R164). -/
def State.excludeHead (s : State) (h : HeadId) : State :=
  let s := (s.setJobHeads (s.jobHeads &&& ~~~ (single h))).retireHead h
  let s := s.setHead h { (s.head h).leaveJob with inTrim := false }
  let s := (s.clearMeter h).dropFaulted h
  let s := { s with pc := { s.pc with owedTrims := s.pc.owedTrims &&& ~~~ (single h) } }
  s.computeUnthreaded

/-- An EXCLUDED head is included (R111). -/
def State.includeHead (s : State) (h : HeadId) : State :=
  let s := s.setJobHeads (s.jobHeads ||| single h)
  let state : HeadState := if s.pc.state = .standby then .active else .rejoinWait
  let s := s.setHead h { s.head h with
    state := state, silentRun := 0, silentRaised := false, driveSeen := false }
  s.computeUnthreaded

/-- HEAD_MODE (R111). -/
def execHeadMode (head mode : Byte) (s : State) : Host.Outcome State Fault Refusal :=
  whenOperating s fun s =>
    match headOf head with
    | some h =>
      s.unless
        [ (decide (1 < mode.toNat), .badArgument),
          (!s.jobOpen, .noJob),
          (s.pc.state != .standby && s.pc.state != .halted, .busy),
          (mode == 1 && s.jobHeads == single h, .badArgument) ]
        fun s =>
          if mode = 1 ∧ inSet s.jobHeads h then (s.excludeHead h).done []
          else if mode = 0 ∧ ¬ inSet s.jobHeads h then (s.includeHead h).done []
          else s.done []
    | none => s.refuse .badArgument

/-! ## HEAD_REJOIN (R105) -/

/-- HEAD_REJOIN is refused BUSY for a head in one of these states. -/
def HeadState.busyToRejoin : HeadState → Bool
  | .excluded => true
  | .active => true
  | .shifting _ => true
  | _ => false

/-- What an accepted HEAD_REJOIN does to the head (R105, R128); its rejoin mode stays (DEDUCED, log 32). -/
def State.rejoinHead (s : State) (h : HeadId) : State :=
  match (s.head h).state with
  | .off => s.setHeadState h .rejoinWait
  | .benched =>
    (s.setHeadState h .rejoinWait).setMeter h { s.meter h with storm := 0, stormLeak := 0 }
  | _ => s

/-- HEAD_REJOIN (R105). -/
def execHeadRejoin (head : Byte) (s : State) : Host.Outcome State Fault Refusal :=
  whenOperating s fun s =>
    match headOf head with
    | some h =>
      s.unless
        [ (!s.jobOpen, .noJob),
          ((s.head h).state.busyToRejoin, .busy) ]
        fun s => (s.rejoinHead h).done []
    | none => s.refuse .badArgument

/-! ## HEAD_QUERY (R112) -/

/-- The flags of the head report (R184). -/
def State.headFlags (s : State) (h : HeadId) : Nat :=
  let r := s.head h
  boolCode r.driveSeen + 2 * boolCode r.inTrim + 4 * boolCode (r.lastReport.elim false (·.bobbin)) +
  8 * boolCode (r.lastReport.elim false (·.button)) + 16 * boolCode (s.meter h).lowArmed +
  32 * boolCode (s.faultHead h).overflow + 64 * boolCode r.lastReport.isSome

/-- A first-fault record as the head report gives it (R184); the places of a segment, E or M that the
context lacks are not stated (DESIGN CHOICE, log 6). -/
def faultBytes (h : HeadId) (c : Option FaultContext) : List Byte :=
  beBytes 1 (c.elim 0 (·.kind.code)) ++
  beBytes 2 ((c.bind (·.segment)).getD (Config.unstated .faultSegment h).toNat) ++
  beBytes 2 ((c.bind (·.index)).getD 65535) ++
  beBytes 1 (needleNumber (c.bind (·.needle))) ++
  beBytes 1 (passKindCode (c.bind (·.pass))) ++
  beBytes 2 ((c.bind (·.expected)).getD (Config.unstated .faultExpected h).toNat) ++
  beBytes 2 ((c.bind (·.measured)).getD (Config.unstated .faultMeasured h).toNat)

/-- The head report (R112, R184). -/
def State.headReport (s : State) (h : HeadId) : List Byte :=
  let r := s.head h
  let m := s.meter h
  let f := s.faultHead h
  beBytes 1 r.state.code ++ beBytes 1 r.rejoin.code ++ beBytes 1 (boolCode r.replay.isSome) ++
  beBytes 2 (r.replay.elim (Config.unstated .latchSegment h).toNat (·.1)) ++
  beBytes 2 (r.replay.elim 65535 (·.2)) ++
  beBytes 1 r.silentRun ++ beBytes 1 (s.headFlags h) ++
  beBytes 1 (needleNumber (r.lastReport.bind (·.needle))) ++
  beBytes 1 (needleNumber (s.sel h).current) ++
  beBytes 1 (needleNumber ((s.sel h).shift.map (·.target))) ++
  beBytes 4 r.sewn ++ beBytes 4 r.sewnRepair ++ beBytes 1 m.breakRun ++ beBytes 2 m.loose ++
  beBytes 2 m.tight ++ beBytes 1 m.colour.code ++ beBytes 3 m.bobbin ++ beBytes 1 m.bobbinAbsent ++
  beBytes 1 m.storm ++ beBytes 2 m.stormLeak ++ faultBytes h f.first ++
  beBytes 1 (f.latest.elim 0 (·.code)) ++ beBytes 1 f.count

/-- HEAD_QUERY (R112). -/
def execHeadQuery (head : Byte) (s : State) : Host.Outcome State Fault Refusal :=
  whenOperating s fun s =>
    match headOf head with
    | some h => s.done (s.headReport h)
    | none => s.refuse .badArgument

/-! ## HEAD_CLEAR, HEAD_BOBBIN (R113, R124) -/

/-- HEAD_CLEAR (R113, R146). -/
def execHeadClear (head : Byte) (s : State) : Host.Outcome State Fault Refusal :=
  whenOperating s fun s =>
    match headOf head with
    | some h =>
      let s := s.setHead h { s.head h with sewn := 0, sewnRepair := 0 }
      (s.setFaultHead h { first := none, latest := none, count := 0, overflow := false }).done []
    | none => s.refuse .badArgument

/-- HEAD_BOBBIN (R124). -/
def execHeadBobbin (head : Byte) (length : BitVec 24) (s : State) : Host.Outcome State Fault Refusal :=
  whenOperating s fun s =>
    match headOf head with
    | some h =>
      (s.setMeter h { s.meter h with
        bobbin := length.toNat, lowArmed := true, bobbinAbsent := 0 }).done []
    | none => s.refuse .badArgument

end Sys2Proof.Machine
end

