-- ==== Sys2Proof/Machine/LinkRequests.lean ====
section
/-! DEFINITION. The host's requests to the Request Link itself: STATUS, ATTENTION_READ, NOP (R176,
R178, R65, R184). -/

namespace Sys2Proof.Machine

/-- The controller is in a repair pass as STATUS sees it: REPAIR, or STOPPING in a repair pass. -/
def State.reportsRepair (s : State) : Bool :=
  s.pc.state == .repair || (s.pc.state == .stopping && s.mp.passKind == .repair)

/-- The active segment that STATUS reports (R65). -/
def State.reportedSegment (s : State) : Option Nat :=
  if s.reportsRepair then s.ds.served
  else if s.pc.state = .halted then
    match s.pc.point with
    | some (.atStitch g _) => some g
    | some (.atEnd g) => some g
    | _ => none
  else s.activeNumber

/-- The current index that STATUS reports (R65): none where no index is given (DEDUCED, log 17). -/
def State.reportedIndex (s : State) : Option Nat :=
  match s.pc.state with
  | .sewing => some s.frontier
  | .stopping => some s.frontier
  | .repair => some s.frontier
  | .halted =>
    match s.pc.point with
    | some (.atStitch _ k) => some k
    | _ => none
  | _ => none

/-- The planned speed that STATUS reports (R176). -/
def State.reportedSpeed (s : State) : Nat :=
  if s.mp.mode = .running then s.mp.prevSpeed.getD 0 else 0

/-- The status report (R184). -/
def State.statusReport (s : State) : List Byte :=
  beBytes 1 s.pc.state.code ++ beBytes 1 s.pc.cause.code ++ beBytes 2 s.mp.position.x ++
  beBytes 2 s.mp.position.y ++ beBytes 1 (boolCode s.mp.referenced) ++
  beBytes 2 (s.reportedSegment.getD 65535) ++ beBytes 2 (s.reportedIndex.getD 65535) ++
  beBytes 2 s.reportedSpeed ++ beBytes 2 s.ds.pool.length ++
  beBytes 3 (if s.jobOpen then s.readyAhead else 0) ++
  beBytes 2 (if s.jobOpen then s.nextWanted else 65535) ++ beBytes 1 s.rt.records.length ++
  allHeads.flatMap fun h => beBytes 1 (s.head h).state.code

/-- STATUS (R176). -/
def execStatus (s : State) : Host.Outcome State Fault Refusal :=
  whenOperating s fun s => s.done s.statusReport

/-- ATTENTION_READ (R178): the sticky causes are cleared as the request is taken. -/
def execAttentionRead (s : State) : Host.Outcome State Fault Refusal :=
  whenOperating s fun s =>
    let report := beBytes 2 s.pendingSet.toNat ++ beBytes 1 s.sm.startKind.code
    ({ s with rl := { s.rl with sticky := 0 } }).done report

/-- NOP (R176). -/
def execNop (s : State) : Host.Outcome State Fault Refusal := whenOperating s fun s => s.done []

end Sys2Proof.Machine
end

