-- ==== Sys2Proof/Machine/NeedleRequests.lean ====
section
/-! DEFINITION. The host's requests to the Thread Selector: NEEDLE_SET and NEEDLE_QUERY (R85 to R87). -/

namespace Sys2Proof.Machine

/-- The pass states in which a current needle is in use (R85): SEWING, REPAIR, STOPPING. -/
def PassState.sews : PassState → Bool
  | .sewing => true
  | .repair => true
  | .stopping => true
  | _ => false

/-- The edit a NEEDLE_SET carries (R85, R183). -/
def needleEdit (given : Byte) (code : BitVec 16) (state : Byte) : StagedEdit where
  code := if given.getLsbD 0 then some code.toNat else none
  disabled := if given.getLsbD 1 then some (state == 1) else none

/-- The edit is staged (R85). -/
def State.stages (s : State) (h : HeadId) (n : NeedleId) (edit : StagedEdit) : Bool :=
  (s.sel h).current == some n && s.pc.state.sews && edit.disabled != some true

/-- The index a withdrawal carries (R86): in CHANGE and TRAVEL the begin index of the needle choice, also in the
trim-only CHANGE after a mid-segment TRIM, where sewing goes on after the TRIM (DESIGN CHOICE, log 63). -/
def State.withdrawalIndex (s : State) (w : Working) : Nat :=
  if s.pc.state.sews then s.frontier else w.beginIndex

/-- The withdrawal check raises NEEDLE_WITHDRAWN (R86); `before` is the entry before the edit. -/
def State.withdraws (s : State) (h : HeadId) (n : NeedleId) (before : NeedleEntry) (w : Working) : Bool :=
  (s.head h).state == .active && (w.kind == .main || inSet w.involved h) &&
  (s.sel h).current == some n && before.fit w.thread && !(s.needle h n).fit w.thread

/-- The withdrawal check after an edit applied at once (R86). -/
def State.withdrawalCheck (h : HeadId) (n : NeedleId) (before : NeedleEntry) (s : State) : State :=
  match s.ts.working with
  | some w =>
    if s.withdraws h n before w then
      s.resolveGroup h
        [{ kind := .needleWithdrawn, segment := some w.segment, index := some (s.withdrawalIndex w)
           needle := some n, pass := some w.kind, expected := none, measured := none }]
    else s
  | none => s

/-- NEEDLE_SET (R85, R86, R96). -/
def execNeedleSet (head needle given : Byte) (code : BitVec 16) (state : Byte) (s : State) :
    Host.Outcome State Fault Refusal :=
  whenOperating s fun s =>
    match headOf head, needleOf needle with
    | some h, some n =>
      s.unless
        [ ((!given.getLsbD 0 && !given.getLsbD 1) || (given.getLsbD 1 && decide (1 < state.toNat)),
            .badArgument) ]
        fun s =>
          let edit := needleEdit given code state
          let before := s.needle h n
          if s.stages h n edit then
            (s.setNeedle h n { before with staged := some edit }).done (beBytes 1 1)
          else
            let s := (s.setNeedle h n (before.edit edit)).done (beBytes 1 0)
            (s.computeUnthreaded.withdrawalCheck h n before).drive
    | _, _ => s.refuse .badArgument

/-- Needle state codes: READY 0, DISABLED 1 (R182). -/
def needleStateCode (disabled : Bool) : Nat := boolCode disabled

/-- The answer to NEEDLE_QUERY (R87, R183); what an absent staged code or state reads as is not
stated (DESIGN CHOICE, log 6). -/
def State.needleReport (s : State) (h : HeadId) (n : NeedleId) : List Byte :=
  let e := s.needle h n
  let code := e.staged.bind (·.code)
  let state := e.staged.bind (·.disabled)
  beBytes 2 e.code ++ beBytes 1 (needleStateCode e.disabled) ++
  beBytes 1 (boolCode code.isSome + 2 * boolCode state.isSome) ++
  beBytes 2 (code.getD (Config.unstated .stagedCode h).toNat) ++
  beBytes 1 ((state.map needleStateCode).getD (Config.unstated .stagedState h).toNat) ++
  beBytes 1 (needleNumber (s.sel h).current) ++
  beBytes 1 (needleNumber ((s.sel h).shift.map (·.target)))

/-- NEEDLE_QUERY (R87). -/
def execNeedleQuery (head needle : Byte) (s : State) : Host.Outcome State Fault Refusal :=
  whenOperating s fun s =>
    match headOf head, needleOf needle with
    | some h, some n => s.done (s.needleReport h n)
    | _, _ => s.refuse .badArgument

end Sys2Proof.Machine
end

