-- ==== Sys2Proof/Machine/PolicyRequests.lean ====
section
/-! DEFINITION. The host's requests to the Fault Resolver: RULE_WRITE and RULE_READ (R137). -/

namespace Sys2Proof.Machine

/-- The sets of kinds hold thirteen members; other bits are ignored when received (R181). -/
def kindSetMask : BitVec 16 := 0x1FFF

/-- A pass kind byte as a rule stores it: 0 (absent) is kept where the field is disabled (DESIGN CHOICE, log 7). -/
def passKindOf (b : Byte) : Option (Option PassKind) :=
  match b.toNat with
  | 0 => some none
  | 1 => some (some .main)
  | 2 => some (some .repair)
  | _ => none

/-- The enumerated values of a rule as sent are all listed ones (R137, DESIGN CHOICE, log 7). -/
def rawEnumsListed (r : RawRule) : Bool :=
  (reactionOf r.reaction).isSome && (rejoinOf r.rejoin).isSome && (severityOf r.severity).isSome &&
  (passKindOf r.passKind).isSome && !(r.patternEnables.getLsbD 2 && r.passKind == 0)

/-- A rule as sent is refused BAD_ARGUMENT (R137). -/
def rawBad (r : RawRule) : Bool :=
  !rawEnumsListed r || (r.patternEnables.getLsbD 3 && decide (r.indexMax.toNat < r.indexMin.toNat)) ||
  decide (127 < r.minFaults.toNat)

/-- A rule as sent holds a value above its range (R137). -/
def rawClamps (r : RawRule) : Bool :=
  decide (1200 < r.speedCap.toNat) || decide (1200 < r.minSpeed.toNat) || decide (63 < r.backtrack.toNat)

/-- An action field of a rule as sent; action a is bit a of the enables and of the flags (R183). -/
def rawAction {α : Type} (r : RawRule) (bit : Nat) (value : α) : Action α :=
  ⟨r.actionEnables.getLsbD bit, r.useDefaults.getLsbD bit, value⟩

/-- The rule stored for one as sent (R137, R183); an invert byte other than 0 is on (DESIGN CHOICE,
log 29). -/
def storedRule (r : RawRule) : PolicyRule where
  byKind := r.patternEnables.getLsbD 0
  byHead := r.patternEnables.getLsbD 1
  byPass := r.patternEnables.getLsbD 2
  byIndex := r.patternEnables.getLsbD 3
  bySpeed := r.patternEnables.getLsbD 4
  byFaults := r.patternEnables.getLsbD 5
  kinds := r.kinds &&& kindSetMask
  heads := r.heads
  invert := r.invert != 0
  passKind := (passKindOf r.passKind).getD none
  indexMin := r.indexMin.toNat
  indexMax := r.indexMax.toNat
  minSpeed := min r.minSpeed.toNat 1200
  minFaults := r.minFaults.toNat
  reaction := rawAction r 0 ((reactionOf r.reaction).getD .continue_)
  speedCap := rawAction r 1 (min r.speedCap.toNat 1200)
  backtrack := rawAction r 2 (min r.backtrack.toNat 63)
  rejoin := rawAction r 3 ((rejoinOf r.rejoin).getD .auto)
  severity := rawAction r 4 ((severityOf r.severity).getD .notice)

/-- A rule takes the place of that of a number below 32. -/
def State.setRule (s : State) (n : Nat) (rule : PolicyRule) : State :=
  { s with fr := { s.fr with rules := s.fr.rules.set! n rule } }

/-- RULE_WRITE (R137); the form of one byte writes the rule with every field disabled (R181). -/
def execRuleWrite (number : Byte) (rule : Option RawRule) (s : State) : Host.Outcome State Fault Refusal :=
  whenOperating s fun s =>
    s.unless
      [ (decide (31 < number.toNat) || rule.elim false rawBad, .badArgument) ]
      fun s =>
        (s.setRule number.toNat (rule.elim PolicyRule.disabled storedRule)).stored
          (rule.elim false rawClamps)

/-- The flags of five action fields as the link carries them, action a at bit a (R183). -/
def actionFlags (a b c d e : Bool) : Nat :=
  boolCode a + 2 * boolCode b + 4 * boolCode c + 8 * boolCode d + 16 * boolCode e

/-- A rule in its 23 bytes (R183). -/
def PolicyRule.report (r : PolicyRule) (n : Nat) : List Byte :=
  beBytes 1 n ++
  beBytes 1 (actionFlags r.byKind r.byHead r.byPass r.byIndex r.bySpeed + 32 * boolCode r.byFaults) ++
  beBytes 1 (actionFlags r.reaction.enabled r.speedCap.enabled r.backtrack.enabled r.rejoin.enabled
    r.severity.enabled) ++
  beBytes 1 (actionFlags r.reaction.useDefault r.speedCap.useDefault r.backtrack.useDefault
    r.rejoin.useDefault r.severity.useDefault) ++
  beBytes 2 r.kinds.toNat ++ beBytes 2 r.heads.toNat ++ beBytes 1 (boolCode r.invert) ++
  beBytes 1 (passKindCode r.passKind) ++ beBytes 2 r.indexMin ++ beBytes 2 r.indexMax ++
  beBytes 2 r.minSpeed ++ beBytes 1 r.minFaults ++ beBytes 1 r.reaction.value.code ++
  beBytes 2 r.speedCap.value ++ beBytes 1 r.backtrack.value ++ beBytes 1 r.rejoin.value.code ++
  beBytes 1 r.severity.value.code

/-- The rule of a number, a disabled one outside 0..31. -/
def State.rule (s : State) (n : Nat) : PolicyRule := s.fr.rules.toList.getD n PolicyRule.disabled

/-- RULE_READ (R137). -/
def execRuleRead (number : Byte) (s : State) : Host.Outcome State Fault Refusal :=
  whenOperating s fun s =>
    s.unless [(decide (31 < number.toNat), .badArgument)]
      fun s => s.done ((s.rule number.toNat).report number.toNat)

end Sys2Proof.Machine
end

