-- ==== Sys2Proof/Machine/RepairRequests.lean ====
section
/-! DEFINITION. The host's requests to the Repair Table: REPAIR_LIST and REPAIR_CANCEL (R162, R163). -/

namespace Sys2Proof.Machine

/-- The key a record is listed by (R162): segment, head, first index. -/
def RepairRecord.key (r : RepairRecord) : Nat × Nat × Nat := (r.segment, headNumber r.head, r.first)

/-- A key lies strictly before another. -/
def keyBefore (a b : Nat × Nat × Nat) : Bool :=
  decide (a.1 < b.1) ||
  (a.1 == b.1 && (decide (a.2.1 < b.2.1) || (a.2.1 == b.2.1 && decide (a.2.2 < b.2.2))))

/-- Puts a record among others by its key. -/
def insertByKey (r : RepairRecord) : List RepairRecord → List RepairRecord
  | [] => [r]
  | q :: rest => if keyBefore q.key r.key then q :: insertByKey r rest else r :: q :: rest

/-- The records held, in ascending order of their keys. -/
def State.sortedRecords (s : State) : List RepairRecord := s.rt.records.foldr insertByKey []

/-- The repair report of a record (R184). -/
def RepairRecord.report (r : RepairRecord) : List Byte :=
  beBytes 1 r.slot ++ beBytes 1 (headNumber r.head) ++ beBytes 2 r.segment ++ beBytes 2 r.first ++
  beBytes 2 (r.last.getD 65535) ++ beBytes 2 r.thread ++ beBytes 1 r.cause.code ++
  beBytes 1 r.state.code ++ beBytes 2 (r.through.getD 32767)

/-- The records whose keys lie after the cursor (R162). -/
def State.recordsAfter (s : State) (cursor : Option (Nat × Nat × Nat)) : List RepairRecord :=
  s.sortedRecords.filter fun r => cursor.elim true fun c => keyBefore c r.key

/-- REPAIR_LIST (R162); a cursor byte other than 0 says that a cursor is present (DESIGN CHOICE, log 29). -/
def execRepairList (present : Byte) (segment : BitVec 16) (head : Byte) (first : BitVec 16) (s : State) :
    Host.Outcome State Fault Refusal :=
  whenOperating s fun s =>
    let cursor := if present = 0 then none else some (segment.toNat, head.toNat, first.toNat)
    let after := s.recordsAfter cursor
    let listed := after.take 8
    s.done (beBytes 1 listed.length ++ beBytes 1 (boolCode (decide (8 < after.length))) ++
      listed.flatMap RepairRecord.report)

/-- A record may be cancelled by its slot (R163): it is not ACTIVE, and when it is OPEN its head is
ACTIVE. -/
def State.cancellable (s : State) (r : RepairRecord) : Bool :=
  match r.state with
  | .closed => true
  | .opened => (s.head r.head).state == .active
  | .active => false

/-- REPAIR_CANCEL by slot (R163). -/
def State.cancelSlot (slot : Nat) (s : State) : State :=
  let r := s.rt.records.find? (·.slot == slot)
  s.unless
    [ (r.isNone, .notFound),
      (r.elim false fun r => !s.cancellable r, .busy) ]
    fun s => (r.elim s s.retire).done (beBytes 1 1)

/-- REPAIR_CANCEL by head (R163). -/
def State.cancelHead (h : HeadId) (s : State) : State :=
  let mine := s.rt.records.filter (·.head == h)
  s.unless [(mine.any (·.state == .active), .busy)]
    fun s =>
      let gone := mine.filter s.cancellable
      (s.retireAll gone).done (beBytes 1 gone.length)

/-- REPAIR_CANCEL (R163); a choice byte above 1 is BAD_ARGUMENT (DEDUCED, log 30). -/
def execRepairCancel (by_ which : Byte) (s : State) : Host.Outcome State Fault Refusal :=
  whenOperating s fun s =>
    s.unless [(!s.jobOpen, .noJob)] fun s =>
      if by_ = 0 then
        if which.toNat < Config.repairSlots then s.cancelSlot which.toNat else s.refuse .badArgument
      else if by_ = 1 then
        match headOf which with
        | some h => s.cancelHead h
        | none => s.refuse .badArgument
      else s.refuse .badArgument

end Sys2Proof.Machine
end

