-- ==== Sys2Proof/Machine/Spindle.lean ====
section
/-! DEFINITION. The events of the spindle and of the moves: SHAFT_ANGLE_CHANGE, SPINDLE_AT_REST,
MOVE_COMPLETION (R47 to R54). -/

namespace Sys2Proof.Machine

/-! ## Move completions (R49, R53, R54) -/

/-- The move completion of a stitch leaves the window with it and reaches the end of stopping, or
has the window refilled (R49). The stop ceiling is read after the reports of the completion, so one that a BOBBIN_LOW
hold sets among them ends the stopping at this very stitch (DESIGN CHOICE, log 58). -/
def State.endOrRefill (s : State) : State :=
  if s.mp.stopCeiling ∧ s.mp.prevSpeed = some s.par.sMin then { s with mp := { s.mp with stopEnd := true } }
  else s.refill

/-- The move completion of the first stitch of the window (R49, R110). -/
def State.completeStitch (s : State) : State :=
  match s.mp.window with
  | [] => { s with mp := { s.mp with move := none } }
  | w :: rest =>
    let s := s.advancePosition w.stitch.dx w.stitch.dy
    let s := { s with mp := { s.mp with window := rest } }
    (s.superviseCompletion w.stitch).endOrRefill

/-- The completion of a move (R49, R53, R54). -/
def State.completeMove (m : Move) (s : State) : State :=
  match m.kind with
  | .stitch => s.completeStitch
  | .step => s.advancePosition m.dx m.dy
  | .retraction => { s with mp := { s.mp with move := none, unfinished := none } }

/-- MOVE_COMPLETION (R49): the last pulse of the move in progress is issued; without effect where no
move is in progress (DESIGN CHOICE, log 33). -/
def execMoveCompletion (s : State) : Host.Outcome State Fault Refusal :=
  whenOperating s fun s =>
    match s.mp.move with
    | some m => (s.completeMove m).drive
    | none => s

/-! ## Window open and window close (R47, R48, R50, R51) -/

/-- The take of a stitch at a window open (R48): its speed planned, the heads commanded, its pulses
begun; a stitch that takes no time is complete at once (R48, R49; DEDUCED, log 39). -/
def State.takeStitch (st : Issued) (s : State) : State :=
  let p := s.plannedSpeed
  let s := { s with mp := { s.mp with spindle := p, prevSpeed := some p } }
  let s := s.superviseTake st
  let m := s.moveOf .stitch st.dx st.dy
  let s := s.beginMove m
  if m.duration = 0 then s.completeMove m else s

/-- The planner comes to a stop (R51), with the exchange of that window open (R100). -/
def State.comeToStop (s : State) : State :=
  let s := s.exchange true 0 none
  { s with mp := { s.mp with mode := .runningDown, spindle := 0 } }

/-- Window open in RUNNING (R48, R51). -/
def State.windowOpen (s : State) : State :=
  if s.mp.move.isSome then s.exchange true 0 none
  else if s.mp.stopEnd then s.comeToStop
  else
    match s.mp.window with
    | w :: _ => s.takeStitch w.stitch
    | [] => s.comeToStop

/-- Window close in RUNNING (R50): pulses left make FRAME_LATE. -/
def State.windowClose (s : State) : State :=
  if s.mp.move.isSome then s.immediateHalt .frameLate else s

/-- The shaft condition takes a value (R47). -/
def State.setShaft (c : Shaft) (s : State) : State := { s with mp := { s.mp with shaft := c } }

/-- A change of the shaft angle while the part acts (R47, R48, R50, R53). -/
def State.angleMoves (wasIn isIn : Bool) (s : State) : State :=
  let s := s.setShaft .turning
  match s.mp.mode with
  | .running =>
    if !wasIn && isIn then s.windowOpen else if wasIn && !isIn then s.windowClose else s
  | .travelling => if wasIn && !isIn then s.shaftOut else s
  | _ => s

/-- SHAFT_ANGLE_CHANGE (R47): the angle the input now reads; the same angle is no change. -/
def execShaftAngleChange (angle : Fin 360) (s : State) : Host.Outcome State Fault Refusal :=
  .next <|
    let before := s.sm.angle
    let s := { s with sm := { s.sm with angle := angle } }
    if s.operating && before != angle then
      (s.angleMoves (s.angleInWindow before.val) (s.angleInWindow angle.val)).drive
    else s

/-! ## The spindle at rest (R47, R51, R52) -/

/-- The marker a standstill reports (R51): that of the window when it holds no stitch. -/
def State.standstillMarker (s : State) : Option Marker :=
  if s.mp.window.isEmpty then s.mp.marker else none

/-- The shaft comes to rest inside the move window (R51, R52): the end of running down. -/
def State.restsInside (s : State) : State :=
  match s.mp.mode with
  | .runningDown => s.toRest.atStandstill s.standstillMarker
  | _ => s

/-- The shaft comes to rest outside the move window (R51, R52): SHAFT_OUT where it ran. -/
def State.restsOutside (s : State) : State :=
  match s.mp.mode with
  | .running => s.shaftOut
  | .runningDown => s.shaftOut
  | _ => s

/-- SPINDLE_AT_REST (R47, R51, R52): the angle has stayed unchanged for 10 ms. A WINDOW_DEG written at rest judges
this rest at once, and the condition noted before is not judged anew (DESIGN CHOICE, log 61). -/
def execSpindleAtRest (s : State) : Host.Outcome State Fault Refusal :=
  whenOperating s fun s =>
    if s.angleInWindow s.sm.angle.val then (s.setShaft .inWindow).restsInside.drive
    else (s.setShaft .outOfWindow).restsOutside.drive

end Sys2Proof.Machine
end

