-- ==== Sys2Proof/Machine/StoreRequests.lean ====
section
/-! DEFINITION. The host's requests to the Design Store: SEG_OPEN, SEG_WRITE, SEG_CLOSE, SEG_DISCARD,
SEG_QUERY, SEG_LOCATE (R6 to R12). -/

namespace Sys2Proof.Machine

/-- A number is stale: absent, and at or below the sewing mark (R5). -/
def State.stale (s : State) (n : Nat) : Bool :=
  !s.present n && s.ds.mark.elim false fun m => decide (n ≤ m)

/-- Pages a segment of `count` stitches needs. -/
def pagesFor (count : Nat) : Nat := ceilDiv count Config.pageSize

/-! ## SEG_OPEN (R6) -/

/-- The refusals of SEG_OPEN in their order. -/
def State.segOpenRefusals (s : State) (number thread count : Nat) : List (Bool × Reason) :=
  [ (!s.jobOpen, .noJob),
    (decide (s.segmentCount ≤ number) || decide (count < 1) || decide (4096 < count) ||
      decide (thread = Config.emptyThread), .badArgument),
    (s.present number, .duplicate),
    (s.stale number, .stale),
    (decide (Config.segmentSlots ≤ s.ds.segs.length), .noSlot),
    (decide (s.ds.pool.length < pagesFor count), .noSpace) ]

/-- The record an accepted SEG_OPEN makes. -/
def State.openedSeg (s : State) (number thread count : Nat) (start : Pos) (flags : Byte) : SegRecord where
  slot := lowestFreeSlot (s.ds.segs.map (·.slot)) 0
  number := number
  state := .loading
  thread := thread
  count := count
  written := 0
  start := start
  runEnd := start
  box := ⟨start.x, start.x, start.y, start.y⟩
  pages := s.ds.pool.take (pagesFor count)
  tieIn := flags.getLsbD 0
  tieOff := flags.getLsbD 1
  close := .none
  unthreaded := 0
  pins := 0

/-- A record joins the table with the pages taken for it. -/
def State.addSeg (s : State) (r : SegRecord) : State :=
  { s with ds := { s.ds with
      segs := insertSeg r s.ds.segs
      pool := s.ds.pool.drop r.pages.length } }

/-- SEG_OPEN (R6). -/
def execSegOpen (number thread count x y : BitVec 16) (flags : Byte) (s : State) :
    Host.Outcome State Fault Refusal :=
  whenOperating s fun s =>
    s.unless (s.segOpenRefusals number.toNat thread.toNat count.toNat) fun s =>
      let r := s.openedSeg number.toNat thread.toNat count.toNat ⟨x.toInt, y.toInt⟩ flags
      ((s.addSeg r).evalLoad).done (beBytes 1 r.slot)

/-! ## SEG_WRITE (R7, R8) -/

/-- The refusals of SEG_WRITE in their order. -/
def State.segWriteRefusals (s : State) (number offset : Nat) (stitches : List RawStitch) :
    List (Bool × Reason) :=
  let r := s.findSeg number
  [ (!s.jobOpen, .noJob),
    (r.isNone, .notFound),
    (r.elim false (·.state != .loading), .busy),
    (r.elim false (·.written != offset), .badOffset),
    (r.elim false fun r => decide (r.count < offset + stitches.length), .badArgument),
    (stitches.any fun t => (stitchOf t).isNone, .badStitch) ]

/-- The box widened to take in a point (R8). -/
def Box.widen (b : Box) (p : Pos) : Box :=
  ⟨min b.minX p.x, max b.maxX p.x, min b.minY p.y, max b.maxY p.y⟩

/-- One stitch written: the next entry, the running end, the box and the written count (R8). -/
def SegRecord.writeStitch (r : SegRecord) (st : Stitch) : SegRecord :=
  let e : Pos := ⟨r.runEnd.x + st.dx, r.runEnd.y + st.dy⟩
  { r with written := r.written + 1, runEnd := e, box := r.box.widen e }

/-- The stitches of a list written in order, into the memory and the record (R8). -/
def writeStitches : List Stitch → Memory × SegRecord → Memory × SegRecord
  | [], mr => mr
  | st :: rest, (m, r) => writeStitches rest (memWrite m (r.entry r.written) st, r.writeStitch st)

/-- SEG_WRITE (R7, R8); a list no frame carries is a malformed request (R181; DEDUCED, log 30). -/
def execSegWrite (number offset : BitVec 16) (stitches : List RawStitch) (s : State) :
    Host.Outcome State Fault Refusal :=
  whenOperating s fun s =>
    if (Instr.segWrite number offset stitches).wellFormed then
      s.unless (s.segWriteRefusals number.toNat offset.toNat stitches) fun s =>
        match s.findSeg number.toNat with
        | some r =>
          let mr := writeStitches (stitches.filterMap stitchOf) (s.ds.memory, r)
          let s := { s with ds := { s.ds with memory := mr.1 } }
          (s.putSeg mr.2).done []
        | none => s
    else s.badRequest

/-! ## SEG_CLOSE (R9, R10) -/

/-- The reason a close result stores. -/
def CloseResult.reason : CloseResult → Reason
  | .none => .none
  | .geometry => .geometry
  | .outOfField => .outOfField

/-- The bounding box lies in the frame field, the limits inclusive (R9). -/
def State.boxInField (s : State) (b : Box) : Bool :=
  s.inField ⟨b.minX, b.minY⟩ && s.inField ⟨b.maxX, b.maxY⟩

/-- The refusals of SEG_CLOSE in their order. -/
def State.segCloseRefusals (s : State) (number : Nat) (expected : Pos) : List (Bool × Reason) :=
  let r := s.findSeg number
  [ (!s.jobOpen, .noJob),
    (r.isNone, .notFound),
    (r.elim false (·.state != .loading), .busy),
    (r.elim false (·.close != .none), (r.elim CloseResult.none (·.close)).reason),
    (r.elim false fun r => decide (r.written < r.count), .incomplete),
    (r.elim false fun r => r.runEnd != expected, .geometry),
    (r.elim false fun r => !s.boxInField r.box, .outOfField) ]

/-- A refused close leaves its reason in the record when it is GEOMETRY or OUT_OF_FIELD (R10). -/
def State.noteClose (s : State) (number : Nat) (why : Reason) : State :=
  match s.findSeg number, why with
  | some r, .geometry => s.putSeg { r with close := .geometry }
  | some r, .outOfField => s.putSeg { r with close := .outOfField }
  | _, _ => s

/-- A record becomes READY: its unthreaded-head set is computed, raising THREAD_MISSING when it is
not empty, and LOAD_WANT is evaluated (R9, R96, R97). -/
def State.becomeReady (s : State) (r : SegRecord) : State :=
  let set := s.unthreadedFor r.thread
  let s := s.putSeg { r with state := .ready, unthreaded := set }
  (if set = 0 then s else s.raise .threadMissing).evalLoad

/-- SEG_CLOSE (R9, R10); a segment awaited while STARVED is taken at once (R13, R72). -/
def execSegClose (number : BitVec 16) (x y : BitVec 32) (s : State) : Host.Outcome State Fault Refusal :=
  whenOperating s fun s =>
    match firstReason (s.segCloseRefusals number.toNat ⟨x.toInt, y.toInt⟩) with
    | some why => (s.noteClose number.toNat why).refuse why
    | none =>
      match s.findSeg number.toNat with
      | some r => ((s.becomeReady r).done []).starvedRepeat.drive
      | none => s

/-! ## SEG_DISCARD, SEG_QUERY, SEG_LOCATE (R11, R12) -/

/-- SEG_DISCARD (R11). -/
def execSegDiscard (number : BitVec 16) (s : State) : Host.Outcome State Fault Refusal :=
  whenOperating s fun s =>
    let r := s.findSeg number.toNat
    s.unless
      [ (!s.jobOpen, .noJob),
        (r.isNone, .notFound),
        (r.elim false fun r => r.state == .active || (r.state == .sewn && s.ds.served == some r.number),
          .busy),
        (r.elim false fun r => r.state == .sewn && decide (0 < r.pins), .pinned) ]
      fun s => (r.elim s s.freeSeg).done []

/-- The finish flags as the link carries them (R183). -/
def SegRecord.finishFlags (r : SegRecord) : Nat := boolCode r.tieIn + 2 * boolCode r.tieOff

/-- The segment report (R184). -/
def SegRecord.report (r : SegRecord) : List Byte :=
  beBytes 1 r.slot ++ beBytes 2 r.number ++ beBytes 1 r.state.code ++ beBytes 2 r.thread ++
  beBytes 2 r.count ++ beBytes 2 r.written ++ beBytes 2 r.start.x ++ beBytes 2 r.start.y ++
  beBytes 4 r.runEnd.x ++ beBytes 4 r.runEnd.y ++ beBytes 4 r.box.minX ++ beBytes 4 r.box.maxX ++
  beBytes 4 r.box.minY ++ beBytes 4 r.box.maxY ++ beBytes 2 r.pages.length ++
  beBytes 1 r.finishFlags ++ beBytes 1 r.close.code ++ beBytes 2 r.unthreaded.toNat ++ beBytes 1 r.pins

/-- SEG_QUERY (R12). -/
def execSegQuery (number : BitVec 16) (s : State) : Host.Outcome State Fault Refusal :=
  whenOperating s fun s =>
    let r := s.findSeg number.toNat
    s.unless [(!s.jobOpen, .noJob), (r.isNone, .notFound)]
      fun s => s.done (r.elim [] (·.report))

/-- SEG_LOCATE (R12). -/
def execSegLocate (number k : BitVec 16) (s : State) : Host.Outcome State Fault Refusal :=
  whenOperating s fun s =>
    let r := s.findSeg number.toNat
    s.unless
      [ (!s.jobOpen, .noJob),
        (r.isNone, .notFound),
        (r.elim false fun r => decide (r.written < k.toNat), .badArgument) ]
      fun s =>
        let p := s.placeOf number.toNat k.toNat
        s.done (beBytes 4 p.x ++ beBytes 4 p.y)

end Sys2Proof.Machine
end

