-- ==== Sys2Proof/Machine/Supply.lean ====
section
/-! DEFINITION. The Supply Monitor (chapter 10): the starts, the power-fail warning, the resets and
the supply's events, and the emergency-stop input (R76). -/

namespace Sys2Proof.Machine

/-! ## The starts (R168 to R171) -/

/-- A cold start (R168): every block at its cold values; the inputs and the waiting commands stand. -/
def State.coldStart (s : State) : State :=
  { State.reset with
    sm := { s.sm with powered := true, retention := false, startKind := .cold, warned := false, resetWaits := false }
    pending := s.pending }

/-- The Motion Planner at a warm start (R59); `reset` says that power has not left the part. The direction
outputs keep the level last set (DESIGN CHOICE, log 55). -/
def State.warmPlanner (reset : Bool) (s : State) : State :=
  let s := s.immediateStop.clearPolicy
  { s with mp := { s.mp with
      shaft := .turning
      referenced := reset && s.mp.referenced
      unfinished := if reset then s.mp.unfinished else none } }

/-- A head record at a warm start (R115); the needle to select is none again (DEDUCED, log 18). -/
def HeadRecord.warm (r : HeadRecord) : HeadRecord :=
  { r with
    state := beforeShift r.state
    ranges := []
    silentRun := 0
    silentRaised := false
    driveSeen := false
    lastReport := none
    awaiting := false
    taken := false
    takenBefore := false
    latch := false
    latchBefore := false
    selectNeedle := none }

/-- The Thread Selector's share of a head at a warm start (R99). -/
def SelectorHead.warm (r : SelectorHead) : SelectorHead :=
  { r with current := if r.shift.isSome then none else r.current, shift := none, trim := none }

/-- The heads at a warm start (R99, R115, R131). -/
def State.warmHeads (s : State) : State :=
  let s := s.forHeads (fun _ => true) fun h s =>
    ((s.setSel h (s.sel h).warm).setHead h (s.head h).warm).clearMeter h
  { s with
    ts := { s.ts with working := none, trimNamed := 0 }
    hs := { s.hs with revolution := false, current := none, previous := none, lastTake := none } }

/-- The Pass Controller at a warm start (R83): HALTED with a cause when a job is open, the context
kept or formed from where the start finds the controller. -/
def State.warmPass (cause : HaltCause) (s : State) : State :=
  if s.jobOpen then
    let s := s.noteStop.formContext s.stands
    { s with pc := { s.pc with state := .halted, cause := cause, due := none, phase := .rest } }
  else s

/-- The announcement of a warm start (R171, R179). -/
def State.announce (s : State) : State :=
  let s := if s.jobOpen then s.raise .halted else s
  (s.raise .start).setSlot .noResponse

/-- A warm start (R168, R169, R170): after power, or as a warm reset. -/
def State.warmStart (reset : Bool) (s : State) : State :=
  let s := s.warmPass (if reset then .reset else .powerLoss)
  let s := s.warmPlanner reset
  let s := s.warmHeads.endIssue.settleRecords
  let s := { s with rt := { s.rt with roundMark := none } }
  let s := s.endService.evalLoad
  let s := { s with sm := { s.sm with
    powered := true
    retention := false
    startKind := if reset then .warmReset else .warmPower
    warned := false
    resetWaits := false } }
  s.announce

/-! ## The power-fail warning (R166, R167) -/

/-- POWER_FAIL_WARNING (R166): the warning input becomes asserted, with the backup-present input as
sampled then (DESIGN CHOICE, log 36). -/
def execPowerFailWarning (backup : Bool) (s : State) : Host.Outcome State Fault Refusal :=
  .next <|
    if s.sm.powered && !s.sm.warningInput then
      let s := s.immediateHalt .powerLoss
      { s with sm := { s.sm with
        warningInput := true
        backupInput := backup
        warned := true
        retention := s.sm.retention || backup } }
    else s

/-- WARNING_CLEAR (R167): the warning input becomes deasserted while the part has power. -/
def execWarningClear (s : State) : Host.Outcome State Fault Refusal :=
  .next <|
    if s.sm.powered && s.sm.warningInput then
      let retention := s.sm.retention
      let s := { s with sm := { s.sm with warningInput := false } }
      if retention then s.warmStart false else s.coldStart
    else s

/-! ## Power lost and returned (R167, R168) -/

/-- MAIN_SUPPLY_FAILURE (R167, R168): the part's outputs fall to rest, and the retention flag is held
by the backup alone. -/
def execMainSupplyFailure (s : State) : Host.Outcome State Fault Refusal :=
  .next <|
    if s.sm.powered then
      let s := s.immediateStop
      { s with sm := { s.sm with powered := false, retention := s.sm.retention && s.sm.backupInput } }
    else s

/-- BACKUP_FAILURE (R168): the backup's store is fit no longer; the retention flag falls with it
while the main supply is absent. -/
def execBackupFailure (s : State) : Host.Outcome State Fault Refusal :=
  .next { s with sm := { s.sm with
    backupInput := false
    retention := s.sm.retention && s.sm.powered } }

/-- POWER_RETURN (R168): the start that the retention flag and the backup-present input decide, also
of a part that had not lost its supply (DESIGN CHOICE, log 31). -/
def execPowerReturn (backup : Bool) (s : State) : Host.Outcome State Fault Refusal :=
  .next <|
    let retention := s.sm.retention
    let s := { s with sm := { s.sm with powered := true, warningInput := false, backupInput := backup } }
    if retention && backup then s.warmStart false else s.coldStart

/-! ## Resets (R170) -/

/-- The part waits for the warning to clear or the supply to fail (R170), taking no transaction
(DEDUCED, log 36). -/
def State.waitForSupply (s : State) : State :=
  { s with sm := { s.sm with resetWaits := true } }

/-- What a reset does before its start is made (R170): the immediate halt with cause RESET (R76), and the
planner at rest (R54). -/
def State.resetHalt (s : State) : State := (s.immediateHalt .reset).immediateStop

/-- RESET (R170): a warm reset (DEDUCED, log 19); when the retention flag is set, the halt of a reset and
then the wait, the request never being answered (DEDUCED, log 36). -/
def execReset (s : State) : Host.Outcome State Fault Refusal :=
  whenOperating s fun s =>
    if s.sm.retention then s.resetHalt.waitForSupply.setSlot (.pending .waits) else s.warmStart true

/-- RESET_LINE_ASSERT (R170): an immediate halt, and every block held at rest. -/
def execResetLineAssert (s : State) : Host.Outcome State Fault Refusal :=
  .next <|
    if s.sm.resetLine then s
    else
      let s := if s.sm.powered then s.resetHalt else s
      { s with sm := { s.sm with resetLine := true } }

/-- RESET_LINE_RELEASE (R170): the warm reset, or the wait when the retention flag is set. -/
def execResetLineRelease (s : State) : Host.Outcome State Fault Refusal :=
  .next <|
    if s.sm.resetLine then
      let s := { s with sm := { s.sm with resetLine := false } }
      if s.sm.powered then
        if s.sm.retention then s.waitForSupply else s.warmStart true
      else s
    else s

/-! ## The emergency-stop input (R76, R72) -/

/-- The assertion of the emergency-stop input while the part acts. -/
def State.emergencyStop (s : State) : State :=
  if s.pc.state = .halted ∧ s.pc.cause = .starved then s.changeCause .estop
  else s.immediateHalt .estop

/-- ESTOP_ASSERT (R76): acts as the input becomes asserted. -/
def execEstopAssert (s : State) : Host.Outcome State Fault Refusal :=
  .next <|
    if s.sm.estopInput then s
    else
      let s := if s.operating then s.emergencyStop else s
      { s with sm := { s.sm with estopInput := true } }

/-- ESTOP_RELEASE (R76): changes no state but the input's level. -/
def execEstopRelease (s : State) : Host.Outcome State Fault Refusal :=
  .next { s with sm := { s.sm with estopInput := false } }

end Sys2Proof.Machine
end

