-- ==== Sys2Proof/Machine/Dispatch.lean ====
section
/-! DEFINITION. The effect of each command on everything but the queue: one arm per command. -/

namespace Sys2Proof.Machine

def exec (i : Instr) (s : State) : Host.Outcome State Fault Refusal :=
  match i with
  | .transaction rx => Sys2Proof.Machine.execTransaction rx s
  | .jobOpen segments heads repairWhen pinCeiling powerBacktrack => Sys2Proof.Machine.execJobOpen segments heads repairWhen pinCeiling powerBacktrack s
  | .jobClose => Sys2Proof.Machine.execJobClose s
  | .start => Sys2Proof.Machine.execStart s
  | .stop => Sys2Proof.Machine.execStop s
  | .resume => Sys2Proof.Machine.execResume s
  | .repairRun => Sys2Proof.Machine.execRepairRun s
  | .frameSet x y => Sys2Proof.Machine.execFrameSet x y s
  | .segOpen number thread count x y flags => Sys2Proof.Machine.execSegOpen number thread count x y flags s
  | .segWrite number offset stitches => Sys2Proof.Machine.execSegWrite number offset stitches s
  | .segClose number x y => Sys2Proof.Machine.execSegClose number x y s
  | .segDiscard number => Sys2Proof.Machine.execSegDiscard number s
  | .segQuery number => Sys2Proof.Machine.execSegQuery number s
  | .segLocate number k => Sys2Proof.Machine.execSegLocate number k s
  | .needleSet head needle given code state => Sys2Proof.Machine.execNeedleSet head needle given code state s
  | .needleQuery head needle => Sys2Proof.Machine.execNeedleQuery head needle s
  | .headMode head mode => Sys2Proof.Machine.execHeadMode head mode s
  | .headRejoin head => Sys2Proof.Machine.execHeadRejoin head s
  | .headQuery head => Sys2Proof.Machine.execHeadQuery head s
  | .headClear head => Sys2Proof.Machine.execHeadClear head s
  | .headBobbin head length => Sys2Proof.Machine.execHeadBobbin head length s
  | .repairList present segment head first => Sys2Proof.Machine.execRepairList present segment head first s
  | .repairCancel by_ which => Sys2Proof.Machine.execRepairCancel by_ which s
  | .ruleWrite number rule => Sys2Proof.Machine.execRuleWrite number rule s
  | .ruleRead number => Sys2Proof.Machine.execRuleRead number s
  | .tableWrite axis first count entries => Sys2Proof.Machine.execTableWrite axis first count entries s
  | .configWrite ident value => Sys2Proof.Machine.execConfigWrite ident value s
  | .configRead ident => Sys2Proof.Machine.execConfigRead ident s
  | .status => Sys2Proof.Machine.execStatus s
  | .attentionRead => Sys2Proof.Machine.execAttentionRead s
  | .nop => Sys2Proof.Machine.execNop s
  | .reset => Sys2Proof.Machine.execReset s
  | .estopAssert => Sys2Proof.Machine.execEstopAssert s
  | .estopRelease => Sys2Proof.Machine.execEstopRelease s
  | .powerFailWarning backup => Sys2Proof.Machine.execPowerFailWarning backup s
  | .warningClear => Sys2Proof.Machine.execWarningClear s
  | .powerReturn backup => Sys2Proof.Machine.execPowerReturn backup s
  | .resetLineAssert => Sys2Proof.Machine.execResetLineAssert s
  | .resetLineRelease => Sys2Proof.Machine.execResetLineRelease s
  | .shaftAngleChange angle => Sys2Proof.Machine.execShaftAngleChange angle s
  | .spindleAtRest => Sys2Proof.Machine.execSpindleAtRest s
  | .moveCompletion => Sys2Proof.Machine.execMoveCompletion s
  | .standstillExchange => Sys2Proof.Machine.execStandstillExchange s
  | .headReport head message => Sys2Proof.Machine.execHeadReport head message s
  | .reportDue head => Sys2Proof.Machine.execReportDue head s
  | .shiftTimerExpiry head => Sys2Proof.Machine.execShiftTimerExpiry head s
  | .trimTimerExpiry head => Sys2Proof.Machine.execTrimTimerExpiry head s
  | .mainSupplyFailure => Sys2Proof.Machine.execMainSupplyFailure s
  | .backupFailure => Sys2Proof.Machine.execBackupFailure s

end Sys2Proof.Machine
end

