-- ==== Sys2Proof/Machine/Idle.lean ====
section
/-! DEFINITION. What the part does of itself while no command waits. -/

namespace Sys2Proof.Machine

/-- A malformed frame is answered BAD_REQUEST (R173). -/
def State.handleMalformed (s : State) : State := if s.operating then s.badRequest else s

/-- One µs passes for the move in progress (DESIGN CHOICE, log 1). -/
def State.elapse (s : State) : State :=
  if s.operating then { s with mp := { s.mp with move := s.mp.move.map Move.tick } } else s

end Sys2Proof.Machine
end

