-- ==== Sys2Proof/Machine/Step.lean ====
section
/-! DEFINITION. The step of the block: the command at the front of the queue, or what the part does of
itself while none waits. -/

namespace Sys2Proof.Machine

/-- One step. With no command waiting, the handling of a request received is completed (R172;
DESIGN CHOICE, log 9), or,
where none is being handled, one µs passes for the move in progress (DESIGN CHOICE, log 1). -/
def step (s : State) : Host.Outcome State Fault Refusal :=
  match s.pending with
  | i :: rest => exec i { s with pending := rest }
  | [] =>
    match s.rl.slot with
    | .pending (.request i) => if s.operating then exec i s else .next s
    | .pending .malformed => .next (s.handleMalformed)
    | _ => .next s.elapse

/-- The state with the command a word spells put at the front of its queue; no word of the table
spells a command. -/
def State.withFetchWord (s : State) (nbits w : Nat) : State :=
  match decodeTableWord nbits w with
  | some i => { s with pending := i :: s.pending }
  | none => s

end Sys2Proof.Machine
end

