-- ==== Sys2Proof/Safety.lean ====
section
/-! DEFINITION. What counts as a sound state, block by block, in the terms the statements use. Each is
meant to hold after a cold start and to be kept by every step. -/

namespace Sys2Proof.Machine

/-- The Design Store is sound (R1, R3, R7): slots rise and numbers differ; every page of the Stitch
Memory lies in the pool or in one page list, once; a record's page list has the length its stitch count
asks for, and no more stitches are written than counted. -/
def Store.Sound (d : Store) : Prop :=
  (d.segs.map (·.slot)).Pairwise (· < ·) ∧
  (d.segs.map (·.number)).Nodup ∧
  (d.pool ++ d.segs.flatMap (·.pages)).Perm (List.range Config.pageCount) ∧
  ∀ r ∈ d.segs, r.pages.length = pagesFor r.count ∧ r.written ≤ r.count

/-- The pins of a Segment Table and the records of a Repair Table agree (R16, R148, R149): the slots of the
records rise and lie below 128; every record names a segment of the table; the pin count of a segment is
the number of records that name it; a pinned segment is ACTIVE or SEWN. -/
def PinsMatch (segs : List SegRecord) (records : List RepairRecord) : Prop :=
  (records.map (·.slot)).Pairwise (· < ·) ∧
  (∀ q ∈ records, q.slot < 128 ∧ ∃ r ∈ segs, r.number = q.segment) ∧
  ∀ r ∈ segs, r.pins = (records.filter (·.segment == r.number)).length ∧
    (0 < r.pins → r.state = .active ∨ r.state = .sewn)

/-- The pins of the state and its repair records agree. -/
def State.Pinned (s : State) : Prop := PinsMatch s.ds.segs s.rt.records

/-- The Motion Planner is sound (R46, R43, R37): the spindle is commanded to turn in RUNNING alone, and the
look-ahead window holds at most 32 stitches, each Move-Time Table 128 entries. -/
def Motion.Sound (m : Motion) : Prop :=
  (m.mode ≠ .running → m.spindle = 0) ∧ m.window.length ≤ Config.windowSize ∧
  m.tableX.length = 128 ∧ m.tableY.length = 128

/-- The fault counts are sound (R146): a count lies within 0..127, and the overflow flag is set only
where it stands at 127. -/
def Resolver.Sound (f : Resolver) : Prop :=
  ∀ h : HeadId, f.heads[h].count ≤ 127 ∧ (f.heads[h].overflow = true → f.heads[h].count = 127)

/-- The parameters lie in their ranges and in their order (R20, R35, R57, R58, R98, R114, R130). -/
def Params.Sound (p : Params) : Prop :=
  (p.loadLow ≤ p.loadHigh ∧ p.loadHigh ≤ 65535) ∧
  p.minStitch ≤ 10 ∧ p.tieLength ≤ 20 ∧ (10 ≤ p.travelStep ∧ p.travelStep ≤ 127) ∧
  (60 ≤ p.sMin ∧ p.sMin ≤ 400) ∧ (p.sMin ≤ p.sMax ∧ p.sMax ≤ 1200) ∧
  (1 ≤ p.accelUp ∧ p.accelUp ≤ 200) ∧ (1 ≤ p.accelDown ∧ p.accelDown ≤ 200) ∧
  (60 ≤ p.windowDeg ∧ p.windowDeg ≤ 240 ∧ p.windowDeg % 2 = 0) ∧
  (p.sMin ≤ p.jumpCap ∧ p.jumpCap ≤ p.sMax) ∧
  (p.sMin ≤ p.repairCap ∧ p.repairCap ≤ p.sMax) ∧
  (1 ≤ p.axisScaleX ∧ p.axisScaleX ≤ 64) ∧ (1 ≤ p.axisScaleY ∧ p.axisScaleY ≤ 64) ∧
  (-16000 ≤ p.fieldXLow ∧ p.fieldXLow ≤ p.fieldXHigh ∧ p.fieldXHigh ≤ 16000) ∧
  (-16000 ≤ p.fieldYLow ∧ p.fieldYLow ≤ p.fieldYHigh ∧ p.fieldYHigh ≤ 16000) ∧
  (100 ≤ p.shiftTimeout ∧ p.shiftTimeout ≤ 5000) ∧ (100 ≤ p.trimTimeout ∧ p.trimTimeout ≤ 2000) ∧
  (1 ≤ p.silentRun ∧ p.silentRun ≤ 8) ∧ p.kAllow ≤ 255 ∧ (8 ≤ p.gain ∧ p.gain ≤ 24) ∧
  (1 ≤ p.breakRun ∧ p.breakRun ≤ 15) ∧ p.tol ≤ 63 ∧ p.leak ≤ 255 ∧
  (1 ≤ p.yellowMark ∧ p.yellowMark ≤ p.redMark ∧ p.redMark ≤ 4095) ∧
  (p.sMin ≤ p.yellowCap ∧ p.yellowCap ≤ p.sMax) ∧
  p.bobbinAllow ≤ 15 ∧ p.bobbinLowMark ≤ 16777215 ∧ (1 ≤ p.bobbinRun ∧ p.bobbinRun ≤ 15) ∧
  (1 ≤ p.stormWeight ∧ p.stormWeight ≤ 255) ∧ (1 ≤ p.stormMark ∧ p.stormMark ≤ 255) ∧
  (1 ≤ p.stormLeak ∧ p.stormLeak ≤ 1024)

end Sys2Proof.Machine
end

