-- ==== Sys2Proof/Certificates/Slice0/Obligations.lean ====
section
/-! DEFINITION. The statements for the provers, and the words they share. -/

open Sys2Proof Sys2Proof.Machine

namespace Sys2Proof.Claims

/-- The part acts: it has supply, the reset line does not hold it, no reset waits. -/
def Acts (s : State) : Prop :=
  s.sm.powered = true ∧ s.sm.resetLine = false ∧ s.sm.resetWaits = false

/-- The state with a response in its slot, nothing else changed. -/
def withResponse (result : Result) (reason : Reason) (payload : List Byte) (s : State) : State :=
  { s with rl := { s.rl with slot := .ready ⟨result, reason, payload⟩ } }

/-- The state with the answer DONE and a payload. -/
def done (payload : List Byte) (s : State) : State := withResponse .done .none payload s

/-- The state with a refusal, which changes nothing but the slot (R174). -/
def refused (why : Reason) (s : State) : State := withResponse .refused why [] s

/-- The slot holds the answer to the request just taken. -/
def Answered (t : State) (result : Result) (payload : List Byte) : Prop :=
  t.rl.slot = .ready ⟨result, .none, payload⟩

/-- The `width` bytes of a payload from `offset` on spell a quantity, most significant byte first, two's
complement (R181). -/
def Carries (payload : List Byte) (offset width : Nat) (v : Int) : Prop :=
  offset + width ≤ payload.length ∧
  (ofBytes ((payload.drop offset).take width) : Int) = v % (256 : Int) ^ width

/-- A byte of a request names a head 1..16. -/
def Names (b : Byte) (h : HeadId) : Prop := b.toNat = h.val + 1

/-- A sticky cause is pending. -/
def Pending (t : State) (a : Attention) : Prop := t.rl.sticky.getLsbD (a.code - 1) = true

/-- The LOAD_WANT flag as R19 makes it from the counts of `t` and the value it had. -/
def LoadWantFollows (before : Bool) (t : State) : Prop :=
  let wants := t.readyAhead < t.par.loadLow ∧ 0 < t.ds.pool.length ∧ t.nextWanted < t.segmentCount
  let drops := t.par.loadHigh ≤ t.readyAhead ∨ t.ds.pool.length = 0 ∨ t.segmentCount ≤ t.nextWanted
  (t.pc.state = .idle → t.ds.loadWant = false) ∧
  (t.pc.state ≠ .idle → wants → t.ds.loadWant = true) ∧
  (t.pc.state ≠ .idle → ¬ wants → drops → t.ds.loadWant = false) ∧
  (t.pc.state ≠ .idle → ¬ wants → ¬ drops → t.ds.loadWant = before)

/-- The heads of the job with no needle that is READY with a thread code (R96, R84). -/
def Unthreaded (t : State) (thread : Nat) (set : HeadSet) : Prop :=
  ∀ h : HeadId, inSet set h = true ↔ inSet t.jobHeads h = true ∧
    ∀ n : NeedleId, ¬ ((t.sel h).needles[n].disabled = false ∧ (t.sel h).needles[n].code = thread)

/-- The part waits: no transition of its own is due (log 8). -/
def Waits (s : State) : Prop := s.microStep = none

/-- Every enumerated field carries the position of its value in the list of R182 (R181); FREE, and an absent fault
kind, attention cause or pass kind, is 0. -/
def CodesAsListed : Prop :=
  ([.idle, .standby, .sewing, .repair, .travel, .change, .stopping, .halted, .finished] : List PassState).map (·.code) =
    List.range 9 ∧
  ([.none, .stopRequest, .faultHold, .repairFull, .designPause, .starved, .pinCeiling, .repairsOutstanding, .frameLate,
    .spindlePosition, .estop, .powerLoss, .reset] : List HaltCause).map (·.code) = List.range 13 ∧
  ([.done, .accepted, .clamped, .refused, .noResponse, .linkBusy, .badRequest] : List Result).map (·.code) =
    List.range 7 ∧
  ([.none, .noJob, .busy, .duplicate, .stale, .noSlot, .noSpace, .badOffset, .badStitch, .badArgument, .incomplete,
    .geometry, .outOfField, .notFound, .pinned, .tableInvalid, .unreferenced, .estopActive] : List Reason).map (·.code) =
    List.range 18 ∧
  ([.loading, .ready, .active, .sewn] : List SegState).map (·.code) = List.range' 1 4 ∧
  ([.none, .geometry, .outOfField] : List CloseResult).map (·.code) = List.range 3 ∧
  (∀ b, ([.excluded, .active, .shifting b, .off, .rejoinWait, .benched] : List HeadState).map (·.code) = List.range 6) ∧
  ([.auto, .operator] : List RejoinMode).map (·.code) = List.range 2 ∧
  ([.green, .yellow, .red] : List Colour).map (·.code) = List.range 3 ∧
  ([.opened, .closed, .active] : List RecordState).map (·.code) = List.range 3 ∧
  (let kinds : List FaultKind := [.upperBreak, .bobbinOut, .bobbinLow, .tensionWarn, .tensionLoose, .tensionTight,
      .needleShiftFail, .trimFail, .noThread, .needleWithdrawn, .headSilent, .headDrive, .breakStorm]
   kinds.map (·.code) = List.range' 1 13 ∧
   (kinds.map RepairCause.fault ++ [RepairCause.carry]).map (·.code) = List.range' 1 14) ∧
  ([none, some .main, some .repair] : List (Option PassKind)).map passKindCode = List.range 3 ∧
  ([.cold, .warmPower, .warmReset] : List StartKind).map (·.code) = List.range 3 ∧
  ([.loadWant, .halted, .fault, .threadMissing, .repairDone, .finished, .start] : List Attention).map (·.code) =
    List.range' 1 7

/-- The ready-ahead count and the next wanted number of a job (R5, R18): the chain begins above the mark, or at 0; the
count is that of the unbroken READY records from there on, the number the lowest not present. -/
def ChainCounts (s : State) : Prop :=
  let first := s.ds.mark.elim 0 (· + 1)
  (first ≤ s.nextWanted ∧ s.findSeg s.nextWanted = none ∧
    ∀ m, first ≤ m → m < s.nextWanted → s.findSeg m ≠ none) ∧
  ∃ chain : List SegRecord, s.readyAhead = (chain.map (·.count)).sum ∧
    (∀ (i : Nat) (r : SegRecord), chain[i]? = some r → s.findSeg (first + i) = some r ∧ r.state = .ready) ∧
    ∀ r, s.findSeg (first + chain.length) = some r → r.state ≠ .ready

/-- The Move-Time Tables are valid (R39): each is non-decreasing, and the geometric cap of (16, 16) is S_MIN or more. -/
def TablesValid (s : State) : Prop :=
  (∀ table, table = s.mp.tableX ∨ table = s.mp.tableY →
    ∀ d a b, table[d]? = some a → table[d + 1]? = some b → a ≤ b) ∧
  ∀ x y, s.mp.tableX[16]? = some x → s.mp.tableY[16]? = some y →
    s.par.sMin ≤ if max x y = 0 then s.par.sMax else s.par.windowDeg * 500000 / (3 * max x y)

/-- A value is the least of an old one and a list's. -/
def LeastOf (v old : Int) (xs : List Int) : Prop :=
  v ≤ old ∧ (∀ x ∈ xs, v ≤ x) ∧ (v = old ∨ v ∈ xs)

/-- A value is the greatest of an old one and a list's. -/
def GreatestOf (v old : Int) (xs : List Int) : Prop :=
  old ≤ v ∧ (∀ x ∈ xs, x ≤ v) ∧ (v = old ∨ v ∈ xs)

/-- The resume context is empty (R77). -/
def NoContext (p : Pass) : Prop :=
  p.point = none ∧ (∀ h : HeadId, p.faulted[h] = none) ∧ p.carryOwed = false ∧ p.trimmed = false ∧
  p.owedTrims = 0 ∧ p.wasMoving = false

/-- The pins have followed the records (R16, R149, R14): they agree, no segment differs but in its pins, and
exactly a SEWN segment that is not served is freed as its last pin goes. -/
def PinsFollow (s t : State) : Prop :=
  t.Pinned ∧ ∀ m, (s.findSeg m = none → t.findSeg m = none) ∧ ∀ q, s.findSeg m = some q →
    ((∃ p, t.findSeg m = some { q with pins := p }) ∨
      (t.findSeg m = none ∧ q.state = .sewn ∧ s.ds.served ≠ some m)) ∧
    (q.state = .sewn → s.ds.served ≠ some m → 0 < q.pins → (∀ r ∈ t.rt.records, r.segment ≠ m) →
      t.findSeg m = none)

end Sys2Proof.Claims

open Sys2Proof.Claims

/-! ## The machine: its queue, its state after a cold start, what every step keeps -/

/-- A step with a command at the front of the queue is that command's effect on the state with the
queue's rest. The queue is the model's, as every block's is. -/
def Obligations.StepTakesFront : Prop :=
  ∀ (c : Instr) (rest : List Instr) (s : State),
    step { s with pending := c :: rest } = exec c { s with pending := rest }

/-- A step with no command waiting: a request received is carried out while the part acts (R172), a
malformed frame is answered BAD_REQUEST (R173), and otherwise one µs passes for the move in progress,
whose last pulse is left to its completion. The model's choices: it is the step that finds no command waiting
that completes the handling of what was received (log 9), and the clock (log 1). -/
def Obligations.StepWithoutCommand : Prop :=
  ∀ s : State, s.pending = [] → Acts s →
    (∀ i, s.rl.slot = .pending (.request i) → step s = exec i s) ∧
    (s.rl.slot = .pending .malformed → step s = .next (withResponse .badRequest .none [] s)) ∧
    ((∀ h, s.rl.slot ≠ .pending h) →
      (∀ m, s.mp.move = some m → step s =
        .next { s with mp := { s.mp with move := some { m with elapsed := min (m.elapsed + 1) (m.duration - 1) } } }) ∧
      (s.mp.move = none → step s = .next s))

/-- Every command answers a next state, in every state, and leaves the queue as it finds it. -/
def Obligations.EveryCommandCompletes : Prop :=
  ∀ (i : Instr) (s : State), ∃ t, exec i s = .next t ∧ t.pending = s.pending

/-- The state after a cold start: every register that the chapters give a value for a cold start has it (R22, R36, R37,
R57 to R59, R83, R98, R99, R115, R130, R131, R137, R147, R165, R168, R179; the cold-start columns), and with these values
it is sound in every block, its pins agreeing with its records. -/
def Obligations.ColdValues : Prop :=
  let s := State.reset
  let p := s.par
  (s.ds.segs = [] ∧ (s.ds.pool.Perm (List.range 4096)) ∧ s.ds.mark = none ∧ s.ds.loadWant = false ∧
    s.ds.served = none ∧ p.loadLow = 2000 ∧ p.loadHigh = 6000) ∧
  (s.se.context = none ∧ s.se.plan = none ∧ p.minStitch = 0 ∧ p.tieLength = 8 ∧ p.travelStep = 100) ∧
  (s.mp.position = ⟨0, 0⟩ ∧ s.mp.referenced = false ∧ s.mp.unfinished = none ∧ s.mp.mode = .atRest ∧
    s.mp.window = [] ∧ s.mp.marker = none ∧ s.mp.move = none ∧ s.mp.prevSpeed = none ∧ s.mp.spindle = 0 ∧
    s.mp.policyCeiling = none ∧ s.mp.stopCeiling = false ∧ s.mp.stopEnd = false ∧
    s.mp.shaft = .turning ∧ s.mp.tableX.length = 128 ∧ s.mp.tableY = s.mp.tableX ∧
    s.mp.tableX[0]? = some 0 ∧ ∀ d, 1 ≤ d → d ≤ 127 → s.mp.tableX[d]? = some (3000 + 150 * d)) ∧
  (p.sMin = 100 ∧ p.sMax = 1000 ∧ p.accelUp = 40 ∧ p.accelDown = 60 ∧
    p.windowDeg = 120 ∧ p.jumpCap = 600 ∧ p.repairCap = 600 ∧ p.axisScaleX = 8 ∧
    p.axisScaleY = 8 ∧ p.fieldXLow = -3000 ∧ p.fieldXHigh = 3000 ∧ p.fieldYLow = -2000 ∧ p.fieldYHigh = 2000) ∧
  (p.shiftTimeout = 1500 ∧ p.trimTimeout = 600 ∧ p.silentRun = 2) ∧
  (p.kAllow = 20 ∧ p.gain = 16 ∧ p.breakRun = 3 ∧ p.tol = 12 ∧ p.leak = 4 ∧ p.yellowMark = 200 ∧ p.redMark = 600 ∧
    p.yellowCap = 500 ∧ p.bobbinAllow = 4 ∧ p.bobbinLowMark = 20000 ∧ p.bobbinRun = 4 ∧ p.stormWeight = 64 ∧
    p.stormMark = 192 ∧ p.stormLeak = 64 ∧ s.yellow = false) ∧
  (s.pc.state = .idle ∧ s.pc.cause = .none ∧ s.pc.due = none ∧ s.pc.job = none ∧ NoContext s.pc) ∧
  (∀ h : HeadId,
    ((s.head h).state = .excluded ∧ (s.head h).rejoin = .auto ∧ (s.head h).replay = none ∧ (s.head h).ranges = [] ∧
      (s.head h).silentRun = 0 ∧ (s.head h).silentRaised = false ∧ (s.head h).driveSeen = false ∧
      (s.head h).lastReport = none ∧ (s.head h).inTrim = false ∧ (s.head h).sewn = 0 ∧ (s.head h).sewnRepair = 0) ∧
    ((s.sel h).current = none ∧ (s.sel h).shift = none ∧ (s.sel h).trim = none ∧
      ∀ n : NeedleId, (s.sel h).needles[n] = ⟨65535, false, none⟩) ∧
    s.meter h = ⟨0, 0, 0, .green, 0, false, 0, 0, 0⟩ ∧ s.faultHead h = ⟨none, none, 0, false⟩) ∧
  s.ts.working = none ∧ s.hs.revolution = false ∧
  (∀ k : FaultKind, kindInSet s.fr.enable k = true ∧
    (kindInSet s.fr.countSelect k = true ↔ k ≠ .tensionWarn ∧ k ≠ .bobbinLow)) ∧
  (∀ i : Fin 32, let r := s.fr.rules[i]
    (r.byKind = false ∧ r.byHead = false ∧ r.byPass = false ∧ r.byIndex = false ∧ r.bySpeed = false ∧
      r.byFaults = false) ∧
    r.reaction.enabled = false ∧ r.speedCap.enabled = false ∧ r.backtrack.enabled = false ∧
    r.rejoin.enabled = false ∧ r.severity.enabled = false) ∧
  (s.rt.records = [] ∧ s.rt.roundMark = none ∧ s.rt.retiredInPass = false ∧ s.rt.pass = none) ∧
  (s.sm.retention = false ∧ s.sm.startKind = .cold) ∧
  (s.rl.slot = .noResponse ∧ ∀ a : Attention, (Pending s a ↔ a = .start) ∧ s.rl.enable.getLsbD (a.code - 1) = true) ∧
  (s.ds.Sound ∧ Memory.wf s.ds.memory = true ∧ s.mp.Sound ∧ s.fr.Sound ∧ s.par.Sound ∧ s.Pinned)

/-- Every step keeps the Design Store sound: slots and numbers apart, every page of the 4,096 in the pool
or in one page list, once (R1, R3); and keeps the Stitch Memory in its canonical form. -/
def Obligations.StoreStaysSound : Prop :=
  ∀ s t : State, step s = .next t →
    (s.ds.Sound → t.ds.Sound) ∧ (Memory.wf s.ds.memory = true → Memory.wf t.ds.memory = true)

/-- Every step keeps the spindle command at 0 outside RUNNING and the look-ahead window within 32
stitches (R46, R43). -/
def Obligations.MotionStaysSound : Prop :=
  ∀ s t : State, s.mp.Sound → step s = .next t → t.mp.Sound

/-- Every step keeps every parameter in its range and the ordered ones in their order (R20, R35, R57, R58, R98, R114,
R130), and each head's fault count within 0..127, its overflow flag set only at 127 (R146). -/
def Obligations.ParametersAndFaultCountsStaySound : Prop :=
  ∀ s t : State, step s = .next t → (s.par.Sound → t.par.Sound) ∧ (s.fr.Sound → t.fr.Sound)

/-! ## The request link -/

/-- The frame of every well-formed request, with any bytes after it, is read as that request (R173, R181,
R183): no byte of a request is dropped. That a CONFIG_WRITE of an unknown identifier carries a value of two
bytes is the model's choice (log 20). -/
def Obligations.FramesReadAsWritten : Prop :=
  ∀ (i : Instr) (frame filler : List Byte), i.wellFormed = true → requestFrame i = some frame →
    frameRequest (frame ++ filler) = some i

/-- The payload's length suits the kind of request (R173, R183, R185): SEG_WRITE carries 5 bytes and 3 for each of
its 1..64 stitches, RULE_WRITE 1 or 23 bytes, CONFIG_WRITE 3, or 4 for BOBBIN_LOW_MARK, and every other kind its own
number. -/
def Sys2Proof.Claims.Suits (kind : Nat) (payload : List Byte) : Prop :=
  match kind with
  | 1 => payload.length = 8
  | 7 => payload.length = 4
  | 8 => payload.length = 11
  | 9 => ∃ n, payload[4]? = some n ∧ 1 ≤ n.toNat ∧ n.toNat ≤ 64 ∧ payload.length = 5 + 3 * n.toNat
  | 10 => payload.length = 10
  | 11 => payload.length = 2
  | 12 => payload.length = 2
  | 13 => payload.length = 4
  | 14 => payload.length = 6
  | 15 => payload.length = 2
  | 16 => payload.length = 2
  | 17 => payload.length = 1
  | 18 => payload.length = 1
  | 19 => payload.length = 1
  | 20 => payload.length = 4
  | 21 => payload.length = 6
  | 22 => payload.length = 2
  | 23 => payload.length = 1 ∨ payload.length = 23
  | 24 => payload.length = 1
  | 25 => payload.length = 67
  | 26 => payload.length = (if payload.head? = some 31 then 4 else 3)
  | 27 => payload.length = 1
  | _ => payload.length = 0

/-- A frame whose CRC disagrees, whose length byte is above 200, that ended early, whose kind byte names no
request, or whose length does not suit its kind is malformed (R173). That a CONFIG_WRITE of an unknown
identifier carries a value of two bytes is the model's choice (log 20). -/
def Obligations.MalformedFramesAreRefused : Prop :=
  (∀ rx : List Byte, rx.length < 2 → frameRequest rx = none) ∧
  ∀ (kind length : Byte) (rest : List Byte),
    (200 < length.toNat ∨ rest.length < length.toNat + 2 ∨
      (rest.drop length.toNat).take 2 ≠
        beBytes 2 (crc16 (kind :: length :: rest.take length.toNat)).toNat ∨
      kind.toNat = 0 ∨ 31 < kind.toNat ∨ ¬ Suits kind.toNat (rest.take length.toNat)) →
    frameRequest (kind :: length :: rest) = none

/-- The frame of a response (R181): its result, its reason and the payload's length, one byte each, the payload, and
the CRC over all of these. -/
def Sys2Proof.Claims.Frames (r : Response) (frame : List Byte) : Prop :=
  ∃ front, frame = front ++ beBytes 2 (crc16 front).toNat ∧ front.length = r.payload.length + 3 ∧
    Carries front 0 1 r.result.code ∧ Carries front 1 1 r.reason.code ∧ Carries front 2 1 r.payload.length ∧
    front.drop 3 = r.payload

/-- TRANSACTION (R172, R173, R179): from a READY or NO_RESPONSE slot the response goes out, as far as the
bytes clocked reach, and the request received becomes the one being handled; from a PENDING slot LINK_BUSY
goes out and what came in is discarded, also while a reset waits; a part held by its reset line sends filler.
That a part without supply, or one with a reset that waits and no request PENDING, sends filler too is the
model's choice (logs 2, 36). -/
def Obligations.TransactionExchanges : Prop :=
  ∀ (rx : List Byte) (s : State),
    (Acts s → ∀ frame : List Byte,
      ((∃ r, s.rl.slot = .ready r ∧ Frames r frame) ∨ (s.rl.slot = .noResponse ∧ Frames ⟨.noResponse, .none, []⟩ frame)) →
      ∃ out, exec (.transaction rx) s = .next { s with rl := { s.rl with
          shiftedOut := out
          slot := .pending (match frameRequest rx with | some i => .request i | none => .malformed) } } ∧
        out.length = rx.length ∧
        ∀ k, k < rx.length → out[k]? = some (frame[k]?)) ∧
    (s.sm.powered = true → s.sm.resetLine = false → ∀ h frame, s.rl.slot = .pending h →
      Frames ⟨.linkBusy, .none, []⟩ frame →
      ∃ out, exec (.transaction rx) s = .next { s with rl := { s.rl with shiftedOut := out } } ∧
        out.length = rx.length ∧
        ∀ k, k < rx.length → out[k]? = some (frame[k]?)) ∧
    ((s.sm.powered = false ∨ s.sm.resetLine = true ∨
        s.sm.resetWaits = true ∧ ∀ h, s.rl.slot ≠ .pending h) →
      exec (.transaction rx) s = .next { s with rl := { s.rl with shiftedOut := List.replicate rx.length none } })

/-! ## Requests that ask and change nothing, and ATTENTION_READ -/

/-- NOP and STATUS are answered DONE in every state and change nothing (R176); the status report has the
37 bytes of R184, with the values R65 and R176 give: the segment repaired in a repair pass, the resume point's while
HALTED, the ACTIVE record's else, or none; the frontier while SEWING, REPAIR or STOPPING, the resume index while
HALTED at a stitch; the codes are those of R182, the counts those of R5 and R18. That the current index is sent as absent everywhere else, where R65 names none, is the model's
reading (log 17). -/
def Obligations.NopAndStatusAnswer : Prop :=
  CodesAsListed ∧ (∀ s : State, ChainCounts s) ∧
  ∀ s : State, Acts s →
    exec .nop s = .next (done [] s) ∧
    ∃ p, exec .status s = .next (done p s) ∧ p.length = 37 ∧
      Carries p 0 1 s.pc.state.code ∧ Carries p 1 1 s.pc.cause.code ∧
      Carries p 2 2 s.mp.position.x ∧ Carries p 4 2 s.mp.position.y ∧
      Carries p 6 1 (if s.mp.referenced then 1 else 0) ∧
      (let repairs := s.pc.state = .repair ∨ s.pc.state = .stopping ∧ s.mp.passKind = .repair
       let sews := s.pc.state = .sewing ∨ s.pc.state = .repair ∨ s.pc.state = .stopping
       (repairs → Carries p 7 2 (s.ds.served.getD 65535)) ∧
       (∀ g k, s.pc.state = .halted → s.pc.point = some (.atStitch g k) → Carries p 7 2 g ∧ Carries p 9 2 k) ∧
       (∀ g, s.pc.state = .halted → s.pc.point = some (.atEnd g) → Carries p 7 2 g ∧ Carries p 9 2 65535) ∧
       (s.pc.state = .halted → (∀ g k, s.pc.point ≠ some (.atStitch g k)) → (∀ g, s.pc.point ≠ some (.atEnd g)) →
         Carries p 7 2 65535 ∧ Carries p 9 2 65535) ∧
       (¬ repairs → s.pc.state ≠ .halted →
         (∀ r, s.activeSeg = some r → Carries p 7 2 r.number) ∧
         ((∀ r ∈ s.ds.segs, r.state ≠ .active) → Carries p 7 2 65535)) ∧
       (sews → Carries p 9 2 s.frontier) ∧
       (¬ sews → s.pc.state ≠ .halted → Carries p 9 2 65535)) ∧
      Carries p 11 2 (if s.mp.mode = .running then s.mp.prevSpeed.getD 0 else 0) ∧
      Carries p 13 2 s.ds.pool.length ∧
      Carries p 15 3 (if s.pc.state = .idle then 0 else s.readyAhead) ∧
      Carries p 18 2 (if s.pc.state = .idle then 65535 else s.nextWanted) ∧
      Carries p 20 1 s.rt.records.length ∧
      ∀ h : HeadId, Carries p (21 + h.val) 1 (s.head h).state.code

/-- ATTENTION_READ returns every pending cause, enabled or not, and the start kind; the sticky causes are
cleared as it is taken, LOAD_WANT is not (R178). The attention line is asserted exactly while an enabled cause is
pending (R177); that a part without supply drives nothing is the model's choice (log 2). -/
def Obligations.AttentionReadClears : Prop :=
  (∀ s : State, Acts s → ∃ p,
    exec .attentionRead s = .next (done p { s with rl := { s.rl with sticky := 0 } }) ∧ p.length = 3 ∧
    Carries p 0 2 (s.rl.sticky ||| (if s.ds.loadWant then 1 else 0)).toNat ∧
    Carries p 2 1 s.sm.startKind.code) ∧
  ∀ s : State, s.attentionLine = true ↔ s.sm.powered = true ∧
    ∃ k : Nat, s.rl.enable.getLsbD k = true ∧ (s.rl.sticky.getLsbD k = true ∨ k = 0 ∧ s.ds.loadWant = true)

/-- SEG_QUERY answers the segment report of R184, and SEG_LOCATE the position before stitch k: the start position
plus the deltas of stitches 0..k − 1, each read from the entry R2 gives it (R12). Both change nothing; they are
refused NO_JOB with no job open and NOT_FOUND for a number not present, and SEG_LOCATE BAD_ARGUMENT for a
k above the written count. -/
def Obligations.SegQueryAndLocate : Prop :=
  ∀ (number k : BitVec 16) (s : State), Acts s →
    let query := exec (.segQuery number) s
    let locate := exec (.segLocate number k) s
    (s.pc.state = .idle → query = .next (refused .noJob s) ∧ locate = .next (refused .noJob s)) ∧
    (s.pc.state ≠ .idle → s.findSeg number.toNat = none →
      query = .next (refused .notFound s) ∧ locate = .next (refused .notFound s)) ∧
    ∀ r : SegRecord, s.pc.state ≠ .idle → s.findSeg number.toNat = some r →
      (∃ p, query = .next (done p s) ∧ p.length = 45 ∧
        Carries p 0 1 r.slot ∧ Carries p 1 2 number.toNat ∧ Carries p 3 1 r.state.code ∧
        Carries p 4 2 r.thread ∧ Carries p 6 2 r.count ∧ Carries p 8 2 r.written ∧
        Carries p 10 2 r.start.x ∧ Carries p 12 2 r.start.y ∧
        Carries p 14 4 r.runEnd.x ∧ Carries p 18 4 r.runEnd.y ∧
        Carries p 22 4 r.box.minX ∧ Carries p 26 4 r.box.maxX ∧
        Carries p 30 4 r.box.minY ∧ Carries p 34 4 r.box.maxY ∧
        Carries p 38 2 r.pages.length ∧
        Carries p 40 1 ((if r.tieIn then 1 else 0) + (if r.tieOff then 2 else 0)) ∧
        Carries p 41 1 r.close.code ∧ Carries p 42 2 r.unthreaded.toNat ∧ Carries p 44 1 r.pins) ∧
      (r.written < k.toNat → locate = .next (refused .badArgument s)) ∧
      (k.toNat ≤ r.written →
        let stitch := fun i => memRead s.ds.memory (r.pages.getD (i / 16) 0 * 16 + i % 16)
        ∃ p, locate = .next (done p s) ∧ p.length = 8 ∧
          Carries p 0 4 (r.start.x + ((List.range k.toNat).map fun i => (stitch i).dx).sum) ∧
          Carries p 4 4 (r.start.y + ((List.range k.toNat).map fun i => (stitch i).dy).sum))

/-- NEEDLE_QUERY answers the entry's code, state and staged edit, the head's current needle and its shift
target, and changes nothing; it is refused BAD_ARGUMENT when head or needle lies outside its range (R87,
R183). -/
def Obligations.NeedleQueryReports : Prop :=
  ∀ (head needle : Byte) (s : State), Acts s →
    (∀ (h : HeadId) (n : NeedleId), Names head h → needle.toNat = n.val + 1 →
      let e := (s.sel h).needles[n]
      ∃ p, exec (.needleQuery head needle) s = .next (done p s) ∧ p.length = 9 ∧
        Carries p 0 2 e.code ∧ Carries p 2 1 (if e.disabled then 1 else 0) ∧
        (e.staged = none → Carries p 3 1 0) ∧
        (∀ x, e.staged = some x →
          Carries p 3 1 ((if x.code.isSome then 1 else 0) + (if x.disabled.isSome then 2 else 0)) ∧
          (∀ c, x.code = some c → Carries p 4 2 c) ∧
          (∀ d, x.disabled = some d → Carries p 6 1 (if d then 1 else 0))) ∧
        Carries p 7 1 (needleNumber (s.sel h).current) ∧
        Carries p 8 1 (needleNumber ((s.sel h).shift.map (·.target)))) ∧
    ((head.toNat = 0 ∨ 16 < head.toNat ∨ needle.toNat = 0 ∨ 12 < needle.toNat) →
      exec (.needleQuery head needle) s = .next (refused .badArgument s))

/-- HEAD_QUERY answers the head report of R184 in every state and changes nothing; it is refused
BAD_ARGUMENT outside heads 1..16 (R112, R184). -/
def Obligations.HeadQueryReports : Prop :=
  ∀ (head : Byte) (s : State), Acts s →
    (∀ h : HeadId, Names head h →
      let r := s.head h
      let m := s.meter h
      let f := s.faultHead h
      ∃ p, exec (.headQuery head) s = .next (done p s) ∧ p.length = 46 ∧
        Carries p 0 1 r.state.code ∧ Carries p 1 1 r.rejoin.code ∧
        (r.replay = none → Carries p 2 1 0 ∧ Carries p 5 2 65535) ∧
        (∀ g k, r.replay = some (g, k) → Carries p 2 1 1 ∧ Carries p 3 2 g ∧ Carries p 5 2 k) ∧
        Carries p 7 1 r.silentRun ∧
        (r.lastReport = none → Carries p 8 1 ((if r.driveSeen then 1 else 0) + (if r.inTrim then 2 else 0) +
          (if m.lowArmed then 16 else 0) + (if f.overflow then 32 else 0)) ∧ Carries p 9 1 0) ∧
        (∀ l, r.lastReport = some l → Carries p 8 1 ((if r.driveSeen then 1 else 0) +
          (if r.inTrim then 2 else 0) + (if l.bobbin then 4 else 0) + (if l.button then 8 else 0) +
          (if m.lowArmed then 16 else 0) + (if f.overflow then 32 else 0) + 64) ∧
          Carries p 9 1 (needleNumber l.needle)) ∧
        Carries p 10 1 (needleNumber (s.sel h).current) ∧
        Carries p 11 1 (needleNumber ((s.sel h).shift.map (·.target))) ∧
        Carries p 12 4 r.sewn ∧ Carries p 16 4 r.sewnRepair ∧ Carries p 20 1 m.breakRun ∧
        Carries p 21 2 m.loose ∧ Carries p 23 2 m.tight ∧ Carries p 25 1 m.colour.code ∧
        Carries p 26 3 m.bobbin ∧ Carries p 29 1 m.bobbinAbsent ∧ Carries p 30 1 m.storm ∧
        Carries p 31 2 m.stormLeak ∧
        (f.first = none → Carries p 33 1 0) ∧
        (∀ c, f.first = some c → Carries p 33 1 c.kind.code ∧
          (∀ g, c.segment = some g → Carries p 34 2 g) ∧
          Carries p 36 2 (c.index.getD 65535) ∧ Carries p 38 1 (needleNumber c.needle) ∧
          Carries p 39 1 (passKindCode c.pass) ∧
          (∀ e, c.expected = some e → Carries p 40 2 e) ∧ (∀ e, c.measured = some e → Carries p 42 2 e)) ∧
        Carries p 44 1 (f.latest.elim 0 (·.code)) ∧ Carries p 45 1 f.count) ∧
    ((head.toNat = 0 ∨ 16 < head.toNat) → exec (.headQuery head) s = .next (refused .badArgument s))

/-- REPAIR_LIST answers up to 8 of the records whose keys lie strictly after the cursor, in ascending
order of segment, head and first index, says whether more follow, gives the repair report of each and
changes nothing (R162, R184). That a cursor-present byte above 1 counts as present is the model's reading
(log 29). -/
def Obligations.RepairListPages : Prop :=
  ∀ (present : Byte) (segment : BitVec 16) (head : Byte) (first : BitVec 16) (s : State), Acts s →
    let after := fun r : RepairRecord =>
      present = 0 ∨ segment.toNat < r.segment ∨
        segment.toNat = r.segment ∧ (head.toNat < r.head.val + 1 ∨
          head.toNat = r.head.val + 1 ∧ first.toNat < r.first)
    let before := fun a b : RepairRecord =>
      a.segment < b.segment ∨ a.segment = b.segment ∧ (a.head < b.head ∨ a.head = b.head ∧ a.first < b.first)
    ∃ (p : List Byte) (listed left : List RepairRecord),
      exec (.repairList present segment head first) s = .next (done p s) ∧
      (∀ r, r ∈ listed ++ left ↔ r ∈ s.rt.records ∧ after r) ∧
      (listed ++ left).length = (s.rt.records.filter fun r => decide (after r)).length ∧
      (listed ++ left).Pairwise (fun a b => ¬ before b a) ∧
      listed.length ≤ 8 ∧ (left ≠ [] → listed.length = 8) ∧
      p.length = 2 + 14 * listed.length ∧ Carries p 0 1 listed.length ∧
      Carries p 1 1 (if left = [] then 0 else 1) ∧
      ∀ (i : Nat) (r : RepairRecord), listed[i]? = some r →
        let o := 2 + 14 * i
        Carries p o 1 r.slot ∧ Carries p (o + 1) 1 (r.head.val + 1) ∧ Carries p (o + 2) 2 r.segment ∧
        Carries p (o + 4) 2 r.first ∧ Carries p (o + 6) 2 (r.last.getD 65535) ∧
        Carries p (o + 8) 2 r.thread ∧ Carries p (o + 10) 1 r.cause.code ∧
        Carries p (o + 11) 1 r.state.code ∧ Carries p (o + 12) 2 (r.through.getD 32767)

/-! ## The Fault Policy Table, the parameters, the Move-Time Tables and the frame -/

/-- A rule as sent is in form (R137): its enumerated values are listed ones, an enabled index range is in
order, the minimum fault count is 127 or less. A pass kind of 0 is taken where the field is disabled and
enumerated values are judged whether enabled or not (log 7: the model's reading). -/
def Sys2Proof.Claims.RuleInForm (r : RawRule) : Prop :=
  r.reaction.toNat ≤ 2 ∧ r.rejoin.toNat ≤ 1 ∧ r.severity.toNat ≤ 2 ∧ r.passKind.toNat ≤ 2 ∧
  (r.patternEnables.getLsbD 2 = true → 1 ≤ r.passKind.toNat) ∧
  (r.patternEnables.getLsbD 3 = true → r.indexMin.toNat ≤ r.indexMax.toNat) ∧ r.minFaults.toNat ≤ 127

/-- RULE_WRITE stores a rule that RULE_READ returns field by field (R137, R183): SPEED_CAP and minimum
speed to 1,200 and BACKTRACK to 63 with the answer CLAMPED, enable and use-default flags, kinds and heads as the
members that exist, an invert byte above 1 as 1 (log 29: the model's choice), the other fields as sent; no other
rule changes, and nothing else but the slot. The stored rule of a disabled field is the model's (log 7). In its
1-byte form it writes the rule with every field disabled (R181); a number above 31 or a rule out of form is
refused BAD_ARGUMENT, and RULE_READ above 31 likewise (R137). In every state RULE_READ is answered DONE with the rule as
stored, every field with its flags. -/
def Obligations.RulesAreWritten : Prop :=
  (∀ (number : Byte) (r : RawRule) (s : State), Acts s → number.toNat ≤ 31 → RuleInForm r →
     ∃ t p, exec (.ruleWrite number (some r)) s = .next t ∧
       t = { s with rl := t.rl, fr := { s.fr with rules := t.fr.rules } } ∧
       Answered t (if 1200 < r.speedCap.toNat ∨ 1200 < r.minSpeed.toNat ∨ 63 < r.backtrack.toNat
         then .clamped else .done) [] ∧
       (∀ m : Fin 32, m.val ≠ number.toNat → t.fr.rules[m] = s.fr.rules[m]) ∧
       exec (.ruleRead number) t = .next (done p t) ∧ p.length = 23 ∧
       Carries p 0 1 number.toNat ∧ Carries p 1 1 (r.patternEnables &&& 0x3F).toNat ∧
       Carries p 2 1 (r.actionEnables &&& 0x1F).toNat ∧ Carries p 3 1 (r.useDefaults &&& 0x1F).toNat ∧
       Carries p 4 2 (r.kinds &&& 0x1FFF).toNat ∧ Carries p 6 2 r.heads.toNat ∧
       Carries p 8 1 (if r.invert = 0 then 0 else 1) ∧ Carries p 9 1 r.passKind.toNat ∧
       Carries p 10 2 r.indexMin.toNat ∧ Carries p 12 2 r.indexMax.toNat ∧
       Carries p 14 2 (min r.minSpeed.toNat 1200) ∧ Carries p 16 1 r.minFaults.toNat ∧
       Carries p 17 1 r.reaction.toNat ∧ Carries p 18 2 (min r.speedCap.toNat 1200) ∧
       Carries p 20 1 (min r.backtrack.toNat 63) ∧ Carries p 21 1 r.rejoin.toNat ∧
       Carries p 22 1 r.severity.toNat) ∧
  (∀ (number : Byte) (s : State), Acts s →
     (number.toNat ≤ 31 → ∃ t p, exec (.ruleWrite number none) s = .next t ∧ Answered t .done [] ∧
       t = { s with rl := t.rl, fr := { s.fr with rules := t.fr.rules } } ∧
       (∀ m : Fin 32, m.val ≠ number.toNat → t.fr.rules[m] = s.fr.rules[m]) ∧
       exec (.ruleRead number) t = .next (done p t) ∧ Carries p 1 1 0 ∧ Carries p 2 1 0) ∧
     (∀ rule, (31 < number.toNat ∨ ∃ r, rule = some r ∧ ¬ RuleInForm r) →
       exec (.ruleWrite number rule) s = .next (refused .badArgument s)) ∧
     (31 < number.toNat → exec (.ruleRead number) s = .next (refused .badArgument s))) ∧
  (∀ (number : Byte) (i : Fin 32) (s : State), Acts s → number.toNat = i.val →
     let r := s.fr.rules[i]
     ∃ (p : List Byte) (pattern action default : Byte), exec (.ruleRead number) s = .next (done p s) ∧ p.length = 23 ∧
       Carries p 0 1 number.toNat ∧ p[1]? = some pattern ∧ p[2]? = some action ∧ p[3]? = some default ∧
       (∀ b, pattern.getLsbD b = [r.byKind, r.byHead, r.byPass, r.byIndex, r.bySpeed, r.byFaults].getD b false) ∧
       (∀ b, action.getLsbD b = [r.reaction.enabled, r.speedCap.enabled, r.backtrack.enabled, r.rejoin.enabled,
         r.severity.enabled].getD b false) ∧
       (∀ b, default.getLsbD b = [r.reaction.useDefault, r.speedCap.useDefault, r.backtrack.useDefault,
         r.rejoin.useDefault, r.severity.useDefault].getD b false) ∧
       Carries p 4 2 r.kinds.toNat ∧ Carries p 6 2 r.heads.toNat ∧ Carries p 8 1 (if r.invert then 1 else 0) ∧
       Carries p 9 1 (match r.passKind with | none => 0 | some .main => 1 | some .repair => 2) ∧
       Carries p 10 2 r.indexMin ∧ Carries p 12 2 r.indexMax ∧ Carries p 14 2 r.minSpeed ∧ Carries p 16 1 r.minFaults ∧
       Carries p 17 1 (match r.reaction.value with | .continue_ => 0 | .headOff => 1 | .hold => 2) ∧
       Carries p 18 2 r.speedCap.value ∧ Carries p 20 1 r.backtrack.value ∧
       Carries p 21 1 (match r.rejoin.value with | .auto => 0 | .operator => 1) ∧
       Carries p 22 1 (match r.severity.value with | .notice => 0 | .head => 1 | .machine => 2))

/-- A parameter's write may also move another one (R20, R57, R130). -/
def Sys2Proof.Claims.Moves (i j : Nat) : Prop :=
  i = 1 ∧ j = 2 ∨ i = 6 ∧ (j = 7 ∨ j = 11 ∨ j = 12 ∨ j = 29) ∨ i = 7 ∧ (j = 11 ∨ j = 12 ∨ j = 29) ∨
    i = 27 ∧ j = 28

/-- The parameters in the order of their identifiers, 1 to 35 (R185), each with the ends of its range (R20, R35, R57,
R58, R98, R114, R130). -/
def Sys2Proof.Claims.parameters (p : Params) : List (Int × Int × Int) :=
  let row := fun v low high : Int => (v, low, high)
  [row p.loadLow 0 65535, row p.loadHigh p.loadLow 65535, row p.minStitch 0 10, row p.tieLength 0 20,
    row p.travelStep 10 127, row p.sMin 60 400, row p.sMax p.sMin 1200, row p.accelUp 1 200, row p.accelDown 1 200,
    row p.windowDeg 60 240, row p.jumpCap p.sMin p.sMax, row p.repairCap p.sMin p.sMax, row p.axisScaleX 1 64,
    row p.axisScaleY 1 64, row p.fieldXLow (-16000) 16000, row p.fieldXHigh (-16000) 16000,
    row p.fieldYLow (-16000) 16000, row p.fieldYHigh (-16000) 16000, row p.shiftTimeout 100 5000,
    row p.trimTimeout 100 2000, row p.silentRun 1 8, row p.kAllow 0 255, row p.gain 8 24, row p.breakRun 1 15,
    row p.tol 0 63, row p.leak 0 255, row p.yellowMark 1 4095, row p.redMark p.yellowMark 4095,
    row p.yellowCap p.sMin p.sMax, row p.bobbinAllow 0 15, row p.bobbinLowMark 0 16777215, row p.bobbinRun 1 15,
    row p.stormWeight 1 255, row p.stormMark 1 255, row p.stormLeak 1 1024]

/-- The value of the parameter of an identifier 1 to 35. -/
def Sys2Proof.Claims.stored (p : Params) (i : Nat) : Option Int := ((parameters p)[i - 1]?).map (·.1)

/-- CONFIG_WRITE of a number parameter stores the value, or the nearest end of its range with the answer
CLAMPED, and an odd WINDOW_DEG as the even number below it; the ordered parameters it would pass are
brought along, every other parameter stays, and CONFIG_READ returns the stored value (R175, R20, R35,
R57, R98, R114, R130, R185); a write of a load mark evaluates LOAD_WANT again (R20, R19). In every state CONFIG_READ
of a parameter is answered DONE with the value stored (R175), in 2 bytes, or 3 for BOBBIN_LOW_MARK (R185). -/
def Obligations.NumbersAreStored : Prop :=
  (∀ (ident : Byte) (v : Int) (s : State), Acts s → 1 ≤ ident.toNat → stored s.par ident.toNat = some v →
    ∃ p, exec (.configRead ident) s = .next (done p s) ∧ p.length = (if ident = 31 then 3 else 2) ∧ Carries p 0 p.length v) ∧
  ∀ (ident : Byte) (value : BitVec 24) (old low high : Int) (s : State), Acts s →
    let i := ident.toNat
    (1 ≤ i ∧ i ≤ 14 ∨ 19 ≤ i ∧ i ≤ 35) → value.toNat < 256 ^ (if i = 31 then 3 else 2) →
    (3 ≤ i → i ≤ 14 → s.pc.state = .idle ∨ s.pc.state = .standby ∨ s.pc.state = .halted) →
    (parameters s.par)[i - 1]? = some (old, low, high) →
    let near := max low (min high value.toNat)
    let v := if i = 10 then near - near % 2 else near
    ∃ t p, exec (.configWrite ident value) s = .next t ∧
      Answered t (if v = value.toNat then .done else .clamped) [] ∧
      t = { s with rl := t.rl, par := t.par, ds := { s.ds with loadWant := t.ds.loadWant } } ∧
      (i ≤ 2 → LoadWantFollows s.ds.loadWant t) ∧ (3 ≤ i → t.ds.loadWant = s.ds.loadWant) ∧
      stored t.par i = some v ∧
      (∀ j, 1 ≤ j → j ≠ i → ¬ Moves i j → stored t.par j = stored s.par j) ∧
      (∀ j u, Moves i j → stored s.par j = some u → stored t.par j = some (if i = 7 then min u v else max u v)) ∧
      exec (.configRead ident) t = .next (done p t) ∧ p.length = (if i = 31 then 3 else 2) ∧
      Carries p 0 p.length v

/-- CONFIG_WRITE of a limit of the frame field clamps it to ±16,000 and then checks it: a limit past the
other of its axis is refused BAD_ARGUMENT, one that leaves a referenced position outside OUT_OF_FIELD,
and a write outside IDLE BUSY (R58). CONFIG_WRITE of a set writes it whole in every state, members that do not exist
left out, and is answered DONE; CONFIG_READ returns the set, in every state (R135, R175, R177). An identifier that names no
parameter is refused BAD_ARGUMENT, and an editor or motion parameter BUSY outside IDLE, STANDBY and HALTED (R175). -/
def Obligations.FieldLimitsSetsAndRefusals : Prop :=
  (∀ (ident : Byte) (value : BitVec 24) (s : State), Acts s → 15 ≤ ident.toNat → ident.toNat ≤ 18 →
     value.toNat < 65536 →
     let sent := (value.setWidth 16).toInt
     let v := max (-16000) (min 16000 sent)
     let limit := fun (i : Nat) (now : Int) => if ident.toNat = i then v else now
     let xLow := limit 15 s.par.fieldXLow
     let xHigh := limit 16 s.par.fieldXHigh
     let yLow := limit 17 s.par.fieldYLow
     let yHigh := limit 18 s.par.fieldYHigh
     let crossed := xHigh < xLow ∨ yHigh < yLow
     let outside := s.mp.referenced = true ∧
       ¬ (xLow ≤ s.mp.position.x ∧ s.mp.position.x ≤ xHigh ∧ yLow ≤ s.mp.position.y ∧ s.mp.position.y ≤ yHigh)
     (s.pc.state ≠ .idle → exec (.configWrite ident value) s = .next (refused .busy s)) ∧
     (s.pc.state = .idle → crossed → exec (.configWrite ident value) s = .next (refused .badArgument s)) ∧
     (s.pc.state = .idle → ¬ crossed → outside →
       exec (.configWrite ident value) s = .next (refused .outOfField s)) ∧
     (s.pc.state = .idle → ¬ crossed → ¬ outside → ∃ t p,
       exec (.configWrite ident value) s = .next t ∧
       t = { s with
         rl := t.rl
         par := { s.par with fieldXLow := xLow, fieldXHigh := xHigh, fieldYLow := yLow, fieldYHigh := yHigh } } ∧
       Answered t (if v = sent then .done else .clamped) [] ∧ stored t.par ident.toNat = some v ∧
       exec (.configRead ident) t = .next (done p t) ∧ p.length = 2 ∧ Carries p 0 2 v)) ∧
  (∀ (ident : Byte) (s : State), Acts s → 36 ≤ ident.toNat → ident.toNat ≤ 38 →
     let set := if ident = 36 then s.fr.enable else if ident = 37 then s.fr.countSelect else s.rl.enable
     ∃ p, exec (.configRead ident) s = .next (done p s) ∧ p.length = 2 ∧ Carries p 0 2 set.toNat) ∧
  (∀ (ident : Byte) (value : BitVec 24) (s : State), Acts s → value.toNat < 65536 →
     (36 ≤ ident.toNat → ident.toNat ≤ 38 →
       let set := value.setWidth 16 &&& (if ident = 38 then 0x007F else 0x1FFF)
       ∃ t p, exec (.configWrite ident value) s = .next (done [] t) ∧
         t = { s with
           fr := { s.fr with
             enable := if ident = 36 then set else s.fr.enable
             countSelect := if ident = 37 then set else s.fr.countSelect }
           rl := { s.rl with enable := if ident = 38 then set else s.rl.enable } } ∧
         exec (.configRead ident) t = .next (done p t) ∧ p.length = 2 ∧ Carries p 0 2 set.toNat) ∧
     ((ident.toNat = 0 ∨ 38 < ident.toNat) →
       exec (.configWrite ident value) s = .next (refused .badArgument s) ∧
       exec (.configRead ident) s = .next (refused .badArgument s)) ∧
     (3 ≤ ident.toNat → ident.toNat ≤ 14 → s.pc.state ≠ .idle → s.pc.state ≠ .standby →
       s.pc.state ≠ .halted → exec (.configWrite ident value) s = .next (refused .busy s)))

/-- TABLE_WRITE replaces the entries from f on by the first `count` of the list, and no other entry, in
IDLE, STANDBY and HALTED; it is refused BUSY elsewhere, then BAD_ARGUMENT for a range outside the table
(R38, R183). That an axis byte above 1 is refused BAD_ARGUMENT is the model's reading (log 30). -/
def Obligations.TableEntriesAreReplaced : Prop :=
  ∀ (axis first count : Byte) (entries : List (BitVec 16)) (s : State), Acts s → s.mp.Sound →
    entries.length = 32 →
    let settable := s.pc.state = .idle ∨ s.pc.state = .standby ∨ s.pc.state = .halted
    let inRange := axis.toNat ≤ 1 ∧ first.toNat ≤ 127 ∧ 1 ≤ count.toNat ∧ count.toNat ≤ 32 ∧
      first.toNat + count.toNat ≤ 128
    let written := fun (table : List Nat) (d : Nat) =>
      if first.toNat ≤ d ∧ d < first.toNat + count.toNat then (entries[d - first.toNat]?).map (·.toNat)
      else table[d]?
    (¬ settable → exec (.tableWrite axis first count entries) s = .next (refused .busy s)) ∧
    (settable → ¬ inRange → exec (.tableWrite axis first count entries) s = .next (refused .badArgument s)) ∧
    (settable → inRange → ∃ t, exec (.tableWrite axis first count entries) s = .next (done [] t) ∧
      t = { s with mp := { s.mp with tableX := t.mp.tableX, tableY := t.mp.tableY } } ∧
      ∀ d, t.mp.tableX[d]? = (if axis = 0 then written s.mp.tableX d else s.mp.tableX[d]?) ∧
        t.mp.tableY[d]? = (if axis = 1 then written s.mp.tableY d else s.mp.tableY[d]?))

/-- FRAME_SET (R56): BUSY, then OUT_OF_FIELD, and otherwise the commanded position, the reference flag
and the unfinished move, with the answer DONE and nothing else changed. -/
def Obligations.FrameSetSetsPosition : Prop :=
  ∀ (x y : BitVec 16) (s : State), Acts s →
    let settable := s.pc.state = .idle ∨ s.pc.state = .standby ∨ s.pc.state = .halted
    let inField := s.par.fieldXLow ≤ x.toInt ∧ x.toInt ≤ s.par.fieldXHigh ∧
      s.par.fieldYLow ≤ y.toInt ∧ y.toInt ≤ s.par.fieldYHigh
    (¬ settable → exec (.frameSet x y) s = .next (refused .busy s)) ∧
    (settable → ¬ inField → exec (.frameSet x y) s = .next (refused .outOfField s)) ∧
    (settable → inField → exec (.frameSet x y) s = .next (done [] { s with mp := { s.mp with
      position := ⟨x.toInt, y.toInt⟩, referenced := true, unfinished := none } }))

/-! ## Heads and bobbins -/

/-- HEAD_CLEAR (R113): the two counters and the four fault fields of the head, and nothing else. HEAD_BOBBIN
(R124): the bobbin count, the low warning and the bobbin-absent run of the head, and nothing else, in every
state. HEAD_REJOIN (R105): NO_JOB, BUSY, and otherwise the head is REJOIN_WAIT; a BENCHED head's storm bucket and storm
leak count are cleared (R128). All are refused BAD_ARGUMENT outside heads 1..16. That HEAD_REJOIN leaves the rejoin mode
is the model's reading (log 32). -/
def Obligations.HeadClearBobbinAndRejoin : Prop :=
  (∀ (head : Byte) (s : State), Acts s →
     ((head.toNat = 0 ∨ 16 < head.toNat) → exec (.headClear head) s = .next (refused .badArgument s)) ∧
     ∀ h : HeadId, Names head h → ∃ t, exec (.headClear head) s = .next (done [] t) ∧
       t = { s with hs := { s.hs with heads := t.hs.heads }, fr := { s.fr with heads := t.fr.heads } } ∧
       t.head h = { s.head h with sewn := 0, sewnRepair := 0 } ∧
       t.faultHead h = ⟨none, none, 0, false⟩ ∧
       ∀ g, g ≠ h → t.head g = s.head g ∧ t.faultHead g = s.faultHead g) ∧
  (∀ (head : Byte) (length : BitVec 24) (s : State), Acts s →
     ((head.toNat = 0 ∨ 16 < head.toNat) → exec (.headBobbin head length) s = .next (refused .badArgument s)) ∧
     ∀ h : HeadId, Names head h → ∃ t, exec (.headBobbin head length) s = .next (done [] t) ∧
       t = { s with tm := t.tm } ∧
       t.meter h = { s.meter h with bobbin := length.toNat, lowArmed := true, bobbinAbsent := 0 } ∧
       ∀ g, g ≠ h → t.meter g = s.meter g) ∧
  (∀ (head : Byte) (s : State), Acts s →
     ((head.toNat = 0 ∨ 16 < head.toNat) → exec (.headRejoin head) s = .next (refused .badArgument s)) ∧
     ∀ h : HeadId, Names head h →
       (s.pc.state = .idle → exec (.headRejoin head) s = .next (refused .noJob s)) ∧
       (s.pc.state ≠ .idle →
         ((s.head h).state = .excluded ∨ (s.head h).state = .active ∨ ∃ b, (s.head h).state = .shifting b) →
         exec (.headRejoin head) s = .next (refused .busy s)) ∧
       (s.pc.state ≠ .idle →
         ((s.head h).state = .off ∨ (s.head h).state = .rejoinWait ∨ (s.head h).state = .benched) →
         ∃ t, exec (.headRejoin head) s = .next (done [] t) ∧
           t = { s with hs := { s.hs with heads := t.hs.heads }, tm := t.tm } ∧
           t.head h = { s.head h with state := .rejoinWait } ∧
           t.meter h = (if (s.head h).state = .benched then { s.meter h with storm := 0, stormLeak := 0 }
             else s.meter h) ∧
           ∀ g, g ≠ h → t.head g = s.head g ∧ t.meter g = s.meter g))

/-! ## The Design Store -/

/-- SEG_OPEN (R6): when none of its refusals applies, the lowest free slot takes the segment, LOADING,
with pages from the pool, and the answer is DONE with the slot; LOAD_WANT follows (R19), nothing else
changes. Its refusals come in their order, and each changes nothing. -/
def Obligations.SegOpenReservesOrRefuses : Prop :=
  (∀ (number thread count x y : BitVec 16) (flags : Byte) (s : State), Acts s → s.ds.Sound →
     s.pc.state ≠ .idle → number.toNat < s.segmentCount → 1 ≤ count.toNat → count.toNat ≤ 4096 →
     thread.toNat ≠ 65535 → s.findSeg number.toNat = none →
     (∀ m, s.ds.mark = some m → m < number.toNat) → s.ds.segs.length < 256 →
     (count.toNat + 15) / 16 ≤ s.ds.pool.length →
     ∃ t r p, exec (.segOpen number thread count x y flags) s = .next t ∧
       t = { s with rl := { s.rl with slot := .ready ⟨.done, .none, p⟩ }
                    ds := { s.ds with segs := t.ds.segs, pool := t.ds.pool, loadWant := t.ds.loadWant } } ∧
       p.length = 1 ∧ Carries p 0 1 r.slot ∧
       t.findSeg number.toNat = some r ∧ (∀ m, m ≠ number.toNat → t.findSeg m = s.findSeg m) ∧
       (∀ q, q ∈ t.ds.segs ↔ q = r ∨ q ∈ s.ds.segs) ∧
       (∀ q ∈ s.ds.segs, q.slot ≠ r.slot) ∧ (∀ k, k < r.slot → ∃ q ∈ s.ds.segs, q.slot = k) ∧
       r = { slot := r.slot, number := number.toNat, state := .loading, thread := thread.toNat
             count := count.toNat, written := 0, start := ⟨x.toInt, y.toInt⟩, runEnd := ⟨x.toInt, y.toInt⟩
             box := ⟨x.toInt, x.toInt, y.toInt, y.toInt⟩, pages := r.pages, tieIn := flags.getLsbD 0
             tieOff := flags.getLsbD 1, close := .none, unthreaded := 0, pins := 0 } ∧
       r.pages.length = (count.toNat + 15) / 16 ∧ (r.pages ++ t.ds.pool).Perm s.ds.pool ∧
       LoadWantFollows s.ds.loadWant t) ∧
  (∀ (number thread count x y : BitVec 16) (flags : Byte) (s : State), Acts s →
     let answer := fun why => exec (.segOpen number thread count x y flags) s = .next (refused why s)
     let bad := s.segmentCount ≤ number.toNat ∨ count.toNat < 1 ∨ 4096 < count.toNat ∨ thread.toNat = 65535
     let duplicate := (s.findSeg number.toNat).isSome = true
     let stale := ∃ m, s.ds.mark = some m ∧ number.toNat ≤ m
     (s.pc.state = .idle → answer .noJob) ∧
     (s.pc.state ≠ .idle → bad → answer .badArgument) ∧
     (s.pc.state ≠ .idle → ¬ bad → duplicate → answer .duplicate) ∧
     (s.pc.state ≠ .idle → ¬ bad → ¬ duplicate → stale → answer .stale) ∧
     (s.pc.state ≠ .idle → ¬ bad → ¬ duplicate → ¬ stale → 256 ≤ s.ds.segs.length → answer .noSlot) ∧
     (s.pc.state ≠ .idle → ¬ bad → ¬ duplicate → ¬ stale → s.ds.segs.length < 256 →
       s.ds.pool.length < (count.toNat + 15) / 16 → answer .noSpace))

/-- A stitch as sent is bad (R7): a delta is −128, its kind is none of the four, or it is a TRIM or PAUSE that moves. -/
def Sys2Proof.Claims.BadStitch (t : RawStitch) : Prop :=
  t.dx = 0x80 ∨ t.dy = 0x80 ∨ 3 < t.kind.toNat ∨ 2 ≤ t.kind.toNat ∧ (t.dx ≠ 0 ∨ t.dy ≠ 0)

/-- The stitch that a triple sends (R183): dx and dy signed, the kinds NORMAL, JUMP, TRIM and PAUSE as 0 to 3. -/
def Sys2Proof.Claims.sentStitch (t : RawStitch) : Stitch :=
  ⟨t.dx.toInt, t.dy.toInt, if t.kind = 0 then .normal else if t.kind = 1 then .jump else if t.kind = 2 then .trim else .pause⟩

/-- The entry that keeps stitch k of a segment (R2): entry k mod 16 of page k / 16 of its page list. -/
def Sys2Proof.Claims.entryOf (r : SegRecord) (k : Nat) : Nat := r.pages.getD (k / 16) 0 * 16 + k % 16

/-- SEG_WRITE (R7, R8, R2): a list none of whose stitches is bad is stored in the entries from the
written count on, every other entry of the Stitch Memory kept; the running end moves over the deltas, the
box takes in every running end, the written count grows. Nothing else changes but the slot. It is refused
whole, in the order of R7. -/
def Obligations.SegWriteStoresOrRefuses : Prop :=
  (∀ (number offset : BitVec 16) (sent : List RawStitch) (s : State) (r : SegRecord),
     Acts s → s.ds.Sound → Memory.wf s.ds.memory = true → s.pc.state ≠ .idle →
     s.findSeg number.toNat = some r → r.state = .loading → offset.toNat = r.written →
     1 ≤ sent.length → sent.length ≤ 64 → r.written + sent.length ≤ r.count →
     (∀ t ∈ sent, ¬ BadStitch t) →
     let stitches := sent.map sentStitch
     let ends := fun k => (r.runEnd.x + ((stitches.take k).map (·.dx)).sum,
       r.runEnd.y + ((stitches.take k).map (·.dy)).sum)
     let passed := (List.range stitches.length).map fun k => ends (k + 1)
     ∃ t r', exec (.segWrite number offset sent) s = .next (done [] t) ∧
       t = { s with ds := { s.ds with segs := t.ds.segs, memory := t.ds.memory } } ∧
       t.findSeg number.toNat = some r' ∧ (∀ m, m ≠ number.toNat → t.findSeg m = s.findSeg m) ∧
       r' = { r with written := r.written + stitches.length
                     runEnd := ⟨(ends stitches.length).1, (ends stitches.length).2⟩, box := r'.box } ∧
       LeastOf r'.box.minX r.box.minX (passed.map (·.1)) ∧ GreatestOf r'.box.maxX r.box.maxX (passed.map (·.1)) ∧
       LeastOf r'.box.minY r.box.minY (passed.map (·.2)) ∧ GreatestOf r'.box.maxY r.box.maxY (passed.map (·.2)) ∧
       (∀ i st, stitches[i]? = some st → memRead t.ds.memory (entryOf r (r.written + i)) = st) ∧
       (∀ a, (∀ i, i < stitches.length → a ≠ entryOf r (r.written + i)) →
         memRead t.ds.memory a = memRead s.ds.memory a)) ∧
  (∀ (number offset : BitVec 16) (sent : List RawStitch) (s : State), Acts s → 1 ≤ sent.length →
     sent.length ≤ 64 →
     let answer := fun why => exec (.segWrite number offset sent) s = .next (refused why s)
     (s.pc.state = .idle → answer .noJob) ∧
     (s.pc.state ≠ .idle → s.findSeg number.toNat = none → answer .notFound) ∧
     ∀ r, s.pc.state ≠ .idle → s.findSeg number.toNat = some r →
       (r.state ≠ .loading → answer .busy) ∧
       (r.state = .loading → offset.toNat ≠ r.written → answer .badOffset) ∧
       (r.state = .loading → offset.toNat = r.written → r.count < r.written + sent.length →
         answer .badArgument) ∧
       (r.state = .loading → offset.toNat = r.written → r.written + sent.length ≤ r.count →
         (∃ t ∈ sent, BadStitch t) → answer .badStitch))

/-- SEG_CLOSE (R9, R10, R96, R97): a LOADING segment written to its count, ending where the design says, its
box in the frame field, becomes READY with its unthreaded-head set, raising THREAD_MISSING when that is
not empty; LOAD_WANT follows. In a STARVED wait whose segment is READY then, the take is repeated once the reference
and the tables are checked, and where either check fails the cause becomes STOP_REQUEST (R72; the part goes on by
itself: the model's choice, log 8; a warning since the last start does not hold the repeat back: its reading, log 31). The
refusals come in their order: GEOMETRY and OUT_OF_FIELD are kept in the
record, and every later close of it is refused with the reason kept, whatever end it carries. -/
def Obligations.SegCloseMakesReadyOrRefuses : Prop :=
  (∀ (number : BitVec 16) (x y : BitVec 32) (s : State) (r : SegRecord), Acts s → s.ds.Sound →
     s.pc.state ≠ .idle → s.findSeg number.toNat = some r → r.state = .loading → r.close = .none → r.written = r.count →
     r.runEnd = ⟨x.toInt, y.toInt⟩ →
     s.par.fieldXLow ≤ r.box.minX → r.box.maxX ≤ s.par.fieldXHigh →
     s.par.fieldYLow ≤ r.box.minY → r.box.maxY ≤ s.par.fieldYHigh →
     r.box.minX ≤ r.box.maxX → r.box.minY ≤ r.box.maxY →
     ∃ t set,
       let starved := s.pc.state = .halted ∧ s.pc.cause = .starved ∧
         ∃ q, t.findSeg (match s.ds.mark with | some m => m + 1 | none => 0) = some q ∧ q.state = .ready
       let checked := s.mp.referenced = true ∧ s.tablesValid = true
       (¬ starved → Waits s → exec (.segClose number x y) s = .next t) ∧
       (starved → checked → exec (.segClose number x y) s =
         .next ({ t with pc := { s.pc with state := .change, cause := .none, phase := .take } }).drive) ∧
       (starved → ¬ checked → Waits s → exec (.segClose number x y) s = .next { t with
         pc := { s.pc with cause := .stopRequest }, rl := { t.rl with sticky := t.rl.sticky ||| 0x0002 } }) ∧
       t = { s with rl := { s.rl with slot := .ready ⟨.done, .none, []⟩, sticky := t.rl.sticky }
                    ds := { s.ds with segs := t.ds.segs, loadWant := t.ds.loadWant } } ∧
       Unthreaded s r.thread set ∧
       t.findSeg number.toNat = some { r with state := .ready, unthreaded := set } ∧
       (∀ m, m ≠ number.toNat → t.findSeg m = s.findSeg m) ∧
       t.rl.sticky = s.rl.sticky ||| (if set = 0 then 0 else 0x0008) ∧
       LoadWantFollows s.ds.loadWant t) ∧
  (∀ (number : BitVec 16) (x y : BitVec 32) (s : State), Acts s → s.ds.Sound →
     let answer := fun why => exec (.segClose number x y) s = .next (refused why s)
     let kept := fun why (r : SegRecord) => ∃ t, exec (.segClose number x y) s = .next t ∧
       t.rl.slot = .ready ⟨.refused, why, []⟩ ∧
       t = { s with rl := { s.rl with slot := t.rl.slot }, ds := { s.ds with segs := t.ds.segs } } ∧
       t.findSeg number.toNat =
         some { r with close := if why = .geometry then .geometry else .outOfField } ∧
       ∀ m, m ≠ number.toNat → t.findSeg m = s.findSeg m
     let inField := fun b : Box => s.par.fieldXLow ≤ b.minX ∧ b.minX ≤ s.par.fieldXHigh ∧
       s.par.fieldXLow ≤ b.maxX ∧ b.maxX ≤ s.par.fieldXHigh ∧ s.par.fieldYLow ≤ b.minY ∧
       b.minY ≤ s.par.fieldYHigh ∧ s.par.fieldYLow ≤ b.maxY ∧ b.maxY ≤ s.par.fieldYHigh
     (s.pc.state = .idle → answer .noJob) ∧
     (s.pc.state ≠ .idle → s.findSeg number.toNat = none → answer .notFound) ∧
     ∀ r, s.pc.state ≠ .idle → s.findSeg number.toNat = some r →
       (r.state ≠ .loading → answer .busy) ∧
       (r.state = .loading → r.close = .geometry → answer .geometry) ∧
       (r.state = .loading → r.close = .outOfField → answer .outOfField) ∧
       (r.state = .loading → r.close = .none → r.written < r.count → answer .incomplete) ∧
       (r.state = .loading → r.close = .none → r.count ≤ r.written → r.runEnd ≠ ⟨x.toInt, y.toInt⟩ →
         kept .geometry r) ∧
       (r.state = .loading → r.close = .none → r.count ≤ r.written → r.runEnd = ⟨x.toInt, y.toInt⟩ →
         ¬ inField r.box → kept .outOfField r))

/-- SEG_DISCARD (R11): NO_JOB with no job open, NOT_FOUND for a number not present, BUSY for the ACTIVE segment
and for a SEWN one being served, PINNED for another SEWN one that is pinned, and otherwise the record is freed,
its pages back in the pool. -/
def Obligations.SegDiscardFrees : Prop :=
  ∀ (number : BitVec 16) (s : State), Acts s →
    (s.pc.state = .idle → exec (.segDiscard number) s = .next (refused .noJob s)) ∧
    (s.pc.state ≠ .idle → s.findSeg number.toNat = none →
      exec (.segDiscard number) s = .next (refused .notFound s)) ∧
    ∀ r : SegRecord, s.ds.Sound → s.pc.state ≠ .idle → s.findSeg number.toNat = some r →
    let busy := r.state = .active ∨ r.state = .sewn ∧ s.ds.served = some number.toNat
    let pinned := r.state = .sewn ∧ 0 < r.pins
    (busy → exec (.segDiscard number) s = .next (refused .busy s)) ∧
    (¬ busy → pinned → exec (.segDiscard number) s = .next (refused .pinned s)) ∧
    (¬ busy → ¬ pinned → ∃ t, exec (.segDiscard number) s = .next (done [] t) ∧
      t = { s with ds := { s.ds with segs := t.ds.segs, pool := t.ds.pool, loadWant := t.ds.loadWant } } ∧
      t.findSeg number.toNat = none ∧ (∀ m, m ≠ number.toNat → t.findSeg m = s.findSeg m) ∧
      (∀ q, q ∈ t.ds.segs ↔ q ∈ s.ds.segs ∧ q ≠ r) ∧ t.ds.pool.Perm (s.ds.pool ++ r.pages) ∧
      LoadWantFollows s.ds.loadWant t)

/-! ## The job and the host's requests to the Pass Controller -/

/-- JOB_OPEN (R61, R21, R166): refused BUSY after a warning or while a job is open, BAD_ARGUMENT out of
form; otherwise STANDBY with the job, its heads ACTIVE and the others EXCLUDED, the mark NONE, CLAMPED
when PIN_CEILING or POWER_BACKTRACK was stored at its end. That a head's needle to select stays is the model's choice
(log 48). JOB_CLOSE (R62, R21, R88, R116): refused BUSY outside STANDBY, HALTED and FINISHED; otherwise every
segment and record is gone, every head EXCLUDED with no replay latch and its meters cleared, the staged
edits applied, the policy ceiling and the resume context removed, the state IDLE; position, tables,
parameters, fault records and the Stitch Memory are left. What stays of the Supervisor's record of a head (trim set,
counters, rejoin mode, silent run), and that no report is awaited then, is the model's reading (log 37). -/
def Obligations.JobsOpenAndClose : Prop :=
  (∀ (n heads : BitVec 16) (when_ : Byte) (ceiling : BitVec 16) (backtrack : Byte) (s : State), Acts s →
     let request := exec (.jobOpen n heads when_ ceiling backtrack) s
     let bad := n = 0 ∨ heads = 0 ∨ 2 < when_.toNat
     ((s.sm.warned = true ∨ s.pc.state ≠ .idle) → request = .next (refused .busy s)) ∧
     (s.sm.warned = false → s.pc.state = .idle → bad → request = .next (refused .badArgument s)) ∧
     (s.sm.warned = false → s.pc.state = .idle → ¬ bad → ∃ t j, request = .next t ∧
       Answered t (if 4096 < ceiling.toNat ∨ 63 < backtrack.toNat then .clamped else .done) [] ∧
       t = { s with
         rl := { s.rl with slot := t.rl.slot }
         pc := { t.pc with repairPoint := s.pc.repairPoint, runCause := s.pc.runCause
                           resumeCause := s.pc.resumeCause, resumePlan := s.pc.resumePlan }
         hs := { s.hs with heads := t.hs.heads }
         ds := { s.ds with mark := none, markThread := t.ds.markThread, loadWant := t.ds.loadWant } } ∧
       t.pc.state = .standby ∧ t.pc.cause = .none ∧ t.pc.due = none ∧ NoContext t.pc ∧ t.pc.job = some j ∧
       j.segments = n.toNat ∧ j.heads = heads ∧ j.pinCeiling = min ceiling.toNat 4096 ∧
       j.powerBacktrack = min backtrack.toNat 63 ∧
       (when_ = 0 → j.repairWhen = .segmentEnd) ∧ (when_ = 1 → j.repairWhen = .jobEnd) ∧
       (when_ = 2 → j.repairWhen = .onRequest) ∧
       (∀ h : HeadId, t.head h = { s.head h with
         state := if inSet heads h then .active else .excluded
         silentRun := 0, silentRaised := false, driveSeen := false, lastReport := none }) ∧
       LoadWantFollows s.ds.loadWant t)) ∧
  (∀ s : State, Acts s →
     let closes := s.pc.state = .standby ∨ s.pc.state = .halted ∨ s.pc.state = .finished
     (¬ closes → exec .jobClose s = .next (refused .busy s)) ∧
     (closes → ∃ t, exec .jobClose s = .next t ∧ Answered t .done [] ∧
       t.pc.state = .idle ∧ t.pc.cause = .none ∧ t.pc.due = none ∧ t.pc.job = none ∧ NoContext t.pc ∧
       t.ds.segs = [] ∧ t.ds.pool.Perm (s.ds.pool ++ s.ds.segs.flatMap (·.pages)) ∧ t.ds.mark = none ∧
       t.ds.loadWant = false ∧ t.ds.served = none ∧ t.ds.memory = s.ds.memory ∧
       t.rt.records = [] ∧ t.ts.working = none ∧
       (∀ h : HeadId,
         t.head h = { s.head h with state := .excluded, replay := none, awaiting := false } ∧
         t.meter h = { s.meter h with breakRun := 0, loose := 0, tight := 0, bobbinAbsent := 0, colour := .green } ∧
         (t.sel h).current = (s.sel h).current ∧ (t.sel h).shift = (s.sel h).shift ∧
         (t.sel h).trim = (s.sel h).trim ∧
         ∀ n : NeedleId, (t.sel h).needles[n] =
           match (s.sel h).needles[n].staged with
           | none => (s.sel h).needles[n]
           | some e => ⟨e.code.getD (s.sel h).needles[n].code, e.disabled.getD (s.sel h).needles[n].disabled, none⟩) ∧
       t.mp = { s.mp with policyCeiling := none } ∧ t.se = s.se ∧ t.fr = s.fr ∧ t.par = s.par ∧
       t.sm = s.sm ∧ t.pending = s.pending))

/-- Every polled head is ACTIVE with a current needle READY in a thread: a needle choice keeps them all
(R89). -/
def Sys2Proof.Claims.Threaded (s : State) (thread : Nat) : Prop :=
  ∀ h : HeadId, (s.head h).state = .excluded ∨ (s.head h).state = .active ∧
    ∃ n, (s.sel h).current = some n ∧ (s.sel h).needles[n].disabled = false ∧
      (s.sel h).needles[n].code = thread

/-- No edit is staged, no shift and no trim in flight. -/
def Sys2Proof.Claims.Settled (s : State) : Prop :=
  ∀ h : HeadId, (s.sel h).shift = none ∧ (s.sel h).trim = none ∧
    ∀ n : NeedleId, (s.sel h).needles[n].staged = none

/-- Sewing may begin: no warning since the last start, the position referenced, the tables valid, the
emergency-stop input not asserted (R63, R79, R166). -/
def Sys2Proof.Claims.MayBegin (s : State) : Prop :=
  s.sm.warned = false ∧ s.mp.referenced = true ∧ s.tablesValid = true ∧ s.sm.estopInput = false

/-- The displacement from the commanded position to a target. -/
def Sys2Proof.Claims.away (s : State) (p : Pos) : Pos := ⟨p.x - s.mp.position.x, p.y - s.mp.position.y⟩

/-- The moves of a delta take a time the tables give, above zero. -/
def Sys2Proof.Claims.TakesTime (s : State) (dx dy : Int) : Prop :=
  dx.natAbs ≤ 127 ∧ dy.natAbs ≤ 127 ∧
  (dx ≠ 0 ∧ 0 < s.mp.tableX.getD dx.natAbs 0 ∨ dy ≠ 0 ∧ 0 < s.mp.tableY.getD dy.natAbs 0)

/-- The moves of a delta take no time: on each axis nothing moves, or the table gives 0 (R48). -/
def Sys2Proof.Claims.TakesNoTime (s : State) (dx dy : Int) : Prop :=
  dx.natAbs ≤ 127 ∧ dy.natAbs ≤ 127 ∧
  (dx = 0 ∨ s.mp.tableX.getD dx.natAbs 0 = 0) ∧ (dy = 0 ∨ s.mp.tableY.getD dy.natAbs 0 = 0)

/-- The whole units of pulses on an axis, a part of one counting as one (R54). -/
def Sys2Proof.Claims.units (pulses : Int) (scale : Nat) : Nat := (pulses.natAbs + scale - 1) / scale

/-- The retraction of the pulses owed on each axis, as it begins (R54): as many the other way, over the table time of
their whole units. -/
def Sys2Proof.Claims.retraction (s : State) (u v : Int) : Move :=
  ⟨.retraction, 0, 0, u.natAbs, v.natAbs, -u.sign, -v.sign, s.mp.tableX.getD (units u s.par.axisScaleX) 0,
    s.mp.tableY.getD (units v s.par.axisScaleY) 0, 0⟩

/-- The retraction takes a time the tables give, above zero. -/
def Sys2Proof.Claims.RetractionTakesTime (s : State) (u v : Int) : Prop :=
  u ≠ 0 ∧ 0 < (retraction s u v).timeX ∨ v ≠ 0 ∧ 0 < (retraction s u v).timeY

/-- The move of a delta as it begins (R48): |delta| × AXIS_SCALE pulses on each axis in the direction of the
delta, spread over the table time. -/
def Sys2Proof.Claims.begun (s : State) (kind : MoveKind) (dx dy : Int) : Move where
  kind := kind
  dx := dx
  dy := dy
  pulsesX := dx.natAbs * s.par.axisScaleX
  pulsesY := dy.natAbs * s.par.axisScaleY
  signX := dx.sign
  signY := dy.sign
  timeX := s.mp.tableX.getD dx.natAbs 0
  timeY := s.mp.tableY.getD dy.natAbs 0
  elapsed := 0

/-- A repair pass is in progress where the controller stands (R69). -/
def Sys2Proof.Claims.Repairing (s : State) : Prop :=
  match s.pc.phase with
  | .choice a | .travel a => a = .repairPass
  | .begin a => a = .repairPass ∨ a = .onward ∧ s.mp.passKind = .repair
  | .sew => s.mp.passKind = .repair
  | .trim a => a = .midRepair ∨ a = .endRepair ∨ a = .stopRepair
  | _ => False

/-- The point and the "trimmed" that a halt finds where no context is held (R78). Repairs forced by the pin ceiling
count as due at a segment end (the model's choice, log 44), and after the trims of a mid-segment TRIM that TRIM is sewn
(its reading, log 11). -/
def Sys2Proof.Claims.StandsAt (s : State) (point : ResumePoint) (trimmed : Bool) : Prop :=
  let repairs := Repairing s ∨ s.pc.phase = .schedule
  (repairs → trimmed = true ∧ (s.pc.repairPoint = .jobEnd → point = .jobEnd) ∧
    (s.pc.repairPoint ≠ .jobEnd → ∀ m, s.ds.mark = some m → point = .atEnd m)) ∧
  (¬ repairs →
    (s.pc.phase = .take → point = .beforeTake ∧ trimmed = true) ∧
    (s.pc.phase = .rest → s.pc.state = .standby → point = .beforeTake ∧ trimmed = true) ∧
    (s.pc.phase = .rest → s.pc.state = .finished → point = .jobEnd ∧ trimmed = true) ∧
    ∀ r, s.activeSeg = some r →
      (s.pc.phase = .sew ∨ (∃ a, s.pc.phase = .trim a) → point = .atStitch r.number s.frontier ∧ trimmed = false) ∧
      (s.pc.phase = .begin .onward → point = .atStitch r.number s.frontier ∧ trimmed = true) ∧
      ((∃ a, s.pc.phase = .choice a ∨ s.pc.phase = .travel a ∨ s.pc.phase = .begin a ∧ a ≠ .onward) →
        point = .atStitch r.number 0 ∧ trimmed = true))

/-- Service ends (R14, R22): the segment served is freed where it is SEWN and no record pins it, and no other segment
changes. -/
def Sys2Proof.Claims.ServiceEnds (s t : State) : Prop :=
  t.ds = { s.ds with segs := t.ds.segs, pool := t.ds.pool, loadWant := t.ds.loadWant, served := none } ∧
  let kept := t.ds.segs = s.ds.segs ∧ t.ds.pool = s.ds.pool ∧ t.ds.loadWant = s.ds.loadWant
  (s.ds.served = none → kept) ∧
  ∀ g, s.ds.served = some g →
    ((∀ q, s.findSeg g = some q → ¬ (q.state = .sewn ∧ q.pins = 0)) → kept) ∧
    ∀ q, s.ds.Sound → s.findSeg g = some q → q.state = .sewn → q.pins = 0 →
      t.findSeg g = none ∧ (∀ m, m ≠ g → t.findSeg m = s.findSeg m) ∧ t.ds.pool.Perm (s.ds.pool ++ q.pages) ∧
      (s.pc.state ≠ .idle → t.pc.state ≠ .idle → LoadWantFollows s.ds.loadWant t)

/-- The entry to HALTED from rest with a cause, at a point and with "trimmed" where no context is held (R60, R77, R78,
R34, R14, R86, R161): issue and service end, a repair pass settles, the working context goes, HALTED is raised. That the
faulted heads lose their targets at a point not at a stitch is the model's reading (log 15). -/
def Sys2Proof.Claims.Halts (s t : State) (cause : HaltCause) (point : ResumePoint) (trimmed : Bool) : Prop :=
  let held := s.pc.point.isSome = true
  t = { s with
    rl := { s.rl with sticky := t.rl.sticky }
    ds := t.ds
    se := { s.se with context := none }
    pc := { s.pc with state := .halted, cause := cause, due := none, phase := .rest, point := t.pc.point
                      trimmed := t.pc.trimmed, faulted := t.pc.faulted }
    ts := { s.ts with working := none }
    hs := { s.hs with heads := t.hs.heads }
    rt := t.rt } ∧
  (held → t.pc.point = s.pc.point ∧ t.pc.trimmed = s.pc.trimmed ∧ t.pc.faulted = s.pc.faulted) ∧
  (¬ held → t.pc.point = some point ∧ t.pc.trimmed = trimmed ∧
    ((∃ g k, point = .atStitch g k) → t.pc.faulted = s.pc.faulted) ∧
    ((∀ g k, point ≠ .atStitch g k) → ∀ h : HeadId,
      t.pc.faulted[h] = (s.pc.faulted[h]).map fun f => { f with target := none })) ∧
  ServiceEnds s t ∧
  (s.rt.pass = none → t.rt = s.rt ∧ t.hs = s.hs ∧ t.rl.sticky = s.rl.sticky ||| 0x0002) ∧
  (s.rt.pass.isSome = true → t.rt = s.endRepairPass.rt ∧ t.hs = s.endRepairPass.hs ∧
    t.rl.sticky = s.endRepairPass.rl.sticky ||| 0x0002)

/-- The trim orders of a trim request (R94): every polled head named has an order not yet sent, with a timer of
the TRIM_TIMEOUT that stands at the request (the model's choice, log 64); an EXCLUDED head gets none (its reading,
log 13). -/
def Sys2Proof.Claims.TrimOrders (s t : State) (named : HeadId → Prop) : Prop :=
  t.ts = { s.ts with heads := t.ts.heads, trimNamed := t.ts.trimNamed } ∧
  (∀ h, inSet t.ts.trimNamed h = true ↔ named h) ∧
  ∀ h : HeadId,
    (named h → (s.head h).state ≠ .excluded → t.sel h = { s.sel h with trim := some ⟨.unsent, s.par.trimTimeout⟩ }) ∧
    ((¬ named h ∨ (s.head h).state = .excluded) → t.sel h = s.sel h)

/-- The READY segments' unthreaded-head sets are computed again, THREAD_MISSING rising when one turns from empty to
non-empty (R96, R97). -/
def Sys2Proof.Claims.SetsFollow (s t : State) : Prop :=
  t.ds.segs.length = s.ds.segs.length ∧
  (∀ (i : Nat) (r : SegRecord), s.ds.segs[i]? = some r →
    (r.state ≠ .ready → t.ds.segs[i]? = some r) ∧
    (r.state = .ready → ∃ u, t.ds.segs[i]? = some { r with unthreaded := u } ∧ Unthreaded t r.thread u)) ∧
  ((∃ r ∈ s.ds.segs, r.state = .ready ∧ r.unthreaded = 0 ∧ ¬ Unthreaded t r.thread 0) →
    t.rl.sticky = s.rl.sticky ||| 0x0008) ∧
  ((∀ r ∈ s.ds.segs, r.state = .ready → r.unthreaded = 0 → Unthreaded t r.thread 0) → t.rl.sticky = s.rl.sticky)

/-- A needle-choice request with its working context, for the heads it covers (R88, R89): the staged edits are applied,
the context is set, and from x 0 on each head in turn, in head order (the model's choice, log 47): one covered that is
ACTIVE or REJOIN_WAIT keeps a current needle that is fit, and is ACTIVE then; otherwise a shift to the lowest fit needle
begins, of SHIFT_TIMEOUT, the head SHIFTING; where none is fit, NO_THREAD is resolved. -/
def Sys2Proof.Claims.Chosen (s t : State) (w : Working) (covered : HeadId → Prop) : Prop :=
  ∃ x : Nat → State,
    let e := x 0
    e = { s with
      ts := { heads := e.ts.heads, working := some w, trimNamed := s.ts.trimNamed }
      ds := { s.ds with segs := e.ds.segs }
      rl := { s.rl with sticky := e.rl.sticky } } ∧
    (∀ h : HeadId, e.sel h = { s.sel h with needles := (e.sel h).needles } ∧
      ∀ n : NeedleId, (e.sel h).needles[n] = match (s.sel h).needles[n].staged with
        | none => (s.sel h).needles[n]
        | some y => ⟨y.code.getD (s.sel h).needles[n].code, y.disabled.getD (s.sel h).needles[n].disabled, none⟩) ∧
    ((∀ (h : HeadId) (n : NeedleId), (s.sel h).needles[n].staged = none) → e.ds = s.ds ∧ e.rl = s.rl) ∧
    (∀ (h : HeadId) (n : NeedleId), (s.sel h).needles[n].staged.isSome = true → SetsFollow s e) ∧
    x 16 = t ∧
    ∀ h : HeadId,
      let y := x h.val
      let z := x (h.val + 1)
      let chooses := covered h ∧ ((s.head h).state = .active ∨ (s.head h).state = .rejoinWait)
      let fit := fun n : NeedleId => (y.sel h).needles[n].disabled = false ∧ (y.sel h).needles[n].code = w.thread
      let keeps := ∃ n, (y.sel h).current = some n ∧ fit n
      (¬ chooses → z = y) ∧
      (chooses → keeps → (y.head h).state = .rejoinWait → z = y.setHead h { y.head h with state := .active }) ∧
      (chooses → keeps → (y.head h).state ≠ .rejoinWait → z = y) ∧
      (∀ n, chooses → ¬ keeps → fit n → (∀ m, m < n → ¬ fit m) →
        z = (y.setSel h { y.sel h with shift := some ⟨n, .unsent, y.par.shiftTimeout, false⟩ }).setHead h
          { y.head h with state := .shifting (decide ((y.head h).state = .rejoinWait)) }) ∧
      (chooses → (∀ n, ¬ fit n) → z = y.resolveGroup h
        [⟨.noThread, none, some w.beginIndex, (y.sel h).current, none, none, none⟩])

/-- The controller goes to a place in the round, in a pass state, its cause NONE. -/
def Sys2Proof.Claims.going (s : State) (state : PassState) (phase : Phase) : State :=
  { s with pc := { s.pc with state := state, cause := .none, phase := phase } }

/-- A head of the job that is OFF, BENCHED or REJOIN_WAIT and holds no OPEN record in segment g (R152, R153). -/
def Sys2Proof.Claims.Lacks (s : State) (h : HeadId) (g : Nat) : Prop :=
  inSet s.jobHeads h = true ∧
  ((s.head h).state = .off ∨ (s.head h).state = .benched ∨ (s.head h).state = .rejoinWait) ∧
  ∀ r ∈ s.rt.records, ¬ (r.head = h ∧ r.segment = g ∧ r.state = .opened)

/-- The state with head h out of the faulted set. -/
def Sys2Proof.Claims.unfaulted (s : State) (h : HeadId) : State :=
  { s with pc := { s.pc with faulted := s.pc.faulted.set h none } }

/-- A head's turn at the carry records of a segment start (R152): an open request from stitch 0 with cause CARRY where it
lacks a record. -/
def Sys2Proof.Claims.CarryTurn (g : Nat) (h : HeadId) (y z : State) : Prop :=
  (¬ Lacks y h g → z = y) ∧ (Lacks y h g → y.openRequest h g 0 .carry = some z)

/-- The take of segment n, record r, with its carry records and its needle choice (R13, R64, R152): a REPAIR_FULL answer
halts before the thread change, the carry records still owed. That it ends the requests is the model's reading
(log 53). -/
def Sys2Proof.Claims.TakeMade (s t : State) (n : Nat) (r : SegRecord) : Prop :=
  ∃ (x : Nat → State) (k : Nat),
    x 0 = { s with
      ds := { s.ds with segs := (x 0).ds.segs, mark := some n, markThread := r.thread, loadWant := (x 0).ds.loadWant }
      pc := { s.pc with point := none, faulted := (x 0).pc.faulted, carryOwed := false, trimmed := false, owedTrims := 0
                        wasMoving := false } } ∧
    NoContext (x 0).pc ∧ (x 0).findSeg n = some { r with state := .active } ∧
    (∀ m, m ≠ n → (x 0).findSeg m = s.findSeg m) ∧ LoadWantFollows s.ds.loadWant (x 0) ∧
    k ≤ 16 ∧ (∀ h : HeadId, h.val < k → CarryTurn n h (x h.val) (x (h.val + 1))) ∧
    (∀ h : HeadId, h.val = k → Lacks (x k) h n ∧ (x k).openRequest h n 0 .carry = none ∧
      ∃ v, Halts (x k) v .repairFull (.atStitch n 0) true ∧ t = { v with pc := { v.pc with carryOwed := true } }) ∧
    (k = 16 → Chosen (going (x 16) .change (.choice .segmentStart)) t ⟨r.thread, n, .main, 0, 0⟩ fun _ => True)

/-- The repairs of a point are due next (R69, R157): the round mark is none; leaving a segment's or the job's end for
them clears the resume context (R77). -/
def Sys2Proof.Claims.RepairsDue (s t : State) (p : RepairPoint) : Prop :=
  let pc := { s.pc with state := .change, cause := .none, repairPoint := p, phase := .schedule }
  ((p = .segmentEnd ∨ p = .jobEnd) → NoContext t.pc ∧
    t = { s with rt := { s.rt with roundMark := none }
                 pc := { pc with point := none, faulted := t.pc.faulted, carryOwed := false, trimmed := false
                                 owedTrims := 0, wasMoving := false } }) ∧
  ((p = .forced ∨ p = .run) → t = { s with rt := { s.rt with roundMark := none }, pc := pc })

/-- A resume goes on by its point, its records and trims settled (R79). That the needle choice at a stitch begins at the
resume index is the model's reading (log 25). -/
def Sys2Proof.Claims.GoesOn (s t : State) : Prop :=
  (∀ g k r, s.pc.point = some (.atStitch g k) → s.findSeg g = some r →
    Chosen (going s .change (.choice .resume)) t ⟨r.thread, g, .main, k, 0⟩ fun _ => True) ∧
  (∀ g, s.pc.point = some (.atEnd g) → RepairsDue s t (if s.segmentCount ≤ g + 1 then .jobEnd else .segmentEnd)) ∧
  (s.pc.point = some .beforeTake → t = going s .change .take) ∧
  (s.pc.point = some .jobEnd → RepairsDue s t .jobEnd)

/-- START (R63, R64, R72): ACCEPTED from STANDBY; with segment 0 READY the take is made, with its carry records and its
needle choice, and the part waits there where a shift has begun, or a full Repair Table has halted it. Where every head is on its thread, the segment is taken and the
frame's travel to its start is planned: with the shaft turning it waits, with the shaft in the move window already its
first step begins (R53). In every case the part goes on by itself from the take, transition by transition (RoundGoesOn
states each), so also over travel steps that take no time. With segment 0 not READY the controller is HALTED with cause
STARVED. The direction of an axis that does not move is 0 (the model's choice, log 43), and so are the take's own going on
(log 8) and that the shaft condition held is not judged anew by a WINDOW_DEG written since (log 61). -/
def Obligations.StartTakesFirstSegment : Prop :=
  ∀ s : State, Acts s → MayBegin s → s.pc.state = .standby → s.pc.due = none → s.ds.mark = none →
    exec .start s = .next (going (withResponse .accepted .none [] s) .change .take).drive ∧
    (∀ r, s.findSeg 0 = some r → r.state = .ready → (∀ q ∈ s.ds.segs, q.state ≠ .active) → s.ds.Sound →
      ∃ u, TakeMade (going (withResponse .accepted .none [] s) .change .take) u 0 r ∧
        (Waits u → exec .start s = .next u)) ∧
    (∀ r, s.findSeg 0 = some r → r.state = .ready → (∀ q ∈ s.ds.segs, q.state ≠ .active) → s.ds.Sound →
      Threaded s r.thread → Settled s → s.mp.mode = .atRest →
      ∃ t, (s.mp.shaft = .turning → exec .start s = .next t) ∧
        (∀ d rest, s.mp.shaft = .inWindow → s.mp.move = none → s.mp.unfinished = none → t.se.plan = some (d :: rest) →
          s.par.Sound → TakesTime s d.x d.y → exec .start s = .next { t with
            se := { t.se with plan := some rest }
            mp := { s.mp with mode := .travelling, move := some (begun s .step d.x d.y)
                              dirX := d.x.sign, dirY := d.y.sign } }) ∧
        t = { s with
          rl := { s.rl with slot := .ready ⟨.accepted, .none, []⟩ }
          ds := { s.ds with segs := t.ds.segs, mark := some 0, markThread := t.ds.markThread, loadWant := t.ds.loadWant }
          se := { s.se with plan := some (travelSteps (away s r.start) s.par.travelStep) }
          pc := t.pc
          ts := { s.ts with working := some ⟨r.thread, 0, .main, 0, 0⟩ } } ∧
        t.pc.state = .travel ∧ t.pc.cause = .none ∧ t.pc.due = none ∧ t.pc.job = s.pc.job ∧ NoContext t.pc ∧
        t.findSeg 0 = some { r with state := .active } ∧ (∀ m, m ≠ 0 → t.findSeg m = s.findSeg m) ∧
        LoadWantFollows s.ds.loadWant t) ∧
    ((∀ r, s.findSeg 0 = some r → r.state ≠ .ready) →
      ∃ t, exec .start s = .next t ∧ Answered t .accepted [] ∧ t.pc.state = .halted ∧
        t.pc.cause = .starved ∧ Pending t .halted ∧ t.mp = s.mp ∧ t.par = s.par)

/-- STOP (R74): NO_JOB in IDLE; a soft halt in SEWING and REPAIR, a pending halt in TRAVEL and CHANGE, a
halt already due left as it is, the end of a STARVED wait, and nothing elsewhere. A begin-pass request
that still waits for the shaft is given up at once: the travel and the shifts before it have ended. One whose retraction
runs has a pending halt until that ends. That such a request
waits in CHANGE after a mid-segment TRIM, where R66 has the controller return to SEWING, and so is halted at once
there, is the model's reading (log 56); that after a travel it waits in TRAVEL is its choice (log 62). -/
def Obligations.StopActs : Prop :=
  ∀ s : State, Acts s → Waits s →
    (s.pc.state = .idle → exec .stop s = .next (refused .noJob s)) ∧
    ((s.pc.state = .sewing ∨ s.pc.state = .repair) → s.pc.phase = .sew →
      exec .stop s = .next (withResponse .accepted .none [] { s with
        mp := { s.mp with stopCeiling := true }
        pc := { s.pc with state := .stopping, due := some .stopRequest } })) ∧
    ((s.pc.state = .travel ∨ s.pc.state = .change) → s.pc.due = none →
      ((∃ a, s.pc.phase = .choice a) ∨ (∃ a, s.pc.phase = .trim a) ∨ (∃ a, s.pc.phase = .travel a)) →
      exec .stop s = .next (withResponse .accepted .none [] { s with
        pc := { s.pc with due := some .stopRequest } })) ∧
    ((s.pc.state = .travel ∨ s.pc.state = .change) → s.pc.due = none → (∃ a, s.pc.phase = .begin a) →
      s.mp.mode = .atRest →
      ∃ t, exec .stop s = .next t ∧ Answered t .accepted [] ∧ t.pc.state = .halted ∧
        t.pc.cause = .stopRequest ∧ Pending t .halted ∧ t.mp = s.mp) ∧
    ((s.pc.state = .travel ∨ s.pc.state = .change) → s.pc.due = none → (∃ a, s.pc.phase = .begin a) →
      s.mp.mode = .travelling →
      exec .stop s = .next (withResponse .accepted .none [] { s with
        pc := { s.pc with due := some .stopRequest } })) ∧
    (∀ c, (s.pc.state = .stopping ∨ s.pc.state = .travel ∨ s.pc.state = .change) → s.pc.due = some c →
      exec .stop s = .next (withResponse .accepted .none [] s)) ∧
    (s.pc.state = .halted → s.pc.cause = .starved →
      exec .stop s = .next (done [] { s with
        pc := { s.pc with cause := .stopRequest }
        rl := { s.rl with sticky := s.rl.sticky ||| 0x0002 } })) ∧
    ((s.pc.state = .halted ∧ s.pc.cause ≠ .starved ∨ s.pc.state = .standby ∨ s.pc.state = .finished) →
      exec .stop s = .next (done [] s))

/-- RESUME at a stitch with nothing owed (R79, R80): ACCEPTED, every head keeping its needle, and the
frame's travel planned to the position before the start index: the resume index, or POWER_BACKTRACK
stitches before it when the machine was moving at an ESTOP, FRAME_LATE, POWER_LOSS or RESET. That the working
context begins at the resume index is the model's reading (log 25). -/
def Obligations.ResumeTravelsBack : Prop :=
  ∀ (s : State) (g k : Nat) (r : SegRecord) (j : Job), Acts s → MayBegin s → s.pc.state = .halted →
    s.pc.cause ≠ .starved → s.pc.job = some j → s.pc.point = some (.atStitch g k) →
    (∀ h : HeadId, s.pc.faulted[h] = none) → s.pc.carryOwed = false → s.pc.owedTrims = 0 →
    s.pc.due = none → s.findSeg g = some r → Threaded s r.thread → Settled s →
    s.mp.mode = .atRest → s.mp.shaft = .turning →
    let back := s.pc.wasMoving = true ∧ (s.pc.cause = .estop ∨ s.pc.cause = .frameLate ∨
      s.pc.cause = .powerLoss ∨ s.pc.cause = .reset)
    ∃ t start, exec .resume s = .next t ∧
      (back → start = k - j.powerBacktrack) ∧ (¬ back → start = k) ∧
      t = { s with
        rl := { s.rl with slot := .ready ⟨.accepted, .none, []⟩ }
        se := { s.se with plan := some (travelSteps (away s (s.positionBefore r start)) s.par.travelStep) }
        pc := { s.pc with state := .travel, cause := .none, phase := t.pc.phase
                          resumeCause := t.pc.resumeCause, resumePlan := t.pc.resumePlan }
        ts := { s.ts with working := some ⟨r.thread, g, .main, k, 0⟩ } }

/-- START's, RESUME's and REPAIR_RUN's refusals, each in its order (R166, R63, R79, R82): they change nothing. The
Move-Time Tables are valid exactly where R39 says so. -/
def Obligations.StartResumeRunRefusals : Prop :=
  (∀ s : State, s.mp.Sound → (s.tablesValid = true ↔ TablesValid s)) ∧
  ∀ s : State, Acts s →
    let start := fun why => exec .start s = .next (refused why s)
    let resume := fun why => exec .resume s = .next (refused why s)
    let run := fun why => exec .repairRun s = .next (refused why s)
    let free := s.sm.warned = false
    let standby := free ∧ s.pc.state = .standby
    let halted := free ∧ s.pc.state = .halted ∧ s.pc.cause ≠ .starved
    let permits := s.pc.state = .halted ∧ (s.pc.cause = .stopRequest ∨ s.pc.cause = .designPause ∨
      s.pc.cause = .starved ∨ s.pc.cause = .pinCeiling ∨ s.pc.cause = .repairsOutstanding ∨
      s.pc.cause = .powerLoss ∨ s.pc.cause = .reset)
    let ready := free ∧ permits
    (s.sm.warned = true → start .busy ∧ resume .busy ∧ run .busy) ∧
    (free → s.pc.state = .idle → start .noJob ∧ resume .noJob ∧ run .noJob) ∧
    (free → s.pc.state ≠ .idle → s.pc.state ≠ .standby → start .busy) ∧
    (free → s.pc.state ≠ .idle → (s.pc.state ≠ .halted ∨ s.pc.cause = .starved) → resume .busy) ∧
    (free → s.pc.state ≠ .idle → ¬ permits → run .busy) ∧
    (standby → s.mp.referenced = false → start .unreferenced) ∧
    (standby → s.mp.referenced = true → s.tablesValid = false → start .tableInvalid) ∧
    (standby → s.mp.referenced = true → s.tablesValid = true → s.sm.estopInput = true → start .estopActive) ∧
    (halted → s.mp.referenced = false → resume .unreferenced) ∧
    (halted → s.mp.referenced = true → s.sm.estopInput = true → resume .estopActive) ∧
    (halted → s.mp.referenced = true → s.sm.estopInput = false → s.tablesValid = false → resume .tableInvalid) ∧
    (ready → s.mp.referenced = false → run .unreferenced) ∧
    (ready → s.mp.referenced = true → s.sm.estopInput = true → run .estopActive) ∧
    (ready → s.mp.referenced = true → s.sm.estopInput = false → s.tablesValid = false → run .tableInvalid)

/-- A record is eligible (R156). -/
def Sys2Proof.Claims.Eligible (s : State) (r : RepairRecord) : Prop :=
  r.state = .closed ∧ ((s.head r.head).state = .active ∨ (s.head r.head).state = .rejoinWait) ∧
  ∃ n : NeedleId, (s.sel r.head).needles[n].disabled = false ∧ (s.sel r.head).needles[n].code = r.thread

/-- REPAIR_RUN (R82): with no eligible record it is answered DONE and changes nothing; otherwise it is
ACCEPTED and trims, in CHANGE, the owed trims' heads and, from a halt at a stitch not yet trimmed, the
heads that sewed the last stitch, each timer of TRIM_TIMEOUT (R94); where none of them can be sent a trim the request ends
at once (R94), and the run goes on by itself to the schedule, the owed trims empty and "trimmed" on. That an EXCLUDED head
among them gets no trim is the model's reading (log 13), and the TRIM_TIMEOUT of the request its choice (log 64). -/
def Obligations.RepairRunTrimsFirst : Prop :=
  ∀ s : State, Acts s → MayBegin s → s.pc.state = .halted →
    (s.pc.cause = .stopRequest ∨ s.pc.cause = .designPause ∨ s.pc.cause = .starved ∨
      s.pc.cause = .pinCeiling ∨ s.pc.cause = .repairsOutstanding ∨ s.pc.cause = .powerLoss ∨
      s.pc.cause = .reset) →
    ((∀ r ∈ s.rt.records, ¬ Eligible s r) → exec .repairRun s = .next (done [] s)) ∧
    ((∃ r ∈ s.rt.records, Eligible s r) →
      let named := fun h : HeadId => inSet s.pc.owedTrims h = true ∨
        (∃ g k, s.pc.point = some (.atStitch g k)) ∧ s.pc.trimmed = false ∧ (s.head h).inTrim = true
      ∃ t, exec .repairRun s = .next t.drive ∧
        ((∃ h, named h ∧ (s.head h).state ≠ .excluded) → exec .repairRun s = .next t) ∧
        t = { s with
          rl := { s.rl with slot := .ready ⟨.accepted, .none, []⟩ }
          pc := { s.pc with state := .change, cause := .none, phase := .trim .repairRun, runCause := s.pc.cause }
          ts := t.ts } ∧
        TrimOrders s t named ∧
        ((∀ h, (s.sel h).trim = none) → (∀ h, named h → (s.head h).state = .excluded) → s.pc.due = none →
          ∃ u, t.microStep = some u ∧ (∀ v, u.microStep = some v → Waits v → exec .repairRun s = .next v) ∧
            u = { t with
              hs := { s.hs with heads := u.hs.heads }
              pc := { t.pc with phase := .schedule, repairPoint := .run, owedTrims := 0, trimmed := true }
              ts := { s.ts with trimNamed := 0 }
              rt := { s.rt with roundMark := none } } ∧
            ∀ h : HeadId, (named h → u.head h = { s.head h with inTrim := false }) ∧
              (¬ named h → u.head h = s.head h)))

/-! ## What the part goes on to by itself -/

/-- A travel is complete (R53): the planner is AT_REST, and the controller makes its begin-pass request: at a segment's
start (R64) and in a repair pass (R69, R109) from the first index on; at a resume at a stitch (R80, R109) from the start
index on, with the replay latches and the merge barrier it needs. Where a latch held already names index k, the barrier
stands too (the model's reading, log 46), and the pass state stays TRAVEL until the request is taken (its choice,
log 62). -/
def Sys2Proof.Claims.Arrived (s t : State) (a : Aim) : Prop :=
  let issue := fun (g first last : Nat) (kind : PassKind) (tieIn : Bool) (barrier : Option Nat) =>
    (⟨some ⟨g, first, last, kind, barrier, first, none, [], tieIn, true, none, first, none, first, []⟩, none⟩ : Editor)
  let rested := { s.mp with
    mode := .atRest, spindle := 0, window := [], marker := none, prevSpeed := none, stopCeiling := false
    stopEnd := false }
  let pc := { s.pc with state := .travel, cause := .none, phase := .begin a }
  (∀ r, a = .segmentStart → s.activeSeg = some r → s.ds.Sound → t = { s with
    mp := rested, pc := pc, ds := { s.ds with served := some r.number }
    se := issue r.number 0 (r.count - 1) .main true none }) ∧
  (∀ p, a = .repairPass → s.rt.pass = some p →
    t = { s with mp := rested, pc := pc, hs := { s.hs with heads := t.hs.heads }
                 se := issue p.segment p.first p.last .repair true none } ∧
    ∀ h : HeadId, t.head h = { s.head h with ranges := (t.head h).ranges } ∧
      ∀ range, range ∈ (t.head h).ranges ↔
        ∃ r ∈ s.rt.records, r.head = h ∧ r.state = .active ∧ range = (r.first, r.last.getD r.first)) ∧
  (∀ g k r, a = .resume → s.pc.point = some (.atStitch g k) → s.findSeg g = some r →
    let plan := s.pc.resumePlan
    let latches := fun h : HeadId => plan.latch = true ∧ (s.head h).state = .active ∧ inSet plan.rejoined h = false
    let merges := plan.start < k ∧ (plan.fromTarget = true ∨ ∃ h : HeadId, (t.head h).replay = some (g, k))
    ∃ barrier, (merges → barrier = some k) ∧ (¬ merges → barrier = none) ∧
      t = { s with mp := rested, pc := pc, hs := { s.hs with heads := t.hs.heads }
                   ds := { s.ds with served := some g }
                   se := issue g plan.start (r.count - 1) .main s.pc.trimmed barrier } ∧
      ∀ h : HeadId,
        (¬ latches h → t.head h = s.head h) ∧
        (latches h → t.head h = { s.head h with replay := match (s.head h).replay with
          | some (m, j) => if m = g then some (g, max j k) else some (g, k)
          | none => some (g, k) }))

/-- The needle choice (R84, R88 to R91, R106): a request does what it does to each head it covers, one after the other;
the CHANGE waits while a shift is in flight and ends at choice complete. There a halt that is due is made; otherwise the
travel is planned: to the start of the segment taken (R64), or to the position before the least index of the repair pass
(R69). The order of the heads is the model's choice (log 47). -/
def Obligations.NeedleChoicesSettleHeads : Prop :=
  (∀ (s : State) (thread g start : Nat) (kind : PassKind) (involved covered : HeadSet),
    Chosen s (s.needleChoice thread g kind start involved covered) ⟨thread, g, kind, start, involved⟩ fun h =>
      inSet covered h = true) ∧
  ∀ (s : State) (a : Aim), s.pc.phase = .choice a →
    let planned := fun place : Pos => { going s .travel (.travel a) with
      se := { s.se with plan := some (travelSteps (away s place) s.par.travelStep) } }
    let settled := ∀ h, (s.sel h).shift = none
    ((∃ h x, (s.sel h).shift = some x) → Waits s) ∧
    (∀ c, settled → s.pc.due = some c → ∃ t p b, s.microStep = some t ∧ StandsAt s p b ∧ Halts s t c p b) ∧
    (∀ r, settled → s.pc.due = none → a = .segmentStart → s.activeSeg = some r → s.ds.Sound →
      s.microStep = some (planned r.start)) ∧
    (∀ p r, settled → s.pc.due = none → a = .repairPass → s.rt.pass = some p → s.findSeg p.segment = some r →
      s.microStep = some (planned (s.positionBefore r p.first)))

/-- RESUME with what a hold owes (R79, R80): the carry records owed, then the record of each faulted head that is out, from
its target with its cause; a REPAIR_FULL answer leaves the controller HALTED with that cause (it ends the requests: the
model's reading, log 53). Otherwise the owed trims are made, or the resume goes on by its point. At a stitch, at choice
complete, a faulted head that is out is dropped, one that still waits to rejoin gets its record; then the start index is
fixed from the backtrack target of the rejoined heads, the resume index and POWER_BACKTRACK, and the travel planned. With
a head rejoined and no target anywhere the start is that of a resume at which none rejoined (the model's choice,
log 45). A trim's timer has the TRIM_TIMEOUT of the request (its choice, log 64), an EXCLUDED head gets no trim (its
reading, log 13), and the needle choice of a resume begins at the resume index (log 25). -/
def Obligations.ResumeSettlesWhatIsOwed : Prop :=
  (∀ s : State, Acts s → MayBegin s → s.pc.state = .halted → s.pc.cause ≠ .starved →
    let g := match s.pc.point with
      | some (.atStitch g _) => g
      | some (.atEnd g) => g
      | _ => 0
    let out := fun (y : State) (h : HeadId) => (y.head h).state = .off ∨ (y.head h).state = .benched
    ∃ (x : Nat → State) (k : Nat), x 0 = withResponse .accepted .none [] s ∧ k ≤ 32 ∧
      (∀ h : HeadId, h.val < k →
        (s.pc.carryOwed = true → CarryTurn g h (x h.val) (x (h.val + 1))) ∧
        (s.pc.carryOwed = false → x (h.val + 1) = x h.val)) ∧
      (∀ h : HeadId, 16 + h.val < k →
        let y := x (16 + h.val)
        let z := x (16 + h.val + 1)
        (∀ f m, out y h → y.pc.faulted[h] = some f → f.target = some m →
          ∃ v, y.openRequest h g m f.cause = some v ∧ z = unfaulted v h) ∧
        ((∀ f, y.pc.faulted[h] = some f → out y h → f.target = none) → z = y)) ∧
      (∀ h : HeadId, h.val = k → s.pc.carryOwed = true ∧ Lacks (x k) h g ∧ (x k).openRequest h g 0 .carry = none) ∧
      (∀ h : HeadId, 16 + h.val = k → ∃ f m, out (x k) h ∧ (x k).pc.faulted[h] = some f ∧ f.target = some m ∧
        (x k).openRequest h g m f.cause = none) ∧
      (k < 32 → s.pc.cause ≠ .repairFull → exec .resume s = .next { x k with
        pc := { (x k).pc with cause := .repairFull }, rl := { (x k).rl with sticky := (x k).rl.sticky ||| 0x0002 } }) ∧
      (k < 32 → s.pc.cause = .repairFull → exec .resume s = .next (x k)) ∧
      (k = 32 → ∃ u t, exec .resume s = .next t.drive ∧
        u = { x 32 with pc := { (x 32).pc with
          carryOwed := false, resumeCause := s.pc.cause, faulted := u.pc.faulted } } ∧
        (∀ h : HeadId, (out (x 32) h → u.pc.faulted[h] = none) ∧
          (¬ out (x 32) h → u.pc.faulted[h] = (x 32).pc.faulted[h])) ∧
        (s.pc.owedTrims = 0 → GoesOn u t) ∧
        (s.pc.owedTrims ≠ 0 → t = { going u .change (.trim .owed) with ts := t.ts } ∧
          TrimOrders u t fun h => inSet s.pc.owedTrims h = true))) ∧
  ∀ (s : State) (g k : Nat) (r : SegRecord) (j : Job), s.pc.phase = .choice .resume → (∀ h, (s.sel h).shift = none) →
    s.pc.due = none → s.pc.point = some (.atStitch g k) → s.ds.Sound → s.Pinned → s.findSeg g = some r →
    r.state = .active → s.pc.job = some j →
    let out := fun (y : State) (h : HeadId) => (y.head h).state = .off ∨ (y.head h).state = .benched
    let waits := fun (y : State) (h : HeadId) (f : Faulted) (m : Nat) =>
      y.pc.faulted[h] = some f ∧ f.target = some m ∧ (y.head h).state = .rejoinWait
    ∃ (x : Nat → State) (n : Nat), x 0 = s ∧ n ≤ 16 ∧
      (∀ h : HeadId, h.val < n →
        let y := x h.val
        let z := x (h.val + 1)
        (y.pc.faulted[h].isSome = true → out y h → z = unfaulted y h) ∧
        (∀ f m, waits y h f m → ∃ v, y.openRequest h g m f.cause = some v ∧ z = unfaulted v h) ∧
        (¬ (y.pc.faulted[h].isSome = true ∧ out y h) → (∀ f m, ¬ waits y h f m) → z = y)) ∧
      (∀ h : HeadId, h.val = n → ∃ f m t, waits (x n) h f m ∧ (x n).openRequest h g m f.cause = none ∧
        s.microStep = some t ∧ Halts (x n) t .repairFull (.atStitch g k) s.pc.trimmed) ∧
      (n = 16 →
        let rejoined := fun h : HeadId => ((x 16).pc.faulted[h]).isSome = true ∧ ((x 16).head h).state = .active
        let target := fun (h : HeadId) (m : Nat) => ∃ f, (x 16).pc.faulted[h] = some f ∧ f.target = some m
        let least := fun m => (∃ h, rejoined h) ∧ (∃ h, target h m) ∧ ∀ h i, target h i → m ≤ i
        let back := s.pc.wasMoving = true ∧ (s.pc.resumeCause = .estop ∨ s.pc.resumeCause = .frameLate ∨
          s.pc.resumeCause = .powerLoss ∨ s.pc.resumeCause = .reset)
        ∃ plan : ResumePlan,
          (∀ m, ¬ back → least m → plan.start = m) ∧ (¬ back → (∀ m, ¬ least m) → plan.start = k) ∧
          (∀ m, back → least m → plan.start = min m (k - j.powerBacktrack)) ∧
          (back → (∀ m, ¬ least m) → plan.start = k - j.powerBacktrack) ∧
          (plan.fromTarget = true ↔ least plan.start) ∧ (plan.latch = true ↔ ¬ back ∧ plan.start < k) ∧
          (∀ h, inSet plan.rejoined h = true ↔ rejoined h) ∧
          s.microStep = some { x 16 with
            se := { s.se with plan := some (travelSteps (away s (s.positionBefore r plan.start)) s.par.travelStep) }
            pc := { (x 16).pc with state := .travel, cause := .none, phase := .travel .resume, resumePlan := plan } })

/-- The frontier of an issue context once every index below `base` counts as sewn: PAUSE indices that the read index has
passed count too (R32). -/
def Sys2Proof.Claims.FrontierAt (c : IssueContext) (base f : Nat) : Prop :=
  base ≤ f ∧ (∀ j, base ≤ j → j < f → j ∈ c.passedPauses) ∧ (c.passedPauses.Pairwise (· < ·) → f ∉ c.passedPauses)

/-- The frontier of a repair pass of segment g passes the indices from `lo` up to `hi`: a stored JUMP, TRIM or PAUSE is
done for the records of every ACTIVE head, head by head (R159). -/
def Sys2Proof.Claims.PassesOver (g lo hi : Nat) (s t : State) : Prop :=
  ∃ x : Nat → State, x lo = s ∧ x (max lo hi) = t ∧ ∀ i, lo ≤ i → i < hi →
    ((x i).findSeg g = none → x (i + 1) = x i) ∧
    (∀ r, (x i).findSeg g = some r → (memRead s.ds.memory (r.entry i)).kind = .normal → x (i + 1) = x i) ∧
    (∀ r, (x i).findSeg g = some r → (memRead s.ds.memory (r.entry i)).kind ≠ .normal →
      ∃ y : Nat → State, y 0 = x i ∧ y 16 = x (i + 1) ∧ ∀ h : HeadId,
        ((y h.val).head h).state = .active ∧ y (h.val + 1) = (y h.val).advanceRecords h i ∨
        ((y h.val).head h).state ≠ .active ∧ y (h.val + 1) = y h.val)

/-- The end of a segment's main pass, record r (R68 steps 2 to 4; R155, R34, R14, R15, R17, R109, R42): its OPEN records are
CLOSED at count − 1, issue and service end, its replay latches go, it is SEWN, or freed where no record pins it, and the
policy ceiling is removed. -/
def Sys2Proof.Claims.SegmentEnds (s t : State) (r : SegRecord) : Prop :=
  t = { s with
    se := { s.se with context := none }
    ds := { s.ds with segs := t.ds.segs, pool := t.ds.pool, loadWant := t.ds.loadWant, served := none }
    rt := { s.rt with records := t.rt.records }
    hs := { s.hs with heads := t.hs.heads }
    mp := { s.mp with policyCeiling := none } } ∧
  t.rt.records.length = s.rt.records.length ∧
  (∀ (i : Nat) (q : RepairRecord), s.rt.records[i]? = some q →
    (q.segment = r.number ∧ q.state = .opened →
      t.rt.records[i]? = some { q with last := some (r.count - 1), state := .closed }) ∧
    (¬ (q.segment = r.number ∧ q.state = .opened) → t.rt.records[i]? = some q)) ∧
  (∀ h : HeadId,
    ((∃ k, (s.head h).replay = some (r.number, k)) → t.head h = { s.head h with replay := none }) ∧
    ((∀ k, (s.head h).replay ≠ some (r.number, k)) → t.head h = s.head h)) ∧
  (∀ m, m ≠ r.number → t.findSeg m = s.findSeg m) ∧
  (0 < r.pins → t.findSeg r.number = some { r with state := .sewn } ∧ t.ds.pool = s.ds.pool ∧
    t.ds.loadWant = s.ds.loadWant) ∧
  (r.pins = 0 → t.findSeg r.number = none ∧ t.ds.pool.Perm (s.ds.pool ++ r.pages) ∧ LoadWantFollows s.ds.loadWant t)

/-- A trim-only CHANGE waits while a trim is in flight and ends when the last has, or at once where none was to be made
(R94, R95): the heads named leave the trim set (R110), and the controller goes on. After a mid-segment TRIM its index is
sewn and the stream continues (R66, R25, R69); at the end of a main pass the segment ends, and its repairs or the job's are
due (R68); at that of a repair pass the pass settles and the next is due (R69, R161); after a soft halt's trims it is HALTED
(R75); a RESUME goes on by its point (R79), and a REPAIR_RUN with its repairs (R82). A halt that is due is made instead, at
the point R78 gives. After a mid-segment TRIM the controller stays in CHANGE until the begin-pass request is taken, and a
halt there finds the TRIM sewn: the model's readings (logs 56, 11). -/
def Obligations.TrimsCompleteGoOn : Prop :=
  ∀ (s : State) (a : TrimAim), s.pc.phase = .trim a →
    ((∃ h x, (s.sel h).trim = some x) → Waits s) ∧
    ((∀ h, (s.sel h).trim = none) → ∃ v t, s.microStep = some t ∧
      v = { s with hs := { s.hs with heads := v.hs.heads }, ts := { s.ts with trimNamed := 0 } } ∧
      (∀ h, v.head h = { s.head h with inTrim := (s.head h).inTrim && !inSet s.ts.trimNamed h }) ∧
      let due := s.pc.due
      let issues := fun (x : State) (c : IssueContext) => { x with se := { x.se with context := some c } }
      let goes := fun (x : State) => going x .change (.begin .onward)
      (∀ c i, a = .midMain → s.se.context = some c → c.kind = .main → c.held = some (.trim i) → c.passedPauses = [] →
        let f := max c.frontier (i + 1)
        (due = none → t = goes (issues v { c with
          frontier := f, held := none, tieInPending := true, tieOffDue := true, stretch := i + 1, lastIndex := none })) ∧
        (∀ e r, due = some e → s.activeSeg = some r →
          Halts (issues v { c with frontier := f }) t e (.atStitch r.number f) true)) ∧
      (∀ c i, a = .midRepair → s.se.context = some c → c.kind = .repair → c.held = some (.trim i) →
        ∃ f w, FrontierAt c (max c.frontier (i + 1)) f ∧
          PassesOver c.segment c.frontier f (issues v { c with frontier := f }) w ∧
          (due = none → t = goes (issues w { c with frontier := f, held := none })) ∧
          (∀ e, due = some e → ∃ p b, StandsAt s p b ∧ Halts w t e p b)) ∧
      (∀ r, a = .endMain → s.ds.Sound → s.activeSeg = some r → s.ds.served = some r.number → ∃ u, SegmentEnds v u r ∧
        (due = none → RepairsDue u t (if s.segmentCount ≤ r.number + 1 then .jobEnd else .segmentEnd)) ∧
        (∀ e, due = some e → Halts u t e (.atEnd r.number) true)) ∧
      (a = .endRepair → ∃ u w, u = { v with se := { s.se with context := none }, ds := u.ds } ∧ ServiceEnds v u ∧
        w = u.endRepairPass ∧ (due = none → t = going w .change .schedule) ∧
        (∀ e, due = some e → ∃ p b, StandsAt s p b ∧ Halts w t e p b)) ∧
      (∀ e, a = .stopRepair → due = some e → ∃ p b, StandsAt s p b ∧ Halts v t e p b) ∧
      (a = .owed →
        let u := { v with pc := { s.pc with owedTrims := 0 } }
        (due = none → GoesOn u t) ∧ (∀ e p, due = some e → s.pc.point = some p → Halts u t e p s.pc.trimmed)) ∧
      (a = .repairRun →
        let u := { v with pc := { s.pc with owedTrims := 0, trimmed := true } }
        (due = none → RepairsDue u t .run) ∧ (∀ e p, due = some e → s.pc.point = some p → Halts u t e p true)))

/-- A record may be repaired at a point of the round: eligible, and of the point's selection (R157). The thread of the
segment that has just ended is kept with the sewing mark, also where the segment is freed (the model's reading, log 24). -/
def Sys2Proof.Claims.Selected (s : State) (p : RepairPoint) (r : RepairRecord) : Prop :=
  r ∈ s.rt.records ∧ Eligible s r ∧
  (p = .segmentEnd → (∃ j, s.pc.job = some j ∧ j.repairWhen = .segmentEnd) ∧
    (∃ m, s.ds.mark = some m ∧ r.segment ≤ m) ∧ r.thread = s.ds.markThread) ∧
  (p = .jobEnd → ∃ j, s.pc.job = some j ∧ j.repairWhen ≠ .onRequest)

/-- The answer to a schedule request is segment g: the lowest above the round mark that holds such a record (R157). -/
def Sys2Proof.Claims.Named (s : State) (p : RepairPoint) (g : Nat) : Prop :=
  let above := fun r : RepairRecord => ∀ m, s.rt.roundMark = some m → m < r.segment
  (∃ r, Selected s p r ∧ above r ∧ r.segment = g) ∧ ∀ r, Selected s p r → above r → g ≤ r.segment

/-- The repair pass of segment g is formed (R158): its selected records are ACTIVE, repaired through one below their
first; the pass range is theirs, and their heads are involved. -/
def Sys2Proof.Claims.Formed (s t : State) (p : RepairPoint) (g : Nat) (pass : RepairPass) : Prop :=
  let mine := fun r : RepairRecord => Selected s p r ∧ r.segment = g
  t = { s with rt := ⟨t.rt.records, some g, false, some pass⟩ } ∧ t.rt.records.length = s.rt.records.length ∧
  (∀ (i : Nat) (r : RepairRecord), s.rt.records[i]? = some r →
    (mine r → t.rt.records[i]? = some { r with state := .active, through := some ((r.first : Int) - 1) }) ∧
    (¬ mine r → t.rt.records[i]? = some r)) ∧
  pass.segment = g ∧ (∃ r, mine r ∧ r.first = pass.first) ∧ (∀ r, mine r → pass.first ≤ r.first) ∧
  (∃ r, mine r ∧ r.last.getD 0 = pass.last) ∧ (∀ r, mine r → r.last.getD 0 ≤ pass.last) ∧
  ∀ h, inSet pass.involved h = true ↔ ∃ r, mine r ∧ r.head = h

/-- The pulses owed once the move in progress is stopped (R54): those issued of a stitch or step; of a retraction those
owed before it, less those it has taken back (its pulses go the other way). -/
def Sys2Proof.Claims.Owes (s : State) (owed : Option (Int × Int)) : Prop :=
  let only := fun p : Int × Int => if p = (0, 0) then none else some p
  (s.mp.move = none → owed = s.mp.unfinished) ∧
  (∀ m, s.mp.move = some m → m.kind ≠ .retraction → owed = only m.issued) ∧
  ∀ m p, s.mp.move = some m → m.kind = .retraction → s.mp.unfinished = some p →
    owed = only (p.1 + m.issued.1, p.2 + m.issued.2)

/-- The resume context as an immediate halt or a start with a job open leaves it (R77, R78, R83): a point held stays,
otherwise it is formed where the halt finds the controller; "was moving" where the main pass was being sewn, and the heads
that sewed a repair pass's last stitch owe a trim. That the faulted heads lose their targets at a point not at a stitch
is the model's reading (log 15). -/
def Sys2Proof.Claims.Kept (s t : State) : Prop :=
  (∀ p, s.pc.point = some p → t.pc.point = some p ∧ t.pc.trimmed = s.pc.trimmed ∧ t.pc.faulted = s.pc.faulted) ∧
  (s.pc.point = none → ∃ p, t.pc.point = some p ∧ StandsAt s p t.pc.trimmed ∧
    ((∃ g k, p = .atStitch g k) → t.pc.faulted = s.pc.faulted) ∧
    ((∀ g k, p ≠ .atStitch g k) → ∀ h : HeadId,
      t.pc.faulted[h] = (s.pc.faulted[h]).map fun f => { f with target := none })) ∧
  t.pc.carryOwed = s.pc.carryOwed ∧
  (t.pc.wasMoving = true ↔ s.pc.wasMoving = true ∨ s.pc.phase = .sew ∧ s.mp.passKind = .main) ∧
  ∀ h, inSet t.pc.owedTrims h = true ↔ inSet s.pc.owedTrims h = true ∨ Repairing s ∧ (s.head h).inTrim = true

/-- The state with the Motion Planner at rest, its plan dropped, and the pulses owed. -/
def Sys2Proof.Claims.quiet (s : State) (owed : Option (Int × Int)) : State :=
  { s with
    se := { s.se with plan := none }
    mp := { s.mp with
      mode := .atRest, spindle := 0, window := [], marker := none, prevSpeed := none
      stopCeiling := false, stopEnd := false, move := none, unfinished := owed } }

/-- What an immediate halt leaves (R54, R76, R77, R78, R93, R95): HALTED with the cause, the spindle
commanded to 0 and the pulses stopped, the pulses issued of a stitch or step owed as an unfinished move,
the position unchanged, no order in flight; the resume context kept, or formed where the halt finds the controller;
service ended, its segment freed where it was SEWN and no record pins it (R14), and a repair pass cut short ended, its
ACTIVE records settled, its retirements announced and the heads' ranges gone (R161, R109). -/
def Sys2Proof.Claims.HaltedAtOnce (s t : State) (cause : HaltCause) : Prop :=
  t.pending = s.pending ∧ t.par = s.par ∧ t.fr = s.fr ∧ t.tm = s.tm ∧ t.se = ⟨none, none⟩ ∧
  t.pc = { s.pc with
    state := .halted, cause := cause, due := none, phase := .rest, point := t.pc.point, faulted := t.pc.faulted
    trimmed := t.pc.trimmed, owedTrims := t.pc.owedTrims, wasMoving := t.pc.wasMoving } ∧ Kept s t ∧
  Pending t .halted ∧ t.rl = { s.rl with sticky := t.rl.sticky } ∧
  t.mp = (quiet s t.mp.unfinished).mp ∧ Owes s t.mp.unfinished ∧ ServiceEnds s t ∧
  t.ts = { heads := t.ts.heads, working := none, trimNamed := 0 } ∧ t.hs = { s.hs with heads := t.hs.heads } ∧
  (∀ h : HeadId,
    t.sel h = { s.sel h with current := if (s.sel h).shift = none then (s.sel h).current else none
                             shift := none, trim := none } ∧
    t.head h = { s.head h with state := (t.head h).state, selectNeedle := (t.head h).selectNeedle
                               ranges := if s.rt.pass = none then (s.head h).ranges else [] } ∧
    ((s.sel h).shift = none → (t.head h).selectNeedle = (s.head h).selectNeedle) ∧
    (∀ x, (s.sel h).shift = some x →
      (t.head h).selectNeedle = if x.named then (s.head h).selectNeedle else (s.sel h).current) ∧
    (∀ b, (s.head h).state = .shifting b → (t.head h).state = if b then .rejoinWait else .active) ∧
    ((∀ b, (s.head h).state ≠ .shifting b) → (t.head h).state = (s.head h).state)) ∧
  (s.rt.pass = none → t.rt = s.rt ∧ t.rl.sticky = s.rl.sticky ||| 0x0002) ∧
  (s.rt.pass.isSome = true → t.rt = s.endRepairPass.rt ∧ t.rl.sticky = s.endRepairPass.rl.sticky ||| 0x0002)

/-- The controller is in one of the states an immediate halt acts in (R76). -/
def Sys2Proof.Claims.AtWork (s : State) : Prop :=
  s.pc.state = .sewing ∨ s.pc.state = .repair ∨ s.pc.state = .stopping ∨ s.pc.state = .travel ∨
  s.pc.state = .change

/-- The round between the runs (R13, R64, R69 to R72, R82, R152, R156 to R158): transitions follow one another until the part waits
(log 8: the model's choice, with its bound). The take of the next segment, or a STARVED wait; the repair pass that the
schedule names, formed, its service opened and its needles chosen; and where it names none, what follows the repairs: the
pin-ceiling check by the pinned pages (R17, R70) and the next take, the forced repairs, a PIN_CEILING halt; the job-end
test (R71); the return of a REPAIR_RUN to its halt, with a STARVED wait's take repeated (R72, R82). A travel or a
begin-pass request waits while the shaft turns, and halts at once where it rests outside the window (R46, R53); inside it
the pulses owed are taken back first (R54) and a travel enters TRAVELLING. Its next step begins; a step or a retraction
that takes no time is complete at once, its delta added or its pulses owed no more; with no step left the travel is
complete. The model's choices: such a move is not waited for (log 39), an axis with no pulse takes no time (log 59) and has
direction 0 (log 43), a begin-pass request's retraction too waits for the shaft (log 54), in TRAVEL after a travel
(log 62), and the shaft condition held is not judged anew by a WINDOW_DEG written since (log 61). Its readings: the thread
of a segment that has ended is kept for the schedule, also where the segment is freed (log 24), and a warning does not hold
the repeat of the take back (log 31). -/
def Obligations.RoundGoesOn : Prop :=
  (∀ (f : Nat → State) (k : Nat), k ≤ Config.driveBound → (∀ i, i < k → (f i).microStep = some (f (i + 1))) →
    Waits (f k) → (f 0).drive = f k) ∧
  ∀ s : State,
    (s.pc.phase = .take → s.ds.Sound → s.Pinned →
      let n := match s.ds.mark with | some m => m + 1 | none => 0
      ((∀ r, s.findSeg n = some r → r.state ≠ .ready) → ∃ t, s.microStep = some t ∧ Halts s t .starved .beforeTake true) ∧
      ∀ r, s.findSeg n = some r → r.state = .ready → (∀ q ∈ s.ds.segs, q.state ≠ .active) →
        ∃ t, s.microStep = some t ∧ TakeMade s t n r) ∧
    (s.pc.phase = .schedule →
      let p := s.pc.repairPoint
      let full := ∃ j, s.pc.job = some j ∧ 0 < j.pinCeiling ∧ j.pinCeiling ≤
        (s.ds.segs.map fun r => if r.state = .sewn ∧ 0 < r.pins then r.pages.length else 0).sum
      (∀ g r, Named s p g → s.findSeg g = some r → ∃ t u pass, s.microStep = some t ∧ Formed s u p g pass ∧
        Chosen { going u .change (.choice .repairPass) with ds := { s.ds with served := some g } } t
          ⟨r.thread, g, .repair, pass.first, pass.involved⟩ fun h => inSet pass.involved h = true) ∧
      ((∀ g, ¬ Named s p g) →
        (p = .segmentEnd → (¬ full → s.microStep = some (going s .change .take)) ∧
          (full → ∃ t, s.microStep = some t ∧ RepairsDue s t .forced)) ∧
        (p = .forced → (¬ full → s.microStep = some (going s .change .take)) ∧
          (full → ∃ t, s.microStep = some t ∧ Halts s t .pinCeiling .beforeTake true)) ∧
        (p = .jobEnd → (s.rt.records = [] → s.microStep = some { going s .finished .rest with
            ts := { s.ts with working := none }, rl := { s.rl with sticky := s.rl.sticky ||| 0x0020 } }) ∧
          (s.rt.records ≠ [] → ∃ t, s.microStep = some t ∧ Halts s t .repairsOutstanding .jobEnd true)) ∧
        (∀ point, p = .run → s.pc.point = some point → ∃ t, Halts s t s.pc.runCause point s.pc.trimmed ∧
          let starved := s.pc.runCause = .starved ∧
            ∃ q, t.findSeg (match s.ds.mark with | some m => m + 1 | none => 0) = some q ∧ q.state = .ready
          let checked := s.mp.referenced = true ∧ s.tablesValid = true
          (¬ starved → s.microStep = some t) ∧
          (starved → checked → s.microStep = some (going t .change .take)) ∧
          (starved → ¬ checked → s.microStep = some { t with
            pc := { t.pc with cause := .stopRequest }, rl := { t.rl with sticky := t.rl.sticky ||| 0x0002 } })))) ∧
    (let begins := ∃ a, s.pc.phase = .begin a
     let travels := ∃ a, s.pc.phase = .travel a
     let rested := { s with mp := { s.mp with
       mode := .atRest, spindle := 0, window := [], marker := none, prevSpeed := none, stopCeiling := false
       stopEnd := false } }
     (s.mp.mode = .atRest → (travels ∨ begins ∧ s.pc.due = none) →
       (s.mp.shaft = .turning → Waits s) ∧
       (s.mp.shaft = .outOfWindow → AtWork s → ∃ t, s.microStep = some t ∧ HaltedAtOnce s t .spindlePosition) ∧
       (s.mp.shaft = .inWindow → travels → s.mp.unfinished = none →
         s.microStep = some { s with mp := { s.mp with mode := .travelling } }) ∧
       (∀ u v, s.mp.shaft = .inWindow → s.mp.unfinished = some (u, v) →
         units u s.par.axisScaleX ≤ 127 → units v s.par.axisScaleY ≤ 127 →
         let back := fun (m : Option Move) (owed : Option (Int × Int)) => { s with mp := { s.mp with
           mode := .travelling, move := m, unfinished := owed, dirX := -u.sign, dirY := -v.sign } }
         (RetractionTakesTime s u v → s.microStep = some (back (some (retraction s u v)) (some (u, v)))) ∧
         (¬ RetractionTakesTime s u v → s.microStep = some (back none none)))) ∧
     (∀ c, s.mp.mode = .atRest → begins → s.pc.due = some c →
       ∃ t p b, s.microStep = some t ∧ StandsAt s p b ∧ Halts s t c p b) ∧
     (s.mp.mode = .travelling → s.mp.move = none → begins → s.microStep = some rested) ∧
     (∀ d rest, s.mp.mode = .travelling → s.mp.move = none → travels → s.se.plan = some (d :: rest) → s.par.Sound →
       let stepped := fun (place : Pos) (m : Option Move) => { s with
         se := { s.se with plan := some rest }
         mp := { s.mp with position := place, move := m, dirX := d.x.sign, dirY := d.y.sign } }
       (TakesTime s d.x d.y → s.microStep = some (stepped s.mp.position (some (begun s .step d.x d.y)))) ∧
       (TakesNoTime s d.x d.y →
         s.microStep = some (stepped ⟨s.mp.position.x + d.x, s.mp.position.y + d.y⟩ none)))) ∧
    (∀ a, s.pc.phase = .travel a → s.mp.mode = .travelling → s.mp.move = none → s.se.plan = some [] →
      (s.pc.due = none → ∃ t, s.microStep = some t ∧ Arrived s t a) ∧
      (∀ c, s.pc.due = some c → ∃ t p b, s.microStep = some t ∧ StandsAt s p b ∧
        Halts { s with
          se := { s.se with plan := none }
          mp := { s.mp with mode := .atRest, spindle := 0, window := [], marker := none, prevSpeed := none
                            stopCeiling := false, stopEnd := false } } t c p b))

/-! ## Needles, heads and records -/

/-- NEEDLE_SET (R85, R88, R96, R97): refused BAD_ARGUMENT out of form; staged when it edits a current needle
in use without disabling it; otherwise applied at once, and the READY segments' unthreaded-head sets
follow, THREAD_MISSING rising when one turns from empty to non-empty. The withdrawal check (R86): an edit applied
at once to the current needle of an ACTIVE head, an involved one under a repair context, that makes it unfit for the
working thread raises NEEDLE_WITHDRAWN for the head, which is resolved before the controller goes on; its index outside
sewing is the begin index of the last needle choice, in the CHANGE of a mid-segment TRIM too (the model's choice, log 63).
With no withdrawal a part that waits (log 8) has nothing more to do. -/
def Obligations.NeedleSetStagesOrApplies : Prop :=
  ∀ (head needle given : Byte) (code : BitVec 16) (state : Byte) (s : State), Acts s →
    let request := exec (.needleSet head needle given code state) s
    let bad := head.toNat = 0 ∨ 16 < head.toNat ∨ needle.toNat = 0 ∨ 12 < needle.toNat ∨
      given.getLsbD 0 = false ∧ given.getLsbD 1 = false ∨ given.getLsbD 1 = true ∧ 1 < state.toNat
    (bad → request = .next (refused .badArgument s)) ∧
    ∀ (h : HeadId) (n : NeedleId), ¬ bad → Names head h → needle.toNat = n.val + 1 →
      let old := (s.sel h).needles[n]
      let codeSent : Option Nat := if given.getLsbD 0 then some code.toNat else none
      let stateSent : Option Bool := if given.getLsbD 1 then some (decide (state = 1)) else none
      let inUse := (s.sel h).current = some n ∧
        (s.pc.state = .sewing ∨ s.pc.state = .repair ∨ s.pc.state = .stopping)
      let othersStay := fun t : State => ∀ g : HeadId,
        (t.sel g).current = (s.sel g).current ∧ (t.sel g).shift = (s.sel g).shift ∧
        (t.sel g).trim = (s.sel g).trim ∧
        ∀ m : NeedleId, (g ≠ h ∨ m ≠ n) → (t.sel g).needles[m] = (s.sel g).needles[m]
      (inUse → stateSent ≠ some true → ∃ t p, request = .next (done p t) ∧ p.length = 1 ∧ Carries p 0 1 1 ∧
        t = { s with ts := { s.ts with heads := t.ts.heads } } ∧
        (t.sel h).needles[n] = { old with staged := some ⟨codeSent, stateSent⟩ } ∧ othersStay t) ∧
      ((¬ inUse ∨ stateSent = some true) →
        let withdrawn := fun w : Working => s.ts.working = some w ∧ (s.head h).state = .active ∧
          (w.kind = .main ∨ inSet w.involved h = true) ∧ (s.sel h).current = some n ∧
          (old.disabled = false ∧ old.code = w.thread) ∧
          ¬ (stateSent.getD old.disabled = false ∧ codeSent.getD old.code = w.thread)
        let sewn := s.pc.state = .sewing ∨ s.pc.state = .repair ∨ s.pc.state = .stopping
        ∃ t p, p.length = 1 ∧ Carries p 0 1 0 ∧
          (∀ w, withdrawn w → request = .next ((done p t).resolveGroup h [⟨.needleWithdrawn, some w.segment,
            some (if sewn then s.frontier else w.beginIndex), some n, some w.kind, none, none⟩]).drive) ∧
          ((∀ w, ¬ withdrawn w) → Waits s → request = .next (done p t)) ∧
          t = { s with ts := { s.ts with heads := t.ts.heads }, ds := { s.ds with segs := t.ds.segs }
                       rl := { s.rl with sticky := t.rl.sticky } } ∧
          (t.sel h).needles[n] = ⟨codeSent.getD old.code, stateSent.getD old.disabled, none⟩ ∧ othersStay t ∧
          SetsFollow s t)

/-- A record is retired (R149, R16): its slot is free, and its segment has one pin fewer, or is freed where it is SEWN,
not pinned then and not served, LOAD_WANT following (R19). -/
def Sys2Proof.Claims.Retired (s t : State) (r : RepairRecord) : Prop :=
  t = { s with rt := { s.rt with records := s.rt.records.filter fun q => decide (q.slot ≠ r.slot) }
               ds := { s.ds with segs := t.ds.segs, pool := t.ds.pool, loadWant := t.ds.loadWant } } ∧
  (∀ m, m ≠ r.segment → t.findSeg m = s.findSeg m) ∧
  ∀ q, s.findSeg r.segment = some q →
    let last := q.state = .sewn ∧ q.pins ≤ 1 ∧ s.ds.served ≠ some r.segment
    (last → t.findSeg r.segment = none ∧ t.ds.pool.Perm (s.ds.pool ++ q.pages) ∧ LoadWantFollows s.ds.loadWant t) ∧
    (¬ last → t.findSeg r.segment = some { q with pins := q.pins - 1 } ∧ t.ds.pool = s.ds.pool ∧
      t.ds.loadWant = s.ds.loadWant)

/-- The records of a list are retired, one after the other. -/
def Sys2Proof.Claims.RetiredAll (s t : State) (gone : List RepairRecord) : Prop :=
  ∃ x : Nat → State, x 0 = s ∧ x gone.length = t ∧
    ∀ (i : Nat) (r : RepairRecord), gone[i]? = some r → Retired (x i) (x (i + 1)) r

/-- HEAD_MODE (R111): BAD_ARGUMENT, for a head outside 1..16 or a mode above 1, NO_JOB, BUSY and the last head's
refusal in their order; a head as it is already is answered DONE; an included head joins the job ACTIVE in STANDBY
and REJOIN_WAIT in HALTED; the job changes in its set of heads alone, and the READY segments' unthreaded-head sets
follow, THREAD_MISSING rising when one turns from empty to non-empty (R96, R97). An excluded one leaves the job with its records, latch, meters, trims owed and place in the
faulted set, its records' pins going with them: a SEWN segment that no record pins then and that is not served is freed
(R164, R16, R19). What an exclusion leaves of the Supervisor's record, and that no report of the head is awaited then,
is the model's reading (log 37). -/
def Obligations.HeadModeIncludesExcludes : Prop :=
  (∀ (head mode : Byte) (s : State), Acts s → (head.toNat = 0 ∨ 16 < head.toNat) →
    exec (.headMode head mode) s = .next (refused .badArgument s)) ∧
  ∀ (head mode : Byte) (s : State), Acts s → ∀ h : HeadId, Names head h →
    let request := exec (.headMode head mode) s
    let member := inSet s.jobHeads h = true
    let alone := ∀ g, inSet s.jobHeads g = true ↔ g = h
    let open_ := mode.toNat ≤ 1 ∧ (s.pc.state = .standby ∨ s.pc.state = .halted)
    let rest := fun t : State => t.pc.job = s.pc.job.map (fun j => { j with heads := t.jobHeads }) ∧
      (∀ g, g ≠ h → t.head g = s.head g ∧ t.meter g = s.meter g ∧ t.pc.faulted[g] = s.pc.faulted[g] ∧
        inSet t.pc.owedTrims g = inSet s.pc.owedTrims g) ∧
      (∀ g, g ≠ h → inSet t.jobHeads g = inSet s.jobHeads g)
    let stays := fun r : RepairRecord => decide (∀ q ∈ s.rt.records, q.head = h → q.slot ≠ r.slot)
    (1 < mode.toNat → request = .next (refused .badArgument s)) ∧
    (mode.toNat ≤ 1 → s.pc.state = .idle → request = .next (refused .noJob s)) ∧
    (mode.toNat ≤ 1 → s.pc.state ≠ .idle → s.pc.state ≠ .standby → s.pc.state ≠ .halted →
      request = .next (refused .busy s)) ∧
    (open_ → mode = 1 → alone → request = .next (refused .badArgument s)) ∧
    (open_ → (mode = 0 ↔ member) → ¬ (mode = 1 ∧ alone) → request = .next (done [] s)) ∧
    (open_ → s.pc.job.isSome = true → mode = 0 → ¬ member → ∃ t, request = .next (done [] t) ∧
      t = { s with pc := { s.pc with job := t.pc.job }, hs := { s.hs with heads := t.hs.heads }
                   ds := { s.ds with segs := t.ds.segs }, rl := { s.rl with sticky := t.rl.sticky } } ∧
      SetsFollow s t ∧ inSet t.jobHeads h = true ∧ rest t ∧
      t.head h = { s.head h with state := if s.pc.state = .standby then .active else .rejoinWait
                                 silentRun := 0, silentRaised := false, driveSeen := false }) ∧
    (open_ → s.pc.job.isSome = true → mode = 1 → member → ¬ alone → ∃ t, request = .next (done [] t) ∧
      t = { s with
        pc := { s.pc with job := t.pc.job, faulted := t.pc.faulted, owedTrims := t.pc.owedTrims }
        hs := { s.hs with heads := t.hs.heads }
        tm := t.tm
        rt := { s.rt with records := s.rt.records.filter stays }
        ds := { s.ds with segs := t.ds.segs, pool := t.ds.pool, loadWant := t.ds.loadWant }
        rl := { s.rl with sticky := t.rl.sticky } } ∧
      (∃ u, (s.ds.Sound → RetiredAll s u (s.rt.records.filter fun r => decide (r.head = h))) ∧
        t.ds = { u.ds with segs := t.ds.segs } ∧ u.rl = s.rl ∧ SetsFollow u t) ∧
      inSet t.jobHeads h = false ∧ rest t ∧
      t.head h = { s.head h with state := .excluded, replay := none, awaiting := false, inTrim := false } ∧
      t.meter h = { s.meter h with breakRun := 0, loose := 0, tight := 0, bobbinAbsent := 0, colour := .green } ∧
      t.pc.faulted[h] = none ∧ inSet t.pc.owedTrims h = false ∧
      (∀ r ∈ t.ds.segs, r.state = .ready → Unthreaded t r.thread r.unthreaded) ∧
      (s.ds.Sound → s.Pinned → t.Pinned ∧ t.ds.Sound ∧ ∀ m q, s.findSeg m = some q →
        (q.state = .ready → ∃ u, t.findSeg m = some { q with unthreaded := u }) ∧
        (q.state ≠ .ready →
          let left := (t.rt.records.filter fun r => decide (r.segment = m)).length
          let freed := q.state = .sewn ∧ s.ds.served ≠ some m ∧ 0 < q.pins ∧ left = 0
          (freed → t.findSeg m = none) ∧
          (¬ freed → t.findSeg m = some { q with pins := left }))) ∧
      ((∀ r ∈ s.rt.records, r.head ≠ h) → t.ds.pool = s.ds.pool ∧ t.ds.loadWant = s.ds.loadWant ∧
        t.ds.segs.length = s.ds.segs.length))

/-- REPAIR_CANCEL (R163, R149, R16): by slot one record that is CLOSED, or OPEN on an ACTIVE head, is
retired and its segment has one pin fewer, or is freed when it is SEWN, unpinned then and not served; by
head all such records of the head are retired, one after the other, and counted; the refusals come first, among them
BAD_ARGUMENT for a choice byte above 1 (the model's reading, log 30). -/
def Obligations.RepairCancels : Prop :=
  ∀ (by_ which : Byte) (s : State), Acts s →
    let request := exec (.repairCancel by_ which) s
    let may := fun r : RepairRecord =>
      r.state = .closed ∨ r.state = .opened ∧ (s.head r.head).state = .active
    (s.pc.state = .idle → request = .next (refused .noJob s)) ∧
    (s.pc.state ≠ .idle → by_ = 0 → 128 ≤ which.toNat → request = .next (refused .badArgument s)) ∧
    (s.pc.state ≠ .idle → by_ = 0 → which.toNat < 128 → (∀ r ∈ s.rt.records, r.slot ≠ which.toNat) →
      request = .next (refused .notFound s)) ∧
    (∀ r, s.pc.state ≠ .idle → by_ = 0 → which.toNat < 128 → s.ds.Sound →
      s.rt.records.find? (·.slot == which.toNat) = some r →
      (¬ may r → request = .next (refused .busy s)) ∧
      (may r → ∃ t p, request = .next (done p t) ∧ p.length = 1 ∧ Carries p 0 1 1 ∧ Retired s t r)) ∧
    (s.pc.state ≠ .idle → 1 < by_.toNat → request = .next (refused .badArgument s)) ∧
    (s.pc.state ≠ .idle → by_ = 1 → (which.toNat = 0 ∨ 16 < which.toNat) →
      request = .next (refused .badArgument s)) ∧
    (∀ h, s.pc.state ≠ .idle → by_ = 1 → Names which h →
      let stays := fun r : RepairRecord => decide (∀ q ∈ s.rt.records, q.head = h → may q → q.slot ≠ r.slot)
      ((∃ r ∈ s.rt.records, r.head = h ∧ r.state = .active) → request = .next (refused .busy s)) ∧
      ((∀ r ∈ s.rt.records, r.head = h → r.state ≠ .active) →
        ∃ t p, request = .next (done p t) ∧ p.length = 1 ∧
        Carries p 0 1 (s.rt.records.filter fun r => decide (r.head = h ∧ may r)).length ∧
        t = { s with rt := { s.rt with records := s.rt.records.filter stays }
                     ds := { s.ds with segs := t.ds.segs, pool := t.ds.pool, loadWant := t.ds.loadWant } } ∧
        (s.ds.Sound → RetiredAll s t (s.rt.records.filter fun r => decide (r.head = h ∧ may r))) ∧
        (s.ds.Sound → s.Pinned → PinsFollow s t)))

/-! ## The supply, the resets and the emergency stop -/

/-- What a warm start leaves (R59, R83, R99, R115, R131, R147, R165, R168, R170, R171), but for the inputs:
planner and spindle at rest with tables and position kept, no order in flight, every latch UP and no report awaited, no
silence run or raised mark, the meters' buckets cleared and their other counts kept, ACTIVE records settled and no pass
formed, service ended with its segment freed where it was SEWN and no record pins it (R14, R22), the response slot at
NO_RESPONSE. With a job open the controller is HALTED with the cause, its resume context kept or formed. `reset` says that
power never left: then the pulses of a move in progress are owed. That a RESET raises no REPAIR_DONE is the model's
reading (log 19), and so is the needle to select, none again (log 18); that the direction outputs stay as they are is its
choice (log 55: R59 gives them no level). -/
def Sys2Proof.Claims.WarmFrom (s t : State) (reset : Bool) : Prop :=
  t.pending = s.pending ∧ t.par = s.par ∧ t.fr = s.fr ∧
  t.rl = { s.rl with slot := .noResponse
                     sticky := s.rl.sticky ||| (if s.pc.state = .idle then 0x0040 else 0x0042) } ∧
  t.se = ⟨none, none⟩ ∧
  (s.pc.state = .idle → t.pc = s.pc) ∧
  (s.pc.state ≠ .idle → Kept s t ∧ t.pc = { s.pc with
    state := .halted, cause := if reset then .reset else .powerLoss, due := none, phase := .rest, point := t.pc.point
    faulted := t.pc.faulted, trimmed := t.pc.trimmed, owedTrims := t.pc.owedTrims, wasMoving := t.pc.wasMoving }) ∧
  t.mp = { s.mp with
    shaft := .turning, mode := .atRest, spindle := 0, window := [], marker := none, prevSpeed := none
    policyCeiling := none, stopCeiling := false, stopEnd := false, move := none
    referenced := reset && s.mp.referenced, unfinished := t.mp.unfinished } ∧
  (reset = false → t.mp.unfinished = none) ∧
  (reset = true → Owes s t.mp.unfinished) ∧
  t.ts = { heads := t.ts.heads, working := none, trimNamed := 0 } ∧
  t.hs = { heads := t.hs.heads, revolution := false, current := none, previous := none, lastTake := none } ∧
  (∀ h : HeadId,
    t.sel h = { s.sel h with current := if (s.sel h).shift = none then (s.sel h).current else none
                             shift := none, trim := none } ∧
    t.head h = { s.head h with
      state := (t.head h).state, ranges := [], silentRun := 0, silentRaised := false, driveSeen := false
      lastReport := none, awaiting := false, taken := false, takenBefore := false, latch := false
      latchBefore := false, selectNeedle := none } ∧
    ((s.head h).state = .shifting false → (t.head h).state = .active) ∧
    ((s.head h).state = .shifting true → (t.head h).state = .rejoinWait) ∧
    ((∀ b, (s.head h).state ≠ .shifting b) → (t.head h).state = (s.head h).state) ∧
    t.meter h = { s.meter h with breakRun := 0, loose := 0, tight := 0, bobbinAbsent := 0, colour := .green }) ∧
  t.rt = { records := t.rt.records, roundMark := none, retiredInPass := false, pass := none } ∧
  t.rt.records.length = s.rt.records.length ∧
  (∀ (i : Nat) (r : RepairRecord), s.rt.records[i]? = some r →
    (r.state ≠ .active → t.rt.records[i]? = some r) ∧
    (r.state = .active → t.rt.records[i]? = some { r with
      state := .closed, through := none
      first := match r.through with
        | some p => max r.first (p + 1).toNat
        | none => r.first })) ∧
  (∃ u, ServiceEnds s u ∧ t.ds = { u.ds with loadWant := t.ds.loadWant }) ∧
  (∀ q ∈ t.ds.segs, q ∈ s.ds.segs) ∧
  (∀ q ∈ s.ds.segs, q ∈ t.ds.segs ∨ q.state = .sewn ∧ q.pins = 0 ∧ s.ds.served = some q.number) ∧
  LoadWantFollows s.ds.loadWant t

/-- The four warm starts: RESET and the release of the reset line while the retention flag is clear
(R170), the warning's clearing and the power's return with the backup present while it is set (R167, R168).
With no context held, the point is that of R78 and R83: FINISHED gives JOB_END, STANDBY BEFORE_TAKE, the main pass being
sewn AT_STITCH at the sewn frontier. The model's choices: POWER_RETURN starts a part that has its supply too (log 31), the
warning input reads deasserted at the return (log 36), a RESET is a warm reset that raises no REPAIR_DONE (log 19), the
direction outputs stay through a warm start (log 55: R59 gives them no level). -/
def Obligations.WarmStarts : Prop :=
  ∀ s : State, s.ds.Sound →
    let start := fun (i : Instr) (reset : Bool) (sm : Supply) =>
      ∃ t, exec i s = .next t ∧ WarmFrom s t reset ∧
        t.sm = { sm with powered := true, retention := false, warned := false, resetWaits := false
                         startKind := if reset then .warmReset else .warmPower }
    (Acts s → s.sm.retention = false → start .reset true s.sm) ∧
    (s.sm.powered = true → s.sm.resetLine = true → s.sm.retention = false →
      start .resetLineRelease true { s.sm with resetLine := false }) ∧
    (s.sm.powered = true → s.sm.warningInput = true → s.sm.retention = true →
      start .warningClear false { s.sm with warningInput := false }) ∧
    (s.sm.retention = true →
      start (.powerReturn true) false { s.sm with warningInput := false, backupInput := true })

/-- The two cold starts: the warning's clearing with the retention flag clear and the power's return with
the flag clear or no backup (R167, R168): every register has its value after a cold start but the inputs
and the waiting commands. The model's choices: POWER_RETURN starts a part that has its supply too (log 31),
and the warning input reads deasserted at the return (log 36). -/
def Obligations.ColdStarts : Prop :=
  ∀ s : State,
    let start := fun (i : Instr) (sm : Supply) => exec i s = .next { State.reset with
      sm := { sm with powered := true, retention := false, startKind := .cold, warned := false, resetWaits := false }
      pending := s.pending }
    (s.sm.powered = true → s.sm.warningInput = true → s.sm.retention = false →
      start .warningClear { s.sm with warningInput := false }) ∧
    (∀ backup : Bool, ¬ (s.sm.retention = true ∧ backup = true) →
      start (.powerReturn backup) { s.sm with warningInput := false, backupInput := backup })

/-- ESTOP_ASSERT, POWER_FAIL_WARNING, RESET_LINE_ASSERT and a RESET that the retention flag makes wait, while
the machine works (R76, R166, R170): an immediate halt with the cause of each, and the input's level; the
warning is remembered until the next start, and arms retention when the backup is present; the RESET is never
answered (log 36). A repair pass cut short is over, its records settled (R161), and service ends (R14). The state that a
SHIFTING head takes is the model's reading (log 12). -/
def Obligations.ImmediateHalts : Prop :=
  ∀ s : State, s.sm.powered = true → AtWork s →
    (Acts s → s.sm.estopInput = false → ∃ t, exec .estopAssert s = .next t ∧ HaltedAtOnce s t .estop ∧
      t.sm = { s.sm with estopInput := true }) ∧
    (∀ backup, s.sm.warningInput = false → ∃ t, exec (.powerFailWarning backup) s = .next t ∧
      HaltedAtOnce s t .powerLoss ∧
      t.sm = { s.sm with warningInput := true, backupInput := backup, warned := true
                         retention := s.sm.retention || backup }) ∧
    (s.sm.resetLine = false → ∃ t, exec .resetLineAssert s = .next t ∧ HaltedAtOnce s t .reset ∧
      t.sm = { s.sm with resetLine := true }) ∧
    (Acts s → s.sm.retention = true → ∃ t, HaltedAtOnce s t .reset ∧ t.sm = s.sm ∧ exec .reset s = .next { t with
      sm := { s.sm with resetWaits := true }, rl := { t.rl with slot := .pending .waits } })

/-- The supply and the inputs where no immediate halt and no start is made (R72, R76, R166 to R168, R170): a
level that repeats changes nothing, the others are remembered; ESTOP_ASSERT ends a STARVED wait; a
RESET with the retention flag set, the reset line and MAIN_SUPPLY_FAILURE bring the planner to rest; the
first waits, and the last keeps retention by the backup alone. What the part keeps of an input while it does
not act is the model's (log 2), and so are the sampled backup level, the warning taken while the reset line is
held and the slot that a waiting RESET leaves PENDING (log 36). -/
def Obligations.InputsAreTracked : Prop :=
  ∀ s : State,
    let sm := fun x : Supply => { s with sm := x }
    (exec .estopRelease s = .next (sm { s.sm with estopInput := false })) ∧
    (exec .backupFailure s = .next (sm { s.sm with
      backupInput := false, retention := s.sm.retention && s.sm.powered })) ∧
    (s.sm.estopInput = true → exec .estopAssert s = .next s) ∧
    (s.sm.estopInput = false → (¬ Acts s ∨ ¬ AtWork s ∧ ¬ (s.pc.state = .halted ∧ s.pc.cause = .starved)) →
      exec .estopAssert s = .next (sm { s.sm with estopInput := true })) ∧
    (Acts s → s.sm.estopInput = false → s.pc.state = .halted → s.pc.cause = .starved →
      exec .estopAssert s = .next { s with
        sm := { s.sm with estopInput := true }, pc := { s.pc with cause := .estop }
        rl := { s.rl with sticky := s.rl.sticky ||| 0x0002 } }) ∧
    (∀ backup, (s.sm.powered = false ∨ s.sm.warningInput = true) →
      exec (.powerFailWarning backup) s = .next s) ∧
    (∀ backup, s.sm.powered = true → s.sm.warningInput = false → ¬ AtWork s →
      exec (.powerFailWarning backup) s = .next (sm { s.sm with
        warningInput := true, backupInput := backup, warned := true, retention := s.sm.retention || backup })) ∧
    ((s.sm.powered = false ∨ s.sm.warningInput = false) → exec .warningClear s = .next s) ∧
    (s.sm.resetLine = true → exec .resetLineAssert s = .next s) ∧
    (s.sm.resetLine = false → s.sm.powered = false →
      exec .resetLineAssert s = .next (sm { s.sm with resetLine := true })) ∧
    (s.sm.resetLine = false → exec .resetLineRelease s = .next s) ∧
    (s.sm.resetLine = true → s.sm.powered = false →
      exec .resetLineRelease s = .next (sm { s.sm with resetLine := false })) ∧
    (s.sm.resetLine = true → s.sm.powered = true → s.sm.retention = true →
      exec .resetLineRelease s = .next (sm { s.sm with resetLine := false, resetWaits := true })) ∧
    (s.sm.resetLine = false → s.sm.powered = true → ¬ AtWork s → ∃ u, Owes s u ∧
      exec .resetLineAssert s = .next { quiet s u with sm := { s.sm with resetLine := true } }) ∧
    (Acts s → s.sm.retention = true → ¬ AtWork s → ∃ u, Owes s u ∧ exec .reset s = .next { quiet s u with
      sm := { s.sm with resetWaits := true }, rl := { s.rl with slot := .pending .waits } }) ∧
    (s.sm.powered = false → exec .mainSupplyFailure s = .next s) ∧
    (s.sm.powered = true → ∃ u, Owes s u ∧ exec .mainSupplyFailure s = .next { quiet s u with
      sm := { s.sm with powered := false, retention := s.sm.retention && s.sm.backupInput } })

/-! ## The spindle and the frame -/

/-- The state with the spindle angle input at an angle and the shaft turning. -/
def Sys2Proof.Claims.turned (angle : Fin 360) (s : State) : State :=
  { s with sm := { s.sm with angle := angle }, mp := { s.mp with shaft := .turning } }

/-- An angle lies in the move window: within WINDOW_DEG / 2 of 0 (R47). -/
def Sys2Proof.Claims.Inside (s : State) (angle : Fin 360) : Prop :=
  360 ≤ angle.val + s.par.windowDeg / 2 ∨ angle.val ≤ s.par.windowDeg / 2

/-- A head's current needle is READY in the working thread. -/
def Sys2Proof.Claims.Fit (s : State) (h : HeadId) : Prop :=
  ∃ w n, s.ts.working = some w ∧ (s.sel h).current = some n ∧
    (s.sel h).needles[n].disabled = false ∧ (s.sel h).needles[n].code = w.thread

/-- The index a stitch is placed at: its index, or a tie stitch's anchor. -/
def Sys2Proof.Claims.At (st : Issued) (i : Nat) : Prop :=
  st.index = some i ∨ st.index = none ∧ st.anchor = some i

/-- The command an exchange sends a polled head (R100, R186): its number, the latch with its trim order and lamp,
the needle to select, and their CRC; `x` is the head's record of orders before the exchange. -/
def Sys2Proof.Claims.Commanded (command : List Byte) (h : HeadId) (r : HeadRecord) (x : SelectorHead) : Prop :=
  let lamp := r.state = .off ∨ r.state = .benched ∨ r.state = .rejoinWait
  command.length = 5 ∧ crc16 command = 0 ∧ Carries command 0 1 (h.val + 1) ∧
  Carries command 1 1
    ((if r.latch then 1 else 0) + (if x.trim.isSome then 2 else 0) + (if lamp then 4 else 0)) ∧
  (∀ y, x.shift = some y → Carries command 2 1 (y.target.val + 1)) ∧
  (x.shift = none → Carries command 2 1 (match r.selectNeedle with | some n => n.val + 1 | none => 0))

/-- The orders of a head after one exchange more (R91, R94): an order is sent with its first exchange, and the
reports are judged from the next one on; nothing else changes. -/
def Sys2Proof.Claims.OrdersGoOn (x y : SelectorHead) : Prop :=
  y = { x with shift := y.shift, trim := y.trim } ∧
  (∀ o, x.shift = some o → y.shift = some { o with order := if o.order = .unsent then .sent else .judged }) ∧
  (x.shift = none → y.shift = none) ∧
  (∀ o, x.trim = some o → y.trim = some { o with order := if o.order = .unsent then .sent else .judged }) ∧
  (x.trim = none → y.trim = none)

/-- SHAFT_ANGLE_CHANGE at a window open with a stitch to sew (R44, R45, R47, R48, R100, R106 to R110, R154, R186):
the first stitch of the window is taken at the planned speed, its move begins from the commanded position, the
heads are commanded by the latch decision. The planned speed is the lesser of the backward pass and the
speed before plus ACCEL_UP, held to the live ceiling as far as ACCEL_DOWN lets it fall; the first stitch
of a run has S_MIN. A fit REJOIN_WAIT head comes back, and at an indexed stitch of the main pass the OPEN record of
each head that sews is closed below the stitch's lowest index, or retired where nothing lies below. The model's
choices: the direction of an axis that does not move is 0 (log 43), a report still outstanding is given up for the
new exchange (log 34), and a stitch that takes no time (log 59 says which) is complete at the window open (log 39): the take
is then followed at once by its completion, which MoveCompletionMoves states. -/
def Obligations.WindowOpenTakes : Prop :=
  ∀ (s : State) (angle : Fin 360) (st : Issued) (cap : Nat) (rest : List Planned), Acts s →
    s.par.Sound → s.mp.mode = .running → s.pc.phase = .sew → s.mp.move = none →
    s.mp.stopEnd = false → s.mp.window = ⟨st, cap⟩ :: rest → ¬ Inside s s.sm.angle → Inside s angle →
    st.dx.natAbs ≤ 127 → st.dy.natAbs ≤ 127 →
    let g := s.ds.served.getD 0
    let indexed := s.mp.passKind = .main ∧ st.index.isSome = true
    ∃ (t : State) (p ceiling : Nat) (b : Nat → Nat),
      (TakesTime s st.dx st.dy → exec (.shaftAngleChange angle) s = .next t) ∧
      (TakesNoTime s st.dx st.dy → exec (.shaftAngleChange angle) s = exec .moveCompletion t) ∧
      t = { turned angle s with
        mp := t.mp, ts := { s.ts with heads := t.ts.heads }, rt := { s.rt with records := t.rt.records }
        hs := ⟨t.hs.heads, true, some ⟨st, g, s.mp.passKind, false⟩, s.hs.current,
          if st.index.isSome then st.index else st.anchor⟩
        ds := { s.ds with segs := t.ds.segs, pool := t.ds.pool, loadWant := t.ds.loadWant } } ∧
      t.mp = { s.mp with
        shaft := .turning, spindle := p, prevSpeed := some p, move := some (begun s .stitch st.dx st.dy)
        dirX := st.dx.sign, dirY := st.dy.sign } ∧
      (∀ j w, s.mp.window[j]? = some w → b j = min w.cap (b (j + 1) + s.par.accelDown)) ∧
      b s.mp.window.length = s.par.sMin ∧
      (∀ e, LeastOf e s.par.sMax
          ((s.mp.policyCeiling.toList.map Int.ofNat) ++
            (if ∃ h, (s.head h).state = .active ∧ (s.meter h).colour ≠ .green then [(s.par.yellowCap : Int)] else []) ++
            (if s.mp.stopCeiling then [(s.par.sMin : Int)] else [])) →
        (ceiling : Int) = max e s.par.sMin) ∧
      (s.mp.prevSpeed = none → p = s.par.sMin) ∧
      (∀ q, s.mp.prevSpeed = some q →
        p = min (min (b 0) (q + s.par.accelUp)) (max ceiling (q - s.par.accelDown))) ∧
      (∀ h : HeadId,
        let sews := (t.head h).state = .active ∧ Fit s h ∧ st.jump = false ∧
          (s.mp.passKind = .main → ∀ k i, (s.head h).replay = some (g, k) → At st i → k ≤ i) ∧
          (s.mp.passKind = .repair → ∃ i r, At st i ∧ r ∈ (s.head h).ranges ∧ r.1 ≤ i ∧ i ≤ r.2)
        let back := (s.head h).state = .rejoinWait ∧ s.pc.state = .sewing ∧ indexed ∧ Fit s h
        let reached := indexed ∧ ∃ l k, st.lowest = some l ∧ (s.head h).replay = some (g, k) ∧ k ≤ l
        (reached → (t.head h).replay = none) ∧ (¬ reached → (t.head h).replay = (s.head h).replay) ∧
        ((s.head h).state = .excluded → t.sel h = s.sel h ∧
          t.head h = { s.head h with inTrim := st.jump && (s.head h).inTrim, replay := (t.head h).replay }) ∧
        ((s.head h).state ≠ .excluded → OrdersGoOn (s.sel h) (t.sel h) ∧
          t.head h = { s.head h with
            state := (t.head h).state, awaiting := true, taken := false, takenBefore := (s.head h).taken
            latch := (t.head h).latch, latchBefore := (s.head h).latch, command := (t.head h).command
            inTrim := if st.jump then (s.head h).inTrim else (t.head h).latch, replay := (t.head h).replay } ∧
          Commanded (t.head h).command h (t.head h) (s.sel h) ∧ ((t.head h).latch = true ↔ sews) ∧
          (back → (t.head h).state = .active) ∧ (¬ back → (t.head h).state = (s.head h).state))) ∧
      (¬ (indexed ∧ st.lowest.isSome = true) → t.rt = s.rt ∧ t.ds = s.ds) ∧
      (∀ l, s.ds.Sound → s.Pinned → indexed → st.lowest = some l →
        let rejoins := fun r : RepairRecord =>
          (s.head r.head).state ≠ .excluded ∧ (t.head r.head).latch = true ∧
          s.rt.records.find? (fun q => decide (q.head = r.head ∧ q.segment = g ∧ q.state = .opened)) = some r
        (∀ x, x ∈ t.rt.records ↔ (x ∈ s.rt.records ∧ ¬ rejoins x) ∨
          ∃ r, rejoins r ∧ r.first < l ∧ x = { r with last := some (l - 1), state := .closed }) ∧
        PinsFollow s t ∧ ((∀ r, rejoins r → r.first < l) → t.ds = s.ds))

/-- An exchange with every latch UP (R100, R186, R91, R94): every head that is not EXCLUDED is sent its command;
its report is awaited, and an order in flight has been carried one exchange further; nothing else changes. -/
def Sys2Proof.Claims.AllUp (s t : State) (revolution : Bool) : Prop :=
  t = { s with ts := { s.ts with heads := t.ts.heads }
               hs := { s.hs with heads := t.hs.heads, revolution := revolution, current := none
                                 previous := s.hs.current } } ∧
  ∀ h : HeadId,
    ((s.head h).state = .excluded → t.head h = s.head h ∧ t.sel h = s.sel h) ∧
    ((s.head h).state ≠ .excluded →
      t.head h = { s.head h with awaiting := true, taken := false, takenBefore := (s.head h).taken
                                 latch := false, latchBefore := (s.head h).latch, command := (t.head h).command } ∧
      Commanded (t.head h).command h (t.head h) (s.sel h) ∧ OrdersGoOn (s.sel h) (t.sel h))

/-- SHAFT_ANGLE_CHANGE where no stitch is taken (R47, R48, R50, R51, R53, R100): in RUNNING, a window that opens
on a move in progress makes that revolution's exchange alone; one that opens with no stitch left, or after the
end of stopping, is the stop: the same exchange with every latch UP, RUNNING_DOWN, the spindle commanded to 0;
the window's close with pulses left is an immediate halt, FRAME_LATE. While TRAVELLING the shaft's leaving the
window is one, SPINDLE_POSITION; any other change turns the shaft and nothing else; the same angle is no
change. The model's choices: a part that does not act follows the input alone (log 2), an exchange over an outstanding
report begins to wait anew (log 34), and a SHIFTING head is back in its state before at such a halt (log 12). -/
def Obligations.AngleChangesWithoutATake : Prop :=
  ∀ (s : State) (angle : Fin 360),
    let event := exec (.shaftAngleChange angle) s
    let leaves := Inside s s.sm.angle ∧ ¬ Inside s angle
    let opens := ¬ Inside s s.sm.angle ∧ Inside s angle
    let halts := fun cause => ∃ t, event = .next t ∧ HaltedAtOnce (turned angle s) t cause ∧
      t.sm = { s.sm with angle := angle }
    (¬ Acts s → event = .next { s with sm := { s.sm with angle := angle } }) ∧
    (angle = s.sm.angle → event = .next s) ∧
    (Acts s → angle ≠ s.sm.angle → AtWork s → s.mp.mode = .running → leaves → s.mp.move.isSome = true →
      halts .frameLate) ∧
    (Acts s → angle ≠ s.sm.angle → AtWork s → s.mp.mode = .travelling → leaves → halts .spindlePosition) ∧
    (Acts s → angle ≠ s.sm.angle → Waits s → s.mp.mode = .running → opens → s.mp.move.isSome = true →
      ∃ t, event = .next t ∧ AllUp (turned angle s) t true) ∧
    (Acts s → angle ≠ s.sm.angle → Waits s → s.mp.mode = .running → opens → s.mp.move = none →
      (s.mp.stopEnd = true ∨ s.mp.window = []) → ∃ t, event = .next t ∧
        AllUp { s with
          sm := { s.sm with angle := angle }
          mp := { s.mp with shaft := .turning, mode := .runningDown, spindle := 0 } } t true) ∧
    (Acts s → angle ≠ s.sm.angle → Waits s → s.mp.mode = .running → ¬ opens →
      (leaves → s.mp.move = none) → event = .next (turned angle s)) ∧
    (Acts s → angle ≠ s.sm.angle → Waits s → s.mp.mode = .travelling → ¬ leaves →
      event = .next (turned angle s)) ∧
    (Acts s → angle ≠ s.sm.angle → Waits s → (s.mp.mode = .atRest ∨ s.mp.mode = .runningDown) →
      event = .next (turned angle s))

/-- The planner, at rest with the shaft in the window, has reported standstill, and the controller is HALTED with a
cause at stitch k of the ACTIVE segment, unless a resume point is held already. -/
def Sys2Proof.Claims.StoodStill (s t : State) (cause : HaltCause) (k : Nat) : Prop :=
  t.pc.state = .halted ∧ t.pc.cause = cause ∧ Pending t .halted ∧ t.sm = s.sm ∧ t.tm = s.tm ∧ t.par = s.par ∧
  t.mp.position = s.mp.position ∧ t.mp.mode = .atRest ∧ t.mp.spindle = 0 ∧ t.mp.shaft = .inWindow ∧
  (∀ r, s.pc.point = none → s.activeSeg = some r →
    t.pc.point = some (.atStitch r.number k) ∧ t.pc.trimmed = false) ∧
  ∀ h, (t.head h).state = (s.head h).state

/-- The planner, at rest with the shaft in the window, has reported standstill, and the controller trims a set of
heads in CHANGE (R66, R68, R69, R75, R94). -/
def Sys2Proof.Claims.Trims (s t : State) (a : TrimAim) (named : HeadId → Prop) : Prop :=
  t = { going s .change (.trim a) with
    mp := { s.mp with shaft := .inWindow, mode := .atRest, spindle := 0, window := [], marker := none
                      prevSpeed := none, stopCeiling := false, stopEnd := false }
    ts := t.ts } ∧
  TrimOrders s t named

/-- SPINDLE_AT_REST (R47, R51, R52, R66 to R69, R75, R94): outside the window a shaft that runs or runs down
is an immediate halt, SPINDLE_POSITION; inside it a shaft that runs is awaited further, and a planner that ran down
reports standstill. In the main pass a soft halt is made, a PAUSE halts, a TRIM or the end of the pass trims the heads
that sewed the last stitch; in a repair pass a TRIM does that too, and its end or a stop trims the heads involved. A
planner at rest with the controller at rest notes where the shaft stands, and so does one whose move goes on. Where no
head is there to trim, the part goes on from there at once (R66, R94). The model's readings: a SHIFTING head is back in
its state before at such a halt (log 12), an EXCLUDED head of the trim set gets no trim (log 13); its choices: a rest while
the planner and the controller are at rest is judged by the WINDOW_DEG that stands then, one written since included
(log 61), and a trim's timer has the TRIM_TIMEOUT of the request (log 64). -/
def Obligations.SpindleAtRestEndsTheRun : Prop :=
  ∀ s : State, Acts s →
    let inside := Inside s s.sm.angle
    let event := exec .spindleAtRest s
    let stood := fun c : Shaft => { s with mp := { s.mp with shaft := c } }
    let marker := if s.mp.window = [] then s.mp.marker else none
    let sewed := fun h => (s.head h).inTrim = true
    let involved := fun h => ∃ p, s.rt.pass = some p ∧ inSet p.involved h = true
    let trims := fun (a : TrimAim) (named : HeadId → Prop) => ∃ t, Trims s t a named ∧ event = .next t.drive ∧
      ((∃ h, named h ∧ (s.head h).state ≠ .excluded) → event = .next t)
    (s.pc.phase = .rest ∧ s.mp.mode = .atRest ∨
        s.mp.mode = .travelling ∧ s.mp.move.isSome = true ∧
          ((∃ a, s.pc.phase = .travel a) ∨ ∃ a, s.pc.phase = .begin a) →
      (inside → event = .next (stood .inWindow)) ∧ (¬ inside → event = .next (stood .outOfWindow))) ∧
    (¬ inside → AtWork s → (s.mp.mode = .running ∨ s.mp.mode = .runningDown) →
      ∃ t, event = .next t ∧ HaltedAtOnce (stood .outOfWindow) t .spindlePosition ∧ t.sm = s.sm) ∧
    (inside → s.mp.mode = .running → s.pc.phase = .sew → event = .next (stood .inWindow)) ∧
    (inside → s.mp.mode = .runningDown → s.mp.passKind = .main → s.pc.phase = .sew →
      (∀ c, s.pc.state = .stopping → s.pc.due = some c → marker = none →
        ∃ t, event = .next t ∧ StoodStill s t c s.frontier) ∧
      (∀ c i, s.se.context = some c → marker = some (.pause i) → c.passedPauses = [] →
        (s.pc.state = .sewing → ∃ t, event = .next t ∧ StoodStill s t .designPause (max c.frontier (i + 1))) ∧
        (∀ e, s.pc.state = .stopping → s.pc.due = some e →
          ∃ t, event = .next t ∧ StoodStill s t e (max c.frontier (i + 1)))) ∧
      (marker = some .endOfPass → trims .endMain sewed) ∧ (∀ i, marker = some (.trim i) → trims .midMain sewed)) ∧
    (inside → s.mp.mode = .runningDown → s.mp.passKind = .repair → s.pc.phase = .sew →
      (∀ i, marker = some (.trim i) → trims .midRepair sewed) ∧ (marker = some .endOfPass → trims .endRepair involved) ∧
      (marker = none → s.pc.state = .stopping → trims .stopRepair involved))

/-- The filling of the look-ahead window (R41, R43), from a state `u`: where no marker stands yet, the editor is asked
until 32 stitches stand there, or it answers with a marker or with nothing; each new stitch has its static cap, and the
last before a new marker S_MIN. The stitches there stay. -/
def Sys2Proof.Claims.Filled (u t : State) : Prop :=
  let k := u.mp.window.length
  let n := t.mp.window.length
  let last := fun i => t.mp.marker.isSome = true ∧ i + 1 = n
  (u.mp.marker.isSome = true → t.mp.window = u.mp.window ∧ t.mp.marker = u.mp.marker ∧ t.se = u.se) ∧
  (u.mp.marker = none → ∃ e : Nat → Editor, e k = u.se ∧ k ≤ n ∧ n ≤ max k 32 ∧
    (∀ (i : Nat) (w : Planned), t.mp.window[i]? = some w → (last i → w.cap = u.par.sMin) ∧
      (i < k → ∃ c, u.mp.window[i]? = some ⟨w.stitch, c⟩ ∧ (¬ last i → w.cap = c)) ∧
      (k ≤ i → { u with se := e i }.issue = (.stitch w.stitch, { u with se := e (i + 1) }) ∧
        (¬ last i → LeastOf w.cap (u.geometricCap w.stitch.dx w.stitch.dy)
          ([(u.par.sMax : Int)] ++ (if w.stitch.jump then [(u.par.jumpCap : Int)] else []) ++
            (if u.mp.passKind = .repair then [(u.par.repairCap : Int)] else []))))) ∧
    (32 ≤ n → t.mp.marker = none ∧ t.se = e n) ∧
    (n < 32 → ∃ a, { u with se := e n }.issue = (a, { u with se := t.se }) ∧
      (a = .nothing ∧ t.mp.marker = none ∨ ∃ m, a = .marker m ∧ t.mp.marker = some m)))

/-- The window is filled, and in a repair pass the records of the ACTIVE heads follow the PAUSE indices that the frontier
passes as they are read (R32, R43, R159). -/
def Sys2Proof.Claims.Refilled (s t : State) : Prop :=
  ∃ w : State, w = { s with se := w.se, mp := { s.mp with window := w.mp.window, marker := w.mp.marker } } ∧ Filled s w ∧
    (∀ c, w.se.context = some c → c.kind = .repair → PassesOver c.segment s.frontier w.frontier w t) ∧
    ((∀ c, w.se.context = some c → c.kind ≠ .repair) → t = w)

/-- The sewing sweep (R153, R151, R75): the states that lead from x(0) to x(16), one head at a time. A head of the job
that is OFF, BENCHED or REJOIN_WAIT with no OPEN record in segment g has its open request at `start` with cause CARRY;
one answered REPAIR_FULL is a hold on the head. -/
def Sys2Proof.Claims.Swept (g start : Nat) (x : Nat → State) : Prop :=
  ∀ h : HeadId,
    let y := x h.val
    let lacks := (∃ q, (x 0).findSeg g = some q ∧ start < q.count) ∧ inSet y.jobHeads h = true ∧
      ((y.head h).state = .off ∨ (y.head h).state = .benched ∨ (y.head h).state = .rejoinWait) ∧
      ∀ r ∈ y.rt.records, ¬ (r.head = h ∧ r.segment = g ∧ r.state = .opened)
    (¬ lacks → x (h.val + 1) = y) ∧
    (∀ z, lacks → y.openRequest h g start .carry = some z → x (h.val + 1) = z) ∧
    (lacks → y.openRequest h g start .carry = none → x (h.val + 1) = { y with
      mp := { y.mp with stopCeiling := true }
      pc := { y.pc with state := .stopping, due := some .repairFull
                        faulted := y.pc.faulted.set h (some ⟨some start, .carry⟩) } })

/-- SPINDLE_AT_REST where a travel or a begin-pass request waits for the shaft (R46, R47, R53, R54): outside the
window it is an immediate halt, SPINDLE_POSITION; inside it the pulses owed are taken back first, over the table time of
their whole units; otherwise a travel begins its first step, and a begin-pass request is taken. In the main pass the
resume context is cleared (R77) and the sewing sweep made (R153); the window is filled (R43), the planner RUNNING with
the spindle at S_MIN; where the window holds no stitch, standstill is reported at once (R46, R81), and the part goes on
from there. A repair pass enters REPAIR, its records following the PAUSE indices read (R159). In every case inside the window the
part goes on by itself from there, transition by transition (RoundGoesOn states those of a travel), so also over steps and
a retraction that take no time (log 39). The model's choices and readings: a begin-pass request's
retraction too begins only with the shaft in the window (log 54), the direction of an axis that does not move is 0
(log 43), a SHIFTING head is back in its state before at a halt (log 12), an EXCLUDED head gets no trim (log 13), a trim's
timer has the TRIM_TIMEOUT of the request (log 64). -/
def Obligations.RestBeginsTravelsAndPasses : Prop :=
  ∀ s : State, Acts s → s.par.Sound → s.mp.mode = .atRest → s.mp.move = none →
    let inside := Inside s s.sm.angle
    let event := exec .spindleAtRest s
    let travels := ∃ a, s.pc.phase = .travel a
    let begins := (∃ a, s.pc.phase = .begin a) ∧ s.pc.due = none
    let rested := { s.mp with
      shaft := .inWindow, spindle := 0, window := [], marker := none, prevSpeed := none, stopCeiling := false
      stopEnd := false }
    let freed := fun t : State =>
      t.hs = { s.hs with heads := t.hs.heads, current := none, previous := none, lastTake := none } ∧
      ∀ h : HeadId, t.head h = { s.head h with
        taken := false, takenBefore := false, latch := false, latchBefore := false }
    let running := fun w : State => Host.Outcome.next { w with mp := { w.mp with mode := .running, spindle := s.par.sMin } }
    (inside → (travels ∨ ∃ a, s.pc.phase = .begin a) →
      event = .next ({ s with mp := { s.mp with shaft := .inWindow } }).drive) ∧
    (¬ inside → (travels ∨ begins) → AtWork s → ∃ t, event = .next t ∧
      HaltedAtOnce { s with mp := { s.mp with shaft := .outOfWindow } } t .spindlePosition ∧ t.sm = s.sm) ∧
    (∀ d rest, inside → travels → s.mp.unfinished = none → s.se.plan = some (d :: rest) → TakesTime s d.x d.y →
      event = .next { s with
        se := { s.se with plan := some rest }
        mp := { s.mp with shaft := .inWindow, mode := .travelling, move := some (begun s .step d.x d.y)
                          dirX := d.x.sign, dirY := d.y.sign } }) ∧
    (∀ u v, inside → (travels ∨ begins) → s.mp.unfinished = some (u, v) →
      units u s.par.axisScaleX ≤ 127 → units v s.par.axisScaleY ≤ 127 → RetractionTakesTime s u v →
      event = .next { s with mp := { s.mp with
        shaft := .inWindow, mode := .travelling, dirX := -u.sign, dirY := -v.sign, move := some (retraction s u v) } }) ∧
    (∀ c, inside → begins → s.mp.unfinished = none → s.se.context = some c → c.kind = .main →
      ∃ (x : Nat → State) (w : State),
        x 0 = { s with
          mp := { rested with passKind := .main }
          hs := (x 0).hs
          pc := { (x 0).pc with state := .sewing, cause := .none, phase := .sew, due := none, job := s.pc.job
                                repairPoint := s.pc.repairPoint, runCause := s.pc.runCause
                                resumeCause := s.pc.resumeCause, resumePlan := s.pc.resumePlan } } ∧
        NoContext (x 0).pc ∧ freed (x 0) ∧ Swept (s.ds.served.getD 0) s.frontier x ∧
        w = { x 16 with se := w.se, mp := { (x 16).mp with window := w.mp.window, marker := w.mp.marker } } ∧
        Filled (x 16) w ∧ (w.mp.window ≠ [] → event = running w) ∧
        (∀ i f, w.mp.window = [] → w.mp.marker = some (.pause i) → (x 16).pc.state = .sewing →
          w.se.context = some f → f.passedPauses = [] →
          ∃ t, event = .next t ∧ StoodStill w t .designPause (max f.frontier (i + 1))) ∧
        (∀ a, w.mp.window = [] →
          (a = .endMain ∧ w.mp.marker = some .endOfPass ∨ a = .midMain ∧ ∃ i, w.mp.marker = some (.trim i)) →
          ∃ t, Trims w t a (fun h => (s.head h).inTrim = true) ∧ (Waits t → event = .next t) ∧
            ∀ v, t.microStep = some v → Waits v → event = .next v)) ∧
    (∀ c, inside → begins → s.mp.unfinished = none → s.se.context = some c → c.kind = .repair →
      ∃ u w : State,
        u = { s with
          mp := { rested with passKind := .repair }
          hs := u.hs
          pc := { s.pc with state := .repair, cause := .none, phase := .sew } } ∧ freed u ∧
        Refilled u w ∧ (w.mp.window ≠ [] → event = running w) ∧
        (∀ a, w.mp.window = [] → (a = .endRepair ∧ w.mp.marker = some .endOfPass ∨
            a = .midRepair ∧ ∃ i, w.mp.marker = some (.trim i)) →
          ∃ t, Trims w t a (fun h => if a = .midRepair then (s.head h).inTrim = true
              else ∃ p, s.rt.pass = some p ∧ inSet p.involved h = true) ∧
            (Waits t → event = .next t) ∧ ∀ v, t.microStep = some v → Waits v → event = .next v))

/-- The indices sewn with a stitch, first and last (R110): its covered range, for a split stitch with its last part; a tie
stitch has none. -/
def Sys2Proof.Claims.Accounts (st : Issued) (l i : Nat) : Prop :=
  st.index = some i ∧ st.lowest = some l ∧ ∀ k n, st.part = some (k, n) → k = n

/-- The accounts of a completed stitch in segment g (R32, R110, R159): with its last index the sewn frontier moves on, each
head whose latch was DOWN has the indices counted, in a repair pass in both counters and for its records, index by
index, and the records of the ACTIVE heads follow the indices that the frontier passes. -/
def Sys2Proof.Claims.Accounted (s t : State) (st : Issued) : Prop :=
  ((∀ l i, ¬ Accounts st l i) → t = s) ∧
  ∀ l i, Accounts st l i → ∀ c, s.se.context = some c →
    let n := i + 1 - l
    let repair := s.mp.passKind = .repair
    ∃ (f : Nat) (x : Nat → State), FrontierAt c (max c.frontier (i + 1)) f ∧
      x 0 = { s with se := { s.se with context := some { c with frontier := f } } } ∧
      (∀ h : HeadId,
        let y := x h.val
        let counted := y.setHead h { y.head h with
          sewn := min ((y.head h).sewn + n) 4294967295
          sewnRepair := if repair then min ((y.head h).sewnRepair + n) 4294967295 else (y.head h).sewnRepair }
        let sewed := ((x 0).head h).latch = true
        (¬ sewed → x (h.val + 1) = y) ∧ (sewed → ¬ repair → x (h.val + 1) = counted) ∧
        (sewed → repair → ∃ a : Nat → State, a l = counted ∧ a (max l (i + 1)) = x (h.val + 1) ∧
          ∀ j, l ≤ j → j ≤ i → a (j + 1) = (a j).advanceRecords h j)) ∧
      (¬ repair → t = x 16) ∧ (repair → PassesOver (s.ds.served.getD 0) c.frontier f (x 16) t)

/-- MOVE_COMPLETION (R32, R43, R49, R53, R54, R110, R118, R125, R128, R129). A stitch's delta is added to the commanded position
and the stitch leaves the window; its indices are accounted, and for a NORMAL stitch each head whose latch was DOWN loses
the stitch length and BOBBIN_ALLOW from its bobbin, drains its storm bucket by 1 at every STORM_LEAK, and raises
BOBBIN_LOW once below the mark; then the stopping has reached its end, or the window is filled again. A travel step's
delta is added and the next step begins, or the travel is complete, a halt that is due being made there. A retraction
leaves the position and owes nothing more; the travel's first step begins then, or the begin-pass request waits for the
shaft. After either the part goes on by itself, transition by transition (RoundGoesOn states them), so also over steps that
take no time. The model's choices: with no move it is nothing (log 33), the direction of an axis that does not move is 0
(log 43), accounts come before bobbins (log 49), a stop ceiling set by such a BOBBIN_LOW ends the stopping at this
stitch (log 58). -/
def Obligations.MoveCompletionMoves : Prop :=
  ∀ s : State, Acts s →
    let event := exec .moveCompletion s
    let steps := fun (u : State) (d : Pos) (rest : List Pos) => { u with
      se := { u.se with plan := some rest }
      mp := { u.mp with move := some (begun s .step d.x d.y), dirX := d.x.sign, dirY := d.y.sign } }
    let rested := fun u : State => { u with mp := { u.mp with
      mode := .atRest, spindle := 0, window := [], marker := none, prevSpeed := none, stopCeiling := false
      stopEnd := false } }
    (s.mp.move = none → event = .next s) ∧
    (∀ (m : Move) (a : Aim), s.mp.move = some m → m.kind = .step → s.pc.phase = .travel a → s.mp.mode = .travelling →
      let moved := { s with mp := { s.mp with
        position := ⟨s.mp.position.x + m.dx, s.mp.position.y + m.dy⟩, move := none } }
      event = .next moved.drive ∧
      (∀ d rest, s.se.plan = some (d :: rest) → s.par.Sound → TakesTime s d.x d.y → event = .next (steps moved d rest)) ∧
      (s.se.plan = some [] →
        (s.pc.due = none → ∃ t, Arrived moved t a ∧ (s.mp.shaft = .turning → event = .next t) ∧
          ∀ v, t.microStep = some v → Waits v → event = .next v) ∧
        (∀ c, s.pc.due = some c → ∃ t p b, event = .next t ∧ StandsAt s p b ∧
          Halts { rested moved with se := { s.se with plan := none } } t c p b))) ∧
    (∀ m : Move, s.mp.move = some m → m.kind = .retraction → s.mp.mode = .travelling →
      let back := { s with mp := { s.mp with move := none, unfinished := none } }
      event = .next back.drive ∧
      (∀ a d rest, s.pc.phase = .travel a → s.se.plan = some (d :: rest) → s.par.Sound → TakesTime s d.x d.y →
        event = .next (steps back d rest)) ∧
      (∀ a, s.pc.phase = .begin a →
        (s.pc.due = none → s.mp.shaft = .turning → event = .next (rested back)) ∧
        ∀ v, (rested back).microStep = some v → Waits v → event = .next v)) ∧
    (∀ (m : Move) (w : Planned) (rest : List Planned), s.mp.move = some m → m.kind = .stitch →
      s.pc.phase = .sew → s.mp.mode = .running → s.mp.window = w :: rest →
      let st := w.stitch
      let small := min st.dx.natAbs st.dy.natAbs
      let length := max st.dx.natAbs st.dy.natAbs + 3 * small / 8
      ∃ (x : Nat → State) (t : State), event = .next t ∧
        Accounted { s with
          mp := { s.mp with position := ⟨s.mp.position.x + st.dx, s.mp.position.y + st.dy⟩, move := none, window := rest }
          hs := { s.hs with current := s.hs.current.map fun taken => { taken with completed := true } } } (x 0) st ∧
        (∀ h : HeadId,
          let y := x h.val
          let z := x (h.val + 1)
          let old := y.meter h
          let drains := y.par.stormLeak ≤ old.stormLeak + 1
          let bobbin := old.bobbin - (length + y.par.bobbinAllow)
          let low := bobbin < y.par.bobbinLowMark
          let after := y.setMeter h { old with
            bobbin := bobbin
            lowArmed := old.lowArmed && !decide low
            storm := if drains then old.storm - 1 else old.storm
            stormLeak := if drains then 0 else old.stormLeak + 1 }
          let sews := st.jump = false ∧ ((x 0).head h).latch = true
          (¬ sews → z = y) ∧ (sews → ¬ (old.lowArmed = true ∧ low) → z = after) ∧
          (sews → old.lowArmed = true → low → z = after.resolveGroup h
            [⟨.bobbinLow, some (s.ds.served.getD 0), if st.index.isSome then st.index else st.anchor,
              (y.sel h).current, some s.mp.passKind, none, none⟩])) ∧
        let ends := (x 16).mp.stopCeiling = true ∧ (x 16).mp.prevSpeed = some (x 16).par.sMin
        (ends → t = { x 16 with mp := { (x 16).mp with stopEnd := true } }) ∧ (¬ ends → Refilled (x 16) t))

/-! ## The head link -/

/-- STANDSTILL_EXCHANGE (R100, R186, R91, R94): while not RUNNING, an exchange with every latch UP: every head that is not EXCLUDED is sent its
number, the latch UP with its trim order and lamp, and the needle to select, with their CRC; its report is
awaited and an order in flight has been carried one exchange further. The model's choices (log 34): while
RUNNING it is nothing, and an exchange whose reports are outstanding is given up for the new one. -/
def Obligations.StandstillExchangePolls : Prop :=
  ∀ s : State, Acts s →
    (s.mp.mode = .running → exec .standstillExchange s = .next s) ∧
    (s.mp.mode ≠ .running → ∃ t, exec .standstillExchange s = .next t ∧ AllUp s t false)

/-- The seven bytes of a report (R186): head, thread feed, flags, needle and the CRC over the others. -/
def Sys2Proof.Claims.Spells (message : List Byte) (h : HeadId) (r : Report) : Prop :=
  message.length = 7 ∧ message.drop 5 = beBytes 2 (crc16 (message.take 5)).toNat ∧
  Carries message 0 1 (h.val + 1) ∧ Carries message 1 2 r.feed ∧
  (∃ flags, message[3]? = some flags ∧ flags.getLsbD 0 = r.bobbin ∧ flags.getLsbD 1 = r.button ∧
    flags.getLsbD 2 = r.trimDone ∧ flags.getLsbD 3 = r.driveFault) ∧
  Carries message 4 1 (match r.needle with | some n => n.val + 1 | none => 0) ∧ r.feed ≤ 1023

/-- The head's record once a report has been taken when due (R101). -/
def Sys2Proof.Claims.heard (r : Report) (x : HeadRecord) : HeadRecord :=
  { x with awaiting := false, taken := true, silentRun := 0, silentRaised := false, lastReport := some r
           driveSeen := r.driveFault, selectNeedle := if r.needle = none then x.selectNeedle else r.needle }

/-- The context of a HEAD_SILENT or HEAD_DRIVE raised now (R101, R102): while a pass is being sewn the segment served, the index of the last
take or else the sewn frontier, and the pass kind, otherwise none of them. That a pass is being sewn between its first
window open and the end of its trims, the trims owed apart, is the model's choice (log 14), and so is the needle,
unknown (log 65). -/
def Sys2Proof.Claims.SupervisorContext (s : State) (k : FaultKind) (c : FaultContext) : Prop :=
  let sewn := s.pc.phase = .sew ∨ s.pc.phase = .begin .onward ∨
    ∃ a, s.pc.phase = .trim a ∧ a ≠ .owed ∧ a ≠ .repairRun
  (sewn → c = ⟨k, s.ds.served, some (s.hs.lastTake.getD s.frontier), none, some s.mp.passKind, none, none⟩) ∧
  (¬ sewn → c = ⟨k, none, none, none, none, none, none⟩)

/-- The report is metered (R102): it answers a revolution's exchange, for a completed stitch at which the head was DOWN
and reported, and the head is ACTIVE. -/
def Sys2Proof.Claims.Metered (s : State) (h : HeadId) (t : Taken) : Prop :=
  s.hs.revolution = true ∧ s.hs.previous = some t ∧ t.completed = true ∧ (s.head h).latchBefore = true ∧
  (s.head h).takenBefore = true ∧ (s.head h).state = .active

/-- The part waits (log 8), and not for an order of head h. -/
def Sys2Proof.Claims.WaitsForOthers (s : State) (h : HeadId) : Prop :=
  Waits s ∧ ((∃ a, s.pc.phase = .choice a) → ∃ g x, g ≠ h ∧ (s.sel g).shift = some x) ∧
  ((∃ a, s.pc.phase = .trim a) → ∃ g x, g ≠ h ∧ (s.sel g).trim = some x)

/-- HEAD_REPORT (R92, R94, R101, R102, R104, R133, R186): a message that is no report of the head, or one not awaited,
changes nothing. A report taken resets the silence run and ends a judged trim that it says is done; a judged shift whose
target it names is complete, the head ACTIVE on that needle, NEEDLE_WITHDRAWN where that is not fit; one whose report names
another needle fails, NEEDLE_SHIFT_FAIL; a report that is metered has the Thread Meter's account (MeteringAccounts), one
that is not leaves the meter; a new drive fault is HEAD_DRIVE; the faults are one group, in that order. The button brings
an OFF head of mode AUTO to REJOIN_WAIT; its rejoin mode stays (the model's reading, log 32). The controller goes on after
the group (log 26: the model's choice); a HEAD_DRIVE has no needle and the pass being sewn of SupervisorContext (logs 65
and 14: its choices); with no fault, and nothing that waited for the head, it stays where it is. -/
def Obligations.HeadReportIsTaken : Prop :=
  ∀ (h : HeadId) (message : List Byte) (s : State), Acts s →
    let awaited := (s.head h).state ≠ .excluded ∧ (s.head h).awaiting = true
    let event := exec (.headReport h message) s
    ((¬ awaited ∨ ∀ r, ¬ Spells message h r) → event = .next s) ∧
    ∀ (r : Report) (drive : FaultContext), awaited → Spells message h r → SupervisorContext s .headDrive drive →
      let driven := if r.driveFault = true ∧ (s.head h).driveSeen = false then [drive] else []
      let pressed := fun x : HeadState => if r.button = true ∧ x = .off ∧ (s.head h).rejoin = .auto then .rejoinWait else x
      let before := fun x : HeadState => match x with
        | .shifting waited => if waited = true then .rejoinWait else .active
        | x => x
      ∃ (t : State) (shifted metered : List FaultContext) (m : Meter),
        event = .next (((t.setMeter h m).resolveGroup h (shifted ++ metered ++ driven)).drive) ∧
        ((∀ x, ¬ Metered s h x) → m = s.meter h ∧ metered = []) ∧
        (∀ x, Metered s h x → t.meterReport h r x = (t.setMeter h m, metered)) ∧
        t = { s with hs := { s.hs with heads := t.hs.heads }, ts := { s.ts with heads := t.ts.heads } } ∧
        (∀ g, g ≠ h → t.head g = s.head g ∧ t.sel g = s.sel g) ∧
        t.head h = heard r { s.head h with state := (t.head h).state } ∧
        t.sel h = { s.sel h with
          shift := (t.sel h).shift, current := (t.sel h).current
          trim := match (s.sel h).trim with
            | some x => if x.order = .judged ∧ r.trimDone = true then none else some x
            | none => none } ∧
        (∀ x m, (s.sel h).shift = some x → x.order = .judged → r.needle = some m →
          (t.sel h).shift = none ∧
          (m = x.target → (t.sel h).current = some m ∧
            (t.head h).state = pressed (match (s.head h).state with | .shifting _ => .active | y => y) ∧
            (Fit t h → shifted = []) ∧
            (¬ Fit t h → shifted = [⟨.needleWithdrawn, none, none, some m, none, none, none⟩])) ∧
          (m ≠ x.target → (t.sel h).current = none ∧ (t.head h).state = pressed (before (s.head h).state) ∧
            shifted = [⟨.needleShiftFail, none, none, some x.target, none, none, none⟩])) ∧
        ((∀ x, (s.sel h).shift = some x → x.order = .judged → r.needle = none) →
          shifted = [] ∧ (t.sel h).current = (s.sel h).current ∧ (t.head h).state = pressed (s.head h).state ∧
          (t.sel h).shift = (s.sel h).shift.map fun x =>
            if x.order = .sent ∧ r.needle ≠ none then { x with named := true } else x) ∧
        (shifted = [] → metered = [] → driven = [] → WaitsForOthers s h → event = .next (t.setMeter h m))

/-- The Thread Meter's account of a metered report (R117 to R122, R118, R120, R126): E = (2L + K_ALLOW) × GAIN / 16
rounded down, L by the octagonal approximation, tolerance E × TOL / 64; each bucket gains what lies
outside the tolerance, loses LEAK and stays within 0..4,095; the break run counts starved stitches; the
bobbin-absent run counts reports without bobbin. The faults are raised in the order of R117 steps 7 and 8, each once.
HEAD_REPORT makes that account (R102) of a report that is metered, of a head with no shift in flight: the report is taken, a
judged trim that it says is done ends (R94), the faults and a new drive fault are resolved as one group in that order
(R133), and the controller goes on. The needle of a HEAD_DRIVE and when a pass is being sewn are the model's choices
(logs 65 and 14). -/
def Obligations.MeteringAccounts : Prop :=
  ∀ (s : State) (h : HeadId) (r : Report) (t : Taken),
    let dx := t.stitch.dx.natAbs
    let dy := t.stitch.dy.natAbs
    let e := (2 * (max dx dy + 3 * min dx dy / 8) + s.par.kAllow) * s.par.gain / 16
    let tol := e * s.par.tol / 64
    let starves := 8 ≤ e ∧ 4 * r.feed < e
    let bucket := fun (old added : Nat) => max 0 (min 4095 ((old : Int) + added - s.par.leak))
    let old := s.meter h
    let run := if e < 8 then old.breakRun else if starves then min (old.breakRun + 1) 15 else 0
    let absent := if r.bobbin then 0 else min (old.bobbinAbsent + 1) 15
    let storms := starves ∧ s.par.breakRun ≤ run ∧ kindInSet s.fr.enable .upperBreak = true
    let ended := fun x : Trim => decide (x.order = .judged ∧ r.trimDone = true)
    ∃ (loose tight : Nat) (m : Meter) (raised : List FaultContext),
      s.meterReport h r t = (s.setMeter h m, raised) ∧
      (loose : Int) = bucket old.loose (if e + tol < r.feed then r.feed - (e + tol) else 0) ∧
      (tight : Int) = bucket old.tight (if ¬ starves ∧ r.feed + tol < e then e - tol - r.feed else 0) ∧
      (m.colour = .red ↔ s.par.redMark ≤ loose ∨ s.par.redMark ≤ tight) ∧
      (m.colour = .green ↔ loose < s.par.redMark ∧ tight < s.par.redMark ∧
        loose < s.par.yellowMark ∧ tight < s.par.yellowMark) ∧
      m.loose = (if s.par.redMark ≤ loose then 0 else loose) ∧
      m.tight = (if s.par.redMark ≤ tight then 0 else tight) ∧
      m.breakRun = (if starves ∧ s.par.breakRun ≤ run then 0 else run) ∧
      m.bobbinAbsent = (if r.bobbin = false ∧ s.par.bobbinRun ≤ absent then 0 else absent) ∧
      m.bobbin = old.bobbin ∧ m.lowArmed = old.lowArmed ∧ m.stormLeak = old.stormLeak ∧
      (∀ c ∈ raised, c.segment = some t.segment ∧ c.pass = some t.kind ∧ c.expected = some e ∧
        c.measured = some r.feed ∧ c.needle = (s.sel h).current ∧
        c.index = if t.stitch.index.isSome then t.stitch.index else t.stitch.anchor) ∧
      raised.map (·.kind) =
        (if s.par.redMark ≤ loose then [.tensionLoose] else []) ++
        (if s.par.redMark ≤ tight then [.tensionTight] else []) ++
        (if old.colour = .green ∧ m.colour = .yellow then [.tensionWarn] else []) ++
        (if starves ∧ s.par.breakRun ≤ run then [.upperBreak] else []) ++
        (if r.bobbin = false ∧ s.par.bobbinRun ≤ absent then [.bobbinOut] else []) ++
        (if storms ∧ s.par.stormMark ≤ m.storm then [.breakStorm] else []) ∧
      m.storm = (if storms then min (old.storm + s.par.stormWeight) 255 else old.storm) ∧
      ∀ message drive, Acts s → Spells message h r → (s.head h).awaiting = true → Metered s h t → SupervisorContext s .headDrive drive →
        (s.sel h).shift = none →
        let judged := s.setSel h { s.sel h with trim := (s.sel h).trim.filter fun x => !ended x }
        exec (.headReport h message) s =
          .next (((judged.setHead h (heard r (s.head h))).setMeter h m).resolveGroup h
            (raised ++ if r.driveFault = true ∧ (s.head h).driveSeen = false then [drive] else [])).drive

/-- REPORT_DUE (R101, R134 to R136, R146): an awaited report that did not come adds to the silence run, and
the run that reaches SILENT_RUN raises HEAD_SILENT once, with the context of the pass being sewn. Discarded by the
enable set it changes nothing more; taken with no rule to match, on an ACTIVE head with no pass being sewn and the controller in
STANDBY, it is recorded, the head is OFF in mode OPERATOR, and FAULT is raised. The model's choices: it is nothing where no report
is awaited (log 33), when a pass counts as being sewn (log 14), and the needle of the context, unknown (log 65). -/
def Obligations.ReportDueRaisesSilence : Prop :=
  ∀ (h : HeadId) (s : State), Acts s →
    let event := exec (.reportDue h) s
    let awaited := (s.head h).state ≠ .excluded ∧ (s.head h).awaiting = true
    let run := min ((s.head h).silentRun + 1) 255
    let raises := s.par.silentRun ≤ run ∧ (s.head h).silentRaised = false
    let enabled := s.fr.enable.getLsbD 10 = true
    let missed := { s.head h with awaiting := false, silentRun := run
                                  silentRaised := (s.head h).silentRaised || decide (s.par.silentRun ≤ run) }
    let context : FaultContext := ⟨.headSilent, none, none, none, none, none, none⟩
    let f := s.faultHead h
    let counts := s.fr.countSelect.getLsbD 10 = true
    let rest := fun t : State => ∀ g, g ≠ h → t.head g = s.head g ∧ t.faultHead g = s.faultHead g
    (¬ awaited → event = .next s) ∧
    (awaited → Waits s → (¬ raises ∨ ¬ enabled) → ∃ t, event = .next t ∧
      t = { s with hs := { s.hs with heads := t.hs.heads } } ∧ t.head h = missed ∧ rest t) ∧
    (∀ c, awaited → raises → SupervisorContext s .headSilent c → ∃ t,
      t = { s with hs := { s.hs with heads := t.hs.heads } } ∧ t.head h = missed ∧ rest t ∧
      event = .next ((t.resolveGroup h [c]).drive)) ∧
    (awaited → raises → enabled → s.pc.state = .standby → s.pc.phase = .rest → s.pc.point = none →
      s.ts.working = none → (s.head h).state = .active → (∀ i : Fin 32, s.fr.rules[i] = PolicyRule.disabled) →
      ∃ t, event = .next t ∧
        t = { s with hs := { s.hs with heads := t.hs.heads }, fr := { s.fr with heads := t.fr.heads }
                     rl := { s.rl with sticky := s.rl.sticky ||| 0x0004 } } ∧
        t.head h = { missed with state := .off, rejoin := .operator } ∧ rest t ∧
        t.faultHead h = { first := if f.first = none then some context else f.first
                          latest := some .headSilent
                          count := if counts ∧ f.count < 127 then f.count + 1 else f.count
                          overflow := f.overflow || decide (counts ∧ 127 ≤ f.count) })

/-- SHIFT_TIMER_EXPIRY and TRIM_TIMER_EXPIRY (R92, R94, R134): an order that expires is over, a shift's head being back in
its state before with its needle unknown, and its fault is resolved: NEEDLE_SHIFT_FAIL with the shift's target, TRIM_FAIL
with the working segment and pass, the last index sewn and the current needle. Where the enable set discards the fault
nothing more happens where nothing waited for the head. The model's choices and readings: with no order of the head whose
timer runs they are nothing (log 33), the fault of a timer is resolved before the CHANGE goes on (log 26), the last index
sewn is one below the sewn frontier (log 38), the trims a soft halt
makes in a repair pass have its context (log 57). -/
def Obligations.TimersEndOrders : Prop :=
  ∀ (h : HeadId) (s : State), Acts s →
    let others := fun t : State => ∀ g, g ≠ h → t.head g = s.head g ∧ t.sel g = s.sel g
    let shiftEvent := exec (.shiftTimerExpiry h) s
    let trimEvent := exec (.trimTimerExpiry h) s
    ((∀ x, (s.sel h).shift = some x → x.order = .unsent) → shiftEvent = .next s) ∧
    ((∀ x, (s.sel h).trim = some x → x.order = .unsent) → trimEvent = .next s) ∧
    (∀ x, (s.sel h).shift = some x → x.order ≠ .unsent →
      ∃ t, t = { s with hs := { s.hs with heads := t.hs.heads }, ts := { s.ts with heads := t.ts.heads } } ∧
        t.sel h = { s.sel h with shift := none, current := none } ∧
        t.head h = { s.head h with state := (t.head h).state } ∧
        (∀ b, (s.head h).state = .shifting b → (t.head h).state = if b then .rejoinWait else .active) ∧
        ((∀ b, (s.head h).state ≠ .shifting b) → (t.head h).state = (s.head h).state) ∧ others t ∧
        shiftEvent = .next
          ((t.resolveGroup h [⟨.needleShiftFail, none, none, some x.target, none, none, none⟩]).drive) ∧
        (s.fr.enable.getLsbD 6 = false → WaitsForOthers s h → shiftEvent = .next t)) ∧
    (∀ x, (s.sel h).trim = some x → x.order ≠ .unsent →
      let context : FaultContext := ⟨.trimFail, s.ts.working.map (·.segment),
        if s.ts.working.isSome = true ∧ 0 < s.frontier then some (s.frontier - 1) else none,
        (s.sel h).current, s.ts.working.map (·.kind), none, none⟩
      ∃ t, t = { s with ts := { s.ts with heads := t.ts.heads } } ∧
        t.sel h = { s.sel h with trim := none } ∧ others t ∧
        trimEvent = .next ((t.resolveGroup h [context]).drive) ∧
        (s.fr.enable.getLsbD 7 = false → WaitsForOthers s h → trimEvent = .next t))

/-! ## Travel -/

/-- The steps of a travel plan add up to the displacement, no component of a step exceeds TRAVEL_STEP, and
they are as few as that allows, one at least; after k of n steps each axis has gone the whole part of its k-th
share of n (R33, R28). -/
def Obligations.TravelStepsAddUp : Prop :=
  ∀ (d : Pos) (j : Nat), 1 ≤ j →
    let steps := travelSteps d j
    let sumX := fun k => ((steps.take k).map (·.x)).sum
    let sumY := fun k => ((steps.take k).map (·.y)).sum
    sumX steps.length = d.x ∧ sumY steps.length = d.y ∧ 1 ≤ steps.length ∧
    (∀ p ∈ steps, p.x.natAbs ≤ j ∧ p.y.natAbs ≤ j) ∧
    (1 < steps.length → (steps.length - 1) * j < max d.x.natAbs d.y.natAbs) ∧
    (∀ k, k ≤ steps.length →
      sumX k = d.x.sign * ((d.x.natAbs * k / steps.length : Nat) : Int) ∧
      sumY k = d.y.sign * ((d.y.natAbs * k / steps.length : Nat) : Int))

/-! ## The Stitch Stream Editor -/

/-- What the editor answers to a request (R24 to R27, R30, R32): the queue of ties and parts first; nothing
while a stop is held; after the last index the tie-off and then END; a TRIM stops, in the main pass after
its tie-off; a PAUSE stops the main pass and is passed over, as sewn, in a repair pass; a JUMP goes through
the split alone; a NORMAL stitch below MIN_STITCH is carried into a NORMAL next one of the pass unless a sum
leaves ±127 or the barrier stands there; any other, with its carry, is issued after a pending tie-in. The
continue request releases a TRIM stop and arms the ties of the main pass (R25, R29). The ties' stretch in a
repair pass is the model's reading (log 41). -/
def Obligations.EditorFollowsTheStream : Prop :=
  (∀ s : State, s.se.context = none → s.issue = (.nothing, s) ∧ s.continueIssue = s) ∧
  ∀ (s : State) (c : IssueContext) (r : SegRecord), s.se.context = some c → s.findSeg c.segment = some r →
    c.readIndex ≤ c.last + 1 →
    let i := c.readIndex
    let st := fun j => memRead s.ds.memory (r.entry j)
    let main := c.kind = .main
    let goesOn := fun c' => s.issue = (s.setContext c').issue
    let stops := fun m (c' : IssueContext) => s.issue = (.marker m, s.setContext { c' with held := some m })
    let gives := fun (queue : List Issued) (c' : IssueContext) => ∃ x rest, queue = x :: rest ∧
      s.issue = (.stitch x, s.setContext { c' with waiting := rest })
    let within := i ≤ c.last ∧ c.waiting = [] ∧ c.held = none
    let past := i = c.last + 1 ∧ c.waiting = [] ∧ c.held = none
    let tied := { c with tieOffDue := false, waiting := s.tieOff r c i }
    let dx := (st i).dx + c.carry.elim 0 (·.dx)
    let dy := (st i).dy + c.carry.elim 0 (·.dy)
    let lowest := c.carry.elim i (·.lowest)
    let small := main ∧ max dx.natAbs dy.natAbs < s.par.minStitch ∧ i < c.last ∧ (st (i + 1)).kind = .normal ∧
      (dx + (st (i + 1)).dx).natAbs ≤ 127 ∧ (dy + (st (i + 1)).dy).natAbs ≤ 127 ∧ c.barrier ≠ some (i + 1)
    let after := { c with readIndex := i + 1, carry := none, lastIndex := some i }
    (∀ x rest, c.waiting = x :: rest → s.issue = (.stitch x, s.setContext { c with waiting := rest })) ∧
    (c.waiting = [] → c.held.isSome = true → s.issue = (.nothing, s)) ∧
    (past → c.tieOffDue = true → goesOn tied) ∧
    (past → c.tieOffDue = false → stops .endOfPass c) ∧
    (within → (st i).kind = .trim → main → c.tieOffDue = true → goesOn tied) ∧
    (within → (st i).kind = .trim → (¬ main ∨ c.tieOffDue = false) → stops (.trim i) { c with readIndex := i + 1 }) ∧
    (within → (st i).kind = .pause → main → stops (.pause i) { c with readIndex := i + 1 }) ∧
    (within → (st i).kind = .pause → ¬ main → ∃ f, c.frontier ≤ f ∧
      goesOn { c with readIndex := i + 1, passedPauses := c.passedPauses ++ [i], frontier := f } ∧
      (∀ j, c.frontier ≤ j → j < f → j ∈ c.passedPauses ++ [i]) ∧
      ((c.passedPauses ++ [i]).Pairwise (· < ·) → f ∉ c.passedPauses ++ [i])) ∧
    (within → (st i).kind = .jump →
      gives (s.split ⟨(st i).dx, (st i).dy, true, .none, some i, some i, none, none⟩) after) ∧
    (within → (st i).kind = .normal → small →
      goesOn { c with readIndex := i + 1, carry := some ⟨dx, dy, lowest⟩ }) ∧
    (within → (st i).kind = .normal → ¬ small →
      gives ((if c.tieInPending then s.tieIn r c lowest else []) ++
        s.split ⟨dx, dy, false, .none, some i, some lowest, none, none⟩) { after with tieInPending := false }) ∧
    (∀ j, c.held = some (.trim j) → s.continueIssue = s.setContext (if c.kind = .main
      then { c with held := none, tieInPending := true, tieOffDue := true, stretch := j + 1, lastIndex := none }
      else { c with held := none })) ∧
    ((∀ j, c.held ≠ some (.trim j)) → s.continueIssue = s)

/-- How a stitch is cut and where the ties stand (R28 to R31, R40): a stitch whose cap reaches S_MIN goes
whole; any other is cut by the partition formula into the fewest of 2..8 parts that all reach it, 8 where
fewer do not, each with the stitch's own fields and its place k of n. A tie-in runs along the first
NORMAL stitch that moves, from the index it precedes up to the next stop (a repair pass passes a PAUSE over:
log 41), a tie-off along the last below its marker in the stretch; both are u and −u, each through the split,
where the segment asks for them, TIE_LENGTH is above 0 and the turning point lies in the frame field. -/
def Obligations.SplitsAndTiesAreMade : Prop :=
  ∀ s : State,
    let cap := fun dx dy : Int =>
      let time := max (s.mp.tableX.getD dx.natAbs 0) (s.mp.tableY.getD dy.natAbs 0)
      if time = 0 then s.par.sMax else s.par.windowDeg * 500000 / (3 * time)
    let offset := fun (d : Int) (n k : Nat) => d.sign * ((d.natAbs * k / n : Nat) : Int)
    let fits := fun (x : Issued) (n : Nat) => ∀ k, 1 ≤ k → k ≤ n → s.par.sMin ≤
      cap (offset x.dx n k - offset x.dx n (k - 1)) (offset x.dy n k - offset x.dy n (k - 1))
    let near := fun (v : Int) (m : Nat) (u : Int) =>
      2 * (u.natAbs * m) ≤ 2 * v.natAbs + m ∧ 2 * v.natAbs < 2 * (u.natAbs * m) + m ∧ (u ≠ 0 → u.sign = v.sign)
    let along := fun (st : Stitch) (u : Int × Int) =>
      near (s.par.tieLength * st.dx) (max st.dx.natAbs st.dy.natAbs) u.1 ∧
      near (s.par.tieLength * st.dy) (max st.dx.natAbs st.dy.natAbs) u.2
    let directs := fun st : Stitch => st.kind = .normal ∧ ¬ (st.dx = 0 ∧ st.dy = 0)
    let inField := fun p : Pos => s.par.fieldXLow ≤ p.x ∧ p.x ≤ s.par.fieldXHigh ∧
      s.par.fieldYLow ≤ p.y ∧ p.y ≤ s.par.fieldYHigh
    let tie := fun (mark : TieMark) (anchor : Option Nat) (dx dy : Int) =>
      s.split ⟨dx, dy, false, mark, none, none, anchor, none⟩
    (∀ x : Issued, x.dx.natAbs ≤ 127 → x.dy.natAbs ≤ 127 →
      (s.par.sMin ≤ cap x.dx x.dy → s.split x = [x]) ∧
      (cap x.dx x.dy < s.par.sMin → ∃ n, 2 ≤ n ∧ n ≤ 8 ∧ (s.split x).length = n ∧
        (∀ k, k < n → (s.split x)[k]? = some { x with
          dx := offset x.dx n (k + 1) - offset x.dx n k, dy := offset x.dy n (k + 1) - offset x.dy n k
          part := some (k + 1, n) }) ∧
        ((s.split x).map (·.dx)).sum = x.dx ∧ ((s.split x).map (·.dy)).sum = x.dy ∧
        (∀ m, 2 ≤ m → m < n → ¬ fits x m) ∧ (n < 8 → fits x n) ∧
        (s.par.Sound → s.mp.Sound → s.tablesValid = true → fits x n))) ∧
    ∀ (r : SegRecord) (c : IssueContext),
      let st := fun j => memRead s.ds.memory (r.entry j)
      let stop := fun j => (st j).kind = .trim ∨ (st j).kind = .pause ∧ c.kind = .main
      let place := fun k => s.positionBefore r k
      (∀ l, (r.tieIn = false ∨ s.par.tieLength = 0) → s.tieIn r c l = []) ∧
      (∀ l, (∀ j, l ≤ j → j ≤ c.last → directs (st j) → ∃ k, l ≤ k ∧ k < j ∧ stop k) → s.tieIn r c l = []) ∧
      (∀ l j, r.tieIn = true → 0 < s.par.tieLength → l ≤ j → j ≤ c.last → directs (st j) →
        (∀ k, l ≤ k → k < j → ¬ directs (st k) ∧ ¬ stop k) →
        ∃ u, along (st j) u ∧
          (inField ⟨(place l).x + u.1, (place l).y + u.2⟩ → s.tieIn r c l =
            tie .tieIn (some l) u.1 u.2 ++ tie .tieIn (some l) (-u.1) (-u.2)) ∧
          (¬ inField ⟨(place l).x + u.1, (place l).y + u.2⟩ → s.tieIn r c l = [])) ∧
      (∀ b, (r.tieOff = false ∨ s.par.tieLength = 0) → s.tieOff r c b = []) ∧
      (∀ b, (∀ j, c.stretch ≤ j → j < b → ¬ directs (st j)) → s.tieOff r c b = []) ∧
      ∀ b j, r.tieOff = true → 0 < s.par.tieLength → c.stretch ≤ j → j < b → directs (st j) →
        (∀ k, j < k → k < b → ¬ directs (st k)) →
        ∃ v, along (st j) v ∧
          (inField ⟨(place b).x - v.1, (place b).y - v.2⟩ → s.tieOff r c b =
            tie .tieOff c.lastIndex (-v.1) (-v.2) ++ tie .tieOff c.lastIndex v.1 v.2) ∧
          (¬ inField ⟨(place b).x - v.1, (place b).y - v.2⟩ → s.tieOff r c b = [])

/-! ## The Fault Resolver -/

/-- A rule matches a fault on a head (R138): every pattern field it enables does. -/
def Sys2Proof.Claims.RuleMatches (r : PolicyRule) (h : HeadId) (c : FaultContext) (speed count : Nat) : Prop :=
  (r.byKind = true → kindInSet r.kinds c.kind = true) ∧
  (r.byHead = true → (inSet r.heads h = true ↔ r.invert = false)) ∧
  (r.byPass = true → ∃ p, c.pass = some p ∧ r.passKind = some p) ∧
  (r.byIndex = true → ∃ i, c.index = some i ∧ r.indexMin ≤ i ∧ i ≤ r.indexMax) ∧
  (r.bySpeed = true → r.minSpeed ≤ speed) ∧ (r.byFaults = true → r.minFaults ≤ count)

/-- The value of an action (R139): that of the first rule in number order that matches and enables it, the
default where that rule says so, and the default where no rule does. -/
def Sys2Proof.Claims.Decided {α β : Type} (rules : Vector PolicyRule 32) (matching : PolicyRule → Prop)
    (pick : PolicyRule → Action α) (value : α → β) (dflt v : β) : Prop :=
  let decides := fun i : Fin 32 => matching rules[i] ∧ (pick rules[i]).enabled = true
  (∀ i, decides i → (∀ j, j < i → ¬ decides j) →
    v = if (pick rules[i]).useDefault then dflt else value (pick rules[i]).value) ∧
  ((∀ i, ¬ decides i) → v = dflt)

/-- The built-in defaults: REACTION, BACKTRACK, REJOIN and SEVERITY of each kind (R136). -/
def Sys2Proof.Claims.defaults : FaultKind → Reaction × Nat × RejoinMode × Severity
  | .upperBreak => (.headOff, 6, .auto, .head)
  | .bobbinOut => (.headOff, 10, .auto, .head)
  | .bobbinLow => (.continue_, 0, .auto, .notice)
  | .tensionWarn => (.continue_, 0, .auto, .notice)
  | .tensionLoose => (.hold, 4, .operator, .head)
  | .tensionTight => (.hold, 4, .operator, .head)
  | .needleShiftFail => (.headOff, 0, .operator, .head)
  | .trimFail => (.hold, 0, .operator, .head)
  | .noThread => (.headOff, 0, .operator, .head)
  | .needleWithdrawn => (.headOff, 0, .operator, .notice)
  | .headSilent => (.headOff, 0, .operator, .machine)
  | .headDrive => (.hold, 0, .operator, .machine)
  | .breakStorm => (.headOff, 0, .operator, .machine)

/-- The adjusted resolution of a taken fault (R139, R140): each action by its own search; a disabling kind
never continues, a BREAK_STORM put off is benched, and what MACHINE severity finds below HOLD is HOLD. -/
def Sys2Proof.Claims.Resolved (s : State) (h : HeadId) (c : FaultContext) (q : Resolution) : Prop :=
  let matching := fun r => RuleMatches r h c s.mp.spindle (s.faultHead h).count
  let d := defaults c.kind
  ∃ reaction, Decided s.fr.rules matching (·.reaction) id d.1 reaction ∧
    Decided s.fr.rules matching (·.backtrack) id d.2.1 q.backtrack ∧
    Decided s.fr.rules matching (·.rejoin) id d.2.2.1 q.rejoin ∧
    Decided s.fr.rules matching (·.speedCap) some none q.cap ∧
    Decided s.fr.rules matching (·.severity) id d.2.2.2 q.severity ∧
    let kept := if reaction = .continue_ ∧ c.kind ∈ [FaultKind.needleShiftFail, .noThread, .needleWithdrawn,
      .headSilent, .headDrive] then .headOff else reaction
    q.bench = decide (c.kind = .breakStorm ∧ kept = .headOff) ∧
    q.reaction = if q.severity = .machine then .hold else kept

/-- The resolution of a group (R141): the strongest reaction, the largest backtrack, OPERATOR before AUTO, the
lowest cap, the highest severity, benched where any fault is. -/
def Sys2Proof.Claims.Combined (qs : List Resolution) (r : Resolution) : Prop :=
  ((∃ q ∈ qs, q.reaction = r.reaction) ∧ ∀ q ∈ qs, q.reaction.code ≤ r.reaction.code) ∧
  ((∃ q ∈ qs, q.backtrack = r.backtrack) ∧ ∀ q ∈ qs, q.backtrack ≤ r.backtrack) ∧
  (r.rejoin = .operator ↔ ∃ q ∈ qs, q.rejoin = .operator) ∧
  ((r.cap = none ↔ ∀ q ∈ qs, q.cap = none) ∧
    ∀ v, r.cap = some v → (∃ q ∈ qs, q.cap = some v) ∧ ∀ q ∈ qs, ∀ w, q.cap = some w → v ≤ w) ∧
  ((∃ q ∈ qs, q.severity = r.severity) ∧ ∀ q ∈ qs, q.severity.code ≤ r.severity.code) ∧
  (r.bench = true ↔ ∃ q ∈ qs, q.bench = true)

/-- What a reaction that puts a head out does to it (R104, R142, R93): an EXCLUDED or BENCHED head stays, any
other is OFF, or BENCHED; the resolved mode is taken, but AUTO leaves the mode of a head already out (log 51
for a BENCH that finds it OFF); a shift in flight is abandoned. -/
def Sys2Proof.Claims.PutOut (s out : State) (h : HeadId) (r : Resolution) : Prop :=
  let found := (s.head h).state
  out = { s with hs := { s.hs with heads := out.hs.heads }, ts := { s.ts with heads := out.ts.heads } } ∧
  (∀ g, g ≠ h → out.head g = s.head g ∧ out.sel g = s.sel g) ∧
  out.head h = { s.head h with
    state := if found = .excluded ∨ found = .benched then found else if r.bench then .benched else .off
    rejoin := if found = .excluded ∨ (found = .off ∨ found = .benched) ∧ r.rejoin = .auto then (s.head h).rejoin
      else r.rejoin
    selectNeedle := (out.head h).selectNeedle } ∧
  ((∀ b, found ≠ .shifting b) → out.sel h = s.sel h ∧ (out.head h).selectNeedle = (s.head h).selectNeedle) ∧
  (∀ b x, found = .shifting b → (s.sel h).shift = some x →
    out.sel h = { s.sel h with shift := none, current := none })

/-- A head enters the faulted set (R77, R78) with a target or none; one present already keeps the lesser target, and the
cause that came with it (the model's choice, log 28). -/
def Sys2Proof.Claims.Entered (s t : State) (h : HeadId) (target : Option Nat) (cause : RepairCause) : Prop :=
  ∃ f : Faulted, t = { s with pc := { s.pc with faulted := s.pc.faulted.set h (some f) } } ∧
    (s.pc.faulted[h] = none → f = ⟨target, cause⟩) ∧
    ∀ old, s.pc.faulted[h] = some old →
      let lesser := ∃ m, target = some m ∧ ∀ k, old.target = some k → m < k
      (lesser → f = ⟨target, cause⟩) ∧ (¬ lesser → f = old)

/-- The halt that a hold asks for, by the pass state (R74, R75, R144): SEWING and REPAIR enter STOPPING under the stop
ceiling; in STOPPING, TRAVEL and CHANGE the halt is due, one due already keeping its cause, but that REPAIR_FULL
replaces STOP_REQUEST and FAULT_HOLD; HALTED keeps its cause. -/
def Sys2Proof.Claims.AskedToHalt (s t : State) (cause : HaltCause) : Prop :=
  ((s.pc.state = .sewing ∨ s.pc.state = .repair) → t = { s with
    mp := { s.mp with stopCeiling := true }, pc := { s.pc with state := .stopping, due := some cause } }) ∧
  ((s.pc.state = .stopping ∨ s.pc.state = .travel ∨ s.pc.state = .change) → ∃ due,
    t = { s with pc := { s.pc with due := some due } } ∧ (s.pc.due = none → due = cause) ∧
    ∀ c, s.pc.due = some c →
      let replaces := cause = .repairFull ∧ (c = .stopRequest ∨ c = .faultHold)
      (replaces → due = cause) ∧ (¬ replaces → due = c)) ∧
  (s.pc.state = .halted → t = s)

/-- A hold on a head reaches the Pass Controller (R75, R144): nothing in IDLE, STANDBY and FINISHED; in every other state
the halt is asked for and the head enters the faulted set. -/
def Sys2Proof.Claims.Held (s t : State) (h : HeadId) (target : Option Nat) (record : RepairCause) (cause : HaltCause) : Prop :=
  let away := s.pc.state = .idle ∨ s.pc.state = .standby ∨ s.pc.state = .finished
  (away → t = s) ∧ (¬ away → ∃ v, AskedToHalt s v cause ∧ Entered v t h target record)

/-- The target a hold with a context and a backtrack enters its head with (R78, R144). With the pass kind MAIN: the detect
index less the backtrack in SEWING and STOPPING, at a HALTED with its point at a stitch and in the CHANGE of a mid-segment
TRIM; in a CHANGE or TRAVEL toward a stitch the index that leads to, 0 at a segment's start, k at a resume. None elsewhere,
and none for any other pass kind (the model's choice, log 52). -/
def Sys2Proof.Claims.HoldTarget (s : State) (c : FaultContext) (back : Nat) (target : Option Nat) : Prop :=
  let main := c.pass = some .main
  let atStitch := ∃ g k, s.pc.point = some (.atStitch g k)
  let sewn := s.pc.state = .sewing ∨ s.pc.state = .stopping ∨ s.pc.state = .halted ∧ atStitch ∨
    s.pc.state = .change ∧ (s.pc.phase = .trim .midMain ∨ s.pc.phase = .begin .onward)
  let toward := fun a => (s.pc.state = .change ∨ s.pc.state = .travel) ∧
    (s.pc.phase = .choice a ∨ s.pc.phase = .travel a ∨ s.pc.phase = .begin a)
  (main → sewn → target = c.index.map (· - back)) ∧
  (main → toward .segmentStart → target = some 0) ∧
  (∀ g k, main → toward .resume → s.pc.point = some (.atStitch g k) → target = some k) ∧
  (¬ (main ∧ (sewn ∨ toward .segmentStart ∨ toward .resume ∧ atStitch)) → target = none)

/-- A group of faults on a head (R133 to R146): a context without segment is completed from the working
context; a group none of whose faults is in the enable set changes nothing; otherwise the taken faults are
resolved by the policy table and the defaults, adjusted, combined and recorded, and the group takes effect: a
CONTINUE changes no head (its rejoin mode neither: log 50); any other puts the head out. HEAD_OFF in the main
pass opens a record from the detect index less the backtrack, or from a lesser target of the faulted set,
and a full table makes it a hold with cause REPAIR_FULL, in whatever state the pass is. Any reaction but CONTINUE in a
repair pass truncates the head's records there (R160); HEAD_OFF then enters the head in the faulted set at the resume
index where a context at a stitch is held. HEAD_OFF with no segment enters the head, as a hold would, where a resume
context is held and the head was not out before. HOLD asks for the halt of the pass state and enters the head at its
target (R75, R78). A segment with no index counts as none (the model's choice, log 60). A SPEED_CAP lowers the policy
ceiling; a severity above NOTICE raises FAULT. -/
def Obligations.FaultsAreResolved : Prop :=
  ∀ (s : State) (h : HeadId) (group : List FaultContext),
    let completed := fun c : FaultContext => match c.segment, s.ts.working with
      | none, some w => { c with segment := some w.segment, pass := some w.kind, index := some w.beginIndex }
      | _, _ => c
    let taken := (group.filter fun c => kindInSet s.fr.enable c.kind).map completed
    (taken = [] → s.resolveGroup h group = s) ∧
    ∀ (c : FaultContext) (more : List FaultContext), taken = c :: more →
      ∃ (qs : List Resolution) (r : Resolution) (f : FaultHead),
        qs.length = taken.length ∧ (∀ (i : Nat) (x : FaultContext) (q : Resolution), taken[i]? = some x → qs[i]? = some q → Resolved s h x q) ∧
        Combined qs r ∧
        (let old := s.faultHead h
         let n := (taken.filter fun x => kindInSet s.fr.countSelect x.kind).length
         f.first = (if old.first = none then some c else old.first) ∧
         (∀ x, taken.getLast? = some x → f.latest = some x.kind) ∧
         (s.fr.Sound → f.count = min (old.count + n) 127 ∧
           (f.overflow = true ↔ old.overflow = true ∨ 127 < old.count + n))) ∧
        let u := s.setFaultHead h f
        let t := s.resolveGroup h group
        let effect := fun v : State => { v with
          mp := { v.mp with policyCeiling := match r.cap, v.mp.policyCeiling with
            | none, p => p
            | some a, none => some a
            | some a, some p => some (min p a) }
          rl := { v.rl with sticky := v.rl.sticky ||| (if r.severity = .notice then 0 else 0x0004) } }
        let cause := RepairCause.fault c.kind
        let placed := fun (g d : Nat) => c.segment = some g ∧ c.index = some d
        let unplaced := c.segment = none ∨ c.index = none
        (r.reaction = .continue_ → t = effect u) ∧
        (r.reaction ≠ .continue_ → ∃ out, PutOut u out h r ∧
          (∀ g d, r.reaction = .headOff → placed g d → c.pass = some .main →
            let target := match (s.pc.faulted[h]).bind (·.target) with
              | some k => min k (d - r.backtrack)
              | none => d - r.backtrack
            (∀ v, out.openRequest h g target cause = some v → t = effect v) ∧
            (out.openRequest h g target cause = none → ∃ v, Held out v h (some target) cause .repairFull ∧ t = effect v)) ∧
          (∀ g d, r.reaction = .headOff → placed g d → c.pass = some .repair →
            let v := out.truncate h (d - r.backtrack)
            (∀ m k, s.pc.point = some (.atStitch m k) → ∃ w, Entered v w h (some k) cause ∧ t = effect w) ∧
            ((∀ m k, s.pc.point ≠ some (.atStitch m k)) → t = effect v)) ∧
          (r.reaction = .headOff → unplaced →
            let goesOut := s.pc.point.isSome = true ∧ (s.head h).state ≠ .excluded ∧ (s.head h).state ≠ .off ∧
              (s.head h).state ≠ .benched
            (goesOut → ∃ target v, HoldTarget s c r.backtrack target ∧ Entered out v h target cause ∧ t = effect v) ∧
            (¬ goesOut → t = effect out)) ∧
          (r.reaction = .hold → ∃ v target w, HoldTarget s c r.backtrack target ∧
            (∀ g d, placed g d → c.pass = some .repair → v = out.truncate h (d - r.backtrack)) ∧
            ((unplaced ∨ c.pass ≠ some .repair) → v = out) ∧
            Held v w h target cause .faultHold ∧ t = effect w))

/-! ## The Repair Table -/

/-- Every step keeps pins and records in agreement (R16, R148, R149): the records' slots are apart and below
128, each record names a present segment, a segment's pin count is the number of records that name it, and a
pinned segment is ACTIVE or SEWN. A request for a record elsewhere makes none (log 42: the model's reading). -/
def Obligations.PinsMatchRecords : Prop :=
  ∀ s t : State, s.ds.Sound → s.Pinned → step s = .next t → t.Pinned

/-- An open request in a segment being sewn or sewn (R148 to R151, R16): with nothing to merge it makes an OPEN
record in the lowest free slot, with a pin, and is answered REPAIR_FULL where no slot is free; otherwise the
OPEN record, or the merged one with the least first index, is kept as OPEN from the least of all first
indices, the others merged are retired, and the request is never refused. Which cause stands where two have
the least index is the model's choice (log 28), and so is a request past the last stitch (log 21). -/
def Obligations.RecordsAreOpened : Prop :=
  ∀ (s : State) (h : HeadId) (g f : Nat) (cause : RepairCause) (q : SegRecord), s.ds.Sound → s.Pinned →
    s.findSeg g = some q → q.state = .active ∨ q.state = .sewn →
    let request := s.openRequest h g f cause
    let merges := fun r : RepairRecord => r ∈ s.rt.records ∧ r.head = h ∧ r.segment = g ∧
      (r.state = .opened ∨ r.state = .closed ∧ ∃ l, r.last = some l ∧ f ≤ l + 1)
    (q.count ≤ f → request = s.openRequest h g (q.count - 1) cause) ∧
    (f < q.count → (∀ r, ¬ merges r) → (∀ k, k < 128 → ∃ r ∈ s.rt.records, r.slot = k) → request = none) ∧
    (∀ k, f < q.count → (∀ r, ¬ merges r) → k < 128 → (∀ r ∈ s.rt.records, r.slot ≠ k) →
      (∀ j, j < k → ∃ r ∈ s.rt.records, r.slot = j) →
      let made : RepairRecord := ⟨k, h, g, f, none, q.thread, cause, .opened, none⟩
      ∃ t, request = some t ∧
        t = { s with rt := { s.rt with records := t.rt.records }, ds := { s.ds with segs := t.ds.segs } } ∧
        (∀ r, r ∈ t.rt.records ↔ r = made ∨ r ∈ s.rt.records) ∧
        t.findSeg g = some { q with pins := q.pins + 1 } ∧ PinsFollow s t) ∧
    (∀ least, f < q.count → merges least → (∀ r, merges r → least.first ≤ r.first) →
      ∃ t kept now, request = some t ∧ merges kept ∧
        (kept.state = .opened ∨ kept.first = least.first ∧ ∀ r, merges r → r.state ≠ .opened) ∧
        now = { kept with first := min f least.first, last := none, cause := now.cause, state := .opened
                          through := none } ∧
        (f < least.first → now.cause = cause) ∧
        (least.first ≤ f → ∃ r, merges r ∧ r.first = least.first ∧ now.cause = r.cause) ∧
        t = { s with rt := { s.rt with records := t.rt.records }
                     ds := { s.ds with segs := t.ds.segs, pool := t.ds.pool, loadWant := t.ds.loadWant } } ∧
        (∀ r, r ∈ t.rt.records ↔ r = now ∨ r ∈ s.rt.records ∧ ¬ merges r) ∧
        (t.findSeg g).isSome = true ∧ PinsFollow s t)

/-- The repair pass (R156 to R161): which records are eligible, which segment a schedule request answers, what
the forming makes ACTIVE, how an index done advances or retires a head's records, how a fault truncates
them, and how the pass settles at its end, with REPAIR_DONE where a record was retired and others remain. That
a truncation which retires a record counts as a retirement in the pass is the model's reading (log 27), and so is the
thread of a segment end, which stands where its segment has been freed (log 24). -/
def Obligations.RepairPassesSettle : Prop :=
  ∀ s : State, s.ds.Sound → s.Pinned →
    let ready := fun r : RepairRecord => r.state = .closed ∧
      ((s.head r.head).state = .active ∨ (s.head r.head).state = .rejoinWait) ∧
      ∃ n : NeedleId, (s.sel r.head).needles[n].disabled = false ∧ (s.sel r.head).needles[n].code = r.thread
    let when_ := s.pc.job.map (·.repairWhen)
    let selected := fun (p : RepairPoint) (r : RepairRecord) => match p with
      | .segmentEnd => when_ = some .segmentEnd ∧ (∃ m, s.ds.mark = some m ∧ r.segment ≤ m) ∧ r.thread = s.ds.markThread
      | .jobEnd => when_ = some .segmentEnd ∨ when_ = some .jobEnd
      | _ => True
    let chosen := fun p r => r ∈ s.rt.records ∧ ready r ∧ selected p r
    let above := fun r : RepairRecord => ∀ m, s.rt.roundMark = some m → m < r.segment
    let moved := fun t : State => t = { s with
      rt := { s.rt with records := t.rt.records, retiredInPass := t.rt.retiredInPass }
      ds := { s.ds with segs := t.ds.segs, pool := t.ds.pool, loadWant := t.ds.loadWant } } ∧ PinsFollow s t
    (∀ r, s.eligible r = true ↔ ready r) ∧
    (∀ p, (s.scheduled p = none ↔ ∀ r, chosen p r → ¬ above r) ∧
      ∀ g, s.scheduled p = some g ↔
        (∃ r, chosen p r ∧ above r ∧ r.segment = g) ∧ ∀ r, chosen p r → above r → g ≤ r.segment) ∧
    (∀ p g, (∃ r, chosen p r ∧ r.segment = g) → ∃ pass : RepairPass,
      let mine := fun r => chosen p r ∧ r.segment = g
      s.formPass p g = { s with rt := ⟨(s.formPass p g).rt.records, some g, false, some pass⟩ } ∧
      (s.formPass p g).rt.records.length = s.rt.records.length ∧
      (∀ (i : Nat) (r : RepairRecord), s.rt.records[i]? = some r →
        (¬ mine r → (s.formPass p g).rt.records[i]? = some r) ∧
        (mine r → (s.formPass p g).rt.records[i]? =
          some { r with state := .active, through := some ((r.first : Int) - 1) })) ∧
      pass.segment = g ∧ ((∃ r, mine r ∧ r.first = pass.first) ∧ ∀ r, mine r → pass.first ≤ r.first) ∧
      ((∃ r, mine r ∧ r.last.getD 0 = pass.last) ∧ ∀ r, mine r → r.last.getD 0 ≤ pass.last) ∧
      ∀ h, inSet pass.involved h = true ↔ ∃ r, mine r ∧ r.head = h) ∧
    (∀ (h : HeadId) (i : Nat),
      let next := fun r : RepairRecord => r ∈ s.rt.records ∧ r.head = h ∧ r.state = .active ∧ r.through = some ((i : Int) - 1)
      let t := s.advanceRecords h i
      moved t ∧ (t.rt.retiredInPass = true ↔ s.rt.retiredInPass = true ∨ ∃ r, next r ∧ r.last = some i) ∧
      ∀ x, x ∈ t.rt.records ↔ (x ∈ s.rt.records ∧ ¬ next x) ∨
        ∃ r, next r ∧ r.last ≠ some i ∧ x = { r with through := some (i : Int) }) ∧
    (∀ (h : HeadId) (d : Nat),
      let hit := fun r : RepairRecord => r ∈ s.rt.records ∧ r.head = h ∧ r.state = .active
      let t := s.truncate h d
      (∀ r, hit r → r.last.isSome = true) →
      moved t ∧ (t.rt.retiredInPass = true ↔
        s.rt.retiredInPass = true ∨ ∃ r l, hit r ∧ r.last = some l ∧ l < max r.first d) ∧
      ∀ x, x ∈ t.rt.records ↔ (x ∈ s.rt.records ∧ ¬ hit x) ∨ ∃ r l, hit r ∧ r.last = some l ∧ max r.first d ≤ l ∧
        x = { r with first := max r.first d, state := .closed, through := none }) ∧
    (let t := s.endRepairPass
     t = { s with rt := { s.rt with records := t.rt.records, retiredInPass := false, pass := none }
                  hs := { s.hs with heads := t.hs.heads }, rl := t.rl } ∧
     (∀ h, t.head h = { s.head h with ranges := [] }) ∧
     t.rl = { s.rl with sticky := s.rl.sticky |||
       (if s.rt.retiredInPass = true ∧ s.rt.records ≠ [] then 0x0010 else 0) } ∧
     t.rt.records.length = s.rt.records.length ∧
     ∀ (i : Nat) (r : RepairRecord), s.rt.records[i]? = some r →
       (r.state ≠ .active → t.rt.records[i]? = some r) ∧
       (∀ k, r.state = .active → r.through = some k → t.rt.records[i]? = some { r with
         state := .closed, through := none, first := if r.first ≤ k then (k + 1).toNat else r.first }))
end

