-- ==== Sys2Proof/Laws/State.lean ====
section
/-! SUPPORT. One lemma for each block per update: what an update leaves as it was. Generated in one
shape, each true by unfolding. -/

namespace Sys2Proof.Machine

variable (s : State)

/-! ### raise -/
@[simp] theorem State.raise_ds (a : Attention) : (s.raise a).ds = s.ds := rfl
@[simp] theorem State.raise_se (a : Attention) : (s.raise a).se = s.se := rfl
@[simp] theorem State.raise_mp (a : Attention) : (s.raise a).mp = s.mp := rfl
@[simp] theorem State.raise_pc (a : Attention) : (s.raise a).pc = s.pc := rfl
@[simp] theorem State.raise_ts (a : Attention) : (s.raise a).ts = s.ts := rfl
@[simp] theorem State.raise_hs (a : Attention) : (s.raise a).hs = s.hs := rfl
@[simp] theorem State.raise_tm (a : Attention) : (s.raise a).tm = s.tm := rfl
@[simp] theorem State.raise_fr (a : Attention) : (s.raise a).fr = s.fr := rfl
@[simp] theorem State.raise_rt (a : Attention) : (s.raise a).rt = s.rt := rfl
@[simp] theorem State.raise_sm (a : Attention) : (s.raise a).sm = s.sm := rfl
@[simp] theorem State.raise_par (a : Attention) : (s.raise a).par = s.par := rfl
@[simp] theorem State.raise_pending (a : Attention) : (s.raise a).pending = s.pending := rfl

/-! ### evalLoad -/
@[simp] theorem State.evalLoad_rl : (s.evalLoad).rl = s.rl := rfl
@[simp] theorem State.evalLoad_se : (s.evalLoad).se = s.se := rfl
@[simp] theorem State.evalLoad_mp : (s.evalLoad).mp = s.mp := rfl
@[simp] theorem State.evalLoad_pc : (s.evalLoad).pc = s.pc := rfl
@[simp] theorem State.evalLoad_ts : (s.evalLoad).ts = s.ts := rfl
@[simp] theorem State.evalLoad_hs : (s.evalLoad).hs = s.hs := rfl
@[simp] theorem State.evalLoad_tm : (s.evalLoad).tm = s.tm := rfl
@[simp] theorem State.evalLoad_fr : (s.evalLoad).fr = s.fr := rfl
@[simp] theorem State.evalLoad_rt : (s.evalLoad).rt = s.rt := rfl
@[simp] theorem State.evalLoad_sm : (s.evalLoad).sm = s.sm := rfl
@[simp] theorem State.evalLoad_par : (s.evalLoad).par = s.par := rfl
@[simp] theorem State.evalLoad_pending : (s.evalLoad).pending = s.pending := rfl

/-! ### setHead -/
@[simp] theorem State.setHead_rl (h : HeadId) (r : HeadRecord) : (s.setHead h r).rl = s.rl := rfl
@[simp] theorem State.setHead_ds (h : HeadId) (r : HeadRecord) : (s.setHead h r).ds = s.ds := rfl
@[simp] theorem State.setHead_se (h : HeadId) (r : HeadRecord) : (s.setHead h r).se = s.se := rfl
@[simp] theorem State.setHead_mp (h : HeadId) (r : HeadRecord) : (s.setHead h r).mp = s.mp := rfl
@[simp] theorem State.setHead_pc (h : HeadId) (r : HeadRecord) : (s.setHead h r).pc = s.pc := rfl
@[simp] theorem State.setHead_ts (h : HeadId) (r : HeadRecord) : (s.setHead h r).ts = s.ts := rfl
@[simp] theorem State.setHead_tm (h : HeadId) (r : HeadRecord) : (s.setHead h r).tm = s.tm := rfl
@[simp] theorem State.setHead_fr (h : HeadId) (r : HeadRecord) : (s.setHead h r).fr = s.fr := rfl
@[simp] theorem State.setHead_rt (h : HeadId) (r : HeadRecord) : (s.setHead h r).rt = s.rt := rfl
@[simp] theorem State.setHead_sm (h : HeadId) (r : HeadRecord) : (s.setHead h r).sm = s.sm := rfl
@[simp] theorem State.setHead_par (h : HeadId) (r : HeadRecord) : (s.setHead h r).par = s.par := rfl
@[simp] theorem State.setHead_pending (h : HeadId) (r : HeadRecord) : (s.setHead h r).pending = s.pending := rfl

/-! ### setHeadState -/
@[simp] theorem State.setHeadState_rl (h : HeadId) (st : HeadState) : (s.setHeadState h st).rl = s.rl := rfl
@[simp] theorem State.setHeadState_ds (h : HeadId) (st : HeadState) : (s.setHeadState h st).ds = s.ds := rfl
@[simp] theorem State.setHeadState_se (h : HeadId) (st : HeadState) : (s.setHeadState h st).se = s.se := rfl
@[simp] theorem State.setHeadState_mp (h : HeadId) (st : HeadState) : (s.setHeadState h st).mp = s.mp := rfl
@[simp] theorem State.setHeadState_pc (h : HeadId) (st : HeadState) : (s.setHeadState h st).pc = s.pc := rfl
@[simp] theorem State.setHeadState_ts (h : HeadId) (st : HeadState) : (s.setHeadState h st).ts = s.ts := rfl
@[simp] theorem State.setHeadState_tm (h : HeadId) (st : HeadState) : (s.setHeadState h st).tm = s.tm := rfl
@[simp] theorem State.setHeadState_fr (h : HeadId) (st : HeadState) : (s.setHeadState h st).fr = s.fr := rfl
@[simp] theorem State.setHeadState_rt (h : HeadId) (st : HeadState) : (s.setHeadState h st).rt = s.rt := rfl
@[simp] theorem State.setHeadState_sm (h : HeadId) (st : HeadState) : (s.setHeadState h st).sm = s.sm := rfl
@[simp] theorem State.setHeadState_par (h : HeadId) (st : HeadState) : (s.setHeadState h st).par = s.par := rfl
@[simp] theorem State.setHeadState_pending (h : HeadId) (st : HeadState) : (s.setHeadState h st).pending = s.pending := rfl

/-! ### setSel -/
@[simp] theorem State.setSel_rl (h : HeadId) (r : SelectorHead) : (s.setSel h r).rl = s.rl := rfl
@[simp] theorem State.setSel_ds (h : HeadId) (r : SelectorHead) : (s.setSel h r).ds = s.ds := rfl
@[simp] theorem State.setSel_se (h : HeadId) (r : SelectorHead) : (s.setSel h r).se = s.se := rfl
@[simp] theorem State.setSel_mp (h : HeadId) (r : SelectorHead) : (s.setSel h r).mp = s.mp := rfl
@[simp] theorem State.setSel_pc (h : HeadId) (r : SelectorHead) : (s.setSel h r).pc = s.pc := rfl
@[simp] theorem State.setSel_hs (h : HeadId) (r : SelectorHead) : (s.setSel h r).hs = s.hs := rfl
@[simp] theorem State.setSel_tm (h : HeadId) (r : SelectorHead) : (s.setSel h r).tm = s.tm := rfl
@[simp] theorem State.setSel_fr (h : HeadId) (r : SelectorHead) : (s.setSel h r).fr = s.fr := rfl
@[simp] theorem State.setSel_rt (h : HeadId) (r : SelectorHead) : (s.setSel h r).rt = s.rt := rfl
@[simp] theorem State.setSel_sm (h : HeadId) (r : SelectorHead) : (s.setSel h r).sm = s.sm := rfl
@[simp] theorem State.setSel_par (h : HeadId) (r : SelectorHead) : (s.setSel h r).par = s.par := rfl
@[simp] theorem State.setSel_pending (h : HeadId) (r : SelectorHead) : (s.setSel h r).pending = s.pending := rfl

/-! ### setNeedle -/
@[simp] theorem State.setNeedle_rl (h : HeadId) (n : NeedleId) (e : NeedleEntry) : (s.setNeedle h n e).rl = s.rl := rfl
@[simp] theorem State.setNeedle_ds (h : HeadId) (n : NeedleId) (e : NeedleEntry) : (s.setNeedle h n e).ds = s.ds := rfl
@[simp] theorem State.setNeedle_se (h : HeadId) (n : NeedleId) (e : NeedleEntry) : (s.setNeedle h n e).se = s.se := rfl
@[simp] theorem State.setNeedle_mp (h : HeadId) (n : NeedleId) (e : NeedleEntry) : (s.setNeedle h n e).mp = s.mp := rfl
@[simp] theorem State.setNeedle_pc (h : HeadId) (n : NeedleId) (e : NeedleEntry) : (s.setNeedle h n e).pc = s.pc := rfl
@[simp] theorem State.setNeedle_hs (h : HeadId) (n : NeedleId) (e : NeedleEntry) : (s.setNeedle h n e).hs = s.hs := rfl
@[simp] theorem State.setNeedle_tm (h : HeadId) (n : NeedleId) (e : NeedleEntry) : (s.setNeedle h n e).tm = s.tm := rfl
@[simp] theorem State.setNeedle_fr (h : HeadId) (n : NeedleId) (e : NeedleEntry) : (s.setNeedle h n e).fr = s.fr := rfl
@[simp] theorem State.setNeedle_rt (h : HeadId) (n : NeedleId) (e : NeedleEntry) : (s.setNeedle h n e).rt = s.rt := rfl
@[simp] theorem State.setNeedle_sm (h : HeadId) (n : NeedleId) (e : NeedleEntry) : (s.setNeedle h n e).sm = s.sm := rfl
@[simp] theorem State.setNeedle_par (h : HeadId) (n : NeedleId) (e : NeedleEntry) : (s.setNeedle h n e).par = s.par := rfl
@[simp] theorem State.setNeedle_pending (h : HeadId) (n : NeedleId) (e : NeedleEntry) : (s.setNeedle h n e).pending = s.pending := rfl

/-! ### setMeter -/
@[simp] theorem State.setMeter_rl (h : HeadId) (m : Meter) : (s.setMeter h m).rl = s.rl := rfl
@[simp] theorem State.setMeter_ds (h : HeadId) (m : Meter) : (s.setMeter h m).ds = s.ds := rfl
@[simp] theorem State.setMeter_se (h : HeadId) (m : Meter) : (s.setMeter h m).se = s.se := rfl
@[simp] theorem State.setMeter_mp (h : HeadId) (m : Meter) : (s.setMeter h m).mp = s.mp := rfl
@[simp] theorem State.setMeter_pc (h : HeadId) (m : Meter) : (s.setMeter h m).pc = s.pc := rfl
@[simp] theorem State.setMeter_ts (h : HeadId) (m : Meter) : (s.setMeter h m).ts = s.ts := rfl
@[simp] theorem State.setMeter_hs (h : HeadId) (m : Meter) : (s.setMeter h m).hs = s.hs := rfl
@[simp] theorem State.setMeter_fr (h : HeadId) (m : Meter) : (s.setMeter h m).fr = s.fr := rfl
@[simp] theorem State.setMeter_rt (h : HeadId) (m : Meter) : (s.setMeter h m).rt = s.rt := rfl
@[simp] theorem State.setMeter_sm (h : HeadId) (m : Meter) : (s.setMeter h m).sm = s.sm := rfl
@[simp] theorem State.setMeter_par (h : HeadId) (m : Meter) : (s.setMeter h m).par = s.par := rfl
@[simp] theorem State.setMeter_pending (h : HeadId) (m : Meter) : (s.setMeter h m).pending = s.pending := rfl

/-! ### clearMeter -/
@[simp] theorem State.clearMeter_rl (h : HeadId) : (s.clearMeter h).rl = s.rl := rfl
@[simp] theorem State.clearMeter_ds (h : HeadId) : (s.clearMeter h).ds = s.ds := rfl
@[simp] theorem State.clearMeter_se (h : HeadId) : (s.clearMeter h).se = s.se := rfl
@[simp] theorem State.clearMeter_mp (h : HeadId) : (s.clearMeter h).mp = s.mp := rfl
@[simp] theorem State.clearMeter_pc (h : HeadId) : (s.clearMeter h).pc = s.pc := rfl
@[simp] theorem State.clearMeter_ts (h : HeadId) : (s.clearMeter h).ts = s.ts := rfl
@[simp] theorem State.clearMeter_hs (h : HeadId) : (s.clearMeter h).hs = s.hs := rfl
@[simp] theorem State.clearMeter_fr (h : HeadId) : (s.clearMeter h).fr = s.fr := rfl
@[simp] theorem State.clearMeter_rt (h : HeadId) : (s.clearMeter h).rt = s.rt := rfl
@[simp] theorem State.clearMeter_sm (h : HeadId) : (s.clearMeter h).sm = s.sm := rfl
@[simp] theorem State.clearMeter_par (h : HeadId) : (s.clearMeter h).par = s.par := rfl
@[simp] theorem State.clearMeter_pending (h : HeadId) : (s.clearMeter h).pending = s.pending := rfl

/-! ### setFaultHead -/
@[simp] theorem State.setFaultHead_rl (h : HeadId) (f : FaultHead) : (s.setFaultHead h f).rl = s.rl := rfl
@[simp] theorem State.setFaultHead_ds (h : HeadId) (f : FaultHead) : (s.setFaultHead h f).ds = s.ds := rfl
@[simp] theorem State.setFaultHead_se (h : HeadId) (f : FaultHead) : (s.setFaultHead h f).se = s.se := rfl
@[simp] theorem State.setFaultHead_mp (h : HeadId) (f : FaultHead) : (s.setFaultHead h f).mp = s.mp := rfl
@[simp] theorem State.setFaultHead_pc (h : HeadId) (f : FaultHead) : (s.setFaultHead h f).pc = s.pc := rfl
@[simp] theorem State.setFaultHead_ts (h : HeadId) (f : FaultHead) : (s.setFaultHead h f).ts = s.ts := rfl
@[simp] theorem State.setFaultHead_hs (h : HeadId) (f : FaultHead) : (s.setFaultHead h f).hs = s.hs := rfl
@[simp] theorem State.setFaultHead_tm (h : HeadId) (f : FaultHead) : (s.setFaultHead h f).tm = s.tm := rfl
@[simp] theorem State.setFaultHead_rt (h : HeadId) (f : FaultHead) : (s.setFaultHead h f).rt = s.rt := rfl
@[simp] theorem State.setFaultHead_sm (h : HeadId) (f : FaultHead) : (s.setFaultHead h f).sm = s.sm := rfl
@[simp] theorem State.setFaultHead_par (h : HeadId) (f : FaultHead) : (s.setFaultHead h f).par = s.par := rfl
@[simp] theorem State.setFaultHead_pending (h : HeadId) (f : FaultHead) : (s.setFaultHead h f).pending = s.pending := rfl

/-! ### setRule -/
@[simp] theorem State.setRule_rl (n : Nat) (rule : PolicyRule) : (s.setRule n rule).rl = s.rl := rfl
@[simp] theorem State.setRule_ds (n : Nat) (rule : PolicyRule) : (s.setRule n rule).ds = s.ds := rfl
@[simp] theorem State.setRule_se (n : Nat) (rule : PolicyRule) : (s.setRule n rule).se = s.se := rfl
@[simp] theorem State.setRule_mp (n : Nat) (rule : PolicyRule) : (s.setRule n rule).mp = s.mp := rfl
@[simp] theorem State.setRule_pc (n : Nat) (rule : PolicyRule) : (s.setRule n rule).pc = s.pc := rfl
@[simp] theorem State.setRule_ts (n : Nat) (rule : PolicyRule) : (s.setRule n rule).ts = s.ts := rfl
@[simp] theorem State.setRule_hs (n : Nat) (rule : PolicyRule) : (s.setRule n rule).hs = s.hs := rfl
@[simp] theorem State.setRule_tm (n : Nat) (rule : PolicyRule) : (s.setRule n rule).tm = s.tm := rfl
@[simp] theorem State.setRule_rt (n : Nat) (rule : PolicyRule) : (s.setRule n rule).rt = s.rt := rfl
@[simp] theorem State.setRule_sm (n : Nat) (rule : PolicyRule) : (s.setRule n rule).sm = s.sm := rfl
@[simp] theorem State.setRule_par (n : Nat) (rule : PolicyRule) : (s.setRule n rule).par = s.par := rfl
@[simp] theorem State.setRule_pending (n : Nat) (rule : PolicyRule) : (s.setRule n rule).pending = s.pending := rfl

/-! ### answer -/
@[simp] theorem State.answer_ds (r : Response) : (s.answer r).ds = s.ds := rfl
@[simp] theorem State.answer_se (r : Response) : (s.answer r).se = s.se := rfl
@[simp] theorem State.answer_mp (r : Response) : (s.answer r).mp = s.mp := rfl
@[simp] theorem State.answer_pc (r : Response) : (s.answer r).pc = s.pc := rfl
@[simp] theorem State.answer_ts (r : Response) : (s.answer r).ts = s.ts := rfl
@[simp] theorem State.answer_hs (r : Response) : (s.answer r).hs = s.hs := rfl
@[simp] theorem State.answer_tm (r : Response) : (s.answer r).tm = s.tm := rfl
@[simp] theorem State.answer_fr (r : Response) : (s.answer r).fr = s.fr := rfl
@[simp] theorem State.answer_rt (r : Response) : (s.answer r).rt = s.rt := rfl
@[simp] theorem State.answer_sm (r : Response) : (s.answer r).sm = s.sm := rfl
@[simp] theorem State.answer_par (r : Response) : (s.answer r).par = s.par := rfl
@[simp] theorem State.answer_pending (r : Response) : (s.answer r).pending = s.pending := rfl

/-! ### refuse -/
@[simp] theorem State.refuse_ds (why : Reason) : (s.refuse why).ds = s.ds := rfl
@[simp] theorem State.refuse_se (why : Reason) : (s.refuse why).se = s.se := rfl
@[simp] theorem State.refuse_mp (why : Reason) : (s.refuse why).mp = s.mp := rfl
@[simp] theorem State.refuse_pc (why : Reason) : (s.refuse why).pc = s.pc := rfl
@[simp] theorem State.refuse_ts (why : Reason) : (s.refuse why).ts = s.ts := rfl
@[simp] theorem State.refuse_hs (why : Reason) : (s.refuse why).hs = s.hs := rfl
@[simp] theorem State.refuse_tm (why : Reason) : (s.refuse why).tm = s.tm := rfl
@[simp] theorem State.refuse_fr (why : Reason) : (s.refuse why).fr = s.fr := rfl
@[simp] theorem State.refuse_rt (why : Reason) : (s.refuse why).rt = s.rt := rfl
@[simp] theorem State.refuse_sm (why : Reason) : (s.refuse why).sm = s.sm := rfl
@[simp] theorem State.refuse_par (why : Reason) : (s.refuse why).par = s.par := rfl
@[simp] theorem State.refuse_pending (why : Reason) : (s.refuse why).pending = s.pending := rfl

/-! ### done -/
@[simp] theorem State.done_ds (payload : List Byte) : (s.done payload).ds = s.ds := rfl
@[simp] theorem State.done_se (payload : List Byte) : (s.done payload).se = s.se := rfl
@[simp] theorem State.done_mp (payload : List Byte) : (s.done payload).mp = s.mp := rfl
@[simp] theorem State.done_pc (payload : List Byte) : (s.done payload).pc = s.pc := rfl
@[simp] theorem State.done_ts (payload : List Byte) : (s.done payload).ts = s.ts := rfl
@[simp] theorem State.done_hs (payload : List Byte) : (s.done payload).hs = s.hs := rfl
@[simp] theorem State.done_tm (payload : List Byte) : (s.done payload).tm = s.tm := rfl
@[simp] theorem State.done_fr (payload : List Byte) : (s.done payload).fr = s.fr := rfl
@[simp] theorem State.done_rt (payload : List Byte) : (s.done payload).rt = s.rt := rfl
@[simp] theorem State.done_sm (payload : List Byte) : (s.done payload).sm = s.sm := rfl
@[simp] theorem State.done_par (payload : List Byte) : (s.done payload).par = s.par := rfl
@[simp] theorem State.done_pending (payload : List Byte) : (s.done payload).pending = s.pending := rfl

/-! ### accepted -/
@[simp] theorem State.accepted_ds : (s.accepted).ds = s.ds := rfl
@[simp] theorem State.accepted_se : (s.accepted).se = s.se := rfl
@[simp] theorem State.accepted_mp : (s.accepted).mp = s.mp := rfl
@[simp] theorem State.accepted_pc : (s.accepted).pc = s.pc := rfl
@[simp] theorem State.accepted_ts : (s.accepted).ts = s.ts := rfl
@[simp] theorem State.accepted_hs : (s.accepted).hs = s.hs := rfl
@[simp] theorem State.accepted_tm : (s.accepted).tm = s.tm := rfl
@[simp] theorem State.accepted_fr : (s.accepted).fr = s.fr := rfl
@[simp] theorem State.accepted_rt : (s.accepted).rt = s.rt := rfl
@[simp] theorem State.accepted_sm : (s.accepted).sm = s.sm := rfl
@[simp] theorem State.accepted_par : (s.accepted).par = s.par := rfl
@[simp] theorem State.accepted_pending : (s.accepted).pending = s.pending := rfl

/-! ### stored -/
@[simp] theorem State.stored_ds (clamped : Bool) : (s.stored clamped).ds = s.ds := rfl
@[simp] theorem State.stored_se (clamped : Bool) : (s.stored clamped).se = s.se := rfl
@[simp] theorem State.stored_mp (clamped : Bool) : (s.stored clamped).mp = s.mp := rfl
@[simp] theorem State.stored_pc (clamped : Bool) : (s.stored clamped).pc = s.pc := rfl
@[simp] theorem State.stored_ts (clamped : Bool) : (s.stored clamped).ts = s.ts := rfl
@[simp] theorem State.stored_hs (clamped : Bool) : (s.stored clamped).hs = s.hs := rfl
@[simp] theorem State.stored_tm (clamped : Bool) : (s.stored clamped).tm = s.tm := rfl
@[simp] theorem State.stored_fr (clamped : Bool) : (s.stored clamped).fr = s.fr := rfl
@[simp] theorem State.stored_rt (clamped : Bool) : (s.stored clamped).rt = s.rt := rfl
@[simp] theorem State.stored_sm (clamped : Bool) : (s.stored clamped).sm = s.sm := rfl
@[simp] theorem State.stored_par (clamped : Bool) : (s.stored clamped).par = s.par := rfl
@[simp] theorem State.stored_pending (clamped : Bool) : (s.stored clamped).pending = s.pending := rfl

/-! ### badRequest -/
@[simp] theorem State.badRequest_ds : (s.badRequest).ds = s.ds := rfl
@[simp] theorem State.badRequest_se : (s.badRequest).se = s.se := rfl
@[simp] theorem State.badRequest_mp : (s.badRequest).mp = s.mp := rfl
@[simp] theorem State.badRequest_pc : (s.badRequest).pc = s.pc := rfl
@[simp] theorem State.badRequest_ts : (s.badRequest).ts = s.ts := rfl
@[simp] theorem State.badRequest_hs : (s.badRequest).hs = s.hs := rfl
@[simp] theorem State.badRequest_tm : (s.badRequest).tm = s.tm := rfl
@[simp] theorem State.badRequest_fr : (s.badRequest).fr = s.fr := rfl
@[simp] theorem State.badRequest_rt : (s.badRequest).rt = s.rt := rfl
@[simp] theorem State.badRequest_sm : (s.badRequest).sm = s.sm := rfl
@[simp] theorem State.badRequest_par : (s.badRequest).par = s.par := rfl
@[simp] theorem State.badRequest_pending : (s.badRequest).pending = s.pending := rfl

/-! ### shifted -/
@[simp] theorem State.shifted_ds (out : List (Option Byte)) : (s.shifted out).ds = s.ds := rfl
@[simp] theorem State.shifted_se (out : List (Option Byte)) : (s.shifted out).se = s.se := rfl
@[simp] theorem State.shifted_mp (out : List (Option Byte)) : (s.shifted out).mp = s.mp := rfl
@[simp] theorem State.shifted_pc (out : List (Option Byte)) : (s.shifted out).pc = s.pc := rfl
@[simp] theorem State.shifted_ts (out : List (Option Byte)) : (s.shifted out).ts = s.ts := rfl
@[simp] theorem State.shifted_hs (out : List (Option Byte)) : (s.shifted out).hs = s.hs := rfl
@[simp] theorem State.shifted_tm (out : List (Option Byte)) : (s.shifted out).tm = s.tm := rfl
@[simp] theorem State.shifted_fr (out : List (Option Byte)) : (s.shifted out).fr = s.fr := rfl
@[simp] theorem State.shifted_rt (out : List (Option Byte)) : (s.shifted out).rt = s.rt := rfl
@[simp] theorem State.shifted_sm (out : List (Option Byte)) : (s.shifted out).sm = s.sm := rfl
@[simp] theorem State.shifted_par (out : List (Option Byte)) : (s.shifted out).par = s.par := rfl
@[simp] theorem State.shifted_pending (out : List (Option Byte)) : (s.shifted out).pending = s.pending := rfl

/-! ### setSlot -/
@[simp] theorem State.setSlot_ds (slot : Slot) : (s.setSlot slot).ds = s.ds := rfl
@[simp] theorem State.setSlot_se (slot : Slot) : (s.setSlot slot).se = s.se := rfl
@[simp] theorem State.setSlot_mp (slot : Slot) : (s.setSlot slot).mp = s.mp := rfl
@[simp] theorem State.setSlot_pc (slot : Slot) : (s.setSlot slot).pc = s.pc := rfl
@[simp] theorem State.setSlot_ts (slot : Slot) : (s.setSlot slot).ts = s.ts := rfl
@[simp] theorem State.setSlot_hs (slot : Slot) : (s.setSlot slot).hs = s.hs := rfl
@[simp] theorem State.setSlot_tm (slot : Slot) : (s.setSlot slot).tm = s.tm := rfl
@[simp] theorem State.setSlot_fr (slot : Slot) : (s.setSlot slot).fr = s.fr := rfl
@[simp] theorem State.setSlot_rt (slot : Slot) : (s.setSlot slot).rt = s.rt := rfl
@[simp] theorem State.setSlot_sm (slot : Slot) : (s.setSlot slot).sm = s.sm := rfl
@[simp] theorem State.setSlot_par (slot : Slot) : (s.setSlot slot).par = s.par := rfl
@[simp] theorem State.setSlot_pending (slot : Slot) : (s.setSlot slot).pending = s.pending := rfl

/-! ### putSeg -/
@[simp] theorem State.putSeg_rl (r : SegRecord) : (s.putSeg r).rl = s.rl := rfl
@[simp] theorem State.putSeg_se (r : SegRecord) : (s.putSeg r).se = s.se := rfl
@[simp] theorem State.putSeg_mp (r : SegRecord) : (s.putSeg r).mp = s.mp := rfl
@[simp] theorem State.putSeg_pc (r : SegRecord) : (s.putSeg r).pc = s.pc := rfl
@[simp] theorem State.putSeg_ts (r : SegRecord) : (s.putSeg r).ts = s.ts := rfl
@[simp] theorem State.putSeg_hs (r : SegRecord) : (s.putSeg r).hs = s.hs := rfl
@[simp] theorem State.putSeg_tm (r : SegRecord) : (s.putSeg r).tm = s.tm := rfl
@[simp] theorem State.putSeg_fr (r : SegRecord) : (s.putSeg r).fr = s.fr := rfl
@[simp] theorem State.putSeg_rt (r : SegRecord) : (s.putSeg r).rt = s.rt := rfl
@[simp] theorem State.putSeg_sm (r : SegRecord) : (s.putSeg r).sm = s.sm := rfl
@[simp] theorem State.putSeg_par (r : SegRecord) : (s.putSeg r).par = s.par := rfl
@[simp] theorem State.putSeg_pending (r : SegRecord) : (s.putSeg r).pending = s.pending := rfl

/-! ### addSeg -/
@[simp] theorem State.addSeg_rl (r : SegRecord) : (s.addSeg r).rl = s.rl := rfl
@[simp] theorem State.addSeg_se (r : SegRecord) : (s.addSeg r).se = s.se := rfl
@[simp] theorem State.addSeg_mp (r : SegRecord) : (s.addSeg r).mp = s.mp := rfl
@[simp] theorem State.addSeg_pc (r : SegRecord) : (s.addSeg r).pc = s.pc := rfl
@[simp] theorem State.addSeg_ts (r : SegRecord) : (s.addSeg r).ts = s.ts := rfl
@[simp] theorem State.addSeg_hs (r : SegRecord) : (s.addSeg r).hs = s.hs := rfl
@[simp] theorem State.addSeg_tm (r : SegRecord) : (s.addSeg r).tm = s.tm := rfl
@[simp] theorem State.addSeg_fr (r : SegRecord) : (s.addSeg r).fr = s.fr := rfl
@[simp] theorem State.addSeg_rt (r : SegRecord) : (s.addSeg r).rt = s.rt := rfl
@[simp] theorem State.addSeg_sm (r : SegRecord) : (s.addSeg r).sm = s.sm := rfl
@[simp] theorem State.addSeg_par (r : SegRecord) : (s.addSeg r).par = s.par := rfl
@[simp] theorem State.addSeg_pending (r : SegRecord) : (s.addSeg r).pending = s.pending := rfl

/-! ### freeSeg -/
@[simp] theorem State.freeSeg_rl (r : SegRecord) : (s.freeSeg r).rl = s.rl := rfl
@[simp] theorem State.freeSeg_se (r : SegRecord) : (s.freeSeg r).se = s.se := rfl
@[simp] theorem State.freeSeg_mp (r : SegRecord) : (s.freeSeg r).mp = s.mp := rfl
@[simp] theorem State.freeSeg_pc (r : SegRecord) : (s.freeSeg r).pc = s.pc := rfl
@[simp] theorem State.freeSeg_ts (r : SegRecord) : (s.freeSeg r).ts = s.ts := rfl
@[simp] theorem State.freeSeg_hs (r : SegRecord) : (s.freeSeg r).hs = s.hs := rfl
@[simp] theorem State.freeSeg_tm (r : SegRecord) : (s.freeSeg r).tm = s.tm := rfl
@[simp] theorem State.freeSeg_fr (r : SegRecord) : (s.freeSeg r).fr = s.fr := rfl
@[simp] theorem State.freeSeg_rt (r : SegRecord) : (s.freeSeg r).rt = s.rt := rfl
@[simp] theorem State.freeSeg_sm (r : SegRecord) : (s.freeSeg r).sm = s.sm := rfl
@[simp] theorem State.freeSeg_par (r : SegRecord) : (s.freeSeg r).par = s.par := rfl
@[simp] theorem State.freeSeg_pending (r : SegRecord) : (s.freeSeg r).pending = s.pending := rfl

/-! ### openService -/
@[simp] theorem State.openService_rl (n : Nat) : (s.openService n).rl = s.rl := rfl
@[simp] theorem State.openService_se (n : Nat) : (s.openService n).se = s.se := rfl
@[simp] theorem State.openService_mp (n : Nat) : (s.openService n).mp = s.mp := rfl
@[simp] theorem State.openService_pc (n : Nat) : (s.openService n).pc = s.pc := rfl
@[simp] theorem State.openService_ts (n : Nat) : (s.openService n).ts = s.ts := rfl
@[simp] theorem State.openService_hs (n : Nat) : (s.openService n).hs = s.hs := rfl
@[simp] theorem State.openService_tm (n : Nat) : (s.openService n).tm = s.tm := rfl
@[simp] theorem State.openService_fr (n : Nat) : (s.openService n).fr = s.fr := rfl
@[simp] theorem State.openService_rt (n : Nat) : (s.openService n).rt = s.rt := rfl
@[simp] theorem State.openService_sm (n : Nat) : (s.openService n).sm = s.sm := rfl
@[simp] theorem State.openService_par (n : Nat) : (s.openService n).par = s.par := rfl
@[simp] theorem State.openService_pending (n : Nat) : (s.openService n).pending = s.pending := rfl

/-! ### freeAll -/
@[simp] theorem State.freeAll_rl : (s.freeAll).rl = s.rl := rfl
@[simp] theorem State.freeAll_se : (s.freeAll).se = s.se := rfl
@[simp] theorem State.freeAll_mp : (s.freeAll).mp = s.mp := rfl
@[simp] theorem State.freeAll_pc : (s.freeAll).pc = s.pc := rfl
@[simp] theorem State.freeAll_ts : (s.freeAll).ts = s.ts := rfl
@[simp] theorem State.freeAll_hs : (s.freeAll).hs = s.hs := rfl
@[simp] theorem State.freeAll_tm : (s.freeAll).tm = s.tm := rfl
@[simp] theorem State.freeAll_fr : (s.freeAll).fr = s.fr := rfl
@[simp] theorem State.freeAll_rt : (s.freeAll).rt = s.rt := rfl
@[simp] theorem State.freeAll_sm : (s.freeAll).sm = s.sm := rfl
@[simp] theorem State.freeAll_par : (s.freeAll).par = s.par := rfl
@[simp] theorem State.freeAll_pending : (s.freeAll).pending = s.pending := rfl

/-! ### putRecord -/
@[simp] theorem State.putRecord_rl (r : RepairRecord) : (s.putRecord r).rl = s.rl := rfl
@[simp] theorem State.putRecord_ds (r : RepairRecord) : (s.putRecord r).ds = s.ds := rfl
@[simp] theorem State.putRecord_se (r : RepairRecord) : (s.putRecord r).se = s.se := rfl
@[simp] theorem State.putRecord_mp (r : RepairRecord) : (s.putRecord r).mp = s.mp := rfl
@[simp] theorem State.putRecord_pc (r : RepairRecord) : (s.putRecord r).pc = s.pc := rfl
@[simp] theorem State.putRecord_ts (r : RepairRecord) : (s.putRecord r).ts = s.ts := rfl
@[simp] theorem State.putRecord_hs (r : RepairRecord) : (s.putRecord r).hs = s.hs := rfl
@[simp] theorem State.putRecord_tm (r : RepairRecord) : (s.putRecord r).tm = s.tm := rfl
@[simp] theorem State.putRecord_fr (r : RepairRecord) : (s.putRecord r).fr = s.fr := rfl
@[simp] theorem State.putRecord_sm (r : RepairRecord) : (s.putRecord r).sm = s.sm := rfl
@[simp] theorem State.putRecord_par (r : RepairRecord) : (s.putRecord r).par = s.par := rfl
@[simp] theorem State.putRecord_pending (r : RepairRecord) : (s.putRecord r).pending = s.pending := rfl

/-! ### closeSegmentRecords -/
@[simp] theorem State.closeSegmentRecords_rl (g count : Nat) : (s.closeSegmentRecords g count).rl = s.rl := rfl
@[simp] theorem State.closeSegmentRecords_ds (g count : Nat) : (s.closeSegmentRecords g count).ds = s.ds := rfl
@[simp] theorem State.closeSegmentRecords_se (g count : Nat) : (s.closeSegmentRecords g count).se = s.se := rfl
@[simp] theorem State.closeSegmentRecords_mp (g count : Nat) : (s.closeSegmentRecords g count).mp = s.mp := rfl
@[simp] theorem State.closeSegmentRecords_pc (g count : Nat) : (s.closeSegmentRecords g count).pc = s.pc := rfl
@[simp] theorem State.closeSegmentRecords_ts (g count : Nat) : (s.closeSegmentRecords g count).ts = s.ts := rfl
@[simp] theorem State.closeSegmentRecords_hs (g count : Nat) : (s.closeSegmentRecords g count).hs = s.hs := rfl
@[simp] theorem State.closeSegmentRecords_tm (g count : Nat) : (s.closeSegmentRecords g count).tm = s.tm := rfl
@[simp] theorem State.closeSegmentRecords_fr (g count : Nat) : (s.closeSegmentRecords g count).fr = s.fr := rfl
@[simp] theorem State.closeSegmentRecords_sm (g count : Nat) : (s.closeSegmentRecords g count).sm = s.sm := rfl
@[simp] theorem State.closeSegmentRecords_par (g count : Nat) : (s.closeSegmentRecords g count).par = s.par := rfl
@[simp] theorem State.closeSegmentRecords_pending (g count : Nat) : (s.closeSegmentRecords g count).pending = s.pending := rfl

/-! ### formPass -/
@[simp] theorem State.formPass_rl (p : RepairPoint) (g : Nat) : (s.formPass p g).rl = s.rl := rfl
@[simp] theorem State.formPass_ds (p : RepairPoint) (g : Nat) : (s.formPass p g).ds = s.ds := rfl
@[simp] theorem State.formPass_se (p : RepairPoint) (g : Nat) : (s.formPass p g).se = s.se := rfl
@[simp] theorem State.formPass_mp (p : RepairPoint) (g : Nat) : (s.formPass p g).mp = s.mp := rfl
@[simp] theorem State.formPass_pc (p : RepairPoint) (g : Nat) : (s.formPass p g).pc = s.pc := rfl
@[simp] theorem State.formPass_ts (p : RepairPoint) (g : Nat) : (s.formPass p g).ts = s.ts := rfl
@[simp] theorem State.formPass_hs (p : RepairPoint) (g : Nat) : (s.formPass p g).hs = s.hs := rfl
@[simp] theorem State.formPass_tm (p : RepairPoint) (g : Nat) : (s.formPass p g).tm = s.tm := rfl
@[simp] theorem State.formPass_fr (p : RepairPoint) (g : Nat) : (s.formPass p g).fr = s.fr := rfl
@[simp] theorem State.formPass_sm (p : RepairPoint) (g : Nat) : (s.formPass p g).sm = s.sm := rfl
@[simp] theorem State.formPass_par (p : RepairPoint) (g : Nat) : (s.formPass p g).par = s.par := rfl
@[simp] theorem State.formPass_pending (p : RepairPoint) (g : Nat) : (s.formPass p g).pending = s.pending := rfl

/-! ### settleRecords -/
@[simp] theorem State.settleRecords_rl : (s.settleRecords).rl = s.rl := rfl
@[simp] theorem State.settleRecords_ds : (s.settleRecords).ds = s.ds := rfl
@[simp] theorem State.settleRecords_se : (s.settleRecords).se = s.se := rfl
@[simp] theorem State.settleRecords_mp : (s.settleRecords).mp = s.mp := rfl
@[simp] theorem State.settleRecords_pc : (s.settleRecords).pc = s.pc := rfl
@[simp] theorem State.settleRecords_ts : (s.settleRecords).ts = s.ts := rfl
@[simp] theorem State.settleRecords_hs : (s.settleRecords).hs = s.hs := rfl
@[simp] theorem State.settleRecords_tm : (s.settleRecords).tm = s.tm := rfl
@[simp] theorem State.settleRecords_fr : (s.settleRecords).fr = s.fr := rfl
@[simp] theorem State.settleRecords_sm : (s.settleRecords).sm = s.sm := rfl
@[simp] theorem State.settleRecords_par : (s.settleRecords).par = s.par := rfl
@[simp] theorem State.settleRecords_pending : (s.settleRecords).pending = s.pending := rfl

/-! ### dropRecords -/
@[simp] theorem State.dropRecords_rl : (s.dropRecords).rl = s.rl := rfl
@[simp] theorem State.dropRecords_ds : (s.dropRecords).ds = s.ds := rfl
@[simp] theorem State.dropRecords_se : (s.dropRecords).se = s.se := rfl
@[simp] theorem State.dropRecords_mp : (s.dropRecords).mp = s.mp := rfl
@[simp] theorem State.dropRecords_pc : (s.dropRecords).pc = s.pc := rfl
@[simp] theorem State.dropRecords_ts : (s.dropRecords).ts = s.ts := rfl
@[simp] theorem State.dropRecords_hs : (s.dropRecords).hs = s.hs := rfl
@[simp] theorem State.dropRecords_tm : (s.dropRecords).tm = s.tm := rfl
@[simp] theorem State.dropRecords_fr : (s.dropRecords).fr = s.fr := rfl
@[simp] theorem State.dropRecords_sm : (s.dropRecords).sm = s.sm := rfl
@[simp] theorem State.dropRecords_par : (s.dropRecords).par = s.par := rfl
@[simp] theorem State.dropRecords_pending : (s.dropRecords).pending = s.pending := rfl

/-! ### setContext -/
@[simp] theorem State.setContext_rl (c : IssueContext) : (s.setContext c).rl = s.rl := rfl
@[simp] theorem State.setContext_ds (c : IssueContext) : (s.setContext c).ds = s.ds := rfl
@[simp] theorem State.setContext_mp (c : IssueContext) : (s.setContext c).mp = s.mp := rfl
@[simp] theorem State.setContext_pc (c : IssueContext) : (s.setContext c).pc = s.pc := rfl
@[simp] theorem State.setContext_ts (c : IssueContext) : (s.setContext c).ts = s.ts := rfl
@[simp] theorem State.setContext_hs (c : IssueContext) : (s.setContext c).hs = s.hs := rfl
@[simp] theorem State.setContext_tm (c : IssueContext) : (s.setContext c).tm = s.tm := rfl
@[simp] theorem State.setContext_fr (c : IssueContext) : (s.setContext c).fr = s.fr := rfl
@[simp] theorem State.setContext_rt (c : IssueContext) : (s.setContext c).rt = s.rt := rfl
@[simp] theorem State.setContext_sm (c : IssueContext) : (s.setContext c).sm = s.sm := rfl
@[simp] theorem State.setContext_par (c : IssueContext) : (s.setContext c).par = s.par := rfl
@[simp] theorem State.setContext_pending (c : IssueContext) : (s.setContext c).pending = s.pending := rfl

/-! ### beginIssue -/
@[simp] theorem State.beginIssue_rl (g first last : Nat) (kind : PassKind) (tieIn : Bool) (barrier : Option Nat) : (s.beginIssue g first last kind tieIn barrier).rl = s.rl := rfl
@[simp] theorem State.beginIssue_ds (g first last : Nat) (kind : PassKind) (tieIn : Bool) (barrier : Option Nat) : (s.beginIssue g first last kind tieIn barrier).ds = s.ds := rfl
@[simp] theorem State.beginIssue_mp (g first last : Nat) (kind : PassKind) (tieIn : Bool) (barrier : Option Nat) : (s.beginIssue g first last kind tieIn barrier).mp = s.mp := rfl
@[simp] theorem State.beginIssue_pc (g first last : Nat) (kind : PassKind) (tieIn : Bool) (barrier : Option Nat) : (s.beginIssue g first last kind tieIn barrier).pc = s.pc := rfl
@[simp] theorem State.beginIssue_ts (g first last : Nat) (kind : PassKind) (tieIn : Bool) (barrier : Option Nat) : (s.beginIssue g first last kind tieIn barrier).ts = s.ts := rfl
@[simp] theorem State.beginIssue_hs (g first last : Nat) (kind : PassKind) (tieIn : Bool) (barrier : Option Nat) : (s.beginIssue g first last kind tieIn barrier).hs = s.hs := rfl
@[simp] theorem State.beginIssue_tm (g first last : Nat) (kind : PassKind) (tieIn : Bool) (barrier : Option Nat) : (s.beginIssue g first last kind tieIn barrier).tm = s.tm := rfl
@[simp] theorem State.beginIssue_fr (g first last : Nat) (kind : PassKind) (tieIn : Bool) (barrier : Option Nat) : (s.beginIssue g first last kind tieIn barrier).fr = s.fr := rfl
@[simp] theorem State.beginIssue_rt (g first last : Nat) (kind : PassKind) (tieIn : Bool) (barrier : Option Nat) : (s.beginIssue g first last kind tieIn barrier).rt = s.rt := rfl
@[simp] theorem State.beginIssue_sm (g first last : Nat) (kind : PassKind) (tieIn : Bool) (barrier : Option Nat) : (s.beginIssue g first last kind tieIn barrier).sm = s.sm := rfl
@[simp] theorem State.beginIssue_par (g first last : Nat) (kind : PassKind) (tieIn : Bool) (barrier : Option Nat) : (s.beginIssue g first last kind tieIn barrier).par = s.par := rfl
@[simp] theorem State.beginIssue_pending (g first last : Nat) (kind : PassKind) (tieIn : Bool) (barrier : Option Nat) : (s.beginIssue g first last kind tieIn barrier).pending = s.pending := rfl

/-! ### endIssue -/
@[simp] theorem State.endIssue_rl : (s.endIssue).rl = s.rl := rfl
@[simp] theorem State.endIssue_ds : (s.endIssue).ds = s.ds := rfl
@[simp] theorem State.endIssue_mp : (s.endIssue).mp = s.mp := rfl
@[simp] theorem State.endIssue_pc : (s.endIssue).pc = s.pc := rfl
@[simp] theorem State.endIssue_ts : (s.endIssue).ts = s.ts := rfl
@[simp] theorem State.endIssue_hs : (s.endIssue).hs = s.hs := rfl
@[simp] theorem State.endIssue_tm : (s.endIssue).tm = s.tm := rfl
@[simp] theorem State.endIssue_fr : (s.endIssue).fr = s.fr := rfl
@[simp] theorem State.endIssue_rt : (s.endIssue).rt = s.rt := rfl
@[simp] theorem State.endIssue_sm : (s.endIssue).sm = s.sm := rfl
@[simp] theorem State.endIssue_par : (s.endIssue).par = s.par := rfl
@[simp] theorem State.endIssue_pending : (s.endIssue).pending = s.pending := rfl

/-! ### planTravel -/
@[simp] theorem State.planTravel_rl (target : Pos) : (s.planTravel target).rl = s.rl := rfl
@[simp] theorem State.planTravel_ds (target : Pos) : (s.planTravel target).ds = s.ds := rfl
@[simp] theorem State.planTravel_mp (target : Pos) : (s.planTravel target).mp = s.mp := rfl
@[simp] theorem State.planTravel_pc (target : Pos) : (s.planTravel target).pc = s.pc := rfl
@[simp] theorem State.planTravel_ts (target : Pos) : (s.planTravel target).ts = s.ts := rfl
@[simp] theorem State.planTravel_hs (target : Pos) : (s.planTravel target).hs = s.hs := rfl
@[simp] theorem State.planTravel_tm (target : Pos) : (s.planTravel target).tm = s.tm := rfl
@[simp] theorem State.planTravel_fr (target : Pos) : (s.planTravel target).fr = s.fr := rfl
@[simp] theorem State.planTravel_rt (target : Pos) : (s.planTravel target).rt = s.rt := rfl
@[simp] theorem State.planTravel_sm (target : Pos) : (s.planTravel target).sm = s.sm := rfl
@[simp] theorem State.planTravel_par (target : Pos) : (s.planTravel target).par = s.par := rfl
@[simp] theorem State.planTravel_pending (target : Pos) : (s.planTravel target).pending = s.pending := rfl

/-! ### abandonTravel -/
@[simp] theorem State.abandonTravel_rl : (s.abandonTravel).rl = s.rl := rfl
@[simp] theorem State.abandonTravel_ds : (s.abandonTravel).ds = s.ds := rfl
@[simp] theorem State.abandonTravel_mp : (s.abandonTravel).mp = s.mp := rfl
@[simp] theorem State.abandonTravel_pc : (s.abandonTravel).pc = s.pc := rfl
@[simp] theorem State.abandonTravel_ts : (s.abandonTravel).ts = s.ts := rfl
@[simp] theorem State.abandonTravel_hs : (s.abandonTravel).hs = s.hs := rfl
@[simp] theorem State.abandonTravel_tm : (s.abandonTravel).tm = s.tm := rfl
@[simp] theorem State.abandonTravel_fr : (s.abandonTravel).fr = s.fr := rfl
@[simp] theorem State.abandonTravel_rt : (s.abandonTravel).rt = s.rt := rfl
@[simp] theorem State.abandonTravel_sm : (s.abandonTravel).sm = s.sm := rfl
@[simp] theorem State.abandonTravel_par : (s.abandonTravel).par = s.par := rfl
@[simp] theorem State.abandonTravel_pending : (s.abandonTravel).pending = s.pending := rfl

/-! ### toRest -/
@[simp] theorem State.toRest_rl : (s.toRest).rl = s.rl := rfl
@[simp] theorem State.toRest_ds : (s.toRest).ds = s.ds := rfl
@[simp] theorem State.toRest_se : (s.toRest).se = s.se := rfl
@[simp] theorem State.toRest_pc : (s.toRest).pc = s.pc := rfl
@[simp] theorem State.toRest_ts : (s.toRest).ts = s.ts := rfl
@[simp] theorem State.toRest_hs : (s.toRest).hs = s.hs := rfl
@[simp] theorem State.toRest_tm : (s.toRest).tm = s.tm := rfl
@[simp] theorem State.toRest_fr : (s.toRest).fr = s.fr := rfl
@[simp] theorem State.toRest_rt : (s.toRest).rt = s.rt := rfl
@[simp] theorem State.toRest_sm : (s.toRest).sm = s.sm := rfl
@[simp] theorem State.toRest_par : (s.toRest).par = s.par := rfl
@[simp] theorem State.toRest_pending : (s.toRest).pending = s.pending := rfl

/-! ### beginMove -/
@[simp] theorem State.beginMove_rl (m : Move) : (s.beginMove m).rl = s.rl := rfl
@[simp] theorem State.beginMove_ds (m : Move) : (s.beginMove m).ds = s.ds := rfl
@[simp] theorem State.beginMove_se (m : Move) : (s.beginMove m).se = s.se := rfl
@[simp] theorem State.beginMove_pc (m : Move) : (s.beginMove m).pc = s.pc := rfl
@[simp] theorem State.beginMove_ts (m : Move) : (s.beginMove m).ts = s.ts := rfl
@[simp] theorem State.beginMove_hs (m : Move) : (s.beginMove m).hs = s.hs := rfl
@[simp] theorem State.beginMove_tm (m : Move) : (s.beginMove m).tm = s.tm := rfl
@[simp] theorem State.beginMove_fr (m : Move) : (s.beginMove m).fr = s.fr := rfl
@[simp] theorem State.beginMove_rt (m : Move) : (s.beginMove m).rt = s.rt := rfl
@[simp] theorem State.beginMove_sm (m : Move) : (s.beginMove m).sm = s.sm := rfl
@[simp] theorem State.beginMove_par (m : Move) : (s.beginMove m).par = s.par := rfl
@[simp] theorem State.beginMove_pending (m : Move) : (s.beginMove m).pending = s.pending := rfl

/-! ### advancePosition -/
@[simp] theorem State.advancePosition_rl (dx dy : Int) : (s.advancePosition dx dy).rl = s.rl := rfl
@[simp] theorem State.advancePosition_ds (dx dy : Int) : (s.advancePosition dx dy).ds = s.ds := rfl
@[simp] theorem State.advancePosition_se (dx dy : Int) : (s.advancePosition dx dy).se = s.se := rfl
@[simp] theorem State.advancePosition_pc (dx dy : Int) : (s.advancePosition dx dy).pc = s.pc := rfl
@[simp] theorem State.advancePosition_ts (dx dy : Int) : (s.advancePosition dx dy).ts = s.ts := rfl
@[simp] theorem State.advancePosition_hs (dx dy : Int) : (s.advancePosition dx dy).hs = s.hs := rfl
@[simp] theorem State.advancePosition_tm (dx dy : Int) : (s.advancePosition dx dy).tm = s.tm := rfl
@[simp] theorem State.advancePosition_fr (dx dy : Int) : (s.advancePosition dx dy).fr = s.fr := rfl
@[simp] theorem State.advancePosition_rt (dx dy : Int) : (s.advancePosition dx dy).rt = s.rt := rfl
@[simp] theorem State.advancePosition_sm (dx dy : Int) : (s.advancePosition dx dy).sm = s.sm := rfl
@[simp] theorem State.advancePosition_par (dx dy : Int) : (s.advancePosition dx dy).par = s.par := rfl
@[simp] theorem State.advancePosition_pending (dx dy : Int) : (s.advancePosition dx dy).pending = s.pending := rfl

/-! ### lowerPolicy -/
@[simp] theorem State.lowerPolicy_rl (cap : Nat) : (s.lowerPolicy cap).rl = s.rl := rfl
@[simp] theorem State.lowerPolicy_ds (cap : Nat) : (s.lowerPolicy cap).ds = s.ds := rfl
@[simp] theorem State.lowerPolicy_se (cap : Nat) : (s.lowerPolicy cap).se = s.se := rfl
@[simp] theorem State.lowerPolicy_pc (cap : Nat) : (s.lowerPolicy cap).pc = s.pc := rfl
@[simp] theorem State.lowerPolicy_ts (cap : Nat) : (s.lowerPolicy cap).ts = s.ts := rfl
@[simp] theorem State.lowerPolicy_hs (cap : Nat) : (s.lowerPolicy cap).hs = s.hs := rfl
@[simp] theorem State.lowerPolicy_tm (cap : Nat) : (s.lowerPolicy cap).tm = s.tm := rfl
@[simp] theorem State.lowerPolicy_fr (cap : Nat) : (s.lowerPolicy cap).fr = s.fr := rfl
@[simp] theorem State.lowerPolicy_rt (cap : Nat) : (s.lowerPolicy cap).rt = s.rt := rfl
@[simp] theorem State.lowerPolicy_sm (cap : Nat) : (s.lowerPolicy cap).sm = s.sm := rfl
@[simp] theorem State.lowerPolicy_par (cap : Nat) : (s.lowerPolicy cap).par = s.par := rfl
@[simp] theorem State.lowerPolicy_pending (cap : Nat) : (s.lowerPolicy cap).pending = s.pending := rfl

/-! ### clearPolicy -/
@[simp] theorem State.clearPolicy_rl : (s.clearPolicy).rl = s.rl := rfl
@[simp] theorem State.clearPolicy_ds : (s.clearPolicy).ds = s.ds := rfl
@[simp] theorem State.clearPolicy_se : (s.clearPolicy).se = s.se := rfl
@[simp] theorem State.clearPolicy_pc : (s.clearPolicy).pc = s.pc := rfl
@[simp] theorem State.clearPolicy_ts : (s.clearPolicy).ts = s.ts := rfl
@[simp] theorem State.clearPolicy_hs : (s.clearPolicy).hs = s.hs := rfl
@[simp] theorem State.clearPolicy_tm : (s.clearPolicy).tm = s.tm := rfl
@[simp] theorem State.clearPolicy_fr : (s.clearPolicy).fr = s.fr := rfl
@[simp] theorem State.clearPolicy_rt : (s.clearPolicy).rt = s.rt := rfl
@[simp] theorem State.clearPolicy_sm : (s.clearPolicy).sm = s.sm := rfl
@[simp] theorem State.clearPolicy_par : (s.clearPolicy).par = s.par := rfl
@[simp] theorem State.clearPolicy_pending : (s.clearPolicy).pending = s.pending := rfl

/-! ### setStopCeiling -/
@[simp] theorem State.setStopCeiling_rl : (s.setStopCeiling).rl = s.rl := rfl
@[simp] theorem State.setStopCeiling_ds : (s.setStopCeiling).ds = s.ds := rfl
@[simp] theorem State.setStopCeiling_se : (s.setStopCeiling).se = s.se := rfl
@[simp] theorem State.setStopCeiling_pc : (s.setStopCeiling).pc = s.pc := rfl
@[simp] theorem State.setStopCeiling_ts : (s.setStopCeiling).ts = s.ts := rfl
@[simp] theorem State.setStopCeiling_hs : (s.setStopCeiling).hs = s.hs := rfl
@[simp] theorem State.setStopCeiling_tm : (s.setStopCeiling).tm = s.tm := rfl
@[simp] theorem State.setStopCeiling_fr : (s.setStopCeiling).fr = s.fr := rfl
@[simp] theorem State.setStopCeiling_rt : (s.setStopCeiling).rt = s.rt := rfl
@[simp] theorem State.setStopCeiling_sm : (s.setStopCeiling).sm = s.sm := rfl
@[simp] theorem State.setStopCeiling_par : (s.setStopCeiling).par = s.par := rfl
@[simp] theorem State.setStopCeiling_pending : (s.setStopCeiling).pending = s.pending := rfl

/-! ### immediateStop -/
@[simp] theorem State.immediateStop_rl : (s.immediateStop).rl = s.rl := rfl
@[simp] theorem State.immediateStop_ds : (s.immediateStop).ds = s.ds := rfl
@[simp] theorem State.immediateStop_pc : (s.immediateStop).pc = s.pc := rfl
@[simp] theorem State.immediateStop_ts : (s.immediateStop).ts = s.ts := rfl
@[simp] theorem State.immediateStop_hs : (s.immediateStop).hs = s.hs := rfl
@[simp] theorem State.immediateStop_tm : (s.immediateStop).tm = s.tm := rfl
@[simp] theorem State.immediateStop_fr : (s.immediateStop).fr = s.fr := rfl
@[simp] theorem State.immediateStop_rt : (s.immediateStop).rt = s.rt := rfl
@[simp] theorem State.immediateStop_sm : (s.immediateStop).sm = s.sm := rfl
@[simp] theorem State.immediateStop_par : (s.immediateStop).par = s.par := rfl
@[simp] theorem State.immediateStop_pending : (s.immediateStop).pending = s.pending := rfl

/-! ### clearWorking -/
@[simp] theorem State.clearWorking_rl : (s.clearWorking).rl = s.rl := rfl
@[simp] theorem State.clearWorking_ds : (s.clearWorking).ds = s.ds := rfl
@[simp] theorem State.clearWorking_se : (s.clearWorking).se = s.se := rfl
@[simp] theorem State.clearWorking_mp : (s.clearWorking).mp = s.mp := rfl
@[simp] theorem State.clearWorking_pc : (s.clearWorking).pc = s.pc := rfl
@[simp] theorem State.clearWorking_hs : (s.clearWorking).hs = s.hs := rfl
@[simp] theorem State.clearWorking_tm : (s.clearWorking).tm = s.tm := rfl
@[simp] theorem State.clearWorking_fr : (s.clearWorking).fr = s.fr := rfl
@[simp] theorem State.clearWorking_rt : (s.clearWorking).rt = s.rt := rfl
@[simp] theorem State.clearWorking_sm : (s.clearWorking).sm = s.sm := rfl
@[simp] theorem State.clearWorking_par : (s.clearWorking).par = s.par := rfl
@[simp] theorem State.clearWorking_pending : (s.clearWorking).pending = s.pending := rfl

/-! ### clearContext -/
@[simp] theorem State.clearContext_rl : (s.clearContext).rl = s.rl := rfl
@[simp] theorem State.clearContext_ds : (s.clearContext).ds = s.ds := rfl
@[simp] theorem State.clearContext_se : (s.clearContext).se = s.se := rfl
@[simp] theorem State.clearContext_mp : (s.clearContext).mp = s.mp := rfl
@[simp] theorem State.clearContext_ts : (s.clearContext).ts = s.ts := rfl
@[simp] theorem State.clearContext_hs : (s.clearContext).hs = s.hs := rfl
@[simp] theorem State.clearContext_tm : (s.clearContext).tm = s.tm := rfl
@[simp] theorem State.clearContext_fr : (s.clearContext).fr = s.fr := rfl
@[simp] theorem State.clearContext_rt : (s.clearContext).rt = s.rt := rfl
@[simp] theorem State.clearContext_sm : (s.clearContext).sm = s.sm := rfl
@[simp] theorem State.clearContext_par : (s.clearContext).par = s.par := rfl
@[simp] theorem State.clearContext_pending : (s.clearContext).pending = s.pending := rfl

/-! ### noteStop -/
@[simp] theorem State.noteStop_rl : (s.noteStop).rl = s.rl := rfl
@[simp] theorem State.noteStop_ds : (s.noteStop).ds = s.ds := rfl
@[simp] theorem State.noteStop_se : (s.noteStop).se = s.se := rfl
@[simp] theorem State.noteStop_mp : (s.noteStop).mp = s.mp := rfl
@[simp] theorem State.noteStop_ts : (s.noteStop).ts = s.ts := rfl
@[simp] theorem State.noteStop_hs : (s.noteStop).hs = s.hs := rfl
@[simp] theorem State.noteStop_tm : (s.noteStop).tm = s.tm := rfl
@[simp] theorem State.noteStop_fr : (s.noteStop).fr = s.fr := rfl
@[simp] theorem State.noteStop_rt : (s.noteStop).rt = s.rt := rfl
@[simp] theorem State.noteStop_sm : (s.noteStop).sm = s.sm := rfl
@[simp] theorem State.noteStop_par : (s.noteStop).par = s.par := rfl
@[simp] theorem State.noteStop_pending : (s.noteStop).pending = s.pending := rfl

/-! ### addFaulted -/
@[simp] theorem State.addFaulted_rl (h : HeadId) (target : Option Nat) (cause : RepairCause) : (s.addFaulted h target cause).rl = s.rl := rfl
@[simp] theorem State.addFaulted_ds (h : HeadId) (target : Option Nat) (cause : RepairCause) : (s.addFaulted h target cause).ds = s.ds := rfl
@[simp] theorem State.addFaulted_se (h : HeadId) (target : Option Nat) (cause : RepairCause) : (s.addFaulted h target cause).se = s.se := rfl
@[simp] theorem State.addFaulted_mp (h : HeadId) (target : Option Nat) (cause : RepairCause) : (s.addFaulted h target cause).mp = s.mp := rfl
@[simp] theorem State.addFaulted_ts (h : HeadId) (target : Option Nat) (cause : RepairCause) : (s.addFaulted h target cause).ts = s.ts := rfl
@[simp] theorem State.addFaulted_hs (h : HeadId) (target : Option Nat) (cause : RepairCause) : (s.addFaulted h target cause).hs = s.hs := rfl
@[simp] theorem State.addFaulted_tm (h : HeadId) (target : Option Nat) (cause : RepairCause) : (s.addFaulted h target cause).tm = s.tm := rfl
@[simp] theorem State.addFaulted_fr (h : HeadId) (target : Option Nat) (cause : RepairCause) : (s.addFaulted h target cause).fr = s.fr := rfl
@[simp] theorem State.addFaulted_rt (h : HeadId) (target : Option Nat) (cause : RepairCause) : (s.addFaulted h target cause).rt = s.rt := rfl
@[simp] theorem State.addFaulted_sm (h : HeadId) (target : Option Nat) (cause : RepairCause) : (s.addFaulted h target cause).sm = s.sm := rfl
@[simp] theorem State.addFaulted_par (h : HeadId) (target : Option Nat) (cause : RepairCause) : (s.addFaulted h target cause).par = s.par := rfl
@[simp] theorem State.addFaulted_pending (h : HeadId) (target : Option Nat) (cause : RepairCause) : (s.addFaulted h target cause).pending = s.pending := rfl

/-! ### dropFaulted -/
@[simp] theorem State.dropFaulted_rl (h : HeadId) : (s.dropFaulted h).rl = s.rl := rfl
@[simp] theorem State.dropFaulted_ds (h : HeadId) : (s.dropFaulted h).ds = s.ds := rfl
@[simp] theorem State.dropFaulted_se (h : HeadId) : (s.dropFaulted h).se = s.se := rfl
@[simp] theorem State.dropFaulted_mp (h : HeadId) : (s.dropFaulted h).mp = s.mp := rfl
@[simp] theorem State.dropFaulted_ts (h : HeadId) : (s.dropFaulted h).ts = s.ts := rfl
@[simp] theorem State.dropFaulted_hs (h : HeadId) : (s.dropFaulted h).hs = s.hs := rfl
@[simp] theorem State.dropFaulted_tm (h : HeadId) : (s.dropFaulted h).tm = s.tm := rfl
@[simp] theorem State.dropFaulted_fr (h : HeadId) : (s.dropFaulted h).fr = s.fr := rfl
@[simp] theorem State.dropFaulted_rt (h : HeadId) : (s.dropFaulted h).rt = s.rt := rfl
@[simp] theorem State.dropFaulted_sm (h : HeadId) : (s.dropFaulted h).sm = s.sm := rfl
@[simp] theorem State.dropFaulted_par (h : HeadId) : (s.dropFaulted h).par = s.par := rfl
@[simp] theorem State.dropFaulted_pending (h : HeadId) : (s.dropFaulted h).pending = s.pending := rfl

/-! ### goTo -/
@[simp] theorem State.goTo_rl (st : PassState) (ph : Phase) : (s.goTo st ph).rl = s.rl := rfl
@[simp] theorem State.goTo_ds (st : PassState) (ph : Phase) : (s.goTo st ph).ds = s.ds := rfl
@[simp] theorem State.goTo_se (st : PassState) (ph : Phase) : (s.goTo st ph).se = s.se := rfl
@[simp] theorem State.goTo_mp (st : PassState) (ph : Phase) : (s.goTo st ph).mp = s.mp := rfl
@[simp] theorem State.goTo_ts (st : PassState) (ph : Phase) : (s.goTo st ph).ts = s.ts := rfl
@[simp] theorem State.goTo_hs (st : PassState) (ph : Phase) : (s.goTo st ph).hs = s.hs := rfl
@[simp] theorem State.goTo_tm (st : PassState) (ph : Phase) : (s.goTo st ph).tm = s.tm := rfl
@[simp] theorem State.goTo_fr (st : PassState) (ph : Phase) : (s.goTo st ph).fr = s.fr := rfl
@[simp] theorem State.goTo_rt (st : PassState) (ph : Phase) : (s.goTo st ph).rt = s.rt := rfl
@[simp] theorem State.goTo_sm (st : PassState) (ph : Phase) : (s.goTo st ph).sm = s.sm := rfl
@[simp] theorem State.goTo_par (st : PassState) (ph : Phase) : (s.goTo st ph).par = s.par := rfl
@[simp] theorem State.goTo_pending (st : PassState) (ph : Phase) : (s.goTo st ph).pending = s.pending := rfl

/-! ### setJobHeads -/
@[simp] theorem State.setJobHeads_rl (heads : HeadSet) : (s.setJobHeads heads).rl = s.rl := rfl
@[simp] theorem State.setJobHeads_ds (heads : HeadSet) : (s.setJobHeads heads).ds = s.ds := rfl
@[simp] theorem State.setJobHeads_se (heads : HeadSet) : (s.setJobHeads heads).se = s.se := rfl
@[simp] theorem State.setJobHeads_mp (heads : HeadSet) : (s.setJobHeads heads).mp = s.mp := rfl
@[simp] theorem State.setJobHeads_ts (heads : HeadSet) : (s.setJobHeads heads).ts = s.ts := rfl
@[simp] theorem State.setJobHeads_hs (heads : HeadSet) : (s.setJobHeads heads).hs = s.hs := rfl
@[simp] theorem State.setJobHeads_tm (heads : HeadSet) : (s.setJobHeads heads).tm = s.tm := rfl
@[simp] theorem State.setJobHeads_fr (heads : HeadSet) : (s.setJobHeads heads).fr = s.fr := rfl
@[simp] theorem State.setJobHeads_rt (heads : HeadSet) : (s.setJobHeads heads).rt = s.rt := rfl
@[simp] theorem State.setJobHeads_sm (heads : HeadSet) : (s.setJobHeads heads).sm = s.sm := rfl
@[simp] theorem State.setJobHeads_par (heads : HeadSet) : (s.setJobHeads heads).par = s.par := rfl
@[simp] theorem State.setJobHeads_pending (heads : HeadSet) : (s.setJobHeads heads).pending = s.pending := rfl

/-! ### setParams -/
@[simp] theorem State.setParams_rl (p : Params) : (s.setParams p).rl = s.rl := rfl
@[simp] theorem State.setParams_ds (p : Params) : (s.setParams p).ds = s.ds := rfl
@[simp] theorem State.setParams_se (p : Params) : (s.setParams p).se = s.se := rfl
@[simp] theorem State.setParams_mp (p : Params) : (s.setParams p).mp = s.mp := rfl
@[simp] theorem State.setParams_pc (p : Params) : (s.setParams p).pc = s.pc := rfl
@[simp] theorem State.setParams_ts (p : Params) : (s.setParams p).ts = s.ts := rfl
@[simp] theorem State.setParams_hs (p : Params) : (s.setParams p).hs = s.hs := rfl
@[simp] theorem State.setParams_tm (p : Params) : (s.setParams p).tm = s.tm := rfl
@[simp] theorem State.setParams_fr (p : Params) : (s.setParams p).fr = s.fr := rfl
@[simp] theorem State.setParams_rt (p : Params) : (s.setParams p).rt = s.rt := rfl
@[simp] theorem State.setParams_sm (p : Params) : (s.setParams p).sm = s.sm := rfl
@[simp] theorem State.setParams_pending (p : Params) : (s.setParams p).pending = s.pending := rfl

/-! ### waitForSupply -/
@[simp] theorem State.waitForSupply_rl : (s.waitForSupply).rl = s.rl := rfl
@[simp] theorem State.waitForSupply_ds : (s.waitForSupply).ds = s.ds := rfl
@[simp] theorem State.waitForSupply_se : (s.waitForSupply).se = s.se := rfl
@[simp] theorem State.waitForSupply_mp : (s.waitForSupply).mp = s.mp := rfl
@[simp] theorem State.waitForSupply_pc : (s.waitForSupply).pc = s.pc := rfl
@[simp] theorem State.waitForSupply_ts : (s.waitForSupply).ts = s.ts := rfl
@[simp] theorem State.waitForSupply_hs : (s.waitForSupply).hs = s.hs := rfl
@[simp] theorem State.waitForSupply_tm : (s.waitForSupply).tm = s.tm := rfl
@[simp] theorem State.waitForSupply_fr : (s.waitForSupply).fr = s.fr := rfl
@[simp] theorem State.waitForSupply_rt : (s.waitForSupply).rt = s.rt := rfl
@[simp] theorem State.waitForSupply_par : (s.waitForSupply).par = s.par := rfl
@[simp] theorem State.waitForSupply_pending : (s.waitForSupply).pending = s.pending := rfl

end Sys2Proof.Machine
end

