-- ==== Sys2Proof/Laws/Drive.lean ====
section
/-! SUPPORT. What the part does of itself: it waits where no transition is due, and makes the next one
where one is. A statement about a command that ends in `drive` cites these instead of unfolding it. -/

namespace Sys2Proof.Machine

/-- A part that waits stays as it is. -/
theorem State.driveFor_waits {s : State} (h : s.microStep = none) (n : Nat) : State.driveFor n s = s := by
  cases n with
  | zero => rfl
  | succ n => simp only [State.driveFor, h]

theorem State.drive_waits {s : State} (h : s.microStep = none) : s.drive = s := State.driveFor_waits h _

/-- A transition that is due is made, with one less to spend. -/
theorem State.driveFor_step {s t : State} (h : s.microStep = some t) (n : Nat) :
    State.driveFor (n + 1) s = State.driveFor n t := by
  simp only [State.driveFor, h]

/-- After one transition the part waits. -/
theorem State.drive_once {s t : State} (h : s.microStep = some t) (ht : t.microStep = none) : s.drive = t :=
  (State.driveFor_step h (Config.driveBound - 1)).trans (State.driveFor_waits ht _)

/-- After two transitions the part waits. -/
theorem State.drive_twice {s t u : State} (h : s.microStep = some t) (ht : t.microStep = some u)
    (hu : u.microStep = none) : s.drive = u :=
  ((State.driveFor_step h (Config.driveBound - 1)).trans (State.driveFor_step ht (Config.driveBound - 2))).trans
    (State.driveFor_waits hu _)

/-- Whether the part waits depends on the phase, on whether a halt is due, on the Motion Planner and on
whether a shift or a trim is in flight. -/
theorem State.waits_of {s t : State} (h : s.microStep = none) (h1 : t.pc.phase = s.pc.phase)
    (h2 : t.pc.due.isSome = s.pc.due.isSome) (h3 : t.mp = s.mp) (h4 : t.anyShift = s.anyShift)
    (h5 : t.anyTrim = s.anyTrim) : t.microStep = none := by
  unfold State.microStep at h ⊢
  rw [h1, h4, h5]
  split at h
  · rfl
  · rfl
  · cases h
  · split at h
    · simp only [*, if_true]
    · cases h
  · unfold State.stepTravel at h ⊢
    rw [h3]
    split at h
    · split at h
      · rfl
      · cases h
      · cases h
    · split at h
      · simp only [*, if_true]
      · split at h <;> cases h
    · rfl
  · unfold State.stepBegin at h ⊢
    rw [h3, h2]
    split at h
    · split at h
      · cases h
      · rename_i hd
        simp only [hd]
        split at h
        · rfl
        · cases h
        · cases h
    · split at h
      · simp only [*, if_true]
      · cases h
    · rfl
  · split at h
    · simp only [*, if_true]
    · cases h
  · cases h

/-- The same where the selector is untouched. -/
theorem State.waits_same {s t : State} (h : s.microStep = none) (h1 : t.pc.phase = s.pc.phase)
    (h2 : t.pc.due.isSome = s.pc.due.isSome) (h3 : t.mp = s.mp) (h4 : t.ts = s.ts) : t.microStep = none :=
  State.waits_of h h1 h2 h3 (by unfold State.anyShift State.sel; rw [h4])
    (by unfold State.anyTrim State.sel; rw [h4])

end Sys2Proof.Machine
end

