-- ==== Sys2Proof/Laws/Store.lean ====
section
/-! SUPPORT. The Stitch Memory as a memory (read after write, the canonical form), and what each
operation on the Segment Table does to the soundness of the Design Store; what the counts of R5 and R18 are. -/

namespace Sys2Proof.Machine

/-! ## The Stitch Memory -/

/-- Every address of a memory lies above a bound. -/
def Memory.Above (b : Nat) (m : Memory) : Prop := ∀ c ∈ m, b < c.1

theorem Memory.wf_cons {a : Nat} {v : Stitch} {m : Memory} :
    Memory.wf ((a, v) :: m) = true ↔ v ≠ unwritten ∧ Memory.Above a m ∧ Memory.wf m = true := by
  induction m generalizing a v with
  | nil => simp [Memory.wf, Memory.Above]
  | cons c m ih =>
    obtain ⟨b, w⟩ := c
    have hc := @ih b w
    simp only [Memory.wf, Bool.and_eq_true, decide_eq_true_eq, bne_iff_ne, Memory.Above,
      List.mem_cons, forall_eq_or_imp]
    constructor
    · rintro ⟨⟨hab, hv⟩, hw⟩
      refine ⟨hv, ⟨hab, fun d hd => ?_⟩, hw⟩
      exact Nat.lt_trans hab ((hc.1 hw).2.1 d hd)
    · rintro ⟨hv, ⟨hab, -⟩, hw⟩
      exact ⟨⟨hab, hv⟩, hw⟩

theorem memWrite_above {b a : Nat} {v : Stitch} {m : Memory} (hb : b < a) (h : Memory.Above b m) :
    Memory.Above b (memWrite m a v) := by
  induction m with
  | nil => unfold memWrite; split <;> simp [Memory.Above, hb]
  | cons c m ih =>
    obtain ⟨d, w⟩ := c
    have hd : b < d := h (d, w) (by simp)
    have hm : Memory.Above b m := fun x hx => h x (by simp [hx])
    unfold memWrite
    split
    · intro x hx
      rcases List.mem_cons.1 hx with rfl | hx
      · exact hd
      · exact ih hm x hx
    · by_cases hv : v = unwritten <;> by_cases hd' : d = a <;> simp only [hv, hd', if_true, if_false]
      · exact hm
      · exact h
      · intro x hx; rcases List.mem_cons.1 hx with rfl | hx; exacts [hb, hm x hx]
      · intro x hx; rcases List.mem_cons.1 hx with rfl | hx; exacts [hb, h x hx]

/-- A write keeps the canonical form. -/
theorem memWrite_wf (m : Memory) (a : Nat) (v : Stitch) (h : Memory.wf m = true) :
    Memory.wf (memWrite m a v) = true := by
  induction m with
  | nil =>
    unfold memWrite
    split
    · rfl
    · exact Memory.wf_cons.2 ⟨by assumption, by simp [Memory.Above], rfl⟩
  | cons c m ih =>
    obtain ⟨b, w⟩ := c
    obtain ⟨hw, hab, hm⟩ := Memory.wf_cons.1 h
    unfold memWrite
    split
    · exact Memory.wf_cons.2 ⟨hw, memWrite_above (by assumption) hab, ih hm⟩
    · rename_i hba
      by_cases hbe : b = a <;> simp only [hbe, if_true, if_false]
      · subst hbe
        split
        · exact hm
        · exact Memory.wf_cons.2 ⟨by assumption, hab, hm⟩
      · split
        · exact h
        · refine Memory.wf_cons.2 ⟨by assumption, ?_, h⟩
          intro x hx
          rcases List.mem_cons.1 hx with rfl | hx
          · show a < b; omega
          · have := hab x hx; omega

theorem memRead_above {m : Memory} {a : Nat} (h : Memory.Above a m) : memRead m a = unwritten := by
  induction m with
  | nil => rfl
  | cons c m ih =>
    obtain ⟨b, w⟩ := c
    have hb : a < b := h (b, w) (by simp)
    have hne : b ≠ a := by omega
    simp only [memRead, hne, if_false]
    exact ih fun x hx => h x (by simp [hx])

/-- Reading an entry after a write: the stitch written there, and every other entry as before. -/
theorem memRead_memWrite (m : Memory) (a b : Nat) (v : Stitch) (h : Memory.wf m = true) :
    memRead (memWrite m a v) b = if b = a then v else memRead m b := by
  induction m with
  | nil =>
    unfold memWrite
    by_cases hv : v = unwritten <;> by_cases hb : b = a <;> simp [hv, hb, memRead, Ne.symm]
  | cons c m ih =>
    obtain ⟨d, w⟩ := c
    obtain ⟨hw, hab, hm⟩ := Memory.wf_cons.1 h
    unfold memWrite
    split
    · rename_i hda
      simp only [memRead, ih hm]
      by_cases hb : b = a
      · subst hb
        have : d ≠ b := by omega
        simp [this]
      · simp [hb]
    · rename_i hda
      by_cases hde : d = a
      · subst hde
        by_cases hv : v = unwritten
        · simp only [hv, if_true]
          by_cases hb : b = d
          · subst hb; simp [memRead_above hab]
          · have : d ≠ b := fun e => hb e.symm
            simp [memRead, this, hb]
        · simp only [hv, if_true, if_false, memRead]
          by_cases hb : b = d
          · subst hb; simp
          · have : d ≠ b := fun e => hb e.symm
            simp [this, hb]
      · have had : Memory.Above a ((d, w) :: m) := by
          intro x hx
          rcases List.mem_cons.1 hx with rfl | hx
          · show a < d; omega
          · have := hab x hx; omega
        by_cases hv : v = unwritten
        · simp only [hv, hde, if_true, if_false]
          by_cases hb : b = a
          · subst hb; simp [memRead_above had]
          · simp [hb]
        · simp only [hv, hde, if_false]
          by_cases hb : b = a
          · subst hb; simp [memRead]
          · have : a ≠ b := fun e => hb e.symm
            simp [memRead, this, hb]

/-! ## The Segment Table -/

theorem pairwise_slot_inj {l : List SegRecord} (h : (l.map (·.slot)).Pairwise (· < ·)) {q r : SegRecord}
    (hq : q ∈ l) (hr : r ∈ l) (e : q.slot = r.slot) : q = r := by
  induction l with
  | nil => cases hq
  | cons c l ih =>
    simp only [List.map_cons, List.pairwise_cons, List.mem_map, forall_exists_index, and_imp,
      forall_apply_eq_imp_iff₂] at h
    rcases List.mem_cons.1 hq with e1 | h1 <;> rcases List.mem_cons.1 hr with e2 | h2
    · rw [e1, e2]
    · have := h.1 r h2; rw [e1] at e; omega
    · have := h.1 q h1; rw [e2] at e; omega
    · exact ih h.2 h1 h2

/-- A change of the records that leaves slots, numbers, page lists and counts keeps the Store sound. -/
theorem Store.Sound.map {d : Store} (hd : d.Sound) (f : SegRecord → SegRecord)
    (hf : ∀ q ∈ d.segs, (f q).slot = q.slot ∧ (f q).number = q.number ∧ (f q).pages = q.pages ∧
      (f q).count = q.count ∧ (f q).written ≤ (f q).count) {d' : Store}
    (hs : d'.segs = d.segs.map f) (hp : d'.pool = d.pool) : d'.Sound := by
  obtain ⟨h1, h2, h3, h4⟩ := hd
  have e1 : d'.segs.map (·.slot) = d.segs.map (·.slot) := by
    rw [hs, List.map_map]; exact List.map_congr_left fun q hq => (hf q hq).1
  have e2 : d'.segs.map (·.number) = d.segs.map (·.number) := by
    rw [hs, List.map_map]; exact List.map_congr_left fun q hq => (hf q hq).2.1
  have e3 : d'.segs.flatMap (·.pages) = d.segs.flatMap (·.pages) := by
    rw [hs, List.flatMap_map]
    simp only [List.flatMap]
    congr 1
    exact List.map_congr_left fun q hq => (hf q hq).2.2.1
  refine ⟨e1 ▸ h1, e2 ▸ h2, by rw [e3, hp]; exact h3, ?_⟩
  intro r hr
  rw [hs, List.mem_map] at hr
  obtain ⟨q, hq, rfl⟩ := hr
  obtain ⟨-, -, ep, ec, ew⟩ := hf q hq
  exact ⟨by rw [ep, ec]; exact (h4 q hq).1, ew⟩

/-- A change of what no soundness condition names. -/
theorem Store.Sound.same {d d' : Store} (hd : d.Sound) (hs : d'.segs = d.segs) (hp : d'.pool = d.pool) :
    d'.Sound := by
  unfold Store.Sound at *; rw [hs, hp]; exact hd

/-- A record in the place of the one of its slot. -/
theorem Store.Sound.put {s : State} (hd : s.ds.Sound) {r r' : SegRecord} (hr : r ∈ s.ds.segs)
    (e1 : r'.slot = r.slot) (e2 : r'.number = r.number) (e3 : r'.pages = r.pages)
    (e4 : r'.count = r.count) (e5 : r'.written ≤ r'.count) : (s.putSeg r').ds.Sound := by
  refine hd.map _ (fun q hq => ?_) rfl rfl
  by_cases h : q.slot = r'.slot
  · have : q = r := pairwise_slot_inj hd.1 hq hr (by rw [h, e1])
    subst this
    rw [if_pos h]
    exact ⟨e1, e2, e3, e4, e5⟩
  · simp [h, (hd.2.2.2 q hq).2]

theorem perm_filter_slot {l : List SegRecord} (h : (l.map (·.slot)).Pairwise (· < ·)) {r : SegRecord}
    (hr : r ∈ l) : l.Perm (r :: l.filter (·.slot != r.slot)) := by
  induction l with
  | nil => cases hr
  | cons c l ih =>
    have hc := h
    simp only [List.map_cons, List.pairwise_cons, List.mem_map, forall_exists_index, and_imp,
      forall_apply_eq_imp_iff₂] at h
    rcases List.mem_cons.1 hr with rfl | hr
    · have : l.filter (·.slot != r.slot) = l := by
        rw [List.filter_eq_self]
        intro q hq
        have := h.1 q hq
        simp; omega
      simp [this]
    · have hne : c.slot ≠ r.slot := by have := h.1 r hr; omega
      rw [List.filter_cons]
      simp only [bne_iff_ne, ne_eq, hne, not_false_eq_true, if_true]
      exact (List.Perm.cons c (ih h.2 hr)).trans (List.Perm.swap r c _)

/-- A record freed: its pages return to the pool. -/
theorem Store.Sound.free {s : State} (hd : s.ds.Sound) {r : SegRecord} (hr : r ∈ s.ds.segs) :
    (s.freeSeg r).ds.Sound := by
  obtain ⟨h1, h2, h3, h4⟩ := hd
  have sub : (s.ds.segs.filter (·.slot != r.slot)).Sublist s.ds.segs := List.filter_sublist
  refine ⟨h1.sublist (sub.map _), h2.sublist (sub.map _), ?_, fun q hq => h4 q (sub.subset hq)⟩
  refine List.Perm.trans ?_ h3
  show (s.ds.pool ++ r.pages ++ _).Perm _
  rw [List.append_assoc]
  refine List.Perm.append_left _ ?_
  have := (perm_filter_slot h1 hr).flatMap_right (·.pages)
  rw [List.flatMap_cons] at this
  exact this.symm

theorem insertSeg_perm (r : SegRecord) (l : List SegRecord) : (insertSeg r l).Perm (r :: l) := by
  induction l with
  | nil => exact List.Perm.refl _
  | cons c l ih =>
    unfold insertSeg
    split
    · exact (List.Perm.cons c ih).trans (List.Perm.swap r c _)
    · exact List.Perm.refl _

/-- The slots of a table into which a record of a slot not in it is put rise still. -/
theorem insertSeg_rises {r : SegRecord} {l : List SegRecord} (h : (l.map (·.slot)).Pairwise (· < ·))
    (hn : ∀ q ∈ l, q.slot ≠ r.slot) : ((insertSeg r l).map (·.slot)).Pairwise (· < ·) := by
  induction l with
  | nil => simp [insertSeg]
  | cons c l ih =>
    have h' := h
    simp only [List.map_cons, List.pairwise_cons, List.mem_map, forall_exists_index, and_imp,
      forall_apply_eq_imp_iff₂] at h
    unfold insertSeg
    split
    · rename_i hlt
      simp only [List.map_cons, List.pairwise_cons, List.mem_map, forall_exists_index, and_imp,
        forall_apply_eq_imp_iff₂]
      refine ⟨fun q hq => ?_, ih h.2 fun q hq => hn q (by simp [hq])⟩
      rcases List.mem_cons.1 ((insertSeg_perm r l).subset hq) with rfl | hq
      · exact hlt
      · exact h.1 q hq
    · rename_i hge
      have hne := hn c (by simp)
      rw [List.map_cons, List.pairwise_cons]
      refine ⟨?_, h'⟩
      intro x hx
      simp only [List.map_cons, List.mem_cons, List.mem_map] at hx
      rcases hx with rfl | ⟨q, hq, rfl⟩
      · omega
      · have := h.1 q hq; omega

/-- The lowest free slot is free, and every slot below it, from the one the search begins at, is held. -/
theorem lowestFreeSlot_spec {l : List Nat} (h : l.Pairwise (· < ·)) {a : Nat} (ha : ∀ x ∈ l, a ≤ x) :
    lowestFreeSlot l a ∉ l ∧ a ≤ lowestFreeSlot l a ∧
      ∀ b, a ≤ b → b < lowestFreeSlot l a → b ∈ l := by
  induction l generalizing a with
  | nil => simp [lowestFreeSlot]
  | cons c l ih =>
    rw [List.pairwise_cons] at h
    unfold lowestFreeSlot
    have hac := ha c (by simp)
    split
    · rename_i hc
      subst hc
      obtain ⟨i1, i2, i3⟩ := ih h.2 (a := c + 1) fun x hx => by have := h.1 x hx; omega
      refine ⟨?_, by omega, fun b hb hlt => ?_⟩
      · intro hm
        rcases List.mem_cons.1 hm with e | hm
        · omega
        · exact i1 hm
      · rcases Nat.eq_or_lt_of_le hb with rfl | hb
        · simp
        · exact List.mem_cons_of_mem _ (i3 b (by omega) hlt)
    · rename_i hc
      refine ⟨?_, Nat.le_refl _, fun b hb hlt => by omega⟩
      intro hm
      rcases List.mem_cons.1 hm with e | hm
      · exact hc e.symm
      · have := h.1 a hm; omega

/-- A record that joins the table with pages taken from the pool. -/
theorem Store.Sound.add {s : State} (hd : s.ds.Sound) {r : SegRecord}
    (hslot : ∀ q ∈ s.ds.segs, q.slot ≠ r.slot) (hnum : ∀ q ∈ s.ds.segs, q.number ≠ r.number)
    (hpages : r.pages = s.ds.pool.take (pagesFor r.count)) (hlen : pagesFor r.count ≤ s.ds.pool.length)
    (hw : r.written ≤ r.count) : (s.addSeg r).ds.Sound := by
  obtain ⟨h1, h2, h3, h4⟩ := hd
  have perm := insertSeg_perm r s.ds.segs
  have len : r.pages.length = pagesFor r.count := by rw [hpages, List.length_take]; omega
  refine ⟨insertSeg_rises h1 hslot, ?_, ?_, ?_⟩
  · refine ((perm.map (·.number)).nodup_iff).2 ?_
    rw [List.map_cons, List.nodup_cons]
    refine ⟨?_, h2⟩
    rw [List.mem_map]
    rintro ⟨q, hq, e⟩
    exact hnum q hq e
  · refine List.Perm.trans ?_ h3
    show (s.ds.pool.drop r.pages.length ++ (insertSeg r s.ds.segs).flatMap (·.pages)).Perm _
    refine (List.Perm.append_left _ (perm.flatMap_right (·.pages))).trans ?_
    rw [List.flatMap_cons, len, ← List.append_assoc]
    refine List.Perm.append_right _ ?_
    conv_rhs => rw [← List.take_append_drop (pagesFor r.count) s.ds.pool]
    rw [hpages]
    exact List.perm_append_comm
  · intro q hq
    rcases List.mem_cons.1 (perm.subset hq) with rfl | hq
    · exact ⟨len, hw⟩
    · exact h4 q hq

/-- Every record freed at once. -/
theorem Store.Sound.clear {s : State} (hd : s.ds.Sound) : s.freeAll.ds.Sound := by
  refine ⟨by simp [State.freeAll], by simp [State.freeAll], ?_, by simp [State.freeAll]⟩
  simpa [State.freeAll] using hd.2.2.1

/-- A present record is one of the table. -/
theorem State.findSeg_mem {s : State} {n : Nat} {r : SegRecord} (h : s.findSeg n = some r) :
    r ∈ s.ds.segs ∧ r.number = n := by
  have := List.find?_some h
  exact ⟨List.mem_of_find?_eq_some h, by simpa using this⟩

/-! ## The counts of the chain of work ahead (R5, R18) -/

/-- The segments cannot fill one number more than there are records. -/
theorem State.findSeg_gap (s : State) (n : Nat)
    (h : ∀ m, n ≤ m → m ≤ n + s.ds.segs.length → s.findSeg m ≠ none) : False := by
  have sub : Finset.Icc n (n + s.ds.segs.length) ⊆ (s.ds.segs.map (·.number)).toFinset := by
    intro m hm
    simp at hm
    obtain ⟨r, hr⟩ := Option.ne_none_iff_exists'.1 (h m hm.1 hm.2)
    simpa using ⟨r, s.findSeg_mem hr⟩
  have lower := Finset.card_le_card sub
  have upper := List.toFinset_card_le (s.ds.segs.map (·.number))
  simp at lower upper
  omega

theorem State.nextAbsent_spec (s : State) (fuel n : Nat) :
    n ≤ s.nextAbsent fuel n ∧ (∀ m, n ≤ m → m < s.nextAbsent fuel n → s.findSeg m ≠ none) ∧
      (s.findSeg (s.nextAbsent fuel n) = none ∨ s.nextAbsent fuel n = n + fuel) := by
  induction fuel generalizing n with
  | zero => exact ⟨Nat.le_refl n, fun m h1 h2 => absurd h2 (by simp only [State.nextAbsent]; omega), .inr rfl⟩
  | succ f ih =>
    unfold State.nextAbsent
    by_cases h : s.present n = true
    · simp only [h, if_true]
      obtain ⟨h1, h2, h3⟩ := ih (n + 1)
      refine ⟨by omega, fun m hm hm' => ?_, h3.imp_right (by omega)⟩
      by_cases he : m = n
      · subst he
        simpa [State.present, Option.isSome_iff_ne_none] using h
      · exact h2 m (by omega) hm'
    · have hn : s.findSeg n = none := by simpa [State.present] using h
      simp only [h]
      exact ⟨Nat.le_refl n, fun m h1 h2 => absurd h2 (by simp; omega), .inl hn⟩

/-- The next wanted number is the lowest from the chain's start on that is not present (R5). -/
theorem State.nextWanted_spec (s : State) : s.chainStart ≤ s.nextWanted ∧ s.findSeg s.nextWanted = none ∧
    ∀ m, s.chainStart ≤ m → m < s.nextWanted → s.findSeg m ≠ none := by
  obtain ⟨h1, h2, h3⟩ := s.nextAbsent_spec s.ds.segs.length s.chainStart
  refine ⟨h1, h3.elim id fun h3 => ?_, h2⟩
  by_contra hc
  refine s.findSeg_gap s.chainStart fun m h4 h5 => ?_
  by_cases he : m = s.chainStart + s.ds.segs.length
  · rw [he, ← h3]
    exact hc
  · exact h2 m h4 (by omega)

theorem State.readyFrom_spec (s : State) (fuel n : Nat) : ∃ chain : List SegRecord,
    s.readyFrom fuel n = (chain.map (·.count)).sum ∧
    (∀ (i : Nat) (r : SegRecord), chain[i]? = some r → s.findSeg (n + i) = some r ∧ r.state = .ready) ∧
    ((∀ r, s.findSeg (n + chain.length) = some r → r.state ≠ .ready) ∨ chain.length = fuel) := by
  induction fuel generalizing n with
  | zero => exact ⟨[], by simp [State.readyFrom]⟩
  | succ f ih =>
    unfold State.readyFrom
    cases hf : s.findSeg n with
    | none => exact ⟨[], by simp [hf]⟩
    | some r =>
      by_cases hr : r.state = .ready
      · obtain ⟨c, h1, h2, h3⟩ := ih (n + 1)
        refine ⟨r :: c, by simp [hr, h1], fun i q hq => ?_, ?_⟩
        · cases i with
          | zero => simp at hq; subst hq; exact ⟨hf, hr⟩
          | succ i =>
            have := h2 i q (by simpa using hq)
            rwa [show n + 1 + i = n + (i + 1) by omega] at this
        · rw [List.length_cons, show n + (c.length + 1) = n + 1 + c.length by omega]
          exact h3.imp_right (by omega)
      · exact ⟨[], by simp [hr, hf]⟩

/-- The ready-ahead count is that of the unbroken READY records from the chain's start on (R18). -/
theorem State.readyAhead_spec (s : State) : ∃ chain : List SegRecord,
    s.readyAhead = (chain.map (·.count)).sum ∧
    (∀ (i : Nat) (r : SegRecord), chain[i]? = some r → s.findSeg (s.chainStart + i) = some r ∧ r.state = .ready) ∧
    ∀ r, s.findSeg (s.chainStart + chain.length) = some r → r.state ≠ .ready := by
  obtain ⟨c, h1, h2, h3⟩ := s.readyFrom_spec s.ds.segs.length s.chainStart
  refine ⟨c, h1, h2, h3.elim id fun h3 r hr _ => ?_⟩
  refine s.findSeg_gap s.chainStart fun m h4 h5 => ?_
  by_cases he : m = s.chainStart + s.ds.segs.length
  · rw [he, ← h3, hr]
    simp
  · have := h2 (m - s.chainStart) _ (List.getElem?_eq_getElem (show m - s.chainStart < c.length by omega))
    rw [show s.chainStart + (m - s.chainStart) = m by omega] at this
    simp [this]

end Sys2Proof.Machine
end

