-- ==== Sys2Proof/Laws/Heads.lean ====
section
/-! SUPPORT. Doing something for every head: what one head's record holds after an update, and the
laws of `State.forHeads`. -/

namespace Sys2Proof.Machine

/-! ## One head's records after an update -/

theorem State.head_setHead (s : State) (h g : HeadId) (r : HeadRecord) :
    (s.setHead h r).head g = if g = h then r else s.head g := by
  unfold State.head State.setHead
  by_cases e : g = h
  · subst e; simp
  · have : h.val ≠ g.val := fun x => e (Fin.ext x.symm)
    simp [e, this]

theorem State.sel_setSel (s : State) (h g : HeadId) (r : SelectorHead) :
    (s.setSel h r).sel g = if g = h then r else s.sel g := by
  unfold State.sel State.setSel
  by_cases e : g = h
  · subst e; simp
  · have : h.val ≠ g.val := fun x => e (Fin.ext x.symm)
    simp [e, this]

theorem State.meter_setMeter (s : State) (h g : HeadId) (m : Meter) :
    (s.setMeter h m).meter g = if g = h then m else s.meter g := by
  unfold State.meter State.setMeter
  by_cases e : g = h
  · subst e; simp
  · have : h.val ≠ g.val := fun x => e (Fin.ext x.symm)
    simp [e, this]

theorem State.faultHead_setFaultHead (s : State) (h g : HeadId) (f : FaultHead) :
    (s.setFaultHead h f).faultHead g = if g = h then f else s.faultHead g := by
  unfold State.faultHead State.setFaultHead
  by_cases e : g = h
  · subst e; simp
  · have : h.val ≠ g.val := fun x => e (Fin.ext x.symm)
    simp [e, this]

@[simp] theorem State.head_setHead_self (s : State) (h : HeadId) (r : HeadRecord) :
    (s.setHead h r).head h = r := by simp [State.head_setHead]

@[simp] theorem State.sel_setSel_self (s : State) (h : HeadId) (r : SelectorHead) :
    (s.setSel h r).sel h = r := by simp [State.sel_setSel]

@[simp] theorem State.meter_setMeter_self (s : State) (h : HeadId) (m : Meter) :
    (s.setMeter h m).meter h = m := by simp [State.meter_setMeter]

@[simp] theorem State.faultHead_setFaultHead_self (s : State) (h : HeadId) (f : FaultHead) :
    (s.setFaultHead h f).faultHead h = f := by simp [State.faultHead_setFaultHead]

/-- Reads of one block see that block alone. -/
theorem State.head_congr {s t : State} (h : t.hs = s.hs) (g : HeadId) : t.head g = s.head g := by
  simp [State.head, h]

theorem State.sel_congr {s t : State} (h : t.ts = s.ts) (g : HeadId) : t.sel g = s.sel g := by
  simp [State.sel, h]

theorem State.meter_congr {s t : State} (h : t.tm = s.tm) (g : HeadId) : t.meter g = s.meter g := by
  simp [State.meter, h]

/-! ## Every head in turn -/

theorem mem_allHeads (h : HeadId) : h ∈ allHeads := List.mem_finRange h

theorem allHeads_nodup : allHeads.Nodup := List.nodup_finRange 16

variable {p : HeadId → Bool} {f : HeadId → State → State}

/-- What each head's turn keeps, all of them keep. -/
theorem State.forHeads_keep {P : State → Prop} (hf : ∀ h t, p h = true → P t → P (f h t)) {s : State}
    (hs : P s) : P (State.forHeads p f s) := by
  unfold State.forHeads
  generalize allHeads = l
  induction l generalizing s with
  | nil => exact hs
  | cons h l ih =>
    rw [List.foldl_cons]
    refine ih ?_
    by_cases hp : p h = true
    · simpa [hp] using hf h s hp hs
    · simpa [hp] using hs

/-- Where no head's turn changes the state, nothing changes. -/
theorem State.forHeads_id {s : State} (hf : ∀ h, p h = true → f h s = s) : State.forHeads p f s = s := by
  unfold State.forHeads
  generalize allHeads = l
  induction l with
  | nil => rfl
  | cons h l ih =>
    rw [List.foldl_cons]
    by_cases hp : p h = true
    · simp only [hp, if_true, hf h hp]; exact ih
    · simp only [hp]; exact ih

/-- A view that no head's turn changes. -/
theorem State.forHeads_view {α : Type} {g : State → α} (hf : ∀ h t, g (f h t) = g t) (s : State) :
    g (State.forHeads p f s) = g s :=
  State.forHeads_keep (P := fun t => g t = g s) (fun h t _ ht => (hf h t).trans ht) rfl

/-- What one head's view holds after every head's turn: its own turn's work, on what it held before. -/
theorem State.forHeads_at {β : Type} {g : State → HeadId → β} (F : HeadId → β → β)
    (own : ∀ h t, g (f h t) h = F h (g t h)) (other : ∀ h k t, k ≠ h → g (f h t) k = g t k)
    (s : State) (k : HeadId) :
    g (State.forHeads p f s) k = if p k then F k (g s k) else g s k := by
  have key : ∀ (l : List HeadId), l.Nodup → ∀ s : State,
      g (l.foldl (fun s h => if p h then f h s else s) s) k =
        if k ∈ l ∧ p k = true then F k (g s k) else g s k := by
    intro l
    induction l with
    | nil => simp
    | cons h l ih =>
      intro hn s
      obtain ⟨hh, hl⟩ := List.nodup_cons.1 hn
      rw [List.foldl_cons, ih hl]
      by_cases e : k = h
      · subst e
        by_cases hp : p k = true <;> simp [hp, hh, own]
      · have : g (if p h = true then f h s else s) k = g s k := by
          split
          · exact other h k s e
          · rfl
        simp [this, e]
  have := key allHeads allHeads_nodup s
  unfold State.forHeads
  simpa [mem_allHeads k] using this

end Sys2Proof.Machine
end

