-- ==== Sys2Proof/Laws/Halts.lean ====
section
/-! SUPPORT. What a halt changes, said once: the part's own stops, the end of service and of a repair
pass, the entry to HALTED, the immediate halt. A statement about a halt cites these instead of
unfolding it. -/

namespace Sys2Proof.Machine

/-! ## The ends of service and of a repair pass -/

theorem State.freeIfDone_shape (s : State) (n : Nat) : s.freeIfDone n = { s with ds := { s.ds with
    segs := (s.freeIfDone n).ds.segs, pool := (s.freeIfDone n).ds.pool
    loadWant := (s.freeIfDone n).ds.loadWant } } := by
  unfold State.freeIfDone
  split
  · split <;> rfl
  · rfl

theorem State.endService_shape (s : State) : s.endService = { s with ds := { s.ds with
    segs := s.endService.ds.segs, pool := s.endService.ds.pool, loadWant := s.endService.ds.loadWant
    served := none } } := by
  unfold State.endService
  split
  · rw [State.freeIfDone_shape]
  · rename_i h; rw [← h]

theorem State.endRepairPass_shape (s : State) : s.endRepairPass = { s with
    rt := s.endRepairPass.rt, hs := { s.hs with heads := s.endRepairPass.hs.heads }
    rl := { s.rl with sticky := s.endRepairPass.rl.sticky } } := by
  have key : ∀ t : State, (t.forHeads (fun _ => true) fun h t => t.setHead h { t.head h with ranges := [] }) =
      { t with hs := { t.hs with
        heads := (t.forHeads (fun _ => true) fun h t => t.setHead h { t.head h with ranges := [] }).hs.heads } } := by
    intro t
    refine State.forHeads_keep (P := fun u => u = { t with hs := { t.hs with heads := u.hs.heads } }) ?_ rfl
    intro h u _ hu
    rw [hu]; rfl
  unfold State.endRepairPass
  dsimp only
  rw [key]
  split <;> rfl

theorem State.endRepairPass_head (s : State) (h : HeadId) :
    s.endRepairPass.head h = { s.head h with ranges := [] } := by
  have key : (State.forHeads (fun _ => true) (fun h t => t.setHead h { t.head h with ranges := [] })
      s.settleRecords).head h = { s.head h with ranges := [] } :=
    (State.forHeads_at (g := State.head) (fun _ r => { r with ranges := [] })
      (fun h t => by simp) (fun h k t e => by simp [State.head_setHead, e]) s.settleRecords h).trans rfl
  unfold State.endRepairPass
  dsimp only
  split
  · rw [State.head_congr (State.raise_hs _ _)]; exact key
  · exact key

theorem State.endPassIfAny_shape (s : State) : s.endPassIfAny = { s with
    rt := s.endPassIfAny.rt, hs := { s.hs with heads := s.endPassIfAny.hs.heads }
    rl := { s.rl with sticky := s.endPassIfAny.rl.sticky } } := by
  unfold State.endPassIfAny
  split
  · exact State.endRepairPass_shape s
  · rfl

theorem State.endPassIfAny_head (s : State) (h : HeadId) :
    s.endPassIfAny.head h = { s.head h with ranges := (s.endPassIfAny.head h).ranges } := by
  unfold State.endPassIfAny
  split
  · rw [State.endRepairPass_head]
  · rfl

/-! ## The entry to HALTED -/

theorem State.formContext_shape (s : State) (at_ : ResumePoint × Bool) : s.formContext at_ = { s with
    pc := { s.pc with point := (s.formContext at_).pc.point, trimmed := (s.formContext at_).pc.trimmed
                      faulted := (s.formContext at_).pc.faulted } } := by
  unfold State.formContext
  split <;> rfl

/-- All that an entry to HALTED changes (R34, R60, R77, R86). -/
theorem State.enterHalted_shape (s : State) (c : HaltCause) (at_ : ResumePoint × Bool) :
    s.enterHalted c at_ = { s with
      rl := { s.rl with sticky := (s.enterHalted c at_).rl.sticky }
      ds := { s.ds with segs := (s.enterHalted c at_).ds.segs, pool := (s.enterHalted c at_).ds.pool
                        loadWant := (s.enterHalted c at_).ds.loadWant, served := none }
      se := { s.se with context := none }
      pc := { (s.formContext at_).pc with state := .halted, cause := c, due := none, phase := .rest }
      ts := { s.ts with working := none }
      hs := { s.hs with heads := (s.enterHalted c at_).hs.heads }
      rt := (s.enterHalted c at_).rt } := by
  unfold State.enterHalted
  rw [State.endService_shape, State.endPassIfAny_shape, State.formContext_shape]
  rfl

theorem State.enterHalted_head (s : State) (c : HaltCause) (at_ : ResumePoint × Bool) (h : HeadId) :
    (s.enterHalted c at_).head h = { s.head h with ranges := ((s.enterHalted c at_).head h).ranges } := by
  have e1 : (s.enterHalted c at_).head h = (s.formContext at_).endIssue.endPassIfAny.head h := by
    refine State.head_congr ?_ h
    unfold State.enterHalted
    rw [State.endService_shape]; rfl
  have e2 : (s.formContext at_).endIssue.head h = s.head h := by
    refine State.head_congr ?_ h
    rw [State.formContext_shape]; rfl
  rw [e1, State.endPassIfAny_head, e2]

/-- The halt raises HALTED (R177). -/
theorem State.enterHalted_raises (s : State) (c : HaltCause) (at_ : ResumePoint × Bool) :
    (s.enterHalted c at_).rl.sticky.getLsbD 1 = true := by
  unfold State.enterHalted State.raise
  simp [attentionBit, Attention.code]

/-! ## The immediate halt -/

theorem State.abandonShift_shape (s : State) (h : HeadId) : s.abandonShift h = { s with
    hs := { s.hs with heads := (s.abandonShift h).hs.heads }
    ts := { s.ts with heads := (s.abandonShift h).ts.heads } } := by
  unfold State.abandonShift
  split
  · rfl
  · dsimp only; split <;> rfl

theorem State.abandonShift_sel (s : State) (h g : HeadId) : (s.abandonShift h).sel g =
    if g = h ∧ (s.sel h).shift ≠ none then { s.sel h with shift := none, current := none } else s.sel g := by
  unfold State.abandonShift
  split
  · rename_i e; simp [e]
  · rename_i sh e
    dsimp only
    have : ∀ t : State, t.ts = s.ts → (t.setSel h { t.sel h with shift := none, current := none }).sel g =
        if g = h ∧ (s.sel h).shift ≠ none then { s.sel h with shift := none, current := none } else s.sel g := by
      intro t ht
      rw [State.sel_setSel, State.sel_congr ht, State.sel_congr ht]
      simp [e]
    split
    · exact this s rfl
    · exact this _ rfl

theorem State.abandonShift_head (s : State) (h g : HeadId) : (s.abandonShift h).head g =
    { s.head g with selectNeedle := ((s.abandonShift h).head g).selectNeedle } := by
  unfold State.abandonShift
  split
  · rfl
  · dsimp only
    split
    · rfl
    · rw [State.head_congr (State.setSel_hs _ _ _), State.head_setHead]
      split
      · rename_i e; subst e; rfl
      · rfl

theorem State.dropOrders_shape (h : HeadId) (s : State) : s.dropOrders h = { s with
    hs := { s.hs with heads := (s.dropOrders h).hs.heads }
    ts := { s.ts with heads := (s.dropOrders h).ts.heads } } := by
  unfold State.dropOrders
  dsimp only
  rw [State.abandonShift_shape]
  rfl

theorem State.dropOrders_sel (h g : HeadId) (s : State) : (s.dropOrders h).sel g = if g = h then
    { s.sel h with current := if (s.sel h).shift = none then (s.sel h).current else none
                   shift := none, trim := none } else s.sel g := by
  unfold State.dropOrders
  dsimp only
  rw [State.sel_setSel, State.sel_congr (State.setHeadState_ts _ _ _), State.sel_congr (State.setHeadState_ts _ _ _),
    State.abandonShift_sel, State.abandonShift_sel]
  by_cases e : g = h <;> by_cases e' : (s.sel h).shift = none <;> simp [e, e']

theorem State.dropOrders_head (h g : HeadId) (s : State) : (s.dropOrders h).head g =
    { s.head g with state := if g = h then beforeShift (s.head h).state else (s.head g).state
                    selectNeedle := ((s.dropOrders h).head g).selectNeedle } := by
  unfold State.dropOrders
  dsimp only
  rw [State.head_congr (State.setSel_hs _ _ _)]
  unfold State.setHeadState
  rw [State.head_setHead]
  by_cases e : g = h
  · subst e; simp only [if_true]; rw [State.abandonShift_head]
  · simp only [e, if_false]; exact State.abandonShift_head _ _ _

theorem State.abandonOrders_shape (s : State) : s.abandonOrders = { s with
    hs := { s.hs with heads := s.abandonOrders.hs.heads }
    ts := { s.ts with heads := s.abandonOrders.ts.heads, trimNamed := 0 } } := by
  have key : s.forHeads (fun _ => true) State.dropOrders = { s with
      hs := { s.hs with heads := (s.forHeads (fun _ => true) State.dropOrders).hs.heads }
      ts := { s.ts with heads := (s.forHeads (fun _ => true) State.dropOrders).ts.heads } } := by
    refine State.forHeads_keep (P := fun u => u = { s with
      hs := { s.hs with heads := u.hs.heads }, ts := { s.ts with heads := u.ts.heads } }) ?_ rfl
    intro h u _ hu
    rw [hu, State.dropOrders_shape]
  unfold State.abandonOrders
  generalize s.forHeads (fun _ => true) State.dropOrders = u at key
  rw [key]
  rfl

theorem State.forgetTrims_sel (s : State) (h : HeadId) : s.forgetTrims.sel h = s.sel h := rfl

theorem State.forgetTrims_head (s : State) (h : HeadId) : s.forgetTrims.head h = s.head h := rfl

theorem State.abandonOrders_sel (s : State) (h : HeadId) : s.abandonOrders.sel h =
    { s.sel h with current := if (s.sel h).shift = none then (s.sel h).current else none
                   shift := none, trim := none } := by
  have key := State.forHeads_at (p := fun _ => true) (f := State.dropOrders) (g := State.sel)
    (fun _ x => { x with current := if x.shift = none then x.current else none, shift := none, trim := none })
    (fun h t => by rw [State.dropOrders_sel, if_pos rfl])
    (fun h k t e => by rw [State.dropOrders_sel, if_neg e]) s h
  rw [if_pos rfl] at key
  unfold State.abandonOrders
  rw [State.forgetTrims_sel, key]

theorem State.abandonOrders_head (s : State) (h : HeadId) : s.abandonOrders.head h =
    { s.head h with state := beforeShift (s.head h).state
                    selectNeedle := (s.abandonOrders.head h).selectNeedle } := by
  have key := State.forHeads_at (p := fun _ => true) (f := State.dropOrders)
    (g := fun t h => { t.head h with selectNeedle := none })
    (fun _ x => { x with state := beforeShift x.state })
    (fun h t => by rw [State.dropOrders_head]; simp)
    (fun h k t e => by rw [State.dropOrders_head]; simp [e]) s h
  rw [if_pos rfl] at key
  have this : ∀ a b : HeadRecord, { a with selectNeedle := none } = { b with selectNeedle := none } →
      a = { b with selectNeedle := a.selectNeedle } := by
    intro a b e
    cases a; cases b; simp at e ⊢; exact e
  unfold State.abandonOrders
  rw [State.forgetTrims_head]
  generalize (State.forHeads (fun _ => true) State.dropOrders s).head h = a at key
  exact this a { s.head h with state := beforeShift (s.head h).state } key

/-- The state an immediate halt enters HALTED from. -/
theorem State.stopped_shape (s : State) : s.noteStop.immediateStop.abandonOrders = { s with
    se := { s.se with plan := none }
    mp := s.immediateStop.mp
    pc := s.noteStop.pc
    hs := { s.hs with heads := s.noteStop.immediateStop.abandonOrders.hs.heads }
    ts := { s.ts with heads := s.noteStop.immediateStop.abandonOrders.ts.heads, trimNamed := 0 } } := by
  generalize hu : s.noteStop.immediateStop = u
  rw [State.abandonOrders_shape]
  subst hu
  rfl

/-- All that an immediate halt changes where it acts (R54, R76, R78). -/
theorem State.immediateHalt_shape (s : State) (c : HaltCause) (h : s.pc.state.moving = true) :
    s.immediateHalt c = { s with
      rl := { s.rl with sticky := (s.immediateHalt c).rl.sticky }
      ds := { s.ds with segs := (s.immediateHalt c).ds.segs, pool := (s.immediateHalt c).ds.pool
                        loadWant := (s.immediateHalt c).ds.loadWant, served := none }
      se := ⟨none, none⟩
      mp := s.immediateStop.mp
      pc := { (s.noteStop.formContext s.stands).pc with state := .halted, cause := c, due := none, phase := .rest }
      ts := { s.ts with working := none, heads := (s.immediateHalt c).ts.heads, trimNamed := 0 }
      hs := { s.hs with heads := (s.immediateHalt c).hs.heads }
      rt := (s.immediateHalt c).rt } := by
  unfold State.immediateHalt
  rw [if_pos h]
  dsimp only
  have hu := State.stopped_shape s
  generalize s.noteStop.immediateStop.abandonOrders = u at hu
  rw [State.enterHalted_shape]
  have e : (u.formContext s.stands).pc = (s.noteStop.formContext s.stands).pc := by
    have e1 : u.pc = s.noteStop.pc := by rw [hu]
    unfold State.formContext
    rw [e1]
    split
    · exact e1
    · rfl
  rw [e]
  generalize u.enterHalted c s.stands = v
  rw [hu]

theorem State.immediateHalt_sel (s : State) (c : HaltCause) (hm : s.pc.state.moving = true) (h : HeadId) :
    (s.immediateHalt c).sel h =
      { s.sel h with current := if (s.sel h).shift = none then (s.sel h).current else none
                     shift := none, trim := none } := by
  unfold State.immediateHalt
  rw [if_pos hm]
  dsimp only
  have e : ∀ u : State, (u.enterHalted c s.stands).sel h = u.sel h := by
    intro u; rw [State.enterHalted_shape]; rfl
  rw [e, State.abandonOrders_sel]
  rfl

theorem State.immediateHalt_head (s : State) (c : HaltCause) (hm : s.pc.state.moving = true) (h : HeadId) :
    (s.immediateHalt c).head h =
      { s.head h with state := beforeShift (s.head h).state
                      selectNeedle := ((s.immediateHalt c).head h).selectNeedle
                      ranges := ((s.immediateHalt c).head h).ranges } := by
  unfold State.immediateHalt
  rw [if_pos hm]
  dsimp only
  have e : s.noteStop.immediateStop.head h = s.head h := rfl
  generalize s.noteStop.immediateStop = u at e ⊢
  rw [State.enterHalted_head, State.abandonOrders_head, e]

theorem State.immediateHalt_raises (s : State) (c : HaltCause) (hm : s.pc.state.moving = true) :
    (s.immediateHalt c).rl.sticky.getLsbD 1 = true := by
  unfold State.immediateHalt
  rw [if_pos hm]
  exact State.enterHalted_raises _ _ _

theorem State.immediateHalt_rest (s : State) (c : HaltCause) (hm : s.pc.state.moving = false) :
    s.immediateHalt c = s := by
  unfold State.immediateHalt
  rw [if_neg (by simp [hm])]

end Sys2Proof.Machine
end

