-- ==== Sys2Proof/Laws/Pins.lean ====
section
/-! SUPPORT. What each operation on the Segment Table and on the Repair Table does to the agreement of
pins and records (R16, R148, R149). -/

namespace Sys2Proof.Machine

variable {segs segs' : List SegRecord} {records : List RepairRecord}

theorem record_slot_inj {l : List RepairRecord} (h : (l.map (·.slot)).Pairwise (· < ·)) {q r : RepairRecord}
    (hq : q ∈ l) (hr : r ∈ l) (e : q.slot = r.slot) : q = r := by
  induction l with
  | nil => cases hq
  | cons c l ih =>
    simp only [List.map_cons, List.pairwise_cons, List.mem_map, forall_exists_index, and_imp,
      forall_apply_eq_imp_iff₂] at h
    rcases List.mem_cons.1 hq with e1 | h1 <;> rcases List.mem_cons.1 hr with e2 | h2
    · rw [e1, e2]
    · have := h.1 r h2; rw [e1] at e; omega
    · have := h.1 q h1; rw [e2] at e; omega
    · exact ih h.2 h1 h2

/-- A change of the segments that keeps numbers and pins, and unpins no state. -/
theorem PinsMatch.map (h : PinsMatch segs records) (f : SegRecord → SegRecord)
    (hf : ∀ q ∈ segs, (f q).number = q.number ∧ (f q).pins = q.pins ∧
      ((q.state = .active ∨ q.state = .sewn) → (f q).state = .active ∨ (f q).state = .sewn)) :
    PinsMatch (segs.map f) records := by
  refine ⟨h.1, fun q hq => ⟨(h.2.1 q hq).1, ?_⟩, fun r hr => ?_⟩
  · obtain ⟨r, hr, e⟩ := (h.2.1 q hq).2
    exact ⟨f r, List.mem_map.2 ⟨r, hr, rfl⟩, (hf r hr).1.trans e⟩
  · obtain ⟨q, hq, rfl⟩ := List.mem_map.1 hr
    obtain ⟨e1, e2, e3⟩ := hf q hq
    obtain ⟨p1, p2⟩ := h.2.2 q hq
    exact ⟨by rw [e1, e2]; exact p1, fun hp => e3 (p2 (e2 ▸ hp))⟩

/-- A segment without pins leaves the table. -/
theorem PinsMatch.free (h : PinsMatch segs records) (hs : (segs.map (·.slot)).Pairwise (· < ·))
    {r : SegRecord} (hr : r ∈ segs) (hp : r.pins = 0) :
    PinsMatch (segs.filter (·.slot != r.slot)) records := by
  refine ⟨h.1, fun q hq => ⟨(h.2.1 q hq).1, ?_⟩, fun x hx => h.2.2 x (List.mem_filter.1 hx).1⟩
  obtain ⟨x, hx, e⟩ := (h.2.1 q hq).2
  refine ⟨x, List.mem_filter.2 ⟨hx, ?_⟩, e⟩
  rw [bne_iff_ne]
  intro es
  have : x = r := pairwise_slot_inj hs hx hr es
  subst this
  have hc := (h.2.2 x hr).1
  rw [hp, eq_comm, List.length_eq_zero_iff, List.filter_eq_nil_iff] at hc
  exact hc q hq (by simp [e])

/-- A segment that no record names joins the table. -/
theorem PinsMatch.add (h : PinsMatch segs records) {r : SegRecord} (hp : r.pins = 0)
    (hn : ∀ q ∈ segs, q.number ≠ r.number) : PinsMatch (insertSeg r segs) records := by
  have perm := insertSeg_perm r segs
  refine ⟨h.1, fun q hq => ⟨(h.2.1 q hq).1, ?_⟩, fun x hx => ?_⟩
  · obtain ⟨x, hx, e⟩ := (h.2.1 q hq).2
    exact ⟨x, perm.symm.subset (List.mem_cons_of_mem _ hx), e⟩
  · rcases List.mem_cons.1 (perm.subset hx) with rfl | hx
    · refine ⟨?_, fun h0 => by omega⟩
      rw [hp, eq_comm, List.length_eq_zero_iff, List.filter_eq_nil_iff]
      intro q hq e
      obtain ⟨y, hy, ey⟩ := (h.2.1 q hq).2
      exact hn y hy (ey.trans (beq_iff_eq.1 e))
    · exact h.2.2 x hx

/-- Records that keep their slots and segments. -/
theorem PinsMatch.mapRecords (h : PinsMatch segs records) (f : RepairRecord → RepairRecord)
    (hf : ∀ q ∈ records, (f q).slot = q.slot ∧ (f q).segment = q.segment) :
    PinsMatch segs (records.map f) := by
  refine ⟨?_, fun q hq => ?_, fun r hr => ?_⟩
  · have e : (records.map f).map (·.slot) = records.map (·.slot) := by
      rw [List.map_map]; exact List.map_congr_left fun q hq => (hf q hq).1
    rw [e]; exact h.1
  · obtain ⟨x, hx, rfl⟩ := List.mem_map.1 hq
    obtain ⟨e1, e2⟩ := hf x hx
    rw [e1, e2]; exact h.2.1 x hx
  · refine ⟨?_, (h.2.2 r hr).2⟩
    rw [(h.2.2 r hr).1, List.filter_map, List.length_map]
    congr 1
    exact List.filter_congr fun q hq => by simp [(hf q hq).2]

/-- The records without the one of a slot. -/
theorem filter_slot_count {l : List RepairRecord} (h : (l.map (·.slot)).Pairwise (· < ·)) {r : RepairRecord}
    (hr : r ∈ l) (n : Nat) :
    (l.filter (·.segment == n)).length =
      ((l.filter (·.slot != r.slot)).filter (·.segment == n)).length + if r.segment = n then 1 else 0 := by
  induction l with
  | nil => cases hr
  | cons c l ih =>
    have hc := h
    simp only [List.map_cons, List.pairwise_cons, List.mem_map, forall_exists_index, and_imp,
      forall_apply_eq_imp_iff₂] at h
    rcases List.mem_cons.1 hr with rfl | hr
    · have : l.filter (·.slot != r.slot) = l := by
        rw [List.filter_eq_self]
        intro q hq
        have := h.1 q hq
        simp; omega
      have top : (r :: l).filter (·.slot != r.slot) = l := by
        rw [List.filter_cons, this]; simp
      rw [top, List.filter_cons]
      by_cases e : r.segment = n <;> simp [e]
    · have hne : c.slot ≠ r.slot := by have := h.1 r hr; omega
      have i := ih h.2 hr
      have top : (c :: l).filter (·.slot != r.slot) = c :: l.filter (·.slot != r.slot) := by
        rw [List.filter_cons]; simp [hne]
      rw [top, List.filter_cons, List.filter_cons (xs := l.filter _)]
      by_cases e : c.segment = n
      · simp only [e, beq_self_eq_true, if_true, List.length_cons, i]; omega
      · simp [e, i]

theorem insertRecord_perm (r : RepairRecord) (l : List RepairRecord) : (insertRecord r l).Perm (r :: l) := by
  induction l with
  | nil => exact List.Perm.refl _
  | cons c l ih =>
    unfold insertRecord
    split
    · exact (List.Perm.cons c ih).trans (List.Perm.swap r c _)
    · exact List.Perm.refl _

theorem insertRecord_rises {r : RepairRecord} {l : List RepairRecord} (h : (l.map (·.slot)).Pairwise (· < ·))
    (hn : ∀ q ∈ l, q.slot ≠ r.slot) : ((insertRecord r l).map (·.slot)).Pairwise (· < ·) := by
  induction l with
  | nil => simp [insertRecord]
  | cons c l ih =>
    have h' := h
    simp only [List.map_cons, List.pairwise_cons, List.mem_map, forall_exists_index, and_imp,
      forall_apply_eq_imp_iff₂] at h
    unfold insertRecord
    split
    · rename_i hlt
      simp only [List.map_cons, List.pairwise_cons, List.mem_map, forall_exists_index, and_imp,
        forall_apply_eq_imp_iff₂]
      refine ⟨fun q hq => ?_, ih h.2 fun q hq => hn q (by simp [hq])⟩
      rcases List.mem_cons.1 ((insertRecord_perm r l).subset hq) with rfl | hq
      · exact hlt
      · exact h.1 q hq
    · rename_i hge
      have hne := hn c (by simp)
      rw [List.map_cons, List.pairwise_cons]
      refine ⟨?_, h'⟩
      intro x hx
      simp only [List.map_cons, List.mem_cons, List.mem_map] at hx
      rcases hx with rfl | ⟨q, hq, rfl⟩
      · omega
      · have := h.1 q hq; omega

/-! ## The operations of the Design Store -/

section
variable {s : State}

theorem State.Pinned.put (h : s.Pinned) {r r' : SegRecord} (hd : s.ds.Sound) (hr : r ∈ s.ds.segs)
    (e1 : r'.slot = r.slot) (e2 : r'.number = r.number) (e3 : r'.pins = r.pins)
    (e4 : (r.state = .active ∨ r.state = .sewn) → r'.state = .active ∨ r'.state = .sewn) :
    (s.putSeg r').Pinned := by
  refine PinsMatch.map h _ fun q hq => ?_
  by_cases e : q.slot = r'.slot
  · have : q = r := pairwise_slot_inj hd.1 hq hr (by rw [e, e1])
    subst this
    simp only [e, if_true]
    exact ⟨e2, e3, e4⟩
  · simp only [e, if_false]
    exact ⟨trivial, trivial, id⟩

theorem State.Pinned.freeIfDone (h : s.Pinned) (hd : s.ds.Sound) (n : Nat) : (s.freeIfDone n).Pinned := by
  unfold State.freeIfDone
  split
  · rename_i r hr
    split
    · rename_i c
      exact PinsMatch.free h hd.1 (State.findSeg_mem hr).1 c.2.1
    · exact h
  · exact h

/-! ## The operations of the Repair Table -/

theorem State.Pinned.putRecord (h : s.Pinned) {q r : RepairRecord} (hq : q ∈ s.rt.records)
    (e1 : q.slot = r.slot) (e2 : q.segment = r.segment) : (s.putRecord r).Pinned := by
  refine PinsMatch.mapRecords h _ fun x hx => ?_
  by_cases e : x.slot = r.slot
  · have : x = q := record_slot_inj h.1 hx hq (by rw [e, e1])
    subst this
    simp only [e, if_true]
    exact ⟨trivial, e2.symm⟩
  · simp [e]

theorem State.Pinned.retire (h : s.Pinned) (hd : s.ds.Sound) {q r : RepairRecord} (hq : q ∈ s.rt.records)
    (e1 : q.slot = r.slot) (e2 : q.segment = r.segment) : (s.retire r).Pinned := by
  have count := filter_slot_count h.1 hq
  rw [e1] at count
  have rises : ((s.rt.records.filter (·.slot != r.slot)).map (·.slot)).Pairwise (· < ·) :=
    h.1.sublist (List.filter_sublist.map _)
  unfold State.retire State.release
  split
  · rename_i x hx
    obtain ⟨mx, nx⟩ := State.findSeg_mem hx
    change x ∈ s.ds.segs at mx
    have key : ∀ y ∈ s.ds.segs, y.number = x.number → y = x := fun y hy e =>
      List.inj_on_of_nodup_map hd.2.1 hy mx e
    have hd' : Store.Sound (State.putSeg
        { s with rt := { s.rt with records := s.rt.records.filter (·.slot != r.slot) } }
        { x with pins := x.pins - 1 }).ds :=
      Store.Sound.put (s := { s with rt := { s.rt with records := s.rt.records.filter (·.slot != r.slot) } })
        hd mx rfl rfl rfl rfl (hd.2.2.2 x mx).2
    refine State.Pinned.freeIfDone ?_ hd' _
    · refine ⟨rises, fun z hz => ?_, fun y hy => ?_⟩
      · obtain ⟨hl, w, hw, ew⟩ := h.2.1 z (List.mem_filter.1 hz).1
        refine ⟨hl, _, List.mem_map.2 ⟨w, hw, rfl⟩, ?_⟩
        split
        · rename_i e
          have : w = x := pairwise_slot_inj hd.1 hw mx e
          rw [← ew, this]
        · exact ew
      · obtain ⟨w, hw, rfl⟩ := List.mem_map.1 hy
        change w ∈ s.ds.segs at hw
        have pw := h.2.2 w hw
        have cw := count w.number
        split
        · rename_i e
          have : w = x := pairwise_slot_inj hd.1 hw mx e
          subst this
          have : q.segment = w.number := by rw [e2, nx]
          rw [this, if_pos rfl] at cw
          refine ⟨?_, fun hp => pw.2 ?_⟩
          · show w.pins - 1 = _
            rw [pw.1, cw]; rfl
          · have : 0 < w.pins - 1 := hp
            omega
        · rename_i e
          have : q.segment ≠ w.number := fun c => e (by rw [key w hw (by rw [← c, e2, nx])])
          rw [if_neg this] at cw
          exact ⟨pw.1.trans cw, pw.2⟩
  · rename_i hx
    obtain ⟨-, y, hy, e⟩ := h.2.1 q hq
    exfalso
    have : (List.find? (fun z => z.number == r.segment) s.ds.segs).isSome = true := by
      rw [List.find?_isSome]; exact ⟨y, hy, by simp [e, e2]⟩
    unfold State.findSeg at hx
    change List.find? (fun z => z.number == r.segment) s.ds.segs = none at hx
    rw [hx] at this; cases this

/-- A record of a present segment that is ACTIVE or SEWN joins in a free slot, with its pin. -/
theorem State.Pinned.create (h : s.Pinned) (hd : s.ds.Sound) {r : RepairRecord} (hl : r.slot < 128)
    (hn : ∀ q ∈ s.rt.records, q.slot ≠ r.slot) (hg : s.recordable r.segment = true) :
    (({ s with rt := { s.rt with records := insertRecord r s.rt.records } }).pin r.segment).Pinned := by
  have perm := insertRecord_perm r s.rt.records
  have count : ∀ n, ((insertRecord r s.rt.records).filter (·.segment == n)).length =
      (s.rt.records.filter (·.segment == n)).length + if r.segment = n then 1 else 0 := by
    intro n
    rw [(perm.filter _).length_eq, List.filter_cons]
    by_cases e : r.segment = n <;> simp [e]
  unfold State.recordable at hg
  cases hx : s.findSeg r.segment with
  | none => simp [hx] at hg
  | some x =>
    simp only [hx, Option.elim, Bool.or_eq_true, beq_iff_eq] at hg
    obtain ⟨mx, nx⟩ := State.findSeg_mem hx
    have key : ∀ y ∈ s.ds.segs, y.number = x.number → y = x := fun y hy e =>
      List.inj_on_of_nodup_map hd.2.1 hy mx e
    have hx' : State.findSeg { s with rt := { s.rt with records := insertRecord r s.rt.records } } r.segment =
        some x := hx
    unfold State.pin
    rw [hx']
    refine ⟨insertRecord_rises h.1 hn, fun z hz => ?_, fun y hy => ?_⟩
    · have hz := List.mem_cons.1 (perm.subset hz)
      obtain ⟨hl', w, hw, ew⟩ : z.slot < 128 ∧ ∃ w ∈ s.ds.segs, w.number = z.segment := by
        rcases hz with rfl | hz
        · exact ⟨hl, x, mx, nx⟩
        · exact h.2.1 z hz
      refine ⟨hl', _, List.mem_map.2 ⟨w, hw, rfl⟩, ?_⟩
      split
      · rename_i e
        have : w = x := pairwise_slot_inj hd.1 hw mx e
        rw [← ew, this]
      · exact ew
    · obtain ⟨w, hw, rfl⟩ := List.mem_map.1 hy
      change w ∈ s.ds.segs at hw
      have pw := h.2.2 w hw
      have cw := count w.number
      split
      · rename_i e
        have : w = x := pairwise_slot_inj hd.1 hw mx e
        subst this
        rw [if_pos nx.symm] at cw
        refine ⟨?_, fun _ => hg⟩
        show w.pins + 1 = _
        rw [pw.1]; exact cw.symm
      · rename_i e
        have : r.segment ≠ w.number := fun c => e (by rw [key w hw (by rw [← c, nx])])
        rw [if_neg this] at cw
        exact ⟨pw.1.trans cw.symm, pw.2⟩

end

end Sys2Proof.Machine
end

