-- ==== Sys2Proof/Laws/Keeps.lean ====
section
/-! SUPPORT. What the part's operations keep, said once: the queue, the soundness of the Design Store,
of the Motion Planner, of the fault counts, the order of the parameters, the canonical form of the
Stitch Memory, and the agreement of pins and repair records. `Keeps a s` reads: s holds all of these that a holds. -/

namespace Sys2Proof.Machine

/-- The state `s`, made from `a`, has the queue of `a` and is sound wherever `a` is. -/
structure Keeps (a s : State) : Prop where
  queue : s.pending = a.pending
  store : a.ds.Sound → s.ds.Sound
  memory : Memory.wf a.ds.memory = true → Memory.wf s.ds.memory = true
  motion : a.mp.Sound → s.mp.Sound
  faults : a.fr.Sound → s.fr.Sound
  params : a.par.Sound → s.par.Sound
  pins : a.ds.Sound → a.Pinned → s.Pinned

theorem Keeps.refl (a : State) : Keeps a a := ⟨rfl, id, id, id, id, id, fun _ => id⟩

theorem Keeps.trans {a b c : State} (x : Keeps a b) (y : Keeps b c) : Keeps a c :=
  ⟨y.queue.trans x.queue, y.store ∘ x.store, y.memory ∘ x.memory, y.motion ∘ x.motion,
    y.faults ∘ x.faults, y.params ∘ x.params,
    fun hd hp => y.pins (x.store hd) (x.pins hd hp)⟩

section
variable {a s t : State}

/-- An update of blocks that no soundness condition reads. -/
theorem Keeps.frame (k : Keeps a s) (h1 : t.pending = s.pending) (h2 : t.ds = s.ds) (h3 : t.mp = s.mp)
    (h4 : t.fr = s.fr) (h5 : t.par = s.par) (h6 : t.rt.records = s.rt.records) : Keeps a t := by
  refine ⟨h1.trans k.queue, ?_, ?_, ?_, ?_, ?_, ?_⟩
  · rw [h2]; exact k.store
  · rw [h2]; exact k.memory
  · rw [h3]; exact k.motion
  · rw [h4]; exact k.faults
  · rw [h5]; exact k.params
  · unfold State.Pinned; rw [h2, h6]; exact k.pins

/-- An update of the Motion Planner (and of blocks no condition reads). -/
theorem Keeps.move (k : Keeps a s) (h1 : t.pending = s.pending) (h2 : t.ds = s.ds)
    (h3 : s.mp.Sound → t.mp.Sound) (h4 : t.fr = s.fr) (h5 : t.par = s.par)
    (h6 : t.rt.records = s.rt.records) : Keeps a t := by
  refine ⟨h1.trans k.queue, ?_, ?_, h3 ∘ k.motion, ?_, ?_, ?_⟩
  · rw [h2]; exact k.store
  · rw [h2]; exact k.memory
  · rw [h4]; exact k.faults
  · rw [h5]; exact k.params
  · unfold State.Pinned; rw [h2, h6]; exact k.pins

/-- An update of the Design Store (and of blocks no condition reads). -/
theorem Keeps.stored (k : Keeps a s) (h1 : t.pending = s.pending) (h2 : s.ds.Sound → t.ds.Sound)
    (h2' : Memory.wf s.ds.memory = true → Memory.wf t.ds.memory = true) (h3 : t.mp = s.mp)
    (h4 : t.fr = s.fr) (h5 : t.par = s.par) (h6 : s.ds.Sound → s.Pinned → t.Pinned) : Keeps a t := by
  refine ⟨h1.trans k.queue, h2 ∘ k.store, h2' ∘ k.memory, ?_, ?_, ?_, fun hd hp => h6 (k.store hd) (k.pins hd hp)⟩
  · rw [h3]; exact k.motion
  · rw [h4]; exact k.faults
  · rw [h5]; exact k.params

/-- An update of the Repair Table's records (and of blocks no condition reads). -/
theorem Keeps.recorded (k : Keeps a s) (h1 : t.pending = s.pending) (h2 : t.ds = s.ds) (h3 : t.mp = s.mp)
    (h4 : t.fr = s.fr) (h5 : t.par = s.par) (h6 : s.ds.Sound → s.Pinned → t.Pinned) : Keeps a t :=
  k.stored h1 (h2 ▸ id) (h2 ▸ id) h3 h4 h5 h6

/-- Keeping, and a thing that may or may not be there. -/
theorem Keeps.elim {α : Type} {o : Option α} {f : α → State} (k : Keeps a s)
    (hf : ∀ x, o = some x → Keeps a (f x)) : Keeps a (o.elim s f) := by
  cases o with
  | none => exact k
  | some x => exact hf x rfl

theorem Keeps.ite {c : Prop} [Decidable c] {u : State} (h : c → Keeps a s) (h' : ¬ c → Keeps a u) :
    Keeps a (if c then s else u) := by
  split
  · exact h ‹_›
  · exact h' ‹_›

/-! ## Plain updates -/

theorem Keeps.raise (k : Keeps a s) (c : Attention) : Keeps a (s.raise c) := k.frame rfl rfl rfl rfl rfl rfl
theorem Keeps.setHead (k : Keeps a s) (h : HeadId) (r : HeadRecord) : Keeps a (s.setHead h r) :=
  k.frame rfl rfl rfl rfl rfl rfl
theorem Keeps.setHeadState (k : Keeps a s) (h : HeadId) (r : HeadState) : Keeps a (s.setHeadState h r) :=
  k.frame rfl rfl rfl rfl rfl rfl
theorem Keeps.setSel (k : Keeps a s) (h : HeadId) (r : SelectorHead) : Keeps a (s.setSel h r) :=
  k.frame rfl rfl rfl rfl rfl rfl
theorem Keeps.setMeter (k : Keeps a s) (h : HeadId) (m : Meter) : Keeps a (s.setMeter h m) :=
  k.frame rfl rfl rfl rfl rfl rfl
theorem Keeps.clearMeter (k : Keeps a s) (h : HeadId) : Keeps a (s.clearMeter h) :=
  k.frame rfl rfl rfl rfl rfl rfl
theorem Keeps.answer (k : Keeps a s) (r : Response) : Keeps a (s.answer r) := k.frame rfl rfl rfl rfl rfl rfl
theorem Keeps.done (k : Keeps a s) (p : List Byte) : Keeps a (s.done p) := k.frame rfl rfl rfl rfl rfl rfl
theorem Keeps.refuse (k : Keeps a s) (w : Reason) : Keeps a (s.refuse w) := k.frame rfl rfl rfl rfl rfl rfl
theorem Keeps.accepted (k : Keeps a s) : Keeps a s.accepted := k.frame rfl rfl rfl rfl rfl rfl
theorem Keeps.badRequest (k : Keeps a s) : Keeps a s.badRequest := k.frame rfl rfl rfl rfl rfl rfl
theorem Keeps.setContext (k : Keeps a s) (c : IssueContext) : Keeps a (s.setContext c) :=
  k.frame rfl rfl rfl rfl rfl rfl
theorem Keeps.endIssue (k : Keeps a s) : Keeps a s.endIssue := k.frame rfl rfl rfl rfl rfl rfl
/-- A record stands in the table under the slot and segment of `r`, or `a` is not sound. -/
def Stands (a s : State) (r : RepairRecord) : Prop :=
  a.ds.Sound → a.Pinned → ∃ q ∈ s.rt.records, q.slot = r.slot ∧ q.segment = r.segment

theorem Stands.of_mem {r : RepairRecord} (h : r ∈ s.rt.records) : Stands a s r := fun _ _ => ⟨r, h, rfl, rfl⟩

theorem Keeps.putRecord (k : Keeps a s) {r : RepairRecord} (h : Stands a s r) : Keeps a (s.putRecord r) :=
  ⟨k.queue, k.store, k.memory, k.motion, k.faults, k.params, fun hd hp => by
    obtain ⟨q, hq, e1, e2⟩ := h hd hp
    exact (k.pins hd hp).putRecord hq e1 e2⟩
theorem Keeps.clearWorking (k : Keeps a s) : Keeps a s.clearWorking := k.frame rfl rfl rfl rfl rfl rfl
theorem Keeps.clearContext (k : Keeps a s) : Keeps a s.clearContext := k.frame rfl rfl rfl rfl rfl rfl
theorem Keeps.goTo (k : Keeps a s) (st : PassState) (ph : Phase) : Keeps a (s.goTo st ph) :=
  k.frame rfl rfl rfl rfl rfl rfl
theorem Keeps.withPc (k : Keeps a s) (x : Pass) : Keeps a { s with pc := x } := k.frame rfl rfl rfl rfl rfl rfl
theorem Keeps.withHs (k : Keeps a s) (x : Supervisor) : Keeps a { s with hs := x } :=
  k.frame rfl rfl rfl rfl rfl rfl
theorem Keeps.withTs (k : Keeps a s) (x : Selector) : Keeps a { s with ts := x } :=
  k.frame rfl rfl rfl rfl rfl rfl
theorem Keeps.withRt (k : Keeps a s) (x : Repairs) (h : x.records = s.rt.records) :
    Keeps a { s with rt := x } := k.frame rfl rfl rfl rfl rfl h
theorem Keeps.withSe (k : Keeps a s) (x : Editor) : Keeps a { s with se := x } :=
  k.frame rfl rfl rfl rfl rfl rfl
theorem Keeps.withRl (k : Keeps a s) (x : Link) : Keeps a { s with rl := x } :=
  k.frame rfl rfl rfl rfl rfl rfl
theorem Keeps.withSm (k : Keeps a s) (x : Supply) : Keeps a { s with sm := x } :=
  k.frame rfl rfl rfl rfl rfl rfl
theorem Keeps.formContext (k : Keeps a s) (p : ResumePoint × Bool) : Keeps a (s.formContext p) := by
  unfold State.formContext; split
  · exact k
  · exact k.withPc _
theorem Keeps.addFaulted (k : Keeps a s) (h : HeadId) (t : Option Nat) (c : RepairCause) :
    Keeps a (s.addFaulted h t c) := k.frame rfl rfl rfl rfl rfl rfl
theorem Keeps.dropFaulted (k : Keeps a s) (h : HeadId) : Keeps a (s.dropFaulted h) :=
  k.frame rfl rfl rfl rfl rfl rfl
theorem Keeps.noteStop (k : Keeps a s) : Keeps a s.noteStop := k.frame rfl rfl rfl rfl rfl rfl
theorem Keeps.planTravel (k : Keeps a s) (p : Pos) : Keeps a (s.planTravel p) := k.frame rfl rfl rfl rfl rfl rfl
theorem Keeps.abandonTravel (k : Keeps a s) : Keeps a s.abandonTravel := k.frame rfl rfl rfl rfl rfl rfl

theorem Keeps.forHeads (k : Keeps a s) {p : HeadId → Bool} {f : HeadId → State → State}
    (hf : ∀ h t, Keeps a t → Keeps a (f h t)) : Keeps a (State.forHeads p f s) :=
  State.forHeads_keep (fun h t _ ht => hf h t ht) k

theorem Keeps.foldl {α : Type} {f : State → α → State} (hf : ∀ t x, Keeps a t → Keeps a (f t x))
    (l : List α) : ∀ {s}, Keeps a s → Keeps a (l.foldl f s) := by
  induction l with
  | nil => exact id
  | cons x l ih => exact fun k => ih (hf _ x k)

/-! ## The Design Store -/

theorem Keeps.evalLoad (k : Keeps a s) : Keeps a s.evalLoad :=
  k.stored rfl (fun h => h.same rfl rfl) id rfl rfl rfl fun _ h => h

/-- A record put in place that keeps its pins and unpins no state. -/
theorem Keeps.put (k : Keeps a s) {r r' : SegRecord} (hr : r ∈ s.ds.segs) (e1 : r'.slot = r.slot)
    (e2 : r'.number = r.number) (e3 : r'.pages = r.pages) (e4 : r'.count = r.count)
    (e5 : r.written ≤ r.count → r'.written ≤ r'.count) (e6 : r'.pins = r.pins)
    (e7 : (r.state = .active ∨ r.state = .sewn) → r'.state = .active ∨ r'.state = .sewn) :
    Keeps a (s.putSeg r') :=
  k.stored rfl (fun h => h.put hr e1 e2 e3 e4 (e5 (h.2.2.2 r hr).2)) id rfl rfl rfl
    fun hd h => h.put hd hr e1 e2 e6 e7

/-- A record put in place that differs from a present one in its state, set or close result. -/
theorem Keeps.putSame (k : Keeps a s) {n : Nat} {r r' : SegRecord} (hr : s.findSeg n = some r)
    (e1 : r'.slot = r.slot) (e2 : r'.number = r.number) (e3 : r'.pages = r.pages)
    (e4 : r'.count = r.count) (e5 : r'.written = r.written) (e6 : r'.pins = r.pins)
    (e7 : (r.state = .active ∨ r.state = .sewn) → r'.state = .active ∨ r'.state = .sewn) :
    Keeps a (s.putSeg r') :=
  k.put (State.findSeg_mem hr).1 e1 e2 e3 e4 (fun h => by omega) e6 e7

theorem Keeps.freeSeg (k : Keeps a s) {r : SegRecord} (hr : r ∈ s.ds.segs)
    (hp : s.Pinned → r.pins = 0) : Keeps a (s.freeSeg r) :=
  k.stored rfl (fun h => h.free hr) id rfl rfl rfl fun hd h => PinsMatch.free h hd.1 hr (hp h)

theorem Keeps.freeIfDone (k : Keeps a s) (n : Nat) : Keeps a (s.freeIfDone n) := by
  unfold State.freeIfDone
  split
  · split
    · rename_i h
      exact k.freeSeg (State.findSeg_mem ‹_›).1 fun _ => h.2.1
    · exact k
  · exact k

theorem Keeps.openService (k : Keeps a s) (n : Nat) : Keeps a (s.openService n) :=
  k.stored rfl (fun h => h.same rfl rfl) id rfl rfl rfl fun _ h => h

theorem Keeps.endService (k : Keeps a s) : Keeps a s.endService := by
  unfold State.endService
  split
  · have k1 : Keeps a { s with ds := { s.ds with served := none } } :=
      k.stored rfl (fun h => h.same rfl rfl) id rfl rfl rfl fun _ h => h
    exact k1.freeIfDone _
  · exact k

theorem Keeps.takeSegment (k : Keeps a s) {n : Nat} (h : s.takeSegment n = some t) : Keeps a t := by
  unfold State.takeSegment at h
  split at h
  · rename_i r hr
    have k1 : Keeps a (s.putSeg { r with state := .active }) :=
      k.putSame hr rfl rfl rfl rfl rfl rfl fun _ => .inl rfl
    split at h
    · cases h
      refine Keeps.evalLoad ?_
      exact k1.stored rfl (fun h => h.same rfl rfl) id rfl rfl rfl fun _ h => h
    · cases h
  · cases h

theorem Keeps.markSewn (k : Keeps a s) : Keeps a s.markSewn := by
  unfold State.markSewn
  split
  · rename_i r hr
    have k1 : Keeps a (s.putSeg { r with state := .sewn }) :=
      k.put (List.mem_of_find?_eq_some hr) rfl rfl rfl rfl id rfl fun _ => .inr rfl
    exact k1.freeIfDone _
  · exact k

/-- Every record and every segment gone at once (R62). -/
theorem Keeps.dropAll (k : Keeps a s) : Keeps a s.dropRecords.freeAll :=
  k.stored rfl (fun h => Store.Sound.clear (s := s.dropRecords) h) id rfl rfl rfl fun _ _ => by
    refine ⟨?_, ?_, ?_⟩ <;> simp [State.freeAll, State.dropRecords]

theorem Keeps.addSeg (k : Keeps a s) {r : SegRecord} (h1 : s.ds.Sound → (s.addSeg r).ds.Sound)
    (h2 : r.pins = 0) (h3 : ∀ q ∈ s.ds.segs, q.number ≠ r.number) :
    Keeps a (s.addSeg r) := k.stored rfl h1 id rfl rfl rfl fun _ h => PinsMatch.add h h2 h3

theorem Keeps.computeUnthreaded (k : Keeps a s) : Keeps a s.computeUnthreaded := by
  have base : Keeps a { s with ds := { s.ds with segs := s.ds.segs.map fun r =>
      if r.state = .ready then { r with unthreaded := s.unthreadedFor r.thread } else r } } := by
    refine k.stored rfl (fun h => h.map _ (fun q hq => ?_) rfl rfl) id rfl rfl rfl fun _ h => ?_
    · have := (h.2.2.2 q hq).2
      split <;> exact ⟨rfl, rfl, rfl, rfl, this⟩
    · refine PinsMatch.map h _ fun q _ => ?_
      split <;> exact ⟨rfl, rfl, id⟩
  exact Keeps.ite (fun _ => base.raise _) fun _ => base

/-! ## The Repair Table -/

theorem leastFirst_mem {l : List RepairRecord} {r : RepairRecord} (h : leastFirst l = some r) : r ∈ l := by
  induction l generalizing r with
  | nil => cases h
  | cons c l ih =>
    unfold leastFirst at h
    split at h
    · cases h; simp
    · rename_i q hq
      have := ih hq
      split at h <;> cases h <;> simp [this]

/-- What a pin or a release leaves alone, and that it keeps the Design Store sound. -/
theorem State.pin_keeps (s : State) (n : Nat) : (s.pin n).pending = s.pending ∧ (s.pin n).mp = s.mp ∧
    (s.pin n).fr = s.fr ∧ (s.pin n).par = s.par ∧ (s.pin n).ds.memory = s.ds.memory ∧
    (s.ds.Sound → (s.pin n).ds.Sound) := by
  unfold State.pin
  split
  · rename_i r hr
    obtain ⟨mr, -⟩ := State.findSeg_mem hr
    exact ⟨rfl, rfl, rfl, rfl, rfl, fun h => h.put mr rfl rfl rfl rfl (h.2.2.2 r mr).2⟩
  · exact ⟨rfl, rfl, rfl, rfl, rfl, id⟩

theorem State.release_keeps (s : State) (n : Nat) : (s.release n).pending = s.pending ∧
    (s.release n).mp = s.mp ∧ (s.release n).fr = s.fr ∧ (s.release n).par = s.par ∧
    (s.release n).ds.memory = s.ds.memory ∧ (s.release n).rt = s.rt ∧
    (s.ds.Sound → (s.release n).ds.Sound) := by
  unfold State.release
  split
  · rename_i r hr
    obtain ⟨mr, -⟩ := State.findSeg_mem hr
    have hp : s.ds.Sound → (s.putSeg { r with pins := r.pins - 1 }).ds.Sound := fun h =>
      h.put mr rfl rfl rfl rfl (h.2.2.2 r mr).2
    unfold State.freeIfDone
    split
    · rename_i hq
      split
      · exact ⟨rfl, rfl, rfl, rfl, rfl, rfl, fun h => (hp h).free (State.findSeg_mem hq).1⟩
      · exact ⟨rfl, rfl, rfl, rfl, rfl, rfl, hp⟩
    · exact ⟨rfl, rfl, rfl, rfl, rfl, rfl, hp⟩
  · exact ⟨rfl, rfl, rfl, rfl, rfl, rfl, id⟩

/-- A record that stands in the table is retired. -/
theorem Keeps.retire (k : Keeps a s) {r : RepairRecord} (h : Stands a s r) : Keeps a (s.retire r) := by
  obtain ⟨h1, h2, h3, h4, h5, -, h7⟩ := State.release_keeps
    { s with rt := { s.rt with records := s.rt.records.filter (·.slot != r.slot) } } r.segment
  refine ⟨h1.trans k.queue, fun hd => h7 (k.store hd), ?_, ?_, ?_, ?_, fun hd hp => ?_⟩
  · intro hm; unfold State.retire; rw [h5]; exact k.memory hm
  · unfold State.retire; rw [h2]; exact k.motion
  · unfold State.retire; rw [h3]; exact k.faults
  · unfold State.retire; rw [h4]; exact k.params
  · obtain ⟨q, hq, e1, e2⟩ := h hd hp
    exact (k.pins hd hp).retire (k.store hd) hq e1 e2

/-- The records after a retirement. -/
theorem State.retire_records (s : State) (r : RepairRecord) :
    (s.retire r).rt.records = s.rt.records.filter (·.slot != r.slot) := by
  unfold State.retire; rw [(State.release_keeps _ _).2.2.2.2.2.1]

theorem Stands.retire {q r : RepairRecord} (h : Stands a s q) (hne : q.slot ≠ r.slot) :
    Stands a (s.retire r) q := fun hd hp => by
  obtain ⟨z, hz, e1, e2⟩ := h hd hp
  exact ⟨z, by rw [State.retire_records]; exact List.mem_filter.2 ⟨hz, by simpa [e1] using hne⟩, e1, e2⟩

theorem Stands.putRecord {q r : RepairRecord} (h : Stands a s q) (hne : q.slot ≠ r.slot) :
    Stands a (s.putRecord r) q := fun hd hp => by
  obtain ⟨z, hz, e1, e2⟩ := h hd hp
  refine ⟨_, List.mem_map.2 ⟨z, hz, rfl⟩, ?_⟩
  rw [if_neg (by rw [e1]; exact hne)]
  exact ⟨e1, e2⟩

/-- A turn for each of a list of records, each of which stands in the table when its turn comes: the turn of
one leaves the records of other slots there. -/
theorem Keeps.turns {f : State → RepairRecord → State}
    (hf : ∀ t x, Keeps a t → Stands a t x → Keeps a (f t x) ∧
      ∀ y, y.slot ≠ x.slot → Stands a t y → Stands a (f t x) y) :
    ∀ (l : List RepairRecord) {s : State}, Keeps a s →
      (a.ds.Sound → a.Pinned → l.Pairwise (·.slot ≠ ·.slot)) → (∀ x ∈ l, Stands a s x) →
      Keeps a (l.foldl f s) := by
  intro l
  induction l with
  | nil => exact fun k _ _ => k
  | cons x l ih =>
    intro s k hl hz
    obtain ⟨k1, other⟩ := hf s x k (hz x (by simp))
    refine ih k1 (fun hd hp => (List.pairwise_cons.1 (hl hd hp)).2) fun y hy hd hp => ?_
    exact other y ((List.pairwise_cons.1 (hl hd hp)).1 y hy).symm (hz y (by simp [hy])) hd hp

/-- The slots of some of the records of a sound table differ. -/
theorem Keeps.slots_differ (k : Keeps a s) {l : List RepairRecord} (h : l.Sublist s.rt.records)
    (hd : a.ds.Sound) (hp : a.Pinned) : l.Pairwise (·.slot ≠ ·.slot) := by
  have := (k.pins hd hp).1.sublist (h.map _)
  rw [List.pairwise_map] at this
  exact this.imp fun h => Nat.ne_of_lt h

theorem Keeps.retireAll (k : Keeps a s) {l : List RepairRecord}
    (hl : a.ds.Sound → a.Pinned → l.Pairwise (·.slot ≠ ·.slot)) (hz : ∀ x ∈ l, Stands a s x) :
    Keeps a (s.retireAll l) :=
  Keeps.turns (fun _ _ kt hx => ⟨kt.retire hx, fun _ hne hy => hy.retire hne⟩) l k hl hz

/-- Some records of the table are retired. -/
theorem Keeps.retireSome (k : Keeps a s) {l : List RepairRecord} (h : l.Sublist s.rt.records) :
    Keeps a (s.retireAll l) :=
  k.retireAll (k.slots_differ h) fun _ hx => Stands.of_mem (h.subset hx)

theorem Keeps.createRecord (k : Keeps a s) {h : HeadId} {g f : Nat} {c : RepairCause}
    (hg : s.recordable g = true) (e : s.createRecord h g f c = some t) : Keeps a t := by
  unfold State.createRecord at e
  dsimp only at e
  split at e
  · rename_i hl
    cases e
    generalize hr : RepairRecord.mk _ _ _ _ _ _ _ _ _ = r at *
    have e1 : r.slot = lowestFreeSlot (s.rt.records.map (·.slot)) 0 := by rw [← hr]
    have e2 : g = r.segment := by rw [← hr]
    rw [e2] at hg ⊢
    obtain ⟨h1, h2, h3, h4, h5, h6⟩ :=
      State.pin_keeps { s with rt := { s.rt with records := insertRecord r s.rt.records } } r.segment
    refine k.stored h1 h6 (by rw [h5]; exact id) h2 h3 h4 fun hd hp => hp.create hd (by rw [e1]; exact hl) ?_ hg
    intro q hq e
    refine (lowestFreeSlot_spec hp.1 (a := 0) fun _ _ => Nat.zero_le _).1 ?_
    rw [← e1, ← e]
    exact List.mem_map.2 ⟨q, hq, rfl⟩
  · cases e

theorem Keeps.openRequest (k : Keeps a s) {h : HeadId} {g f : Nat} {c : RepairCause}
    (e : s.openRequest h g f c = some t) : Keeps a t := by
  unfold State.openRequest State.openAt at e
  split at e
  · rename_i hg
    dsimp only at e
    split at e
    · exact k.createRecord hg e
    · rename_i least hl
      cases e
      have sub : (s.rt.records.filter (mergedBy h g (s.firstIndex g f))).Sublist s.rt.records := List.filter_sublist
      generalize hm : s.rt.records.filter (mergedBy h g (s.firstIndex g f)) = merged at *
      have mem : (merged.find? (·.state == .opened)).getD least ∈ merged := by
        cases hf : merged.find? (·.state == .opened) with
        | none => exact leastFirst_mem hl
        | some r => exact List.mem_of_find?_eq_some hf
      generalize (merged.find? (·.state == .opened)).getD least = kept at *
      refine Keeps.retireAll (Keeps.putRecord k ?_) ?_ ?_
      · exact fun _ _ => ⟨kept, sub.subset mem, rfl, rfl⟩
      · exact fun hd hp => (k.slots_differ sub hd hp).filter _
      · intro x hx
        obtain ⟨hx, hne⟩ := List.mem_filter.1 hx
        exact (Stands.of_mem (sub.subset hx)).putRecord (by simpa using hne)
  · cases e; exact k

theorem Keeps.closeBelow (k : Keeps a s) {r : RepairRecord} (h : r ∈ s.rt.records) (b : Nat) :
    Keeps a (s.closeBelow r b) := by
  unfold State.closeBelow; split
  · exact k.putRecord fun _ _ => ⟨r, h, rfl, rfl⟩
  · exact k.retire (Stands.of_mem h)

theorem Keeps.carryFor {g f : Nat} (l : List HeadId) :
    ∀ {s : State}, Keeps a s → Keeps a (State.carryFor g f l s).1 := by
  induction l with
  | nil => exact fun k => k
  | cons h l ih =>
    intro s k
    unfold State.carryFor
    split
    · split
      · exact ih (k.openRequest ‹_›)
      · exact k
    · exact ih k

theorem Keeps.advanceRecords (k : Keeps a s) (h : HeadId) (i : Nat) :
    Keeps a (s.advanceRecords h i) := by
  unfold State.advanceRecords
  refine Keeps.turns (fun t x kt hx => ?_) _ k (k.slots_differ List.filter_sublist)
    fun x hx => Stands.of_mem (List.mem_filter.1 hx).1
  split
  · exact ⟨(kt.retire hx).withRt _ rfl, fun y hne hy => hy.retire hne⟩
  · exact ⟨kt.putRecord hx, fun y hne hy => hy.putRecord hne⟩

theorem Keeps.passIndex (k : Keeps a s) (g i : Nat) : Keeps a (s.passIndex g i) := by
  unfold State.passIndex
  split
  · split
    · exact k
    · exact k.forHeads fun h t kt => kt.advanceRecords h i
  · exact k

theorem Keeps.passIndices (g n : Nat) : ∀ {s : State} (i : Nat), Keeps a s → Keeps a (State.passIndices g n i s) := by
  induction n with
  | zero => exact fun _ k => k
  | succ n ih => exact fun i k => ih (i + 1) (k.passIndex g i)

theorem Keeps.truncate (k : Keeps a s) (h : HeadId) (d : Nat) : Keeps a (s.truncate h d) := by
  unfold State.truncate
  refine Keeps.turns (fun t x kt hx => ?_) _ k (k.slots_differ List.filter_sublist)
    fun x hx => Stands.of_mem (List.mem_filter.1 hx).1
  dsimp only
  split
  · exact ⟨kt.putRecord hx, fun y hne hy => hy.putRecord hne⟩
  · exact ⟨(kt.retire hx).withRt _ rfl, fun y hne hy => hy.retire hne⟩

theorem Keeps.settleRecords (k : Keeps a s) : Keeps a s.settleRecords :=
  k.recorded rfl rfl rfl rfl rfl fun _ h => PinsMatch.mapRecords h _ fun q _ => by
    unfold RepairRecord.settled; split <;> exact ⟨rfl, rfl⟩

theorem Keeps.endRepairPass (k : Keeps a s) : Keeps a s.endRepairPass := by
  unfold State.endRepairPass
  have base := k.settleRecords.forHeads (p := fun _ => true)
    (f := fun h s => s.setHead h { s.head h with ranges := [] }) fun h t kt => kt.setHead _ _
  simp only
  split
  · exact base.raise _
  · exact base

theorem Keeps.retireHead (k : Keeps a s) (h : HeadId) : Keeps a (s.retireHead h) :=
  k.retireSome List.filter_sublist

/-! ## The Stitch Stream Editor and the look-ahead window -/

theorem Keeps.issue (k : Keeps a s) : Keeps a s.issue.2 := by
  unfold State.issue
  split
  · exact k
  · split
    · exact k
    · exact k.setContext _

theorem lowerLast_length (m : Nat) : ∀ l : List Planned, (lowerLast m l).length = l.length
  | [] => rfl
  | [_] => rfl
  | _ :: w :: l => by simp [lowerLast, lowerLast_length m (w :: l)]

theorem Keeps.fillWindow (n : Nat) : ∀ {s : State}, Keeps a s → Keeps a (State.fillWindow n s) := by
  induction n with
  | zero => exact fun k => k
  | succ n ih =>
    intro s k
    unfold State.fillWindow
    split
    · exact k
    · rename_i hfull
      have hlen : s.mp.window.length < Config.windowSize := by
        simp only [Bool.or_eq_true, decide_eq_true_eq, not_or, Nat.not_le] at hfull
        exact hfull.2
      have k' := k.issue
      have mp' : s.issue.2.mp = s.mp := by
        unfold State.issue; split
        · rfl
        · split <;> rfl
      split
      · rename_i he
        rw [he] at k'; exact k'
      · rename_i m u he
        rw [he] at k' mp'
        refine k'.move rfl rfl (fun h => ⟨h.1, ?_⟩) rfl rfl rfl
        simpa [lowerLast_length] using h.2
      · rename_i st u he
        rw [he] at k' mp'
        refine ih (k'.move rfl rfl (fun h => ⟨h.1, ?_, h.2.2⟩) rfl rfl rfl)
        simp only at mp'
        simp only [List.length_append, List.length_singleton, mp']
        omega

theorem Keeps.refill (k : Keeps a s) : Keeps a s.refill := by
  unfold State.refill
  have base := k.fillWindow (Config.windowSize + 1)
  simp only
  split
  · split
    · exact Keeps.passIndices _ _ _ base
    · exact base
  · exact base

/-! ## The Motion Planner -/

theorem Keeps.beginMove (k : Keeps a s) (m : Move) : Keeps a (s.beginMove m) :=
  k.move rfl rfl (fun h => h) rfl rfl rfl
theorem Keeps.advancePosition (k : Keeps a s) (x y : Int) : Keeps a (s.advancePosition x y) :=
  k.move rfl rfl (fun h => h) rfl rfl rfl
theorem Keeps.lowerPolicy (k : Keeps a s) (c : Nat) : Keeps a (s.lowerPolicy c) :=
  k.move rfl rfl (fun h => h) rfl rfl rfl
theorem Keeps.clearPolicy (k : Keeps a s) : Keeps a s.clearPolicy := k.move rfl rfl (fun h => h) rfl rfl rfl
theorem Keeps.setStopCeiling (k : Keeps a s) : Keeps a s.setStopCeiling :=
  k.move rfl rfl (fun h => h) rfl rfl rfl
theorem Keeps.toRest (k : Keeps a s) : Keeps a s.toRest :=
  k.move rfl rfl (fun h => ⟨fun _ => rfl, Nat.zero_le _, h.2.2⟩) rfl rfl rfl
theorem Keeps.immediateStop (k : Keeps a s) : Keeps a s.immediateStop :=
  k.move rfl rfl (fun h => ⟨fun _ => rfl, Nat.zero_le _, h.2.2⟩) rfl rfl rfl

theorem Keeps.startRetraction (k : Keeps a s) (h : s.mp.mode = .atRest) : Keeps a s.startRetraction := by
  have base : Keeps a { s with mp := { s.mp with mode := .travelling } } :=
    k.move rfl rfl (fun hs => ⟨fun _ => hs.1 (by simp [h]), hs.2⟩) rfl rfl rfl
  unfold State.startRetraction
  simp only
  split
  · exact base
  · rename_i u _
    have k1 := base.beginMove (State.retractionOf { s with mp := { s.mp with mode := .travelling } } u)
    split
    · exact k1.move rfl rfl (fun h => h) rfl rfl rfl
    · exact k1

theorem Keeps.startStep (k : Keeps a s) (d : Pos) (rest : List Pos) : Keeps a (s.startStep d rest) := by
  unfold State.startStep
  simp only
  split
  · exact ((k.withSe _).beginMove _).advancePosition _ _
  · exact (k.withSe _).beginMove _

/-! ## The Thread Selector -/

theorem Keeps.applyStagedEdits (k : Keeps a s) : Keeps a s.applyStagedEdits := by
  unfold State.applyStagedEdits
  have base := k.forHeads (p := fun _ => true) (f := fun h s =>
    s.setSel h { s.sel h with needles := (s.sel h).needles.map NeedleEntry.applyStaged })
    fun h t kt => kt.setSel _ _
  simp only
  split
  · exact base.computeUnthreaded
  · exact base

theorem Keeps.beginShift (k : Keeps a s) (h : HeadId) (n : NeedleId) : Keeps a (s.beginShift h n) :=
  (k.setSel _ _).setHeadState _ _

theorem Keeps.abandonShift (k : Keeps a s) (h : HeadId) : Keeps a (s.abandonShift h) := by
  unfold State.abandonShift
  split
  · exact k
  · simp only
    split
    · exact k.setSel _ _
    · exact (k.setHead _ _).setSel _ _

theorem Keeps.abandonOrders (k : Keeps a s) : Keeps a s.abandonOrders := by
  unfold State.abandonOrders
  exact (k.forHeads fun h t kt => ((kt.abandonShift h).setHeadState _ _).setSel _ _).withTs _

theorem Keeps.requestTrim (k : Keeps a s) (set : HeadSet) : Keeps a (s.requestTrim set) := by
  unfold State.requestTrim
  exact (k.forHeads fun h t kt => kt.setSel _ _).withTs _

theorem Keeps.endTrimRequest (k : Keeps a s) : Keeps a s.endTrimRequest := by
  unfold State.endTrimRequest
  exact (k.forHeads fun h t kt => kt.setHead _ _).withTs _

/-! ## Holds and faults -/

theorem Keeps.askHalt (k : Keeps a s) (c : HaltCause) : Keeps a (s.askHalt c) := by
  unfold State.askHalt
  split
  · exact k.setStopCeiling.withPc _
  · exact k.setStopCeiling.withPc _
  · exact k.withPc _
  · exact k.withPc _
  · exact k.withPc _
  · exact k

theorem Keeps.takeHold (k : Keeps a s) (h : HeadId) (t : Option Nat) (r : RepairCause) (c : HaltCause) :
    Keeps a (s.takeHold h t r c) := by
  unfold State.takeHold
  split
  · exact k
  · exact k
  · exact k
  · exact (k.askHalt c).addFaulted _ _ _

theorem Keeps.putHeadOut (k : Keeps a s) (h : HeadId) (b : Bool) (m : RejoinMode) :
    Keeps a (s.putHeadOut h b m) := by
  unfold State.putHeadOut
  simp only
  split
  · exact (k.abandonShift h).setHead _ _
  · exact k.setHead _ _

theorem Keeps.faultAtResume (k : Keeps a s) (h : HeadId) (c : RepairCause) : Keeps a (s.faultAtResume h c) := by
  unfold State.faultAtResume
  split
  · exact k.addFaulted _ _ _
  · exact k

theorem Keeps.accountGroup (k : Keeps a s) (h : HeadId) (c : FaultContext) (r : Resolution) (w : Bool) :
    Keeps a (s.accountGroup h c r w) := by
  unfold State.accountGroup
  simp only
  split
  · exact k
  · split
    · split
      · exact (k.truncate _ _).faultAtResume _ _
      · split
        · exact k.openRequest ‹_›
        · exact k.takeHold _ _ _ _
    · split
      · exact k.addFaulted _ _ _
      · exact k
  · split
    · split
      · exact (k.truncate _ _).takeHold _ _ _ _
      · exact k.takeHold _ _ _ _
    · exact k.takeHold _ _ _ _

theorem Keeps.applyGroup (k : Keeps a s) (h : HeadId) (c : FaultContext) (r : Resolution) :
    Keeps a (s.applyGroup h c r) := by
  unfold State.applyGroup
  simp only
  have k1 : Keeps a (if r.reaction = .continue_ then s else s.putHeadOut h r.bench r.rejoin) :=
    Keeps.ite (fun _ => k) fun _ => k.putHeadOut _ _ _
  have k2 := k1.accountGroup h c r (s.polled h && !s.isOut h)
  have k3 := Keeps.elim (o := r.cap) (f := fun cap => State.lowerPolicy cap _) k2
    fun x _ => k2.lowerPolicy x
  split
  · exact k3
  · exact k3.raise _

/-- Recording a fault keeps a head's count within its range (R146). -/
theorem FaultHead.record_sound (b : Bool) (f : FaultHead) (c : FaultContext)
    (h : f.count ≤ 127 ∧ (f.overflow = true → f.count = 127)) :
    (f.record b c).count ≤ 127 ∧ ((f.record b c).overflow = true → (f.record b c).count = 127) := by
  obtain ⟨h1, h2⟩ := h
  unfold FaultHead.record
  cases b
  · simpa using ⟨h1, h2⟩
  · by_cases hc : f.count < 127
    · have : f.overflow = false := by
        cases ho : f.overflow
        · rfl
        · have := h2 ho; omega
      simp only [this, hc, true_and, if_true]
      refine ⟨hc, fun ho => ?_⟩
      simp only [Bool.false_or, Bool.true_and, decide_eq_true_eq] at ho
      omega
    · simp only [hc, and_false, if_false]
      omega

theorem Resolver.Sound.set {s : State} (hs : s.fr.Sound) (h : HeadId) (f : FaultHead)
    (hf : f.count ≤ 127 ∧ (f.overflow = true → f.count = 127)) : (s.setFaultHead h f).fr.Sound := by
  intro g
  have e := State.faultHead_setFaultHead s h g f
  unfold State.faultHead at e
  rw [e]
  split
  · exact hf
  · exact hs g

theorem Keeps.setFaultHead (k : Keeps a s) (h : HeadId) (f : FaultHead)
    (hf : s.fr.Sound → f.count ≤ 127 ∧ (f.overflow = true → f.count = 127)) :
    Keeps a (s.setFaultHead h f) :=
  ⟨k.queue, k.store, k.memory, k.motion, fun x => (k.faults x).set h f (hf (k.faults x)), k.params, k.pins⟩

theorem Keeps.resolveGroup (k : Keeps a s) (h : HeadId) (g : List FaultContext) :
    Keeps a (s.resolveGroup h g) := by
  unfold State.resolveGroup
  split
  · exact k
  · rename_i c rest _
    refine Keeps.applyGroup (k.setFaultHead _ _ fun hs => ?_) _ _ _
    generalize c :: rest = l
    have key : ∀ (l : List FaultContext) (f : FaultHead),
        (f.count ≤ 127 ∧ (f.overflow = true → f.count = 127)) →
        let f' := l.foldl (fun f c => f.record (kindInSet s.fr.countSelect c.kind) c) f
        f'.count ≤ 127 ∧ (f'.overflow = true → f'.count = 127) := by
      intro l
      induction l with
      | nil => exact fun f hf => hf
      | cons c l ih => exact fun f hf => ih _ (FaultHead.record_sound _ _ _ hf)
    exact key l _ (hs h)

/-! ## Halts and needle choices -/

theorem Keeps.enterHalted (k : Keeps a s) (c : HaltCause) (p : ResumePoint × Bool) :
    Keeps a (s.enterHalted c p) := by
  unfold State.enterHalted
  have k1 := (k.formContext p).endIssue
  have k2 : Keeps a (s.formContext p).endIssue.endPassIfAny := by
    unfold State.endPassIfAny
    split
    · exact k1.endRepairPass
    · exact k1
  exact (k2.endService.clearWorking.withPc _).raise _

theorem Keeps.changeCause (k : Keeps a s) (c : HaltCause) : Keeps a (s.changeCause c) := by
  unfold State.changeCause
  split
  · exact k
  · exact (k.withPc _).raise _

theorem Keeps.immediateHalt (k : Keeps a s) (c : HaltCause) : Keeps a (s.immediateHalt c) := by
  unfold State.immediateHalt
  split
  · exact (k.noteStop.immediateStop.abandonOrders).enterHalted _ _
  · exact k

theorem Keeps.chooseNeedle (k : Keeps a s) (th b : Nat) (h : HeadId) : Keeps a (s.chooseNeedle th b h) := by
  unfold State.chooseNeedle
  split
  · split
    · exact k.setHeadState _ _
    · exact k
  · split
    · exact k.beginShift _ _
    · exact k.resolveGroup _ _

theorem Keeps.needleChoice (k : Keeps a s) (th g : Nat) (kd : PassKind) (b : Nat) (i c : HeadSet) :
    Keeps a (s.needleChoice th g kd b i c) := by
  unfold State.needleChoice
  exact (k.applyStagedEdits.withTs _).forHeads fun h t kt => kt.chooseNeedle _ _ _

/-! ## The Head Supervisor -/

theorem Keeps.exchange (k : Keeps a s) (r : Bool) (d : HeadSet) (t : Option Taken) :
    Keeps a (s.exchange r d t) := by
  unfold State.exchange
  exact (k.withHs _).forHeads fun h t kt => (kt.setHead _ _).setSel _ _

theorem Keeps.beginRun (k : Keeps a s) : Keeps a s.beginRun := by
  unfold State.beginRun
  exact (k.withHs _).forHeads fun h t kt => kt.setHead _ _

theorem Keeps.superviseTake (k : Keeps a s) (st : Issued) : Keeps a (s.superviseTake st) := by
  unfold State.superviseTake
  simp only
  refine Keeps.exchange (Keeps.withHs ?_ _) _ _ _
  have k1 : Keeps a (s.boundaryRejoins st) := by
    unfold State.boundaryRejoins
    split
    · exact k.forHeads fun h t kt => kt.setHeadState _ _
    · exact k
  have k2 : ∀ {u : State}, Keeps a u → ∀ d, Keeps a (u.noteTrimSet st d) := by
    intro u ku d
    unfold State.noteTrimSet
    split
    · exact ku
    · exact ku.forHeads fun h t kt => kt.setHead _ _
  refine k2 ?_ _
  split
  · unfold State.closeAtRejoin State.clearReplays
    refine Keeps.forHeads (k1.forHeads fun h t kt => kt.setHead _ _) fun h t kt => ?_
    split
    · rename_i hr
      exact kt.closeBelow (List.mem_of_find?_eq_some hr) _
    · exact kt
  · exact k1

theorem Keeps.failShift (k : Keeps a s) (h : HeadId) : Keeps a (s.failShift h) :=
  (k.setSel _ _).setHeadState _ _

theorem Keeps.judgeShift (k : Keeps a s) (h : HeadId) (r : Report) : Keeps a (s.judgeShift h r).1 := by
  unfold State.judgeShift
  split
  · split
    · split
      · simp only
        unfold State.completeShift
        simp only
        split
        · exact (k.setSel _ _).setHeadState _ _
        · exact k.setSel _ _
      · exact k.failShift _
    · exact k.setSel _ _
    · exact k
  · exact k

theorem Keeps.judgeTrim (k : Keeps a s) (h : HeadId) (r : Report) : Keeps a (s.judgeTrim h r) := by
  unfold State.judgeTrim
  split
  · split
    · exact k.setSel _ _
    · exact k
  · exact k

theorem Keeps.meterReport (k : Keeps a s) (h : HeadId) (r : Report) (w : Taken) :
    Keeps a (s.meterReport h r w).1 := k.setMeter _ _

theorem Keeps.judgeDrive (k : Keeps a s) (h : HeadId) (r : Report) : Keeps a (s.judgeDrive h r).1 :=
  k.setHead _ _

theorem Keeps.judgeButton (k : Keeps a s) (h : HeadId) (r : Report) : Keeps a (s.judgeButton h r) := by
  unfold State.judgeButton
  split
  · exact k.setHeadState _ _
  · exact k

theorem Keeps.takeReport (k : Keeps a s) (h : HeadId) (r : Report) : Keeps a (s.takeReport h r) := by
  unfold State.takeReport
  have k1 := (k.setHead h ((s.head h).tookReport r)).judgeShift h r
  dsimp only
  generalize State.metered _ h = m
  generalize State.judgeShift h r _ = p at k1 ⊢
  obtain ⟨s1, f1⟩ := p
  have k2 := k1.judgeTrim h r
  cases m with
  | none => exact ((k2.judgeDrive h r).judgeButton h r).resolveGroup _ _
  | some w => exact (((k2.meterReport h r w).judgeDrive h r).judgeButton h r).resolveGroup _ _

theorem Keeps.missReport (k : Keeps a s) (h : HeadId) : Keeps a (s.missReport h) := by
  unfold State.missReport
  simp only
  split
  · exact (k.setHead _ _).resolveGroup _ _
  · exact k.setHead _ _

theorem Keeps.sewnThrough (k : Keeps a s) (i : Nat) : Keeps a (s.sewnThrough i) := by
  unfold State.sewnThrough
  split
  · exact k.setContext _
  · exact k

theorem Keeps.advanceOver (h : HeadId) (n : Nat) :
    ∀ {s : State} (i : Nat), Keeps a s → Keeps a (State.advanceOver h n i s) := by
  induction n with
  | zero => exact fun _ k => k
  | succ n ih => exact fun i k => ih (i + 1) (k.advanceRecords h i)

theorem Keeps.countSewn (k : Keeps a s) (t : Taken) : Keeps a (s.countSewn t) := by
  unfold State.countSewn
  split
  · exact k
  · simp only
    split <;>
      first
        | refine Keeps.passIndices _ _ _ ?_
        | skip
    all_goals
      refine (k.sewnThrough _).forHeads fun h u ku => ?_
      first
        | exact Keeps.advanceOver _ _ _ (ku.setHead _ _)
        | exact ku.setHead _ _

theorem Keeps.superviseCompletion (k : Keeps a s) (st : Issued) : Keeps a (s.superviseCompletion st) := by
  unfold State.superviseCompletion
  simp only
  have base := (k.withHs { s.hs with current := s.hs.current.map Taken.complete }).countSewn
    { stitch := st, segment := s.ds.served.getD 0, kind := s.mp.passKind, completed := true }
  split
  · exact base
  · refine Keeps.forHeads base fun h t kt => ?_
    unfold State.meterCompletion
    simp only
    split
    · exact (kt.setMeter _ _).resolveGroup _ _
    · exact kt.setMeter _ _

/-! ## The round -/

theorem Keeps.haltDue (k : Keeps a s) (p : ResumePoint × Bool) : Keeps a (s.haltDue p) := k.enterHalted _ _

theorem Keeps.shaftOut (k : Keeps a s) : Keeps a s.shaftOut := k.immediateHalt _

theorem Keeps.stepTake (k : Keeps a s) : Keeps a s.stepTake := by
  unfold State.stepTake
  simp only
  split
  · exact k.enterHalted _ _
  · rename_i u hu
    have kc := Keeps.carryFor (g := s.awaited) (f := 0) allHeads (k.takeSegment hu).clearContext
    split
    · rename_i v h hv
      rw [hv] at kc
      exact (kc.enterHalted _ _).withPc _
    · rename_i v hv
      rw [hv] at kc
      exact (kc.goTo _ _).needleChoice _ _ _ _ _ _

theorem Keeps.starvedRepeat (k : Keeps a s) : Keeps a s.starvedRepeat := by
  unfold State.starvedRepeat
  split
  · split
    · exact k.goTo _ _
    · exact k.changeCause _
  · exact k

theorem Keeps.startRepairs (k : Keeps a s) (p : RepairPoint) : Keeps a (s.startRepairs p) := by
  cases p
  · refine Keeps.withPc (Keeps.withRt k.clearContext _ ?_) _; rfl
  · refine Keeps.withPc (Keeps.withRt k.clearContext _ ?_) _; rfl
  · refine Keeps.withPc (Keeps.withRt k _ ?_) _; rfl
  · refine Keeps.withPc (Keeps.withRt k _ ?_) _; rfl

theorem Keeps.repairsDone (k : Keeps a s) : Keeps a s.repairsDone := by
  unfold State.repairsDone
  split
  · split
    · exact k.startRepairs _
    · exact k.goTo _ _
  · split
    · exact k.enterHalted _ _
    · exact k.goTo _ _
  · unfold State.jobEndTest
    split
    · exact (k.clearWorking.goTo _ _).raise _
    · exact k.enterHalted _ _
  · exact (k.enterHalted _ _).starvedRepeat

theorem Keeps.stepSchedule (k : Keeps a s) : Keeps a s.stepSchedule := by
  unfold State.stepSchedule
  split
  · exact k.repairsDone
  · simp only
    refine Keeps.needleChoice (Keeps.goTo (Keeps.openService ?_ _) _ _) _ _ _ _ _ _
    exact k.recorded rfl rfl rfl rfl rfl fun _ h => PinsMatch.mapRecords h _ fun q _ => by
      split <;> exact ⟨rfl, rfl⟩

theorem Keeps.settleRejoins (g : Nat) (l : List HeadId) :
    ∀ {s : State}, Keeps a s → Keeps a (State.settleRejoins g l s).1 := by
  induction l with
  | nil => exact fun k => k
  | cons h l ih =>
    intro s k
    unfold State.settleRejoins
    split
    · exact ih (k.dropFaulted h)
    · split
      · split
        · exact ih ((k.openRequest ‹_›).dropFaulted h)
        · exact k
      · exact ih k

theorem Keeps.startTravel (k : Keeps a s) (aim : Aim) (p : Pos) : Keeps a (s.startTravel aim p) :=
  (k.goTo _ _).planTravel _

theorem Keeps.resumeTravel (k : Keeps a s) : Keeps a s.resumeTravel := by
  unfold State.resumeTravel
  split
  · rename_i g _ _
    have kc := Keeps.settleRejoins g (allHeads.filter fun h => (s.pc.faulted[h]).isSome) k
    split
    · rename_i hv
      rw [hv] at kc
      exact kc.enterHalted _ _
    · rename_i hv
      rw [hv] at kc
      exact (kc.withPc _).startTravel _ _
  · exact k

theorem Keeps.beginIssue (k : Keeps a s) (g f l : Nat) (kd : PassKind) (t : Bool) (b : Option Nat) :
    Keeps a (s.beginIssue g f l kd t b) := k.setContext _

theorem Keeps.resumeBegin (k : Keeps a s) : Keeps a s.resumeBegin := by
  unfold State.resumeBegin
  split
  · simp only
    refine Keeps.goTo (Keeps.beginIssue (Keeps.openService ?_ _) _ _ _ _ _ _) _ _
    exact k.forHeads fun h t kt => kt.setHead _ _
  · exact k

theorem Keeps.goOn (k : Keeps a s) : Keeps a s.goOn := by
  unfold State.goOn State.repairsAtEnd
  split
  · exact (k.goTo _ _).needleChoice _ _ _ _ _ _
  · exact k.startRepairs _
  · exact k.goTo _ _
  · exact k.startRepairs _
  · exact k

theorem Keeps.choiceComplete (k : Keeps a s) (aim : Aim) : Keeps a (s.choiceComplete aim) := by
  unfold State.choiceComplete
  split
  · exact k.haltDue _
  · split
    · exact k.startTravel _ _
    · exact k.resumeTravel
    · exact k.startTravel _ _
    · exact k

theorem Keeps.travelComplete (k : Keeps a s) (aim : Aim) : Keeps a (s.travelComplete aim) := by
  unfold State.travelComplete
  have k1 := k.toRest.abandonTravel
  simp only
  split
  · exact k1.haltDue _
  · split
    · exact ((k1.openService _).beginIssue _ _ _ _ _ _).goTo _ _
    · exact k1.resumeBegin
    · split
      · refine Keeps.goTo (Keeps.beginIssue ?_ _ _ _ _ _ _) _ _
        unfold State.takeRanges
        exact k1.forHeads fun h t kt => kt.setHead _ _
      · exact k1
    · exact k1

theorem Keeps.stepTravel (k : Keeps a s) {aim : Aim} (h : s.stepTravel aim = some t) : Keeps a t := by
  unfold State.stepTravel at h
  split at h
  · split at h
    · cases h
    · cases h; exact k.shaftOut
    · cases h; exact k.startRetraction ‹_›
  · split at h
    · cases h
    · split at h
      · cases h; exact k.startStep _ _
      · cases h; exact k.travelComplete _
  · cases h

theorem Keeps.sewingSweep (k : Keeps a s) : Keeps a s.sewingSweep := by
  unfold State.sewingSweep
  simp only
  split
  · refine k.forHeads fun h t kt => ?_
    split
    · split
      · exact kt.openRequest ‹_›
      · exact kt.takeHold _ _ _ _
    · exact kt
  · exact k

theorem Keeps.atStandstill (k : Keeps a s) (m : Option Marker) : Keeps a (s.atStandstill m) := by
  unfold State.atStandstill
  simp only
  split
  · exact (k.goTo _ _).requestTrim _
  · exact (k.sewnThrough _).enterHalted _ _
  · exact (k.goTo _ _).requestTrim _
  · split
    · exact k.haltDue _
    · exact k
  · exact (k.goTo _ _).requestTrim _
  · exact (k.goTo _ _).requestTrim _
  · exact k
  · split
    · exact (k.goTo _ _).requestTrim _
    · exact k

theorem Keeps.beginTaken (k : Keeps a s) : Keeps a s.beginTaken := by
  unfold State.beginTaken
  simp only
  have k0 : Keeps a { s.toRest with mp := { s.toRest.mp with passKind := s.se.context.elim .main (·.kind) } } :=
    k.toRest.move rfl rfl (fun h => h) rfl rfl rfl
  have tail : ∀ {u : State}, Keeps a u → Keeps a (if u.refill.mp.window.isEmpty = true then
      u.refill.toRest.atStandstill u.refill.mp.marker
      else { u.refill with mp := { u.refill.mp with mode := .running, spindle := u.refill.par.sMin } }) := by
    intro u ku
    split
    · exact ku.refill.toRest.atStandstill _
    · exact ku.refill.move rfl rfl (fun h => ⟨fun c => absurd rfl c, h.2⟩) rfl rfl rfl
  refine tail ?_
  split
  · exact (k0.beginRun.clearContext.goTo _ _).sewingSweep
  · exact k0.beginRun.goTo _ _

theorem Keeps.stepBegin (k : Keeps a s) (h : s.stepBegin = some t) : Keeps a t := by
  unfold State.stepBegin at h
  split at h
  · split at h
    · cases h; exact k.haltDue _
    · split at h
      · cases h
      · cases h; exact k.shaftOut
      · cases h
        split
        · exact k.startRetraction ‹_›
        · exact k.beginTaken
  · split at h
    · cases h
    · cases h; exact k.toRest
  · cases h

theorem Keeps.trimSewn (k : Keeps a s) : Keeps a s.trimSewn := by
  unfold State.trimSewn
  split
  · split
    · simp only
      split
      · exact Keeps.passIndices _ _ _ (k.sewnThrough _)
      · exact k.sewnThrough _
    · exact k
  · exact k

theorem Keeps.endMainPass (k : Keeps a s) : Keeps a s.endMainPass := by
  unfold State.endMainPass State.dropReplays
  simp only
  refine Keeps.clearPolicy (Keeps.markSewn (Keeps.forHeads (Keeps.endService (Keeps.endIssue ?_)) fun h t kt => kt.setHead _ _))
  exact k.recorded rfl rfl rfl rfl rfl fun _ h => PinsMatch.mapRecords h _ fun q _ => by
    split <;> exact ⟨rfl, rfl⟩

theorem Keeps.continueIssue (k : Keeps a s) : Keeps a s.continueIssue := by
  unfold State.continueIssue
  split
  · split
    · exact k.setContext _
    · exact k
  · exact k

theorem Keeps.trimsComplete (k : Keeps a s) (aim : TrimAim) : Keeps a (s.trimsComplete aim) := by
  unfold State.trimsComplete
  have k1 := k.endTrimRequest
  simp only
  split
  · split
    · exact k1.trimSewn.haltDue _
    · exact k1.trimSewn.continueIssue.goTo _ _
  · split
    · exact k1.trimSewn.haltDue _
    · exact k1.trimSewn.continueIssue.goTo _ _
  · split
    · exact k1.endMainPass.haltDue _
    · exact k1.endMainPass.startRepairs _
  · split
    · exact k1.endIssue.endService.endRepairPass.haltDue _
    · exact k1.endIssue.endService.endRepairPass.goTo _ _
  · exact k1.haltDue _
  · split
    · exact (k1.withPc _).haltDue _
    · exact (k1.withPc _).goOn
  · split
    · exact (k1.withPc _).haltDue _
    · exact (k1.withPc _).startRepairs _

theorem Keeps.microStep (k : Keeps a s) (h : s.microStep = some t) : Keeps a t := by
  unfold State.microStep at h
  split at h
  · cases h
  · cases h
  · cases h; exact k.stepTake
  · split at h
    · cases h
    · cases h; exact k.choiceComplete _
  · exact k.stepTravel h
  · exact k.stepBegin h
  · split at h
    · cases h
    · cases h; exact k.trimsComplete _
  · cases h; exact k.stepSchedule

theorem Keeps.driveFor (n : Nat) : ∀ {s : State}, Keeps a s → Keeps a (State.driveFor n s) := by
  induction n with
  | zero => exact fun k => k
  | succ n ih =>
    intro s k
    unfold State.driveFor
    split
    · exact k
    · exact ih (k.microStep ‹_›)

/-- The part going on by itself keeps what any step keeps. -/
theorem Keeps.drive (k : Keeps a s) : Keeps a s.drive := Keeps.driveFor _ k

end

end Sys2Proof.Machine
end

