-- ==== Sys2Proof/Laws/Params.lean ====
section
/-! SUPPORT. What a write of one parameter keeps: every parameter in its range and in its order. What a
write into a Move-Time Table leaves in each entry, and when a table is non-decreasing. -/

namespace Sys2Proof.Machine

/-- A value above the low end of a range is clamped into the range. -/
theorem clampNat_mem {low high : Nat} (h : low ≤ high) (v : Nat) :
    low ≤ clampNat low high v ∧ clampNat low high v ≤ high := by
  unfold clampNat; omega

/-- The value fitted to a number parameter lies in its range, and a fitted WINDOW_DEG is even. -/
theorem Params.fitted_mem {p : Params} {i : Nat} (h : (p.range i).1 ≤ (p.range i).2) (v : Nat) :
    ((p.range i).1 ≤ p.fitted i v ∧ p.fitted i v ≤ (p.range i).2) ∧ (i = 10 → p.fitted i v % 2 = 0) := by
  have hc := clampNat_mem h v
  unfold Params.fitted
  dsimp only
  split
  · rename_i e
    subst e
    simp only [Params.range] at hc ⊢
    omega
  · exact ⟨hc, fun e => absurd e (by assumption)⟩

/-- A write of a number parameter keeps the parameters sound. -/
theorem Params.put_sound {p : Params} (ho : p.Sound) {i : Nat}
    (hi : (1 ≤ i ∧ i ≤ 14) ∨ (19 ≤ i ∧ i ≤ 35)) (v : Nat) : (p.put i (p.fitted i v)).Sound := by
  unfold Params.Sound at ho
  have hv : ((p.range i).1 ≤ p.fitted i v ∧ p.fitted i v ≤ (p.range i).2) ∧
      (i ≠ 10 ∨ p.fitted i v % 2 = 0) := by
    refine (Params.fitted_mem ?_ v).imp_right fun e => Decidable.not_or_of_imp e
    rcases hi with ⟨h1, h2⟩ | ⟨h1, h2⟩ <;> interval_cases i <;> simp only [Params.range] <;> omega
  generalize p.fitted i v = w at hv ⊢
  unfold Params.Sound
  obtain ⟨⟨_, _⟩, _, _, ⟨_, _⟩, ⟨_, _⟩, ⟨_, _⟩, ⟨_, _⟩, ⟨_, _⟩, ⟨_, _, _⟩, ⟨_, _⟩, ⟨_, _⟩, ⟨_, _⟩, ⟨_, _⟩,
    ⟨_, _, _⟩, ⟨_, _, _⟩, ⟨_, _⟩, ⟨_, _⟩, ⟨_, _⟩, _, ⟨_, _⟩, ⟨_, _⟩, _, _, ⟨_, _, _⟩, ⟨_, _⟩, _, _, ⟨_, _⟩,
    ⟨_, _⟩, ⟨_, _⟩, ⟨_, _⟩⟩ := ho
  rcases hi with ⟨h1, h2⟩ | ⟨h1, h2⟩ <;> interval_cases i <;> simp only [Params.range, Params.put] at hv ⊢ <;>
    obtain ⟨⟨_, _⟩, _⟩ := hv <;> and_intros <;> first | assumption | omega

/-- An entry after a write of entries from `first` on: the one written there, or the one before. -/
theorem replaceFrom_get (table entries : List Nat) (first d : Nat) (h : first + entries.length ≤ table.length) :
    (replaceFrom table first entries)[d]? =
      if first ≤ d ∧ d < first + entries.length then entries[d - first]? else table[d]? := by
  unfold replaceFrom
  have ht : (table.take first).length = first := by simp; omega
  by_cases h1 : d < first
  · rw [List.append_assoc, List.getElem?_append_left (by omega), List.getElem?_take, if_pos h1,
      if_neg (by omega)]
  · by_cases h2 : d < first + entries.length
    · rw [List.getElem?_append_left (by rw [List.length_append]; omega),
        List.getElem?_append_right (by omega), ht, if_pos (by omega)]
    · rw [List.getElem?_append_right (by rw [List.length_append]; omega), List.getElem?_drop,
        List.length_append, ht, if_neg (by omega)]
      congr 1
      omega

theorem replaceFrom_length (table entries : List Nat) (first : Nat)
    (h : first + entries.length ≤ table.length) : (replaceFrom table first entries).length = table.length := by
  unfold replaceFrom
  simp only [List.length_append, List.length_take, List.length_drop]
  omega

/-- A table is non-decreasing where each entry is no greater than the one after it (R39). -/
theorem nonDecreasing_iff (l : List Nat) :
    nonDecreasing l = true ↔ ∀ d a b, l[d]? = some a → l[d + 1]? = some b → a ≤ b := by
  induction l with
  | nil => simp [nonDecreasing]
  | cons a l ih =>
    cases l with
    | nil => simp [nonDecreasing]
    | cons b l =>
      simp only [nonDecreasing, Bool.and_eq_true, decide_eq_true_eq, ih]
      refine ⟨?_, fun h => ⟨h 0 a b rfl rfl, fun d x y hx hy => h (d + 1) x y (by simpa using hx) (by simpa using hy)⟩⟩
      rintro ⟨h1, h2⟩ d x y hx hy
      cases d with
      | zero => simp at hx hy; omega
      | succ d => exact h2 d x y (by simpa using hx) (by simpa using hy)

end Sys2Proof.Machine
end

