-- ==== Sys2Proof/Laws/Words.lean ====
section
/-! SUPPORT. Words and lists taken apart into the bytes of a frame and put together again (R181). -/

namespace Sys2Proof.Machine

@[simp] theorem word16_bytes (v : BitVec 16) : word16 (v.extractLsb' 8 8) (v.extractLsb' 0 8) = v := by
  unfold word16
  ext i hi
  simp only [BitVec.getElem_append, BitVec.getElem_extractLsb', Nat.zero_add]
  split
  · exact BitVec.getLsbD_eq_getElem hi
  · rw [show 8 + (i - 8) = i by omega]; exact BitVec.getLsbD_eq_getElem hi

@[simp] theorem word24_bytes (v : BitVec 24) :
    word24 (v.extractLsb' 16 8) (v.extractLsb' 8 8) (v.extractLsb' 0 8) = v := by
  unfold word24
  ext i hi
  simp only [BitVec.getElem_append, BitVec.getElem_extractLsb', Nat.zero_add]
  split
  · exact BitVec.getLsbD_eq_getElem hi
  · split
    · rw [show 8 + (i - 8) = i by omega]; exact BitVec.getLsbD_eq_getElem hi
    · rw [show 16 + (i - 8 - 8) = i by omega]; exact BitVec.getLsbD_eq_getElem hi

@[simp] theorem word32_bytes (v : BitVec 32) :
    word32 (v.extractLsb' 24 8) (v.extractLsb' 16 8) (v.extractLsb' 8 8) (v.extractLsb' 0 8) = v := by
  unfold word32
  ext i hi
  simp only [BitVec.getElem_append, BitVec.getElem_extractLsb', Nat.zero_add]
  split
  · exact BitVec.getLsbD_eq_getElem hi
  · split
    · rw [show 8 + (i - 8) = i by omega]; exact BitVec.getLsbD_eq_getElem hi
    · split
      · rw [show 16 + (i - 8 - 8) = i by omega]; exact BitVec.getLsbD_eq_getElem hi
      · rw [show 24 + (i - 8 - 8 - 8) = i by omega]; exact BitVec.getLsbD_eq_getElem hi

theorem triples_bytes (l : List RawStitch) : triples (tripleBytes l) = some l := by
  induction l with
  | nil => rfl
  | cons t l ih =>
    show triples (t.dx :: t.dy :: t.kind :: tripleBytes l) = _
    rw [triples, ih]; rfl

theorem entries_bytes (l : List (BitVec 16)) : entries16 (l.flatMap bytes16) = some l := by
  induction l with
  | nil => rfl
  | cons v l ih =>
    show entries16 (v.extractLsb' 8 8 :: v.extractLsb' 0 8 :: l.flatMap bytes16) = _
    rw [entries16, ih]; simp

/-- A value below 2¹⁶ in a field of three bytes whose first byte is 0. -/
theorem word24_narrow (v : BitVec 24) (h : v.toNat < 65536) :
    word24 0 ((v.setWidth 16).extractLsb' 8 8) ((v.setWidth 16).extractLsb' 0 8) = v := by
  have e : v = (v.setWidth 16).setWidth 24 := by
    apply BitVec.eq_of_toNat_eq
    simp only [BitVec.toNat_setWidth]
    omega
  generalize v.setWidth 16 = w at e ⊢
  subst e
  unfold word24
  ext i hi
  simp only [BitVec.getElem_append, BitVec.getElem_extractLsb', Nat.zero_add, BitVec.getElem_setWidth]
  split
  · rfl
  · split
    · rw [show 8 + (i - 8) = i by omega]
    · rw [BitVec.getLsbD_of_ge _ _ (by omega)]; simp

/-! ## Quantities of several bytes (R181) -/

theorem beBytes_length (n : Nat) (v : Int) : (beBytes n v).length = n := by simp [beBytes]

theorem ofBytes_append (l : List Byte) (b : Byte) : ofBytes (l ++ [b]) = ofBytes l * 256 + b.toNat := by
  simp [ofBytes]

theorem beBytes_succ (n : Nat) (v : Int) : beBytes (n + 1) v = beBytes n (v / 256) ++ [BitVec.ofInt 8 v] := by
  unfold beBytes
  rw [List.range_succ, List.map_append]
  congr 1
  · apply List.map_congr_left
    intro i hi
    have hi := List.mem_range.1 hi
    have e : n + 1 - 1 - i = (n - 1 - i) + 1 := by omega
    rw [e, pow_succ, mul_comm, Int.ediv_ediv_of_nonneg (by norm_num)]
  · simp

/-- The bytes of a quantity spell it, to as many bits as they hold. -/
theorem ofBytes_beBytes (n : Nat) (v : Int) : (ofBytes (beBytes n v) : Int) = v % 256 ^ n := by
  induction n generalizing v with
  | zero => simp [beBytes, ofBytes]
  | succ n ih =>
    rw [beBytes_succ, ofBytes_append]
    push_cast
    have hb : ((BitVec.ofInt 8 v).toNat : Int) = v % 256 := by
      rw [BitVec.toNat_ofInt]
      exact Int.toNat_of_nonneg (Int.emod_nonneg _ (by norm_num))
    rw [ih, hb, pow_succ, mul_comm (256 ^ n) 256]
    have hm : (0 : Int) < 256 ^ n := by positivity
    generalize (256 : Int) ^ n = m at hm
    have h1 := Int.emod_add_mul_ediv v 256
    have h2 := Int.emod_add_mul_ediv (v / 256) m
    have h3 := Int.emod_nonneg v (b := 256) (by norm_num)
    have h4 := Int.emod_lt_of_pos v (b := 256) (by norm_num)
    have h5 := Int.emod_nonneg (v / 256) (b := m) (by omega)
    have h6 := Int.emod_lt_of_pos (v / 256) hm
    have e : v = ((v / 256 % m) * 256 + v % 256) + (256 * m) * (v / 256 / m) := by nlinarith
    conv_rhs => rw [e]
    rw [Int.add_mul_emod_self_left]
    symm
    apply Int.emod_eq_of_lt <;> nlinarith

end Sys2Proof.Machine
end

