-- ==== Sys2Proof/Laws/PerInstr.lean ====
section
/-! SUPPORT. The family FrameDecodes, command by command: the kind and the payload written for a
well-formed command are read as that command (R173, R183), and fit a frame (R181). An event of the
machine has no payload, and nothing is said of it. -/

namespace Sys2Proof.Laws.FrameDecodes

open Sys2Proof.Machine

/-- What is written for a command is read as that command, in at most 200 bytes of payload. -/
def Statement (i : Instr) : Prop :=
  i.wellFormed = true → ∀ kp, requestPayload i = some kp →
    requestOf kp.1 kp.2 = some i ∧ kp.1 ≤ 31 ∧ kp.2.length ≤ 200

/-- A command whose payload is known. -/
theorem of_payload {i : Instr} {k : Nat} {p : List Byte} (h : requestPayload i = some (k, p))
    (hr : requestOf k p = some i) (hk : k ≤ 31) (hl : p.length ≤ 200) : Statement i := by
  intro _ kp e
  rw [h] at e
  cases e
  exact ⟨hr, hk, hl⟩

/-- A command with no payload to write: an event of the machine. -/
theorem of_event {i : Instr} (h : requestPayload i = none) : Statement i := by
  intro _ kp e
  rw [h] at e
  cases e

theorem transaction (rx : List Byte) :
    Statement (.transaction rx) :=
  of_event rfl

theorem jobOpen (segments heads : BitVec 16) (repairWhen : Byte) (pinCeiling : BitVec 16) (powerBacktrack : Byte) :
    Statement (.jobOpen segments heads repairWhen pinCeiling powerBacktrack) :=
  of_payload rfl (congrArg some (by simp only [word16_bytes])) (Nat.le_of_ble_eq_true rfl)
    (Nat.le_of_ble_eq_true rfl)

theorem jobClose :
    Statement (.jobClose) :=
  of_payload rfl rfl (Nat.le_of_ble_eq_true rfl) (Nat.le_of_ble_eq_true rfl)

theorem start :
    Statement (.start) :=
  of_payload rfl rfl (Nat.le_of_ble_eq_true rfl) (Nat.le_of_ble_eq_true rfl)

theorem stop :
    Statement (.stop) :=
  of_payload rfl rfl (Nat.le_of_ble_eq_true rfl) (Nat.le_of_ble_eq_true rfl)

theorem resume :
    Statement (.resume) :=
  of_payload rfl rfl (Nat.le_of_ble_eq_true rfl) (Nat.le_of_ble_eq_true rfl)

theorem repairRun :
    Statement (.repairRun) :=
  of_payload rfl rfl (Nat.le_of_ble_eq_true rfl) (Nat.le_of_ble_eq_true rfl)

theorem frameSet (x y : BitVec 16) :
    Statement (.frameSet x y) :=
  of_payload rfl (congrArg some (by simp only [word16_bytes])) (Nat.le_of_ble_eq_true rfl)
    (Nat.le_of_ble_eq_true rfl)

theorem segOpen (number thread count x y : BitVec 16) (flags : Byte) :
    Statement (.segOpen number thread count x y flags) :=
  of_payload rfl (congrArg some (by simp only [word16_bytes])) (Nat.le_of_ble_eq_true rfl)
    (Nat.le_of_ble_eq_true rfl)

theorem segClose (number : BitVec 16) (x y : BitVec 32) :
    Statement (.segClose number x y) :=
  of_payload rfl (congrArg some (by simp only [word16_bytes, word32_bytes])) (Nat.le_of_ble_eq_true rfl)
    (Nat.le_of_ble_eq_true rfl)

theorem segDiscard (number : BitVec 16) :
    Statement (.segDiscard number) :=
  of_payload rfl (congrArg some (by simp only [word16_bytes])) (Nat.le_of_ble_eq_true rfl)
    (Nat.le_of_ble_eq_true rfl)

theorem segQuery (number : BitVec 16) :
    Statement (.segQuery number) :=
  of_payload rfl (congrArg some (by simp only [word16_bytes])) (Nat.le_of_ble_eq_true rfl)
    (Nat.le_of_ble_eq_true rfl)

theorem segLocate (number k : BitVec 16) :
    Statement (.segLocate number k) :=
  of_payload rfl (congrArg some (by simp only [word16_bytes])) (Nat.le_of_ble_eq_true rfl)
    (Nat.le_of_ble_eq_true rfl)

theorem needleSet (head needle given : Byte) (code : BitVec 16) (state : Byte) :
    Statement (.needleSet head needle given code state) :=
  of_payload rfl (congrArg some (by simp only [word16_bytes])) (Nat.le_of_ble_eq_true rfl)
    (Nat.le_of_ble_eq_true rfl)

theorem needleQuery (head needle : Byte) :
    Statement (.needleQuery head needle) :=
  of_payload rfl rfl (Nat.le_of_ble_eq_true rfl) (Nat.le_of_ble_eq_true rfl)

theorem headMode (head mode : Byte) :
    Statement (.headMode head mode) :=
  of_payload rfl rfl (Nat.le_of_ble_eq_true rfl) (Nat.le_of_ble_eq_true rfl)

theorem headRejoin (head : Byte) :
    Statement (.headRejoin head) :=
  of_payload rfl rfl (Nat.le_of_ble_eq_true rfl) (Nat.le_of_ble_eq_true rfl)

theorem headQuery (head : Byte) :
    Statement (.headQuery head) :=
  of_payload rfl rfl (Nat.le_of_ble_eq_true rfl) (Nat.le_of_ble_eq_true rfl)

theorem headClear (head : Byte) :
    Statement (.headClear head) :=
  of_payload rfl rfl (Nat.le_of_ble_eq_true rfl) (Nat.le_of_ble_eq_true rfl)

theorem headBobbin (head : Byte) (length : BitVec 24) :
    Statement (.headBobbin head length) :=
  of_payload rfl (congrArg some (by simp only [word24_bytes])) (Nat.le_of_ble_eq_true rfl)
    (Nat.le_of_ble_eq_true rfl)

theorem repairList (present : Byte) (segment : BitVec 16) (head : Byte) (first : BitVec 16) :
    Statement (.repairList present segment head first) :=
  of_payload rfl (congrArg some (by simp only [word16_bytes])) (Nat.le_of_ble_eq_true rfl)
    (Nat.le_of_ble_eq_true rfl)

theorem repairCancel (by_ which : Byte) :
    Statement (.repairCancel by_ which) :=
  of_payload rfl rfl (Nat.le_of_ble_eq_true rfl) (Nat.le_of_ble_eq_true rfl)

theorem ruleRead (number : Byte) :
    Statement (.ruleRead number) :=
  of_payload rfl rfl (Nat.le_of_ble_eq_true rfl) (Nat.le_of_ble_eq_true rfl)

theorem configRead (ident : Byte) :
    Statement (.configRead ident) :=
  of_payload rfl rfl (Nat.le_of_ble_eq_true rfl) (Nat.le_of_ble_eq_true rfl)

theorem status :
    Statement (.status) :=
  of_payload rfl rfl (Nat.le_of_ble_eq_true rfl) (Nat.le_of_ble_eq_true rfl)

theorem attentionRead :
    Statement (.attentionRead) :=
  of_payload rfl rfl (Nat.le_of_ble_eq_true rfl) (Nat.le_of_ble_eq_true rfl)

theorem nop :
    Statement (.nop) :=
  of_payload rfl rfl (Nat.le_of_ble_eq_true rfl) (Nat.le_of_ble_eq_true rfl)

theorem reset :
    Statement (.reset) :=
  of_payload rfl rfl (Nat.le_of_ble_eq_true rfl) (Nat.le_of_ble_eq_true rfl)

theorem estopAssert :
    Statement (.estopAssert) :=
  of_event rfl

theorem estopRelease :
    Statement (.estopRelease) :=
  of_event rfl

theorem powerFailWarning (backup : Bool) :
    Statement (.powerFailWarning backup) :=
  of_event rfl

theorem warningClear :
    Statement (.warningClear) :=
  of_event rfl

theorem powerReturn (backup : Bool) :
    Statement (.powerReturn backup) :=
  of_event rfl

theorem resetLineAssert :
    Statement (.resetLineAssert) :=
  of_event rfl

theorem resetLineRelease :
    Statement (.resetLineRelease) :=
  of_event rfl

theorem shaftAngleChange (angle : Fin 360) :
    Statement (.shaftAngleChange angle) :=
  of_event rfl

theorem spindleAtRest :
    Statement (.spindleAtRest) :=
  of_event rfl

theorem moveCompletion :
    Statement (.moveCompletion) :=
  of_event rfl

theorem standstillExchange :
    Statement (.standstillExchange) :=
  of_event rfl

theorem headReport (head : HeadId) (message : List Byte) :
    Statement (.headReport head message) :=
  of_event rfl

theorem reportDue (head : HeadId) :
    Statement (.reportDue head) :=
  of_event rfl

theorem shiftTimerExpiry (head : HeadId) :
    Statement (.shiftTimerExpiry head) :=
  of_event rfl

theorem trimTimerExpiry (head : HeadId) :
    Statement (.trimTimerExpiry head) :=
  of_event rfl

theorem mainSupplyFailure :
    Statement (.mainSupplyFailure) :=
  of_event rfl

theorem backupFailure :
    Statement (.backupFailure) :=
  of_event rfl

theorem segWrite (number offset : BitVec 16) (stitches : List RawStitch) :
    Statement (.segWrite number offset stitches) := by
  intro hw'
  have hw := hw'
  simp only [Instr.wellFormed, Bool.and_eq_true, decide_eq_true_eq] at hw
  have e : (BitVec.ofNat 8 stitches.length).toNat = stitches.length := by
    rw [BitVec.toNat_ofNat]; omega
  have hl : (tripleBytes stitches).length = 3 * stitches.length := by
    simp [tripleBytes, List.length_flatMap, Nat.mul_comm]
  refine of_payload rfl ?_ (Nat.le_of_ble_eq_true rfl) ?_ hw'
  · show segWriteOf (word16 _ _) (word16 _ _) _ (tripleBytes stitches) = _
    simp only [segWriteOf, triples_bytes, word16_bytes, e, hw, and_self, if_true]
  · simp only [bytes16, List.length_append, List.length_cons, List.length_nil, hl]
    omega

theorem ruleWrite (number : Byte) (rule : Option RawRule) : Statement (.ruleWrite number rule) := by
  cases rule with
  | none => exact of_payload rfl rfl (Nat.le_of_ble_eq_true rfl) (Nat.le_of_ble_eq_true rfl)
  | some r =>
    exact of_payload rfl (congrArg some (by simp only [word16_bytes])) (Nat.le_of_ble_eq_true rfl)
      (Nat.le_of_ble_eq_true rfl)

theorem tableWrite (axis first count : Byte) (entries : List (BitVec 16)) :
    Statement (.tableWrite axis first count entries) := by
  intro hw
  simp only [Instr.wellFormed, decide_eq_true_eq] at hw
  have hl : (entries.flatMap bytes16).length = 64 := by
    simp [bytes16, List.length_flatMap, hw]
  refine of_payload rfl ?_ (Nat.le_of_ble_eq_true rfl) ?_ (decide_eq_true hw)
  · show tableWriteOf axis first count (entries.flatMap bytes16) = _
    simp only [tableWriteOf, entries_bytes, hw, if_true]
  · simp only [List.length_append, List.length_cons, List.length_nil, hl]
    omega

theorem configWrite (ident : Byte) (value : BitVec 24) : Statement (.configWrite ident value) := by
  intro hw
  have hw' := hw
  simp only [Instr.wellFormed, decide_eq_true_eq] at hw
  refine of_payload rfl ?_ (Nat.le_of_ble_eq_true rfl) ?_ hw'
  · show configWriteOf ident (configBytes ident value) = _
    by_cases e : configWidth ident = 3
    · simp only [configBytes, e, if_true, bytes24, configWriteOf, word24_bytes]
    · have e2 : configWidth ident = 2 := by
        revert e; unfold configWidth; split <;> simp
      rw [e2] at hw
      simp only [configBytes, e2, bytes16, configWriteOf, if_true]
      simp only [Nat.reduceEqDiff, if_false]
      exact congrArg (fun v => some (Instr.configWrite ident v)) (word24_narrow value hw)
  · unfold configBytes bytes24 bytes16
    split <;> simp

end Sys2Proof.Laws.FrameDecodes
end

