-- ==== Sys2Proof/Laws/Runs.lean ====
section
/-! SUPPORT. What the operations that begin and feed a run change, said once: the issue of a stitch, the
filling of the look-ahead window, the records a pass opens or advances, the trim request. A statement
about a pass cites these instead of unfolding them. -/

namespace Sys2Proof.Machine

/-! ## The stream and the look-ahead window -/

/-- A request to the editor changes the editor alone. -/
theorem State.issue_shape (s : State) : s.issue = (s.issue.1, { s with se := s.issue.2.se }) := by
  unfold State.issue
  split
  · rfl
  · split <;> rfl

/-- The filling of the window changes the editor, the window and the marker alone. -/
theorem State.fillWindow_shape (n : Nat) (s : State) : State.fillWindow n s = { s with
    se := (State.fillWindow n s).se
    mp := { s.mp with
      window := (State.fillWindow n s).mp.window, marker := (State.fillWindow n s).mp.marker } } := by
  induction n generalizing s with
  | zero => rfl
  | succ n ih =>
    unfold State.fillWindow
    split
    · rfl
    · have hs := s.issue_shape
      split
      · rename_i e; rw [e] at hs; rw [(Prod.mk.inj hs).2]
      · rename_i e; rw [e] at hs; rw [(Prod.mk.inj hs).2]
      · rename_i st u e
        rw [e] at hs
        have hu : u = { s with se := u.se } := (Prod.mk.inj hs).2
        have := ih { u with mp := { u.mp with window := u.mp.window ++ [⟨st, u.staticCap st⟩] } }
        generalize State.fillWindow n _ = v at this ⊢
        rw [hu] at this
        exact this

/-- A new run: no report and no stitch of it stands, every latch is UP. -/
theorem State.beginRun_shape (s : State) : s.beginRun = { s with hs := { s.hs with
    heads := s.beginRun.hs.heads, current := none, previous := none, lastTake := none } } := by
  unfold State.beginRun
  refine State.forHeads_keep (P := fun u => u = { s with hs := { s.hs with
    heads := u.hs.heads, current := none, previous := none, lastTake := none } }) (fun h u _ hu => ?_) rfl
  rw [hu]; rfl

theorem State.beginRun_head (s : State) (h : HeadId) : s.beginRun.head h = { s.head h with
    taken := false, takenBefore := false, latch := false, latchBefore := false } := by
  unfold State.beginRun
  exact (State.forHeads_at (g := State.head)
    (fun _ r => { r with taken := false, takenBefore := false, latch := false, latchBefore := false })
    (fun h t => State.head_setHead_self _ _ _)
    (fun h k t e => by rw [State.head_setHead, if_neg e]) _ h).trans (if_pos rfl)

/-! ## The repair records -/

/-- Only the repair records and the segments they pin have changed, with the retired-in-pass flag. -/
def State.OnlyRecords (s t : State) : Prop := t = { s with
    rt := { s.rt with records := t.rt.records, retiredInPass := t.rt.retiredInPass }
    ds := { s.ds with segs := t.ds.segs, pool := t.ds.pool, loadWant := t.ds.loadWant } }

theorem State.OnlyRecords.trans {s t u : State} (a : s.OnlyRecords t) (b : t.OnlyRecords u) :
    s.OnlyRecords u := by
  unfold State.OnlyRecords at *; rw [a] at b; exact b

theorem State.OnlyRecords.foldl {α : Type} {f : State → α → State} (hf : ∀ t x, State.OnlyRecords t (f t x))
    (l : List α) (s : State) : s.OnlyRecords (l.foldl f s) := by
  induction l generalizing s with
  | nil => rfl
  | cons a l ih => exact (hf s a).trans (ih _)

theorem State.retire_only (s : State) (r : RepairRecord) : s.OnlyRecords (s.retire r) := by
  unfold State.retire State.release
  split
  · unfold State.OnlyRecords State.freeIfDone
    split
    · split <;> rfl
    · rfl
  · rfl

/-- An open request answered with a record changes the records and their pins alone. -/
theorem State.openRequest_only {s t : State} {h : HeadId} {g f : Nat} {c : RepairCause}
    (e : s.openRequest h g f c = some t) : s.OnlyRecords t := by
  unfold State.openRequest at e
  split at e
  · unfold State.openAt at e
    dsimp only at e
    split at e
    · unfold State.createRecord at e
      dsimp only at e
      split at e
      · injection e with e
        rw [← e]
        unfold State.pin
        split <;> rfl
      · cases e
    · injection e with e
      rw [← e]
      exact State.OnlyRecords.trans (t := s.putRecord _) rfl (State.OnlyRecords.foldl (fun t x => t.retire_only x) _ _)
  · injection e with e; rw [e]; rfl

/-- The frontier's passing over stored indices changes the records and their pins alone. -/
theorem State.passIndices_only (g n i : Nat) (s : State) : s.OnlyRecords (State.passIndices g n i s) := by
  induction n generalizing i s with
  | zero => rfl
  | succ n ih =>
    unfold State.passIndices
    refine State.OnlyRecords.trans ?_ (ih _ _)
    unfold State.passIndex
    split
    · split
      · rfl
      · refine State.forHeads_keep (P := State.OnlyRecords s) (fun h u _ hu => hu.trans ?_) rfl
        refine State.OnlyRecords.foldl (fun t x => ?_) _ _
        split
        · exact (t.retire_only x).trans rfl
        · rfl
    · rfl

/-! ## The trim request -/

theorem State.requestTrim_shape (set : HeadSet) (s : State) : s.requestTrim set = { s with
    ts := { s.ts with heads := (s.requestTrim set).ts.heads, trimNamed := set } } := by
  have key : ∀ p : HeadId → Bool, (s.forHeads p fun h t =>
      t.setSel h { t.sel h with trim := some { order := .unsent, timeout := t.par.trimTimeout } }) = { s with
        ts := { s.ts with heads := (s.forHeads p fun h t =>
          t.setSel h { t.sel h with trim := some { order := .unsent, timeout := t.par.trimTimeout } }).ts.heads } } :=
    fun p => State.forHeads_keep (P := fun u => u = { s with ts := { s.ts with heads := u.ts.heads } })
      (fun h u _ hu => by rw [hu]; rfl) rfl
  unfold State.requestTrim
  dsimp only
  rw [key]

end Sys2Proof.Machine
end

