-- ==== Sys2Proof/Tests/Slice0.lean ====
section
/-! SUPPORT. The model against the spec's worked cases, each command once, and for every statement of
Obligations.lean a state and operands that meet its hypotheses together. -/

set_option Elab.async false

namespace Sys2Proof.Tests

open Sys2Proof Sys2Proof.Machine Sys2Proof.Claims

/-! ## Small states -/

/-- The state after a list of commands. -/
def run : List Instr → State → State
  | [], s => s
  | i :: is, s =>
    match exec i s with
    | .next t => run is t
    | _ => s

/-- A report of a board as its seven bytes (R186). -/
def report (h : HeadId) (r : Report) : Instr := .headReport h (r.message h)

/-- A report of a head at rest on a needle. -/
def still (n : Option NeedleId) : Report := ⟨0, true, false, false, false, n⟩

/-- A job of one segment for heads 1 and 2, which hold thread 1203 on needle 5; the frame is referenced. -/
def opened : State :=
  run [.jobOpen 1 3 0 1024 5, .frameSet 0 0, .needleSet 1 5 1 1203 0, .needleSet 2 5 1 1203 0] State.reset

/-- Segment 0 has its three stitches. -/
def written : State :=
  run [.segOpen 0 1203 3 0 0 3, .segWrite 0 0 [⟨30, 10, 0⟩, ⟨20, 5, 0⟩, ⟨10, 10, 0⟩]] opened

/-- Segment 0 is READY. -/
def loaded : State := run [.segClose 0 60 25] written

/-- The heads have needle 5 in position, as after an earlier thread change. -/
def onNeedle (s : State) : State :=
  { s with ts := { s.ts with heads := s.ts.heads.map fun r => { r with current := some 4 } } }

/-- The first segment is taken, the shaft rests in the window and the planner runs. -/
def sewing : State := run [.start, .spindleAtRest] (onNeedle loaded)

/-- The first stitch, the tie-in's, has been taken and its move is in progress. -/
def moving : State := run [.shaftAngleChange 180, .shaftAngleChange 310] sewing

/-- The machine has been stopped while the shaft runs down. -/
def slowing : State :=
  { sewing with
    pc := { sewing.pc with state := .stopping, due := some .stopRequest }
    mp := { sewing.mp with mode := .runningDown, spindle := 0 } }

/-! ## The spec's worked cases -/

/-- The check value of the CRC of R181 (generator 1021, register at ones, no inversion): 29B1 for the
nine digits. -/
theorem test_crc_check_value : crc16 [0x31, 0x32, 0x33, 0x34, 0x35, 0x36, 0x37, 0x38, 0x39] = 0x29B1 := by
  decide +kernel

/-- The table of section 1.5: running end and box after four stitches from (1000, −500). -/
theorem test_segWrite_box :
    ((run [.segOpen 0 1203 4 1000 (-500) 0,
        .segWrite 0 0 [⟨118, -35, 0⟩, ⟨-25, 60, 0⟩, ⟨0, 12, 0⟩, ⟨0, 0, 2⟩]] opened).findSeg 0).map
      (fun r => (r.runEnd, r.box)) = some (⟨1093, -463⟩, ⟨1000, 1118, -535, -463⟩) := by
  decide +kernel

/-- A segment of eight stitches with both ties (section 2.6, the worked sequence). -/
def streamed : State :=
  run [.jobOpen 1 3 0 1024 5, .frameSet 0 0, .needleSet 1 5 1 1203 0, .needleSet 2 5 1 1203 0, .configWrite 3 5,
    .segOpen 0 1203 8 0 0 3,
    .segWrite 0 0 [⟨118, -35, 0⟩, ⟨2, 1, 0⟩, ⟨1, -3, 0⟩, ⟨4, 2, 0⟩, ⟨0, 0, 2⟩, ⟨3, 3, 0⟩, ⟨-25, 60, 0⟩, ⟨40, 30, 0⟩],
    .segClose 0 143 58] State.reset

/-- The stream up to the TRIM marker: merge, ties and covered ranges as the worked sequence gives them. -/
theorem test_stream_to_trim :
    (run [.start, .spindleAtRest] (onNeedle streamed)).mp.window.map
      (fun w => (w.stitch.dx, w.stitch.dy, w.stitch.index, w.stitch.lowest, w.stitch.anchor)) =
      [(8, -2, none, none, some 0), (-8, 2, none, none, some 0), (118, -35, some 0, some 0, none),
       (7, 0, some 3, some 1, none), (-8, -4, none, none, some 3), (8, 4, none, none, some 3)] := by
  decide +kernel

/-- The cap of (118, −35) with the default tables is 966 (section 3.3). -/
theorem test_geometric_cap : State.reset.geometricCap 118 (-35) = 966 := by decide +kernel

/-- The backward pass of section 3.4 with a JUMP third of twelve stitches. -/
theorem test_backward_pass :
    (List.range 12).map (fun n => backwardPass 100 60
      (([1000, 1000, 600, 1000, 1000, 1000, 1000, 1000, 1000, 1000, 1000, 100].drop n).map fun c =>
        ⟨tieStitch .none 0 0 none, c⟩)) =
      [720, 660, 600, 580, 520, 460, 400, 340, 280, 220, 160, 100] := by decide +kernel

/-- The split of (100, −45) into four parts: the table of section 2.4. -/
theorem test_split_parts :
    ((tieStitch .none 100 (-45) none).parts 4).map (fun p => (p.dx, p.dy)) =
      [(25, -11), (25, -11), (25, -11), (25, -12)] := by decide +kernel

/-- The tables of the split example refuse two and three parts and accept four. -/
theorem test_split_count :
    let table := (List.range 128).map fun d => if d ≤ 41 then 3000 + 1500 * d else 65535
    let s := { State.reset with
      mp := { State.reset.mp with tableX := table, tableY := table }, par := { State.reset.par with sMin := 400 } }
    (s.split (tieStitch .none 100 (-45) none)).length = 4 ∧ s.geometricCap 100 (-45) = 305 := by decide +kernel

/-- Stitch lengths and expected consumptions of section 7.3. -/
theorem test_expected_consumption :
    (stitchLength 40 30, Params.cold.expected 40 30, stitchLength 0 12, Params.cold.expected 0 12) =
      (51, 122, 12, 44) := by decide +kernel

/-- Head 2's meter before the five stitches of section 7.12. -/
def metered : Meter := ⟨0, 190, 30, .green, 20150, true, 0, 140, 10⟩

/-- Rows 88 and 89 of section 7.12: buckets, run and colour. -/
theorem test_meter_rows :
    let m := Params.cold.meterUpdate metered 122 170 true
    let n := Params.cold.meterUpdate m 158 40 true
    (m.loose, m.tight, m.breakRun, m.colour) = (212, 26, 0, .yellow) ∧
    (n.loose, n.tight, n.breakRun, n.colour) = (208, 111, 0, .yellow) := by decide +kernel

/-- Row 92 of section 7.12: UPPER_BREAK and BREAK_STORM, the run back at 0, the storm bucket at 204. -/
theorem test_meter_break_and_storm :
    let s := State.reset.setMeter 1 { metered with loose := 200, tight := 103, breakRun := 2, colour := .yellow }
    let t : Taken := ⟨{ tieStitch .none 0 (-30) none with index := some 92 }, 40, .main, true⟩
    let r := s.meterReport 1 ⟨0, true, false, false, false, some 4⟩ t
    r.2.map (·.kind) = [.upperBreak, .breakStorm] ∧ (r.1.meter 1).breakRun = 0 ∧ (r.1.meter 1).storm = 204 ∧
      (r.1.meter 1).loose = 196 ∧ (r.1.meter 1).tight = 99 ∧ (r.1.meter 1).colour = .green := by decide +kernel

/-- The four rules of the policy of section 8.5, written as the host writes them. -/
def policed : State :=
  run [.ruleWrite 0 (some ⟨0x05, 0x09, 0, 0x0030, 0, 0, 2, 0, 0, 0, 0, 1, 0, 0, 0, 0⟩),
    .ruleWrite 1 (some ⟨0x09, 0x04, 0x04, 0x0001, 0, 0, 0, 0, 9, 0, 0, 0, 0, 0, 0, 0⟩),
    .ruleWrite 2 (some ⟨0x11, 0x06, 0, 0x0003, 0, 0, 0, 0, 0, 800, 0, 0, 700, 12, 0, 0⟩),
    .ruleWrite 3 (some ⟨0x02, 0x10, 0, 0, 0x0040, 0, 0, 0, 0, 0, 0, 0, 0, 0, 0, 2⟩)] State.reset

/-- The three faults of section 8.5 under that policy. -/
theorem test_policy_example :
    let find := fun (h : HeadId) (k : FaultKind) (i : Nat) (p : PassKind) (speed : Nat) =>
      let r := adjust k (resolveFault policed.fr.rules.toList h ⟨k, some 1, some i, none, some p, none, none⟩ speed 0)
      (r.reaction, r.backtrack, r.cap, r.rejoin, r.severity)
    find 2 .upperBreak 4 .main 900 = (.headOff, 6, some 700, .auto, .head) ∧
    find 2 .upperBreak 240 .main 900 = (.headOff, 12, some 700, .auto, .head) ∧
    find 6 .tensionTight 55 .repair 540 = (.hold, 4, none, .auto, .machine) := by decide +kernel

/-- The travel steps of (523, −198) with steps of 100: six steps that add up. -/
theorem test_travel_steps :
    (travelSteps ⟨523, -198⟩ 100).length = 6 ∧ ((travelSteps ⟨523, -198⟩ 100).map (·.x)).sum = 523 ∧
      ((travelSteps ⟨523, -198⟩ 100).map (·.y)).sum = -198 := by decide +kernel

/-! ## WellFormed: a command that breaks each check, and one that passes -/

theorem test_wf_segWrite_none : (Instr.segWrite 0 0 []).wellFormed = false := by decide
theorem test_wf_segWrite_many : (Instr.segWrite 0 0 (List.replicate 65 ⟨0, 0, 0⟩)).wellFormed = false := by decide
theorem test_wf_segWrite : (Instr.segWrite 0 0 (List.replicate 64 ⟨0, 0, 0⟩)).wellFormed = true := by decide
theorem test_wf_tableWrite_short : (Instr.tableWrite 0 0 1 (List.replicate 31 0)).wellFormed = false := by decide
theorem test_wf_configWrite_wide : (Instr.configWrite 1 0x10000).wellFormed = false := by decide
theorem test_wf_configWrite : (Instr.configWrite 31 0x10000).wellFormed = true := by decide

/-! ## The request link -/

/-- A HEAD_BOBBIN frame written out from R181 and R183 byte by byte is read as that request. -/
theorem test_frame_headBobbin :
    frameRequest ([19 + 1, 4, 7, 0x01, 0x02, 0x03] ++ beBytes 2 (crc16 [20, 4, 7, 1, 2, 3]).toNat) =
      some (.headBobbin 7 0x010203) := by decide +kernel

/-- A frame whose CRC is off by one bit is malformed. -/
theorem test_frame_bad_crc :
    frameRequest ([30, 0] ++ beBytes 2 (crc16 [30, 0] ^^^ 1).toNat) = none := by decide +kernel

/-- The 1-byte RULE_WRITE. -/
theorem test_frame_rule_default :
    frameRequest ([23, 1, 5] ++ beBytes 2 (crc16 [23, 1, 5]).toNat) = some (.ruleWrite 5 none) := by decide +kernel

/-! ## More small states -/

/-- START has taken segment 0; the heads are on their needle and the travel waits for the shaft. -/
def travelling : State := run [.start] (onNeedle loaded)

/-- START has taken segment 0 and both heads shift to needle 5, their reports judged from the next on. -/
def shifting : State := run [.start, .standstillExchange, .standstillExchange] loaded

/-- A travel of two steps is under way. -/
def stepping : State := run [.configWrite 5 20, .frameSet 30 0, .start, .spindleAtRest] (onNeedle loaded)

/-- STARVED: START found segment 0 absent. -/
def starving : State := run [.start] opened

/-- HALTED by the emergency stop while stitch 0 was being approached; the input is released. -/
def estopped : State := run [.estopAssert, .estopRelease] moving

/-- HALTED at a stop request. -/
def stopped : State := run [.spindleAtRest] slowing

/-- A repair record of head 2 in segment 0. -/
def owing (st : RecordState) : RepairRecord := ⟨0, 1, 0, 0, some 1, 1203, .carry, st, none⟩

/-- A stop with a record CLOSED that can be repaired. -/
def repairable : State :=
  { stopped with
    rt := { stopped.rt with records := [owing .closed] }
    hs := { stopped.hs with heads := stopped.hs.heads.map fun r => { r with inTrim := r.state == .active } } }

/-- The main pass has run down with one marker in the window, heads 1 and 2 having sewn the last stitch. -/
def atMarker (m : Marker) : State :=
  { sewing with
    mp := { sewing.mp with mode := .runningDown, spindle := 0, window := [], marker := some m }
    hs := { sewing.hs with heads := sewing.hs.heads.map fun r => { r with inTrim := r.state == .active } } }

/-- The state with a trim in flight for heads 1 and 2. -/
def trimming (phase : OrderPhase) (s : State) : State :=
  { s with ts := { s.ts with heads := s.ts.heads.map fun r => { r with trim := some ⟨phase, 600⟩ } } }

/-- The retention flag is set. -/
def retained (s : State) : State := { s with sm := { s.sm with retention := true } }

/-- The power-fail warning is asserted. -/
def warnedOf (s : State) : State := { s with sm := { s.sm with warningInput := true } }

/-- Every fault kind is out of the enable set. -/
def deaf (s : State) : State := { s with fr := { s.fr with enable := 0 } }

/-- A report of every head is awaited. -/
def awaiting (s : State) : State := run [.standstillExchange] s

/-- START has taken segment 0, which begins 30 units away, and the travel waits for the shaft. -/
def waitingTravel : State := run [.configWrite 5 20, .frameSet 30 0, .start] (onNeedle loaded)

/-- That travel is over and the begin-pass request waits for the shaft. -/
def beginning : State := run [.spindleAtRest, .shaftAngleChange 5, .moveCompletion, .moveCompletion] waitingTravel

/-! ## Soundness of the small states -/

theorem opened_sound : opened.ds.Sound := by
  refine ⟨?_, ?_, ?_, ?_⟩ <;> decide +kernel

theorem written_sound : written.ds.Sound := by
  refine ⟨?_, ?_, ?_, ?_⟩ <;> decide +kernel

theorem loaded_sound : loaded.ds.Sound := by
  refine ⟨?_, ?_, ?_, ?_⟩ <;> decide +kernel

theorem moving_sound : moving.mp.Sound := by
  refine ⟨?_, ?_, ?_, ?_⟩ <;> decide +kernel

theorem cold_params_sound : Params.cold.Sound := by unfold Params.Sound; decide +kernel

theorem opened_resolver_sound : opened.fr.Sound := by unfold Resolver.Sound; decide +kernel

/-! ## Hypotheses that are met: the machine and the request link -/

/-- A request received, a malformed frame, a move in progress, and nothing at all. -/
theorem witness_StepWithoutCommand :
    let s := { opened with rl := { opened.rl with slot := .pending (.request .nop) } }
    let m := { opened with rl := { opened.rl with slot := .pending .malformed } }
    (s.pending = [] ∧ Acts s ∧ s.rl.slot = .pending (.request .nop)) ∧
    (m.pending = [] ∧ Acts m ∧ m.rl.slot = .pending .malformed) ∧
    (moving.pending = [] ∧ Acts moving ∧ moving.rl.slot = .ready ⟨.accepted, .none, []⟩ ∧
      moving.mp.move.isSome = true) ∧
    (State.reset.pending = [] ∧ Acts State.reset ∧ State.reset.rl.slot = .noResponse ∧
      State.reset.mp.move = none) := by
  unfold Acts; decide +kernel

/-- A step with one command waiting answers a next state: the commands the witnesses below use. -/
theorem steps_with (s : State) :
    (∃ t, step { s with pending := [.segDiscard 0] } = .next t) ∧
    (∃ t, step { s with pending := [.moveCompletion] } = .next t) ∧
    (∃ t, step { s with pending := [.configWrite 6 400] } = .next t) ∧
    (∃ t, step { s with pending := [.headClear 2] } = .next t) :=
  ⟨⟨_, rfl⟩, ⟨_, rfl⟩, ⟨_, rfl⟩, ⟨_, rfl⟩⟩

theorem witness_StoreStaysSound :
    loaded.ds.Sound ∧ Memory.wf loaded.ds.memory = true ∧ loaded.ds.memory.length = 3 ∧
    ∃ t, step { loaded with pending := [.segDiscard 0] } = .next t :=
  ⟨loaded_sound, by decide +kernel, by decide +kernel, (steps_with loaded).1⟩

theorem witness_MotionStaysSound :
    moving.mp.Sound ∧ moving.mp.mode = .running ∧ ∃ t, step { moving with pending := [.moveCompletion] } = .next t :=
  ⟨moving_sound, by decide +kernel, (steps_with moving).2.1⟩

theorem witness_ParametersAndFaultCountsStaySound :
    State.reset.par.Sound ∧ ∃ t, step { State.reset with pending := [.configWrite 6 400] } = .next t :=
  ⟨cold_params_sound, (steps_with State.reset).2.2.1⟩

theorem witness_ParametersAndFaultCountsStaySound_counts :
    opened.fr.Sound ∧ ∃ t, step { opened with pending := [.headClear 2] } = .next t :=
  ⟨opened_resolver_sound, (steps_with opened).2.2.2⟩

theorem witness_FramesReadAsWritten :
    let i := Instr.segWrite 7 0 [⟨30, 10, 0⟩]
    i.wellFormed = true ∧ requestFrame i = some (withCrc [9, 8, 0, 7, 0, 0, 1, 30, 10, 0]) := by
  decide +kernel

/-- Each ground of a malformed frame at its edge: a length of 201, an ending one byte early, a CRC off by
one, the kinds 0 and 32. -/
theorem witness_MalformedFramesAreRefused :
    200 < (201 : Byte).toNat ∧ ([0x12] : List Byte).length < (0 : Byte).toNat + 2 ∧
    (([0, 0] : List Byte).drop 0).take 2 ≠ beBytes 2 (crc16 [30, 0]).toNat ∧
    (0 : Byte).toNat = 0 ∧ 31 < (32 : Byte).toNat := by decide +kernel

/-- Lengths that suit no request: SEG_WRITE of one stitch in 7 bytes and of none, RULE_WRITE in 2 bytes, a
BOBBIN_LOW_MARK of two bytes, a NOP of one; each with the length that does beside it. -/
theorem witness_MalformedFramesAreRefused_lengths :
    (¬ Suits 9 [0, 0, 0, 0, 1, 0, 0] ∧ Suits 9 [0, 0, 0, 0, 1, 0, 0, 0]) ∧ ¬ Suits 9 [0, 0, 0, 0, 0] ∧
    (¬ Suits 23 [0, 0] ∧ Suits 23 [0]) ∧ (¬ Suits 26 [31, 0, 0] ∧ Suits 26 [30, 0, 0]) ∧
    (¬ Suits 30 [0] ∧ Suits 30 []) := by
  unfold Suits; simp

theorem witness_TransactionExchanges :
    (Acts opened ∧ opened.rl.slot = .ready ⟨.done, .none, [0]⟩) ∧
    (Acts State.reset ∧ State.reset.rl.slot = .noResponse) ∧
    (let s := { opened with rl := { opened.rl with slot := .pending (.request .nop) } }
     Acts s ∧ s.rl.slot = .pending (.request .nop)) ∧
    { opened with sm := { opened.sm with powered := false } }.sm.powered = false ∧
    (let s := { opened with
       sm := { opened.sm with resetWaits := true }, rl := { opened.rl with slot := .pending (.request .nop) } }
     s.sm.powered = true ∧ s.sm.resetLine = false ∧ s.rl.slot = .pending (.request .nop)) ∧
    (let s := { opened with sm := { opened.sm with resetWaits := true } }
     s.sm.resetWaits = true ∧ s.rl.slot = .ready ⟨.done, .none, [0]⟩) := by
  unfold Acts; decide +kernel

/-- A response of four bytes and its CRC goes out over seven clocked bytes, the last being filler. -/
theorem test_transaction_shifts_out :
    (run [.transaction [30, 0, 0, 0, 0, 0, 0]] opened).rl.shiftedOut =
      ([0, 0, 1, 0].map some ++ (beBytes 2 (crc16 [0, 0, 1, 0]).toNat).map some ++ [none]) := by
  decide +kernel

/-! ## Hypotheses that are met: requests that ask, the policy, the parameters, the frame -/

theorem witness_requests_act : Acts opened ∧ Acts sewing ∧ Acts stopped := by unfold Acts; decide +kernel

/-- The clauses of NopAndStatusAnswer: sewing with a segment taken, halted at a stitch, halted before a
take, and a repair pass served. -/
theorem witness_NopAndStatusAnswer :
    (Acts sewing ∧ sewing.pc.state = .sewing ∧ sewing.activeSeg.isSome = true) ∧
    (Acts stopped ∧ stopped.pc.state = .halted ∧ stopped.pc.point = some (.atStitch 0 0)) ∧
    (Acts starving ∧ starving.pc.state = .halted ∧ starving.pc.point = some .beforeTake) ∧
    (let s := { sewing with pc := { sewing.pc with state := .stopping }, mp := { sewing.mp with passKind := .repair } }
     Acts s ∧ s.pc.state = .stopping ∧ s.mp.passKind = .repair) ∧
    (Acts slowing ∧ slowing.pc.state = .stopping ∧ slowing.mp.passKind = .main ∧ slowing.activeSeg.isSome = true) ∧
    (let s := { stopped with pc := { stopped.pc with point := some (.atEnd 0) } }
     Acts s ∧ s.pc.state = .halted ∧ s.pc.point = some (.atEnd 0)) ∧
    (Acts opened ∧ opened.pc.state = .standby ∧ ∀ r ∈ opened.ds.segs, r.state ≠ .active) := by
  unfold Acts; decide +kernel

theorem witness_AttentionReadClears : Acts opened ∧ opened.ds.loadWant = true ∧ opened.rl.sticky = 0x0040 := by
  unfold Acts; decide +kernel

/-- LOAD_WANT pending and enabled asserts the line, as a sticky cause does; neither does without supply. -/
theorem test_attention_line :
    let s := run [.configWrite 38 1] opened
    let c := run [.configWrite 38 0x40] opened
    s.attentionLine = true ∧ c.attentionLine = true ∧ (run [.configWrite 38 2] opened).attentionLine = false ∧
      { s with sm := { s.sm with powered := false } }.attentionLine = false := by decide +kernel

theorem witness_SegQueryAndLocate :
    Acts loaded ∧ loaded.pc.state ≠ .idle ∧ ∃ r, loaded.findSeg (0 : BitVec 16).toNat = some r := by
  refine ⟨by unfold Acts; decide +kernel, by decide +kernel, (loaded.findSeg 0).get (by decide +kernel), by simp⟩

/-- The edges of SEG_QUERY and SEG_LOCATE: the last stitch and one past it, no such number, no job. -/
theorem witness_SegQueryAndLocate_edges :
    (Acts loaded ∧ loaded.pc.state ≠ .idle ∧ (loaded.findSeg 0).map (·.written) = some (3 : BitVec 16).toNat ∧
      3 < (4 : BitVec 16).toNat) ∧
    (Acts opened ∧ opened.pc.state ≠ .idle ∧ opened.findSeg 0 = none) ∧
    (Acts State.reset ∧ State.reset.pc.state = .idle) := by
  unfold Acts; decide +kernel

/-- The end position of segment 0 is where SEG_LOCATE puts the point after its last stitch. -/
theorem test_segLocate_end :
    (run [.segLocate 0 3] loaded).rl.slot = .ready ⟨.done, .none, [0, 0, 0, 60, 0, 0, 0, 25]⟩ := by decide +kernel

theorem witness_NeedleQueryReports :
    (Acts opened ∧ Names 16 15 ∧ (12 : Byte).toNat = (11 : NeedleId).val + 1) ∧
    ((0 : Byte).toNat = 0 ∧ 16 < (17 : Byte).toNat ∧ 12 < (13 : Byte).toNat) := by
  unfold Acts Names; decide +kernel

theorem witness_HeadQueryReports :
    Acts sewing ∧ Names 1 0 ∧ (sewing.head 0).replay = none ∧ (sewing.head 0).lastReport = none ∧
    (sewing.faultHead 0).first = none ∧ 16 < (17 : Byte).toNat := by
  unfold Acts Names; decide +kernel

theorem witness_RepairListPages : Acts repairable ∧ repairable.rt.records.length = 1 := by
  unfold Acts; decide +kernel

/-- A rule in form at its edges: every enumerated value the last one, the range one index wide. -/
def edgeRule : RawRule := ⟨0x3F, 0x1F, 0, 0x1FFF, 0xFFFF, 1, 2, 9, 9, 1200, 127, 2, 1200, 63, 1, 2⟩

/-- The same with a minimum fault count of 128. -/
def wrongRule : RawRule := { edgeRule with minFaults := 128 }

theorem witness_RulesAreWritten : Acts opened ∧ (31 : Byte).toNat ≤ 31 ∧ RuleInForm edgeRule := by
  unfold Acts RuleInForm; decide +kernel

theorem witness_RulesAreWritten_refusals :
    Acts opened ∧ (0 : Byte).toNat ≤ 31 ∧ 31 < (32 : Byte).toNat ∧ ¬ RuleInForm wrongRule := by
  unfold Acts RuleInForm; decide +kernel

/-- The two ends of the number parameters: S_MIN, whose write moves four others, WINDOW_DEG, and the
three-byte BOBBIN_LOW_MARK. -/
theorem witness_NumbersAreStored :
    Acts opened ∧ opened.pc.state = .standby ∧ ((1 : Nat) ≤ (6 : Byte).toNat ∧ (6 : Byte).toNat ≤ 14) ∧
    (400 : BitVec 24).toNat < 256 ^ 2 ∧ (0xFFFFFF : BitVec 24).toNat < 256 ^ 3 ∧
    (19 ≤ (31 : Byte).toNat ∧ (31 : Byte).toNat ≤ 35) ∧ Moves 6 7 ∧ ¬ Moves 10 7 := by
  unfold Acts Moves; decide +kernel

/-- S_MIN of 400 brings nothing else along; S_MAX of 450 brings JUMP_CAP, REPAIR_CAP and YELLOW_CAP down. -/
theorem test_config_brings_along :
    let s := run [.configWrite 6 400, .configWrite 7 450] opened
    (s.par.sMin, s.par.sMax, s.par.jumpCap, s.par.repairCap, s.par.yellowCap) = (400, 450, 450, 450, 450) := by
  decide +kernel

/-- FIELD_X_LOW: accepted in IDLE, past FIELD_X_HIGH, leaving the position outside, and outside IDLE. -/
theorem witness_FieldLimitsSetsAndRefusals :
    let low := fun v => State.reset.par.putField 15 v
    let placed := run [.frameSet 0 0] State.reset
    (Acts State.reset ∧ 15 ≤ (15 : Byte).toNat ∧ (15 : Byte).toNat ≤ 18 ∧ (0xF000 : BitVec 24).toNat < 65536) ∧
    (State.reset.pc.state = .idle ∧ ¬ (low (-4096)).fieldXHigh < (low (-4096)).fieldXLow) ∧
    ((low 3001).fieldXHigh < (low 3001).fieldXLow) ∧
    (placed.pc.state = .idle ∧ placed.mp.referenced = true ∧ ¬ (low 1).fieldXLow ≤ placed.mp.position.x) ∧
    (Acts opened ∧ opened.pc.state ≠ .idle) := by
  unfold Acts; decide +kernel

theorem witness_FieldLimitsSetsAndRefusals_sets :
    Acts sewing ∧ (0xFFFF : BitVec 24).toNat < 65536 ∧ (36 ≤ (38 : Byte).toNat ∧ (38 : Byte).toNat ≤ 38) ∧
    38 < (39 : Byte).toNat ∧ (3 ≤ (14 : Byte).toNat ∧ (14 : Byte).toNat ≤ 14) ∧ sewing.pc.state = .sewing := by
  unfold Acts; decide +kernel

/-- The last entry of a table alone, one entry past it, and a state in which tables are not written. -/
theorem witness_TableEntriesAreReplaced :
    (Acts opened ∧ opened.mp.tableX.length = 128 ∧ (List.replicate 32 (0 : BitVec 16)).length = 32 ∧
      opened.pc.state = .standby) ∧
    ((127 : Byte).toNat + (1 : Byte).toNat ≤ 128 ∧ ¬ (127 : Byte).toNat + (2 : Byte).toNat ≤ 128) ∧
    sewing.pc.state = .sewing := by
  unfold Acts; decide +kernel

theorem witness_TableEntriesAreReplaced_sound : opened.mp.Sound := by
  refine ⟨?_, ?_, ?_, ?_⟩ <;> decide +kernel

/-- The field's corner, one unit past it, and a state in which the frame is not set. -/
theorem witness_FrameSetSetsPosition :
    (Acts opened ∧ opened.pc.state = .standby ∧ opened.par.fieldXHigh = (3000 : BitVec 16).toInt ∧
      opened.par.fieldYLow = (-2000 : BitVec 16).toInt) ∧
    ¬ (3001 : BitVec 16).toInt ≤ opened.par.fieldXHigh ∧ sewing.pc.state = .sewing := by
  unfold Acts; decide +kernel

/-! ## Hypotheses that are met: heads and bobbins -/

theorem witness_HeadClearBobbinAndRejoin : Acts sewing ∧ Names 16 15 ∧ (0 : Byte).toNat = 0 ∧ 16 < (17 : Byte).toNat := by
  unfold Acts Names; decide +kernel

theorem witness_HeadClearBobbinAndRejoin_bobbin : Acts State.reset ∧ Names 1 0 ∧ (State.reset.meter 0).lowArmed = false := by
  unfold Acts Names; decide +kernel

/-- Head 1 in each state HEAD_REJOIN tells apart. -/
def headIs (st : HeadState) (s : State) : State := s.setHeadState 0 st

theorem witness_HeadClearBobbinAndRejoin_rejoin :
    (Acts State.reset ∧ Names 1 0 ∧ State.reset.pc.state = .idle) ∧
    (Acts opened ∧ opened.pc.state ≠ .idle ∧ (opened.head 0).state = .active) ∧
    (Acts (headIs .off opened) ∧ ((headIs .off opened).head 0).state = .off) ∧
    (Acts (headIs .benched opened) ∧ ((headIs .benched opened).head 0).state = .benched) := by
  unfold Acts Names; decide +kernel

/-! ## Hypotheses that are met: the Design Store -/

theorem witness_SegOpenReservesOrRefuses :
    Acts opened ∧ opened.pc.state ≠ .idle ∧ (0 : BitVec 16).toNat < opened.segmentCount ∧
    (4096 : BitVec 16).toNat ≤ 4096 ∧ (65534 : BitVec 16).toNat ≠ 65535 ∧ opened.findSeg 0 = none ∧
    opened.ds.mark = none ∧ opened.ds.segs.length < 256 ∧ (4096 + 15) / 16 ≤ opened.ds.pool.length := by
  unfold Acts; decide +kernel

/-- A Segment Table without a free slot. -/
def crowded : State :=
  let r : SegRecord :=
    { slot := 0, number := 7, state := .ready, thread := 0, count := 1, written := 0, start := ⟨0, 0⟩
      runEnd := ⟨0, 0⟩, box := ⟨0, 0, 0, 0⟩, pages := [], tieIn := false, tieOff := false, close := .none
      unthreaded := 0, pins := 0 }
  { opened with ds := { opened.ds with segs := List.replicate 256 r } }

/-- Each refusal at its edge: IDLE; number N, counts 0 and 4,097, the EMPTY code; a number present; the
mark's own number; no page left. -/
theorem witness_SegOpenReservesOrRefuses_refusals :
    (Acts State.reset ∧ State.reset.pc.state = .idle) ∧
    (Acts opened ∧ opened.segmentCount ≤ (1 : BitVec 16).toNat ∧ 4096 < (4097 : BitVec 16).toNat) ∧
    (Acts loaded ∧ (loaded.findSeg 0).isSome = true ∧ (0 : BitVec 16).toNat < loaded.segmentCount) ∧
    (let s := { opened with ds := { opened.ds with mark := some 0 } }
     Acts s ∧ s.ds.mark = some 0 ∧ s.findSeg 0 = none) ∧
    (let s := { opened with ds := { opened.ds with pool := [] } }
     Acts s ∧ s.ds.segs.length < 256 ∧ s.ds.pool.length < (1 + 15) / 16) ∧
    (Acts crowded ∧ crowded.findSeg 0 = none ∧ 256 ≤ crowded.ds.segs.length) := by
  unfold Acts; decide +kernel

/-- Segment 0 is reserved for three stitches, none written. -/
def reserved : State := run [.segOpen 0 1203 3 0 0 3] opened

theorem reserved_sound : reserved.ds.Sound := by
  refine ⟨?_, ?_, ?_, ?_⟩ <;> decide +kernel

theorem witness_SegWriteStoresOrRefuses :
    Acts reserved ∧ reserved.ds.Sound ∧ Memory.wf reserved.ds.memory = true ∧ reserved.pc.state ≠ .idle ∧
    (reserved.findSeg 0).map (fun r => (r.state, r.written, r.count)) = some (.loading, 0, 3) ∧
    [⟨127, -127, 0⟩, ⟨0, 0, 2⟩, ⟨0, 0, 3⟩].map stitchOf =
      [⟨127, -127, .normal⟩, ⟨0, 0, .trim⟩, ⟨0, 0, .pause⟩].map some :=
  ⟨by unfold Acts; decide +kernel, reserved_sound, by decide +kernel, by decide +kernel, by decide +kernel,
    by decide +kernel⟩

/-- Each refusal of SEG_WRITE: IDLE, absent, not LOADING, an offset past the written count, a stitch too
many, and a PAUSE that moves. -/
theorem witness_SegWriteStoresOrRefuses_refusals :
    State.reset.pc.state = .idle ∧ opened.findSeg 0 = none ∧
    (loaded.findSeg 0).map (·.state) = some .ready ∧
    (reserved.findSeg 0).map (fun r => decide ((1 : BitVec 16).toNat ≠ r.written)) = some true ∧
    (reserved.findSeg 0).map (fun r => decide (r.count < r.written + 4)) = some true ∧
    (2 ≤ (3 : Byte).toNat ∧ (1 : Byte) ≠ 0) ∧ Acts State.reset ∧ Acts opened ∧ Acts loaded ∧ Acts reserved := by
  unfold Acts; decide +kernel

theorem witness_SegCloseMakesReadyOrRefuses :
    Acts written ∧ written.ds.Sound ∧ Waits written ∧ written.pc.state = .standby ∧
    (written.findSeg 0).map (fun r => (r.state, r.close, r.written, r.count, r.runEnd, r.box)) =
      some (.loading, .none, 3, 3, ⟨(60 : BitVec 32).toInt, (25 : BitVec 32).toInt⟩, ⟨0, 60, 0, 25⟩) :=
  ⟨by unfold Acts; decide +kernel, written_sound, by unfold Waits; decide +kernel, by decide +kernel,
    by decide +kernel⟩

/-- Each refusal of SEG_CLOSE: absent, not LOADING, not written whole, another end, and a box past the
field. -/
theorem witness_SegCloseMakesReadyOrRefuses_refusals :
    opened.findSeg 0 = none ∧ (loaded.findSeg 0).map (·.state) = some .ready ∧
    (reserved.findSeg 0).map (fun r => decide (r.written < r.count)) = some true ∧
    (written.findSeg 0).map (fun r => decide (r.runEnd ≠ ⟨61, 25⟩)) = some true ∧
    (let s := { written with par := { written.par with fieldXHigh := 59 } }
     (s.findSeg 0).map (fun r => decide (s.par.fieldXHigh < r.box.maxX)) = some true) ∧
    (let s := run [.segClose 0 61 25] written
     (s.findSeg 0).map (fun r => (r.state, r.close)) = some (.loading, .geometry)) ∧
    Acts opened ∧ Acts loaded ∧ Acts reserved ∧ Acts written := by
  unfold Acts; decide +kernel

/-- Segment 0 with a state and a pin count of its own. -/
def segIs (st : SegState) (pins : Nat) : State :=
  { loaded with ds := { loaded.ds with segs := loaded.ds.segs.map fun r => { r with state := st, pins := pins } } }

theorem witness_SegDiscardFrees :
    (Acts loaded ∧ loaded.ds.Sound ∧ loaded.pc.state ≠ .idle ∧ (loaded.findSeg 0).map (·.state) = some .ready) ∧
    ((segIs .active 0).findSeg 0).map (·.state) = some .active ∧
    (((segIs .sewn 1).findSeg 0).map (fun r => (r.state, r.pins)) = some (.sewn, 1) ∧
      (segIs .sewn 1).ds.served = none) ∧
    (opened.pc.state ≠ .idle ∧ opened.findSeg 0 = none ∧ State.reset.pc.state = .idle) :=
  ⟨⟨by unfold Acts; decide +kernel, loaded_sound, by decide +kernel, by decide +kernel⟩, by decide +kernel,
    by decide +kernel, by decide +kernel⟩

/-! ## Hypotheses that are met: the job and the host's requests to the Pass Controller -/

/-- JOB_OPEN: after a warning, with a job open, out of form, and taken. -/
theorem witness_JobsOpenAndClose :
    (Acts State.reset ∧ State.reset.sm.warned = false ∧ State.reset.pc.state = .idle ∧ (1 : BitVec 16) ≠ 0 ∧
      ¬ 2 < (2 : Byte).toNat) ∧
    (Acts opened ∧ opened.pc.state ≠ .idle) ∧ 2 < (3 : Byte).toNat ∧
    (let s := { State.reset with sm := { State.reset.sm with warned := true } }
     Acts s ∧ s.sm.warned = true) := by
  unfold Acts; decide +kernel

theorem witness_JobsOpenAndClose_close :
    (Acts repairable ∧ repairable.pc.state = .halted ∧ repairable.rt.records.length = 1) ∧
    (Acts sewing ∧ sewing.pc.state = .sewing) := by
  unfold Acts; decide +kernel

theorem witness_StartTakesFirstSegment :
    let s := onNeedle loaded
    (Acts s ∧ MayBegin s ∧ s.pc.state = .standby ∧ s.pc.due = none ∧ s.ds.mark = none ∧
      s.mp.mode = .atRest ∧ s.mp.shaft = .turning ∧
      (s.findSeg 0).map (fun r => (r.state, r.thread)) = some (.ready, 1203) ∧
      ∀ q ∈ s.ds.segs, q.state ≠ .active) ∧
    (∀ h : HeadId, (s.head h).state = .excluded ∨ (s.head h).state = .active ∧ (s.sel h).current = some 4 ∧
      (s.sel h).needles[(4 : NeedleId)].disabled = false ∧ (s.sel h).needles[(4 : NeedleId)].code = 1203) ∧
    Settled s ∧
    (Acts written ∧ MayBegin written ∧ (written.findSeg 0).map (·.state) = some .loading) := by
  unfold Acts MayBegin Settled; decide +kernel

/-- The refusals of START, RESUME and REPAIR_RUN: a warning, IDLE, another state, no reference, tables that
fall, the emergency-stop input. -/
theorem witness_StartResumeRunRefusals :
    (let s := { opened with sm := { opened.sm with warned := true } }
     Acts s ∧ s.sm.warned = true) ∧
    (Acts State.reset ∧ State.reset.sm.warned = false ∧ State.reset.pc.state = .idle) ∧
    (Acts sewing ∧ sewing.pc.state = .sewing) ∧
    (let s := run [.jobOpen 1 3 0 0 0] State.reset
     Acts s ∧ s.pc.state = .standby ∧ s.mp.referenced = false) ∧
    (let s := run [.tableWrite 0 1 1 (List.replicate 32 0xFFFF)] opened
     Acts s ∧ s.pc.state = .standby ∧ s.mp.referenced = true ∧ s.tablesValid = false) ∧
    (let s := run [.estopAssert] opened
     Acts s ∧ s.pc.state = .standby ∧ s.tablesValid = true ∧ s.sm.estopInput = true) ∧
    (let s := run [.estopAssert] stopped
     Acts s ∧ s.pc.state = .halted ∧ s.pc.cause = .stopRequest ∧ s.mp.referenced = true ∧ s.sm.estopInput = true) ∧
    (let s := run [.tableWrite 0 1 1 (List.replicate 32 0xFFFF)] stopped
     Acts s ∧ s.pc.state = .halted ∧ s.pc.cause = .stopRequest ∧ s.mp.referenced = true ∧ s.tablesValid = false) ∧
    (let s := { stopped with mp := { stopped.mp with referenced := false } }
     Acts s ∧ s.sm.warned = false ∧ s.pc.state = .halted ∧ s.pc.cause = .stopRequest ∧ s.mp.referenced = false) ∧
    (Acts starving ∧ starving.sm.warned = false ∧ starving.pc.state = .halted ∧ starving.pc.cause = .starved) ∧
    (Acts estopped ∧ estopped.pc.state = .halted ∧ estopped.pc.cause = .estop) := by
  unfold Acts; decide +kernel

/-- STOP in each state it tells apart. -/
theorem witness_StopActs :
    (Acts State.reset ∧ Waits State.reset ∧ State.reset.pc.state = .idle) ∧
    (Acts sewing ∧ Waits sewing ∧ sewing.pc.state = .sewing ∧ sewing.pc.phase = .sew) ∧
    (Acts travelling ∧ Waits travelling ∧ travelling.pc.state = .travel ∧ travelling.pc.due = none ∧
      travelling.pc.phase = .travel .segmentStart) ∧
    (let s := { travelling with pc := { travelling.pc with phase := .begin .segmentStart } }
     Acts s ∧ Waits s ∧ s.pc.state = .travel ∧ s.pc.due = none ∧ s.mp.mode = .atRest) ∧
    (Acts slowing ∧ Waits slowing ∧ slowing.pc.state = .stopping ∧ slowing.pc.due = some .stopRequest) ∧
    (Acts starving ∧ Waits starving ∧ starving.pc.state = .halted ∧ starving.pc.cause = .starved) ∧
    (Acts stopped ∧ Waits stopped ∧ stopped.pc.state = .halted ∧ stopped.pc.cause ≠ .starved) := by
  unfold Acts Waits; decide +kernel

/-- A resume at stitch 0 after an emergency stop in motion, and one after a stop request. -/
theorem witness_ResumeTravelsBack :
    (Acts estopped ∧ MayBegin estopped ∧ estopped.pc.state = .halted ∧ estopped.pc.cause = .estop ∧
      estopped.pc.point = some (.atStitch 0 0) ∧ estopped.pc.wasMoving = true ∧ estopped.pc.job.isSome = true ∧
      estopped.pc.carryOwed = false ∧ estopped.pc.owedTrims = 0 ∧ estopped.pc.due = none ∧
      (estopped.findSeg 0).map (·.thread) = some 1203 ∧ estopped.mp.mode = .atRest ∧
      estopped.mp.shaft = .turning ∧ Settled estopped ∧ ∀ h : HeadId, estopped.pc.faulted[h] = none) ∧
    (∀ h : HeadId, (estopped.head h).state = .excluded ∨ (estopped.head h).state = .active ∧
      (estopped.sel h).current = some 4 ∧ (estopped.sel h).needles[(4 : NeedleId)].disabled = false ∧
      (estopped.sel h).needles[(4 : NeedleId)].code = 1203) ∧
    (Acts stopped ∧ MayBegin stopped ∧ stopped.pc.state = .halted ∧ stopped.pc.cause = .stopRequest ∧
      stopped.pc.point = some (.atStitch 0 0)) := by
  unfold Acts MayBegin Settled; decide +kernel

theorem witness_RepairRunTrimsFirst :
    (Acts repairable ∧ MayBegin repairable ∧ repairable.pc.state = .halted ∧
      repairable.pc.cause = .stopRequest ∧ ∃ r ∈ repairable.rt.records, repairable.eligible r = true) ∧
    (repairable.pc.point = some (.atStitch 0 0) ∧ repairable.pc.trimmed = false ∧
      (repairable.head 1).inTrim = true ∧ (repairable.head 1).state ≠ .excluded) ∧
    (Acts stopped ∧ ∀ r ∈ stopped.rt.records, stopped.eligible r = false) := by
  unfold Acts MayBegin; decide +kernel

/-! ## Hypotheses that are met: needles, heads, records -/

/-- NEEDLE_SET: out of form at each edge, staged on a needle in use, applied to one that is not. -/
theorem witness_NeedleSetStagesOrApplies :
    (Acts sewing ∧ 16 < (17 : Byte).toNat ∧ 12 < (13 : Byte).toNat ∧ 1 < (2 : Byte).toNat) ∧
    (Names 1 0 ∧ (5 : Byte).toNat = (4 : NeedleId).val + 1 ∧ (sewing.sel 0).current = some 4 ∧
      sewing.pc.state = .sewing ∧ ((1 : Byte).getLsbD 0 = true ∧ (1 : Byte).getLsbD 1 = false)) ∧
    (Acts opened ∧ Waits opened ∧ (opened.sel 0).current ≠ some 4 ∧ opened.ts.working = none) ∧
    (Acts sewing ∧ Waits sewing ∧ (sewing.sel 0).current ≠ some 5) ∧
    (sewing.ts.working.map (fun w => (w.thread, w.kind)) = some (1203, .main) ∧ (sewing.head 0).state = .active ∧
      (sewing.sel 0).needles[(4 : NeedleId)].disabled = false ∧ (sewing.sel 0).needles[(4 : NeedleId)].code = 1203 ∧
      (2 : Byte).getLsbD 1 = true) := by
  unfold Acts Waits Names; decide +kernel

/-- An edit of the current needle while sewing is staged; taking the only needle with the thread away from a
waiting segment's head raises THREAD_MISSING; disabling the current needle withdraws it (R86), the head OFF. -/
theorem test_needleSet :
    ((run [.needleSet 1 5 1 1204 0] sewing).sel 0).needles[(4 : NeedleId)].staged = some ⟨some 1204, none⟩ ∧
    (run [.needleSet 1 5 2 0 1] loaded).rl.sticky.getLsbD 3 = true ∧
    (let t := run [.needleSet 1 5 2 0 1] sewing
     (t.head 0).state = .off ∧ (t.faultHead 0).latest = some .needleWithdrawn) := by decide +kernel

theorem witness_HeadModeIncludesExcludes :
    (Acts opened ∧ Names 2 1 ∧ 1 < (2 : Byte).toNat ∧ opened.pc.state = .standby ∧ opened.pc.job.isSome = true ∧
      inSet opened.jobHeads 1 = true ∧ inSet opened.jobHeads 0 = true) ∧
    (Acts State.reset ∧ State.reset.pc.state = .idle) ∧ (Acts sewing ∧ sewing.pc.state = .sewing) ∧
    (inSet opened.jobHeads 2 = false ∧ Names 3 2) ∧ ((0 : Byte).toNat = 0 ∧ 16 < (17 : Byte).toNat) ∧
    (let s := run [.headMode 1 1] opened
     Acts s ∧ s.pc.state = .standby ∧ ∀ g, inSet s.jobHeads g = true ↔ g = 1) := by
  unfold Acts Names; decide +kernel

theorem witness_RepairCancels :
    (Acts repairable ∧ repairable.pc.state ≠ .idle ∧ repairable.rt.records.find? (·.slot == 0) = some (owing .closed) ∧
      (0 : Byte).toNat < 128 ∧ 128 ≤ (128 : Byte).toNat) ∧
    (let s := { repairable with rt := { repairable.rt with records := [owing .active] } }
     Acts s ∧ s.rt.records.find? (·.slot == 0) = some (owing .active)) ∧
    (State.reset.pc.state = .idle ∧ Names 2 1 ∧ 16 < (17 : Byte).toNat ∧ ∀ r ∈ stopped.rt.records, r.slot ≠ 0) := by
  unfold Acts Names; decide +kernel

theorem witness_RepairCancels_sound : repairable.ds.Sound := by
  refine ⟨?_, ?_, ?_, ?_⟩ <;> decide +kernel

/-! ## Hypotheses that are met: the supply, the resets, the emergency stop -/

theorem moving_store_sound : moving.ds.Sound := by
  refine ⟨?_, ?_, ?_, ?_⟩ <;> decide +kernel

theorem witness_WarmStarts :
    moving.ds.Sound ∧ (Acts moving ∧ moving.sm.retention = false) ∧
    (let s := { moving with sm := { moving.sm with resetLine := true } }
     s.sm.powered = true ∧ s.sm.resetLine = true ∧ s.sm.retention = false) ∧
    ((retained (warnedOf moving)).sm.powered = true ∧ (retained (warnedOf moving)).sm.warningInput = true ∧
      (retained (warnedOf moving)).sm.retention = true) :=
  ⟨moving_store_sound, by unfold Acts; decide +kernel, by decide +kernel, by decide +kernel⟩

theorem witness_ColdStarts :
    ((warnedOf opened).sm.powered = true ∧ (warnedOf opened).sm.warningInput = true ∧
      (warnedOf opened).sm.retention = false) ∧
    ¬ ((retained opened).sm.retention = true ∧ false = true) ∧
    ¬ (opened.sm.retention = true ∧ true = true) := by decide +kernel

theorem witness_ImmediateHalts :
    moving.sm.powered = true ∧ AtWork moving ∧ Acts moving ∧ moving.sm.estopInput = false ∧
    moving.sm.warningInput = false ∧ moving.sm.resetLine = false ∧
    (Acts (retained moving) ∧ AtWork (retained moving) ∧ (retained moving).sm.retention = true) := by
  unfold AtWork Acts; decide +kernel

/-- A RESET while the backup's flag is set halts at once and waits, the spindle commanded to 0 (R76, R170). -/
theorem test_reset_waits :
    let t := run [.reset] (retained moving)
    (t.pc.state, t.pc.cause, t.mp.spindle, t.mp.mode, t.sm.resetWaits) = (.halted, .reset, 0, .atRest, true) := by
  decide +kernel

/-- An emergency stop half way through the first stitch leaves half its 64 X pulses, and 14 of its 24 Y
pulses, as an unfinished move, the position unchanged. -/
theorem test_estop_unfinished :
    let half := { moving with mp := { moving.mp with move := moving.mp.move.map fun m => { m with elapsed := 2100 } } }
    let t := run [.estopAssert] half
    t.pc.cause = .estop ∧ t.pc.point = some (.atStitch 0 0) ∧ t.mp.position = ⟨0, 0⟩ ∧
      t.mp.unfinished = some (32, 14) := by
  decide +kernel

theorem witness_InputsAreTracked :
    (let s := run [.estopAssert] opened
     s.sm.estopInput = true) ∧
    (opened.sm.estopInput = false ∧ ¬ AtWork opened ∧ opened.pc.state = .standby) ∧
    (Acts starving ∧ starving.sm.estopInput = false ∧ starving.pc.state = .halted ∧ starving.pc.cause = .starved) ∧
    (warnedOf opened).sm.warningInput = true ∧ (opened.sm.powered = true ∧ opened.sm.warningInput = false) ∧
    (let s := { opened with sm := { opened.sm with resetLine := true } }
     s.sm.resetLine = true ∧ s.sm.powered = true ∧ (retained s).sm.retention = true) ∧
    (let s := { opened with sm := { opened.sm with powered := false } }
     s.sm.powered = false ∧ s.sm.resetLine = false) ∧
    (let s := { opened with sm := { opened.sm with powered := false, resetLine := true } }
     s.sm.powered = false ∧ s.sm.resetLine = true) ∧
    (Acts (retained opened) ∧ (retained opened).sm.retention = true ∧ ¬ AtWork (retained opened)) ∧
    (opened.sm.resetLine = false ∧ opened.sm.powered = true) := by
  unfold AtWork Acts; decide +kernel

/-! ## Hypotheses that are met: the spindle and the frame -/

theorem sewing_params_sound : sewing.par.Sound := by unfold Params.Sound; decide +kernel

/-- The first stitch of the run, at the first angle of the window. -/
theorem witness_WindowOpenTakes :
    let s := run [.shaftAngleChange 180] sewing
    Acts s ∧ s.mp.mode = .running ∧ s.pc.phase = .sew ∧ s.mp.move = none ∧ s.mp.stopEnd = false ∧
    s.mp.window.head?.map (fun w => (w.stitch.dx, w.stitch.dy)) = some (8, 3) ∧
    ¬ Inside s s.sm.angle ∧ Inside s (300 : Fin 360) ∧ ¬ Inside s (299 : Fin 360) ∧ TakesTime s 8 3 := by
  unfold Acts Inside TakesTime; decide +kernel

/-- UPPER_BREAK of head 1 at stitch 2 of segment 0, in the main pass. -/
def broken : FaultContext := ⟨.upperBreak, some 0, some 2, some 4, some .main, none, none⟩

/-- Head 1 has been put off for it: the record's first index is 0, six stitches back being before the start. -/
def recorded : State := sewing.resolveGroup 0 [broken]

/-- Head 1 waits to rejoin with an OPEN record from stitch 0; the next stitch covers stitches 1 and 2. -/
def rejoining : State :=
  let s := (recorded.setHeadState 0 .rejoinWait)
  { s with
    sm := { s.sm with angle := 180 }
    mp := { s.mp with window := [⟨{ tieStitch .none 5 5 none with index := some 2, lowest := some 1 }, 1000⟩] } }

theorem rejoining_sound : rejoining.ds.Sound := by
  refine ⟨?_, ?_, ?_, ?_⟩ <;> decide +kernel

theorem rejoining_pinned : rejoining.Pinned := by unfold State.Pinned PinsMatch; decide +kernel

theorem witness_WindowOpenTakes_rejoin :
    Acts rejoining ∧ rejoining.mp.mode = .running ∧ rejoining.pc.phase = .sew ∧ rejoining.mp.move = none ∧
    rejoining.mp.stopEnd = false ∧ rejoining.mp.passKind = .main ∧ ¬ Inside rejoining rejoining.sm.angle ∧
    Inside rejoining (300 : Fin 360) ∧ TakesTime rejoining 5 5 ∧
    rejoining.rt.records.map (fun r => (r.head, r.segment, r.state)) = [(0, 0, .opened)] := by
  unfold Acts Inside TakesTime; decide +kernel

/-- The take brings head 1 back, latched DOWN, and closes its record at stitch 0 (R106, R107, R154). -/
theorem test_window_open_rejoin :
    let t := run [.shaftAngleChange 300] rejoining
    (t.head 0).state = .active ∧ (t.head 0).latch = true ∧ (t.head 0).command = withCrc [1, 1, 0] ∧
      t.rt.records.map (fun r => (r.last, r.state)) = [(some 0, .closed)] := by decide +kernel

/-- The take of the first stitch: S_MIN, 8 × 8 and 3 × 8 pulses over Tx[8] and Ty[3], both heads DOWN. -/
theorem test_window_open :
    moving.mp.spindle = 100 ∧ moving.mp.move.map (fun m => (m.pulsesX, m.pulsesY, m.timeX, m.timeY)) =
      some (64, 24, 4200, 3450) ∧ (moving.head 0).latch = true ∧ (moving.head 1).latch = true ∧
      (moving.head 2).latch = false := by decide +kernel

/-- A run whose window opens again once its first move is complete: at the end of stopping, and with nothing
left to sew. -/
def ending (stop : Bool) (window : List Planned) : State :=
  let s := run [.moveCompletion, .shaftAngleChange 180] moving
  { s with mp := { s.mp with stopEnd := stop, window := window } }

/-- The window's close with and without a move left, the window's opening on a move, at the end of stopping
and with no stitch, the shaft leaving the window in a travel, and a turn that crosses nothing. -/
theorem witness_AngleChangesWithoutATake :
    (Acts moving ∧ AtWork moving ∧ Waits moving ∧ moving.mp.mode = .running ∧ moving.mp.move.isSome = true ∧
      Inside moving moving.sm.angle ∧ ¬ Inside moving (61 : Fin 360) ∧ Inside moving (60 : Fin 360)) ∧
    (Acts stepping ∧ AtWork stepping ∧ Waits stepping ∧ stepping.mp.mode = .travelling ∧
      Inside stepping stepping.sm.angle ∧ ¬ Inside stepping (180 : Fin 360) ∧ (180 : Fin 360) ≠ stepping.sm.angle) ∧
    (Acts travelling ∧ Waits travelling ∧ travelling.mp.mode = .atRest) ∧
    (let s := { opened with sm := { opened.sm with powered := false } }
     ¬ Acts s) := by
  unfold Acts AtWork Waits Inside; decide +kernel

theorem witness_AngleChangesWithoutATake_opens :
    (let s := { moving with sm := { moving.sm with angle := 180 } }
     Acts s ∧ Waits s ∧ s.mp.mode = .running ∧ ¬ Inside s s.sm.angle ∧ Inside s (300 : Fin 360) ∧ s.mp.move.isSome = true) ∧
    (let s := ending true [⟨tieStitch .none 5 5 none, 100⟩]
     Acts s ∧ Waits s ∧ s.mp.mode = .running ∧ ¬ Inside s s.sm.angle ∧ Inside s (300 : Fin 360) ∧
       s.mp.move = none ∧ s.mp.stopEnd = true) ∧
    (let s := ending false []
     Acts s ∧ Waits s ∧ s.mp.mode = .running ∧ ¬ Inside s s.sm.angle ∧ Inside s (300 : Fin 360) ∧
       s.mp.move = none ∧ s.mp.window = []) := by
  unfold Acts Waits Inside; decide +kernel

/-- At the end of stopping the stitches left in the window stay (R49, R51): RUNNING_DOWN, the spindle at 0. -/
theorem test_come_to_stop :
    let t := run [.shaftAngleChange 300] (ending true [⟨tieStitch .none 5 5 none, 100⟩])
    (t.mp.mode, t.mp.spindle, t.mp.window.length, t.mp.move, (t.head 0).latch, (t.head 0).awaiting) =
      (.runningDown, 0, 1, none, false, true) := by decide +kernel

/-- The state in a repair pass of head 2 over stitches 0 and 1. -/
def inRepair (s : State) : State :=
  { s with mp := { s.mp with passKind := .repair }, rt := { s.rt with pass := some ⟨0, 0, 1, 2⟩ } }

theorem witness_SpindleAtRestEndsTheRun :
    (Acts opened ∧ opened.pc.phase = .rest ∧ opened.mp.mode = .atRest) ∧
    (let s := run [.shaftAngleChange 180] sewing
     Acts s ∧ AtWork s ∧ ¬ Inside s s.sm.angle ∧ s.mp.mode = .running) ∧
    (Acts slowing ∧ Inside slowing slowing.sm.angle ∧ slowing.mp.mode = .runningDown ∧
      slowing.mp.passKind = .main ∧ slowing.pc.phase = .sew ∧ slowing.pc.state = .stopping ∧
      slowing.pc.due = some .stopRequest ∧ slowing.mp.window ≠ []) ∧
    (Acts (atMarker (.pause 1)) ∧ (atMarker (.pause 1)).pc.state = .sewing ∧
      (atMarker (.pause 1)).se.context.map (·.passedPauses) = some [] ∧ (atMarker (.pause 1)).mp.window = []) ∧
    ((atMarker .endOfPass).mp.marker = some .endOfPass ∧ ((atMarker .endOfPass).head 0).inTrim = true ∧
      ((atMarker .endOfPass).head 0).state ≠ .excluded ∧ (atMarker .endOfPass).pc.phase = .sew) := by
  unfold Acts AtWork Inside; decide +kernel

/-- A PAUSE in a stop; a repair pass at a TRIM, at its end and at a stop; a run and a travel at rest inside. -/
theorem witness_SpindleAtRestEndsTheRun_more :
    (let s := { slowing with mp := { slowing.mp with window := [], marker := some (.pause 1) } }
     Acts s ∧ s.pc.state = .stopping ∧ s.pc.due = some .stopRequest ∧ s.se.context.map (·.passedPauses) = some []) ∧
    (let s := inRepair (atMarker (.trim 1))
     Acts s ∧ Inside s s.sm.angle ∧ s.mp.mode = .runningDown ∧ s.mp.passKind = .repair ∧ s.pc.phase = .sew ∧
       s.mp.window = [] ∧ s.mp.marker = some (.trim 1) ∧ (s.head 0).inTrim = true ∧ (s.head 0).state ≠ .excluded) ∧
    (let s := inRepair (atMarker .endOfPass)
     s.mp.marker = some .endOfPass ∧ s.rt.pass.map (·.involved) = some 2 ∧ (s.head 1).state ≠ .excluded) ∧
    (let s := inRepair slowing
     Acts s ∧ s.mp.mode = .runningDown ∧ s.mp.passKind = .repair ∧ s.pc.state = .stopping ∧ s.mp.window ≠ []) ∧
    (Acts sewing ∧ Inside sewing sewing.sm.angle ∧ sewing.mp.mode = .running ∧ sewing.pc.phase = .sew) ∧
    (Acts stepping ∧ stepping.mp.mode = .travelling ∧ stepping.mp.move.isSome = true ∧
      stepping.pc.phase = .travel .segmentStart ∧ Inside stepping stepping.sm.angle) := by
  unfold Acts Inside; decide +kernel

/-- A stop of a repair pass trims the heads involved (R75), head 2 alone here. -/
theorem test_repair_stop :
    let t := run [.spindleAtRest] (inRepair slowing)
    (t.pc.state, t.pc.phase) = (.change, .trim .stopRepair) ∧ (t.sel 0).trim = none ∧
      (t.sel 1).trim = some ⟨.unsent, 600⟩ := by decide +kernel

/-- The planner has pulses to take back. -/
def owingPulses (s : State) : State := { s with mp := { s.mp with unfinished := some (32, -14) } }

/-- A travel and a begin-pass request that wait, inside and outside the window, and pulses to take back. -/
theorem witness_RestBeginsTravelsAndPasses :
    (Acts waitingTravel ∧ waitingTravel.mp.mode = .atRest ∧ waitingTravel.mp.move = none ∧
      Inside waitingTravel waitingTravel.sm.angle ∧ waitingTravel.pc.phase = .travel .segmentStart ∧
      waitingTravel.mp.unfinished = none ∧ waitingTravel.se.plan = some [⟨-15, 0⟩, ⟨-15, 0⟩] ∧
      TakesTime waitingTravel (-15) 0) ∧
    (let s := { waitingTravel with sm := { waitingTravel.sm with angle := 61 } }
     Acts s ∧ AtWork s ∧ ¬ Inside s s.sm.angle ∧ s.mp.mode = .atRest ∧ s.mp.move = none ∧
       s.pc.phase = .travel .segmentStart) ∧
    (let s := owingPulses beginning
     Acts s ∧ s.mp.mode = .atRest ∧ s.mp.move = none ∧ Inside s s.sm.angle ∧ s.pc.phase = .begin .segmentStart ∧
       s.pc.due = none ∧ s.mp.unfinished = some (32, -14) ∧ (32 + s.par.axisScaleX - 1) / s.par.axisScaleX = 4 ∧
       0 < s.mp.tableX.getD 4 0) ∧
    (Acts beginning ∧ beginning.mp.mode = .atRest ∧ beginning.mp.move = none ∧ beginning.mp.shaft = .turning ∧
      Inside beginning beginning.sm.angle ∧ beginning.pc.phase = .begin .segmentStart ∧ beginning.pc.due = none ∧
      beginning.mp.unfinished = none ∧ beginning.se.context.map (·.kind) = some .main) := by
  unfold Acts AtWork Inside TakesTime; decide +kernel

theorem beginning_params_sound : beginning.par.Sound := by unfold Params.Sound; decide +kernel

theorem waitingTravel_params_sound : waitingTravel.par.Sound := by unfold Params.Sound; decide +kernel

/-- The steps of a begun travel and of a begun pass, and a retraction: 32 and 14 pulses, the other way. -/
theorem test_rest_begins :
    (run [.spindleAtRest] waitingTravel).mp.move.map (fun m => (m.kind, m.dx)) = some (.step, -15) ∧
    (let t := run [.spindleAtRest] beginning
     (t.mp.mode, t.mp.spindle, t.pc.state, t.mp.window.length) = (.running, 100, .sewing, sewing.mp.window.length)) ∧
    (run [.spindleAtRest] (owingPulses beginning)).mp.move.map
      (fun m => (m.kind, m.pulsesX, m.pulsesY, m.signX, m.signY)) = some (.retraction, 32, 14, -1, 1) := by
  decide +kernel

/-- A stop ends HALTED; the end of the pass trims both heads in CHANGE. -/
theorem test_spindle_at_rest :
    (stopped.pc.state, stopped.pc.cause) = (.halted, .stopRequest) ∧
    (let t := run [.spindleAtRest] (atMarker .endOfPass)
     t.pc.state = .change ∧ (t.sel 1).trim = some ⟨.unsent, 600⟩ ∧ (t.sel 2).trim = none) := by decide +kernel

/-- A stitch, a travel step with another to follow, and a retraction before a begin-pass. -/
theorem witness_MoveCompletionMoves :
    (Acts moving ∧ moving.mp.move.map (·.kind) = some .stitch ∧ moving.pc.phase = .sew ∧
      moving.mp.mode = .running ∧ moving.mp.window ≠ [] ∧ (moving.head 0).latch = true) ∧
    (Acts stepping ∧ stepping.mp.move.map (·.kind) = some .step ∧ stepping.pc.phase = .travel .segmentStart ∧
      stepping.mp.mode = .travelling ∧ stepping.se.plan = some [⟨-15, 0⟩] ∧ TakesTime stepping (-15) 0) ∧
    (let s := { stepping with
       pc := { stepping.pc with phase := .begin .segmentStart }
       mp := { stepping.mp with move := stepping.mp.move.map fun m => { m with kind := .retraction }, shaft := .turning } }
     Acts s ∧ s.mp.move.map (·.kind) = some .retraction ∧ s.pc.phase = .begin .segmentStart ∧
       s.pc.due = none ∧ s.mp.shaft = .turning ∧ s.mp.mode = .travelling) ∧
    (Acts sewing ∧ sewing.mp.move = none) := by
  unfold Acts TakesTime; decide +kernel

theorem stepping_params_sound : stepping.par.Sound := by unfold Params.Sound; decide +kernel

theorem test_move_completion :
    (run [.moveCompletion] stepping).mp.position = ⟨15, 0⟩ ∧
    (run [.moveCompletion] moving).mp.position = ⟨8, 3⟩ := by decide +kernel

/-! ## Hypotheses that are met: the head link, travel -/

theorem witness_StandstillExchangePolls :
    (Acts sewing ∧ sewing.mp.mode = .running) ∧
    (Acts opened ∧ opened.mp.mode ≠ .running ∧ (opened.head 0).state = .active ∧ (opened.head 2).state = .excluded) := by
  unfold Acts; decide +kernel

/-- The command to head 1 while it shifts to needle 5 (R186). -/
theorem test_command_message : (shifting.head 0).command = withCrc [1, 0, 5] := by decide +kernel

/-- A plain report at rest with the button, and one that ends a shift while another head's goes on. -/
theorem witness_HeadReportIsTaken :
    (let s := awaiting opened
     let r : Report := ⟨1023, true, true, false, false, some 11⟩
     Acts s ∧ (s.head 0).state ≠ .excluded ∧ (s.head 0).awaiting = true ∧ s.hs.previous = none ∧
       (s.sel 0).shift = none ∧ (s.sel 0).trim = none ∧ s.pc.phase = .rest ∧ parseReport 0 (r.message 0) = some r ∧
       (r.message 0).length = 7 ∧ (r.message 0)[3]? = some 3) ∧
    (Acts shifting ∧ (shifting.head 0).awaiting = true ∧ shifting.pc.phase = .choice .segmentStart ∧
      (shifting.head 0).state = .shifting false ∧ (shifting.sel 0).shift = some ⟨4, .judged, 1500, false⟩ ∧
      (shifting.sel 1).shift.isSome = true ∧ (shifting.sel 0).trim = none ∧
      shifting.ts.working.map (·.thread) = some 1203 ∧ shifting.hs.previous = none ∧
      (shifting.sel 0).needles[(4 : NeedleId)].code = 1203) ∧
    (let s := awaiting (trimming .sent (run [.spindleAtRest] (atMarker .endOfPass)))
     let r : Report := ⟨0, true, false, true, false, some 4⟩
     Acts s ∧ (s.head 0).state = .active ∧ (s.head 0).awaiting = true ∧ s.hs.revolution = false ∧
       (s.sel 0).shift = none ∧ (s.sel 0).trim = some ⟨.judged, 600⟩ ∧ (s.sel 1).trim = some ⟨.judged, 600⟩ ∧
       s.pc.phase = .trim .endMain ∧ parseReport 0 (r.message 0) = some r ∧
       ((run [report 0 r] s).sel 0).trim = none ∧ ((run [report 0 r] s).sel 1).trim = some ⟨.judged, 600⟩) ∧
    (Acts opened ∧ (opened.head 0).awaiting = false) := by
  unfold Acts; decide +kernel

/-- A report while sewing that meters nothing, with a new drive fault: the revolution before took no stitch. -/
theorem witness_HeadReportIsTaken_sewing :
    let r : Report := ⟨0, true, false, false, true, some 4⟩
    Acts moving ∧ (moving.head 0).state = .active ∧ (moving.head 0).awaiting = true ∧ moving.hs.revolution = true ∧
    moving.hs.previous = none ∧ (moving.head 0).driveSeen = false ∧ moving.pc.phase = .sew ∧ Waits moving ∧
    (moving.sel 0).shift = none ∧ parseReport 0 (r.message 0) = some r := by
  unfold Acts Waits; decide +kernel

/-- A shift that ends on needle 4, and one on needle 5 that was disabled meanwhile: the head is back ACTIVE with its
needle unknown, or ACTIVE on the unfit needle, and the fault puts it OFF; a drive fault stops the machine. -/
theorem test_report_faults :
    (let t := run [report 0 (still (some 3))] shifting
     (t.faultHead 0).latest = some .needleShiftFail ∧ (t.sel 0).current = none ∧ (t.sel 0).shift = none) ∧
    (let t := run [.needleSet 1 5 2 0 1, report 0 (still (some 4))] shifting
     (t.faultHead 0).latest = some .needleWithdrawn ∧ (t.sel 0).current = some 4) ∧
    (let t := run [report 0 ⟨0, true, false, false, true, some 4⟩] moving
     (t.faultHead 0).first.map (fun c => (c.kind, c.segment, c.index, c.pass)) = some (.headDrive, some 0, some 0, some .main) ∧
       (t.pc.state, t.pc.due) = (.stopping, some .faultHold)) := by decide +kernel

/-- The exchange of the second window open awaits the report on the first stitch, which was completed. -/
theorem witness_MeteringAccounts :
    let s := run [.moveCompletion, report 0 (still (some 4)), .shaftAngleChange 180, .shaftAngleChange 310] moving
    Acts s ∧ (s.head 0).awaiting = true ∧ (s.head 0).state = .active ∧ s.hs.revolution = true ∧
    s.hs.previous.map (·.completed) = some true ∧ (s.head 0).latchBefore = true ∧ (s.head 0).takenBefore = true ∧
    (s.sel 0).shift = none ∧ (s.sel 0).trim = none ∧ parseReport 0 ((still (some 4)).message 0) = some (still (some 4)) := by
  unfold Acts; decide +kernel

/-- The report completes the shift: head 1 is ACTIVE on needle 5; a message of six bytes does nothing. -/
theorem test_report_completes_shift :
    ((run [report 0 (still (some 4))] shifting).head 0).state = .active ∧
    ((run [report 0 (still (some 4))] shifting).sel 0).current = some 4 ∧
    ((run [.headReport 0 [1, 0, 0, 0, 0, 0]] shifting).head 0).state = .shifting false := by decide +kernel

theorem witness_ReportDueRaisesSilence :
    (Acts opened ∧ (opened.head 0).awaiting = false) ∧
    (let s := awaiting opened
     Acts s ∧ Waits s ∧ (s.head 0).state = .active ∧ (s.head 0).awaiting = true ∧ (s.head 0).silentRun + 1 < s.par.silentRun) ∧
    (let s := awaiting (run [.reportDue 0] (awaiting opened))
     Acts s ∧ (s.head 0).awaiting = true ∧ (s.head 0).silentRun + 1 = s.par.silentRun ∧
       (s.head 0).silentRaised = false ∧ s.fr.enable.getLsbD 10 = true ∧ s.pc.state = .standby ∧
       s.pc.phase = .rest ∧ s.pc.point = none ∧ s.ts.working = none ∧ (s.head 0).state = .active ∧
       ∀ i : Fin 32, s.fr.rules[i] = PolicyRule.disabled) := by
  unfold Acts Waits; decide +kernel

/-- Two due times with no report: HEAD_SILENT, the head OFF. -/
theorem test_head_silent :
    let s := run [.standstillExchange, .reportDue 0, .standstillExchange, .reportDue 0] opened
    (s.head 0).state = .off ∧ (s.faultHead 0).latest = some .headSilent ∧ s.rl.sticky.getLsbD 2 = true := by
  decide +kernel

theorem witness_TimersEndOrders :
    (Acts opened ∧ (opened.sel 0).shift = none ∧ (opened.sel 0).trim = none) ∧
    (let s := deaf shifting
     Acts s ∧ (s.sel 0).shift.map (·.order) = some .judged ∧ s.fr.enable.getLsbD 6 = false ∧
       (s.sel 1).shift.isSome = true ∧ s.pc.phase = .choice .segmentStart ∧ (s.head 0).state = .shifting false) ∧
    (let s := deaf (trimming .sent (run [.spindleAtRest] (atMarker .endOfPass)))
     Acts s ∧ (s.sel 0).trim = some ⟨.sent, 600⟩ ∧ s.fr.enable.getLsbD 7 = false ∧
       (s.sel 1).trim = some ⟨.sent, 600⟩ ∧ s.pc.phase = .trim .endMain ∧ Waits s) := by
  unfold Acts Waits; decide +kernel

/-- An expired shift and an expired trim: the fault with the shift's target, and with the working segment and the
needle in position. -/
theorem test_timers :
    ((run [.shiftTimerExpiry 0] shifting).faultHead 0).first.map (fun c => (c.kind, c.segment, c.needle)) =
      some (.needleShiftFail, some 0, some 4) ∧
    ((run [.trimTimerExpiry 0] (trimming .sent (run [.spindleAtRest] (atMarker .endOfPass)))).faultHead 0).first =
      some ⟨.trimFail, some 0, none, some 4, some .main, none, none⟩ := by decide +kernel

theorem witness_TravelStepsAddUp : 1 ≤ 10 ∧ 1 < (travelSteps ⟨523, -198⟩ 10).length := by decide +kernel


/-! ## Hypotheses that are met: the editor, the policy, the records -/

/-- A segment of six stitches: two that may merge, a JUMP, a TRIM, a PAUSE and a long stitch. -/
def mixed : State :=
  run [.configWrite 3 5, .segOpen 0 1203 6 0 0 3,
    .segWrite 0 0 [⟨1, 1, 0⟩, ⟨30, 10, 0⟩, ⟨5, 5, 1⟩, ⟨0, 0, 2⟩, ⟨0, 0, 3⟩, ⟨9, 9, 0⟩], .segClose 0 45 25] opened

/-- Segment 0 of `mixed` is read from stitch i on. -/
def reading (i : Nat) (kind : PassKind) (due : Bool) (held : Option Marker) (waiting : List Issued) : State :=
  let s := mixed.beginIssue 0 0 5 kind true none
  { s with se := { s.se with context := s.se.context.map fun c =>
      { c with readIndex := i, tieOffDue := due, held := held, waiting := waiting } } }

/-- A begin-pass request that waits, its pass to be read from stitch i of `mixed` on. -/
def beginAt (i : Nat) (kind : PassKind) (due : Bool) : State :=
  let s := { reading i kind due none [] with mp := beginning.mp, pc := beginning.pc, ts := beginning.ts }
  { s with hs := { s.hs with heads := s.hs.heads.map fun r => { r with inTrim := r.state == .active } } }

/-- The passes whose window holds no stitch, a repair pass, one that a PAUSE begins, and what each begins with. -/
theorem witness_RestBeginsTravelsAndPasses_passes :
    (Acts (beginAt 4 .main true) ∧ ((beginAt 4 .main true).fillWindow 33).mp.window = [] ∧
      ((beginAt 4 .main true).fillWindow 33).mp.marker = some (.pause 4) ∧
      (beginAt 4 .main true).se.context.map (·.passedPauses) = some []) ∧
    (((beginAt 6 .main false).fillWindow 33).mp.window = [] ∧
      ((beginAt 6 .main false).fillWindow 33).mp.marker = some .endOfPass ∧
      ((beginAt 6 .main false).head 0).inTrim = true) ∧
    (Acts (beginAt 4 .repair true) ∧ (beginAt 4 .repair true).se.context.map (·.kind) = some .repair ∧
      ((beginAt 4 .repair true).fillWindow 33).mp.window ≠ []) ∧
    (let t := run [.spindleAtRest] (beginAt 4 .main true)
     (t.pc.state, t.pc.cause) = (.halted, .designPause)) ∧
    (let t := run [.spindleAtRest] (beginAt 4 .repair true)
     (t.pc.state, t.mp.mode) = (.repair, .running)) := by
  unfold Acts; decide +kernel

/-- What the statement asks of a state read from stitch i on: the segment is there and i is not past its end. -/
theorem witness_EditorFollowsTheStream :
    (((List.range 7).map fun i => (reading i .main true none []).se.context.map fun c =>
      (c.readIndex, c.last, c.waiting.length, c.held.isSome)) = (List.range 7).map fun i => some (i, 5, 0, false)) ∧
    ((reading 0 .main true none []).findSeg 0).map
      (fun r => (List.range 6).map fun j => (memRead mixed.ds.memory (r.entry j)).kind) =
      some [.normal, .normal, .jump, .trim, .pause, .normal] ∧
    (reading 4 .repair true none []).se.context.map (·.kind) = some .repair ∧ opened.se.context = none := by
  decide +kernel

/-- A case of each kind (section 2.6): stitches 0 and 1 merge after the tie-in; the JUMP goes alone; the TRIM
stops after the tie-off; a PAUSE stops the main pass and is passed over in a repair pass; the end. -/
theorem test_issue_each_kind :
    (match (reading 0 .main true none []).issue.1 with | .stitch x => (x.tie, x.anchor) | _ => (.none, none)) = (.tieIn, some 0) ∧
    (match (reading 2 .main true none []).issue.1 with | .stitch x => (x.jump, x.index) | _ => (false, none)) = (true, some 2) ∧
    (match (reading 3 .main true none []).issue.1 with | .stitch x => x.tie | _ => .none) = .tieOff ∧
    (reading 3 .repair true none []).issue.1 = .marker (.trim 3) ∧
    (reading 4 .main true none []).issue.1 = .marker (.pause 4) ∧
    (match (reading 4 .repair true none []).issue.1 with | .stitch x => (x.tie, x.anchor) | _ => (.none, none)) = (.tieIn, some 5) ∧
    (reading 6 .main false none []).issue.1 = .marker .endOfPass ∧
    (reading 6 .main true (some (.pause 4)) []).issue.1 = .nothing := by decide +kernel

/-- A stitch that goes whole, one that is cut, and ties that are placed and that are not. -/
theorem witness_SplitsAndTiesAreMade :
    (State.reset.par.sMin ≤ State.reset.geometricCap 8 3 ∧ (State.reset.split (tieStitch .none 8 3 none)).length = 1) ∧
    (let s := { State.reset with mp := { State.reset.mp with tableX := (List.range 128).map fun d => 3000 + 3000 * d } }
     s.geometricCap 127 0 < s.par.sMin ∧ (s.split (tieStitch .none 127 0 none)).length = 2) ∧
    ((mixed.findSeg 0).map (fun r => (r.tieIn, r.tieOff)) = some (true, true) ∧ 0 < mixed.par.tieLength) ∧
    ((written.findSeg 0).map (·.count) = some 3 ∧ (run [.configWrite 4 0] mixed).par.tieLength = 0) := by
  decide +kernel

/-- Every slot of the Repair Table is taken by head 2's records in segment 0. -/
def full : State :=
  { sewing with
    rt := { sewing.rt with records := (List.range 128).map fun k => { owing .closed with slot := k } }
    ds := { sewing.ds with segs := sewing.ds.segs.map fun r => { r with pins := 128 } } }

theorem witness_FaultsAreResolved :
    (sewing.pc.state = .sewing ∧ kindInSet sewing.fr.enable .upperBreak = true) ∧
    ((sewing.openRequest 0 0 0 (.fault .upperBreak)).isSome = true ∧ full.openRequest 0 0 0 (.fault .upperBreak) = none) ∧
    kindInSet (deaf sewing).fr.enable .upperBreak = false ∧
    (opened.pc.state = .standby ∧ kindInSet opened.fr.enable .trimFail = true) := by decide +kernel

/-- Head 1 OFF in mode AUTO with an OPEN record from stitch 0, FAULT raised; in a full table a stop that ends
with REPAIR_FULL; a TENSION_LOOSE stops the machine with the target in the faulted set. -/
theorem test_groups_resolved :
    ((recorded.head 0).state, (recorded.head 0).rejoin) = (.off, .auto) ∧
    recorded.rt.records = [⟨0, 0, 0, 0, none, 1203, .fault .upperBreak, .opened, none⟩] ∧
    recorded.rl.sticky.getLsbD 2 = true ∧ recorded.pc.state = .sewing ∧
    (let t := full.resolveGroup 0 [broken]
     (t.pc.state, t.pc.due) = (.stopping, some .repairFull)) ∧
    (let t := sewing.resolveGroup 0 [{ broken with kind := .tensionLoose, index := some 20 }]
     (t.pc.state, t.pc.due, (t.pc.faulted[(0 : HeadId)]).bind (·.target)) = (.stopping, some .faultHold, some 16)) := by
  decide +kernel

theorem recorded_sound : recorded.ds.Sound := by
  refine ⟨?_, ?_, ?_, ?_⟩ <;> decide +kernel

theorem recorded_pinned : recorded.Pinned := by unfold State.Pinned PinsMatch; decide +kernel

theorem full_sound : full.ds.Sound := by
  refine ⟨?_, ?_, ?_, ?_⟩ <;> decide +kernel

theorem full_pinned : full.Pinned := by unfold State.Pinned PinsMatch; decide +kernel

theorem witness_PinsMatchRecords :
    recorded.ds.Sound ∧ recorded.Pinned ∧ recorded.rt.records.length = 1 ∧
    ∃ t, step { recorded with pending := [.moveCompletion] } = .next t :=
  ⟨recorded_sound, recorded_pinned, by decide +kernel, (steps_with recorded).2.1⟩

/-- Segment 0 ACTIVE: an OPEN record to merge, a free slot, no free slot; the last stitch and one past it. -/
theorem witness_RecordsAreOpened :
    (recorded.ds.Sound ∧ recorded.Pinned ∧ full.ds.Sound ∧ full.Pinned) ∧
    (recorded.findSeg 0).map (fun q => (q.state, q.count, q.pins)) = some (.active, 3, 1) ∧
    (recorded.rt.records.map (fun r => (r.head, r.state)) = [(0, .opened)] ∧ full.rt.records.length = 128) ∧
    (recorded.openRequest 1 0 2 .carry).map (fun t => t.rt.records.map (·.slot)) = some [0, 1] ∧
    (recorded.openRequest 0 0 2 .carry).map (fun t => t.rt.records.map (fun r => (r.first, r.cause))) =
      some [(0, .fault .upperBreak)] :=
  ⟨⟨recorded_sound, recorded_pinned, full_sound, full_pinned⟩, by decide +kernel⟩

/-- Head 2's record of stitches 0 and 1 of segment 0, pinned, in a stop. -/
def passing (st : RecordState) (through : Option Int) : State :=
  { stopped with
    rt := { stopped.rt with records := [{ owing st with through := through }] }
    ds := { stopped.ds with segs := stopped.ds.segs.map fun r => { r with pins := 1 } } }

theorem passing_sound : (passing .closed none).ds.Sound := by
  refine ⟨?_, ?_, ?_, ?_⟩ <;> decide +kernel

theorem passing_pinned : (passing .closed none).Pinned ∧ (passing .active (some 0)).Pinned := by
  unfold State.Pinned PinsMatch; decide +kernel

theorem witness_RepairPassesSettle :
    (passing .closed none).ds.Sound ∧ (passing .closed none).Pinned ∧ (passing .active (some 0)).Pinned ∧
    (passing .closed none).scheduled .run = some 0 ∧ (passing .closed none).scheduled .segmentEnd = some 0 ∧
    ((passing .active (some 0)).advanceRecords 1 1).rt.records = [] ∧
    ((passing .active (some (-1))).truncate 1 1).rt.records.map (fun r => (r.first, r.state)) = [(1, .closed)] ∧
    ((passing .active (some 0)).endRepairPass).rt.records.map (fun r => (r.first, r.state)) = [(1, .closed)] :=
  ⟨passing_sound, passing_pinned.1, passing_pinned.2, by decide +kernel⟩

/-! ## Hypotheses that are met: what the part goes on to by itself -/

/-- LOAD_LOW and LOAD_HIGH are number parameters; with both at 0 the flag falls (R19, R20). -/
theorem witness_NumbersAreStored_marks :
    Acts opened ∧ opened.ds.loadWant = true ∧ (1 ≤ (1 : Byte).toNat ∧ (2 : Byte).toNat ≤ 2) ∧
    (0 : BitVec 24).toNat < 256 ^ 2 ∧ (run [.configWrite 1 0] opened).ds.loadWant = true ∧
    (run [.configWrite 1 0, .configWrite 2 0] opened).ds.loadWant = false := by
  unfold Acts; decide +kernel

/-- STARVED, the awaited segment written and not yet closed. -/
def hungry : State :=
  run [.segOpen 0 1203 3 0 0 3, .segWrite 0 0 [⟨30, 10, 0⟩, ⟨20, 5, 0⟩, ⟨10, 10, 0⟩]] starving

theorem hungry_sound : hungry.ds.Sound := by
  refine ⟨?_, ?_, ?_, ?_⟩ <;> decide +kernel

/-- The close in a STARVED wait, with the checks passed and with the reference lost. -/
theorem witness_SegCloseMakesReadyOrRefuses_starved :
    hungry.ds.Sound ∧ Acts hungry ∧ Waits hungry ∧ (hungry.pc.state = .halted ∧ hungry.pc.cause = .starved) ∧
    (hungry.ds.mark = none ∧ (hungry.findSeg 0).map (fun r => (r.state, r.written)) = some (.loading, 3)) ∧
    (hungry.mp.referenced = true ∧ hungry.tablesValid = true) ∧
    (run [.segClose 0 60 25] hungry).pc.state = .change ∧
    (let s := { hungry with mp := { hungry.mp with referenced := false } }
     Waits s ∧ ¬ s.mp.referenced = true ∧ (run [.segClose 0 60 25] s).pc.cause = .stopRequest) := by
  refine ⟨hungry_sound, ?_⟩; unfold Acts Waits; decide +kernel

/-- The segment of head 2's record is SEWN. -/
def sewnOwing : State :=
  let s := passing .closed none
  { s with ds := { s.ds with segs := s.ds.segs.map fun r => { r with state := .sewn } } }

theorem sewnOwing_sound : sewnOwing.ds.Sound := by
  refine ⟨?_, ?_, ?_, ?_⟩ <;> decide +kernel

theorem sewnOwing_pinned : sewnOwing.Pinned := by unfold State.Pinned PinsMatch; decide +kernel

/-- Excluding head 2 with its record: an ACTIVE segment loses its pin, a SEWN one is freed (R164, R16). -/
theorem witness_HeadModeIncludesExcludes_pins :
    (sewnOwing.ds.Sound ∧ sewnOwing.Pinned) ∧
    (Acts sewnOwing ∧ Names 2 1 ∧ sewnOwing.pc.state = .halted ∧ sewnOwing.pc.job.isSome = true ∧
      inSet sewnOwing.jobHeads 1 = true ∧ inSet sewnOwing.jobHeads 0 = true ∧ sewnOwing.ds.served ≠ some 0) ∧
    (sewnOwing.findSeg 0).map (fun q => (q.state, q.pins)) = some (.sewn, 1) ∧
    (run [.headMode 2 1] sewnOwing).findSeg 0 = none ∧
    ((run [.headMode 2 1] (passing .closed none)).findSeg 0).map (fun q => (q.state, q.pins)) = some (.active, 0) := by
  refine ⟨⟨sewnOwing_sound, sewnOwing_pinned⟩, ?_⟩; unfold Acts Names; decide +kernel

/-- The first stitch of the run is half done. -/
def halfway : State :=
  { moving with mp := { moving.mp with move := moving.mp.move.map fun m => { m with elapsed := 2100 } } }

/-- The job is finished. -/
def done : State := { opened with pc := { opened.pc with state := .finished } }

theorem done_sound : done.ds.Sound := by
  refine ⟨?_, ?_, ?_, ?_⟩ <;> decide +kernel

theorem halfway_sound : halfway.ds.Sound := by
  refine ⟨?_, ?_, ?_, ?_⟩ <;> decide +kernel

/-- A warm reset from FINISHED, STANDBY and SEWING, the last in the middle of a move: the points of R83 and R78, and
the pulses issued owed (R59). -/
theorem witness_WarmStarts_points :
    (done.ds.Sound ∧ opened.ds.Sound ∧ halfway.ds.Sound) ∧
    (Acts done ∧ done.sm.retention = false ∧ done.pc.phase = .rest ∧ done.pc.point = none) ∧
    (Acts opened ∧ opened.sm.retention = false ∧ opened.pc.phase = .rest ∧ opened.pc.point = none) ∧
    (Acts halfway ∧ halfway.sm.retention = false ∧ halfway.pc.phase = .sew ∧ halfway.mp.passKind = .main ∧
      halfway.mp.move.map (·.kind) = some .stitch) ∧
    (run [.reset] done).pc.point = some .jobEnd ∧ (run [.reset] opened).pc.point = some .beforeTake ∧
    (let t := run [.reset] halfway
     (t.pc.point, t.pc.trimmed, t.pc.wasMoving, t.mp.unfinished) = (some (.atStitch 0 0), false, true, some (32, 14))) := by
  refine ⟨⟨done_sound, opened_sound, halfway_sound⟩, ?_⟩; unfold Acts; decide +kernel

/-- A retraction of 32 and −14 pulses, 1,800 µs from its begin. -/
def retracting : State :=
  let s := run [.spindleAtRest] (owingPulses beginning)
  { s with mp := { s.mp with move := s.mp.move.map fun m => { m with elapsed := 1800 } } }

/-- Stopping it leaves what it has not taken back (R54). -/
theorem witness_ImmediateHalts_retraction :
    retracting.sm.powered = true ∧ AtWork retracting ∧ Acts retracting ∧ retracting.sm.estopInput = false ∧
    retracting.mp.move.map (·.kind) = some .retraction ∧ retracting.mp.unfinished = some (32, -14) ∧
    (run [.estopAssert] retracting).mp.unfinished = some (16, -7) := by
  unfold AtWork Acts; decide +kernel

/-- The end of a pass that no head has sewn: nothing to trim, so the part goes on to the job's end. -/
theorem witness_SpindleAtRestEndsTheRun_untrimmed :
    let s := { sewing with mp := { sewing.mp with mode := .runningDown, spindle := 0, window := [], marker := some .endOfPass } }
    Acts s ∧ Inside s s.sm.angle ∧ s.mp.passKind = .main ∧ s.pc.phase = .sew ∧ (∀ h : HeadId, (s.head h).inTrim = false) ∧
    (run [.spindleAtRest] s).pc.state = .finished := by
  unfold Acts Inside; decide +kernel

/-- A repair pass whose window holds no stitch, at a TRIM and at its end, with heads to trim and with none. -/
theorem witness_RestBeginsTravelsAndPasses_repair :
    let bare := fun s : State => { s with hs := { s.hs with heads := s.hs.heads.map fun r => { r with inTrim := false } } }
    (Acts (beginAt 3 .repair true) ∧ (beginAt 3 .repair true).refill.mp.window = [] ∧
      (beginAt 3 .repair true).refill.mp.marker = some (.trim 3) ∧ ((beginAt 3 .repair true).head 0).inTrim = true) ∧
    ((beginAt 6 .repair false).refill.mp.window = [] ∧
      (beginAt 6 .repair false).refill.mp.marker = some .endOfPass) ∧
    ((run [.spindleAtRest] (beginAt 3 .repair true)).pc.phase = .trim .midRepair) ∧
    ((run [.spindleAtRest] (bare (beginAt 6 .main false))).pc.state = .finished) := by
  unfold Acts; decide +kernel

/-- The move in progress is that of stitches 1 and 2 of the segment. -/
def covering (s : State) : State :=
  { s with mp := { s.mp with window := [⟨{ tieStitch .none 5 5 none with index := some 2, lowest := some 1 }, 1000⟩] } }

/-- Head 1's bobbin is 3 units above the low mark. -/
def nearlyLow (s : State) : State := s.setMeter 0 { s.meter 0 with bobbin := 20003, lowArmed := true, stormLeak := 63, storm := 9 }

/-- A stitch with an index, its BOBBIN_LOW and its storm drain. -/
theorem witness_MoveCompletionMoves_low :
    let s := nearlyLow (covering moving)
    let t := run [.moveCompletion] s
    (Acts s ∧ s.mp.move.map (·.kind) = some .stitch ∧ s.pc.phase = .sew ∧ s.mp.mode = .running ∧
      (s.head 0).latch = true ∧ s.se.context.isSome = true) ∧
    (s.mp.window.map (fun w => (w.stitch.index, w.stitch.lowest, w.stitch.part, w.stitch.jump)) =
      [(some 2, some 1, none, false)]) ∧
    ((s.meter 0).lowArmed = true ∧ (s.meter 0).bobbin - (6 + s.par.bobbinAllow) < s.par.bobbinLowMark) ∧
    ((t.head 0).sewn, (t.meter 0).lowArmed, (t.meter 0).storm, (t.faultHead 0).latest) = (2, false, 8, some .bobbinLow) := by
  unfold Acts; decide +kernel

/-- The end of stopping, and a stitch of a repair pass. -/
theorem witness_MoveCompletionMoves_stitches :
    (let s := { moving with mp := { moving.mp with stopCeiling := true } }
     Acts s ∧ s.mp.prevSpeed = some s.par.sMin ∧ (run [.moveCompletion] s).mp.stopEnd = true) ∧
    (let s := inRepair (covering moving)
     Acts s ∧ s.mp.passKind = .repair ∧ s.pc.phase = .sew ∧
       ((run [.moveCompletion] s).head 0).sewnRepair = 2) := by
  unfold Acts; decide +kernel

/-- One step of that travel is left. -/
def lastStep : State := run [.moveCompletion] stepping

/-- The last step with the shaft at rest and turning, and with a stop due; a retraction before a travel's first step and
before a begin-pass request, the shaft at rest. -/
theorem witness_MoveCompletionMoves_travel :
    let turningNow := { lastStep with mp := { lastStep.mp with shaft := .turning } }
    let back := fun s : State => { s with mp := { s.mp with
      move := s.mp.move.map fun m => { m with kind := .retraction }, unfinished := some (8, 0) } }
    let begins := { back stepping with pc := { stepping.pc with phase := .begin .segmentStart }, se := beginning.se }
    (Acts lastStep ∧ lastStep.mp.move.map (·.kind) = some .step ∧ lastStep.pc.phase = .travel .segmentStart ∧
      lastStep.mp.mode = .travelling ∧ lastStep.se.plan = some [] ∧ lastStep.pc.due = none ∧ turningNow.mp.shaft = .turning) ∧
    ((run [.moveCompletion] lastStep).pc.state = .sewing ∧ (run [.moveCompletion] turningNow).pc.phase = .begin .segmentStart) ∧
    (let s := run [.stop] lastStep
     s.pc.due = some .stopRequest ∧ s.se.plan = some [] ∧ (run [.moveCompletion] s).pc.state = .halted) ∧
    (Acts (back stepping) ∧ (back stepping).mp.mode = .travelling ∧ (back stepping).se.plan = some [⟨-15, 0⟩] ∧
      TakesTime (back stepping) (-15) 0 ∧
      (run [.moveCompletion] (back stepping)).mp.move.map (·.kind) = some .step) ∧
    (Acts begins ∧ begins.mp.mode = .travelling ∧ begins.pc.due = none ∧ begins.mp.shaft = .inWindow ∧
      (run [.moveCompletion] begins).pc.state = .sewing) := by
  unfold Acts TakesTime; decide +kernel

/-- Segment 0 READY with no record against it, and the shaft at rest in the window 30 units away. -/
def atHand : State :=
  let s := run [.configWrite 5 20, .frameSet 30 0] (onNeedle loaded)
  { s with mp := { s.mp with shaft := .inWindow } }

/-- START where a shift must begin, where the table is full and a head OFF lacks its record, and with the shaft in the
window. -/
theorem witness_StartTakesFirstSegment_more :
    (Acts loaded ∧ MayBegin loaded ∧ loaded.pc.state = .standby ∧ loaded.pc.due = none ∧ loaded.ds.mark = none ∧
      (loaded.findSeg 0).map (·.state) = some .ready ∧ (∀ q ∈ loaded.ds.segs, q.state ≠ .active) ∧
      Waits (run [.start] loaded) ∧ ((run [.start] loaded).sel 0).shift.isSome = true) ∧
    (let s := headIs .off { loaded with rt := { loaded.rt with records := full.rt.records } }
     Acts s ∧ MayBegin s ∧ s.pc.state = .standby ∧
       (let t := run [.start] s
        (t.pc.state, t.pc.cause, t.pc.carryOwed) = (.halted, .repairFull, true))) ∧
    (Acts atHand ∧ MayBegin atHand ∧ Settled atHand ∧ atHand.mp.mode = .atRest ∧ atHand.mp.shaft = .inWindow ∧
      atHand.mp.move = none ∧ atHand.mp.unfinished = none ∧
      travelSteps (away atHand ⟨0, 0⟩) atHand.par.travelStep = [⟨-15, 0⟩, ⟨-15, 0⟩] ∧ TakesTime atHand (-15) 0 ∧
      (run [.start] atHand).mp.move.map (·.kind) = some .step) := by
  unfold Acts MayBegin Settled Waits TakesTime; decide +kernel

theorem witness_StartTakesFirstSegment_sound : loaded.ds.Sound ∧ atHand.ds.Sound ∧ atHand.par.Sound := by
  refine ⟨loaded_sound, ⟨?_, ?_, ?_, ?_⟩, by unfold Params.Sound; decide +kernel⟩ <;> decide +kernel

/-- The place in the round is a needle choice, with a halt that is due or with none. -/
def choosing (a : Aim) (due : Option HaltCause) (s : State) : State :=
  { s with pc := { s.pc with state := .change, phase := .choice a, due := due } }

/-- The cases of a needle choice: kept, a shift, none fit, a rejoin, a staged edit; and what choice complete does. -/
theorem witness_NeedleChoicesSettleHeads :
    (let t := (headIs .rejoinWait (onNeedle loaded)).needleChoice 1203 0 .main 0 0 0xFFFF
     (t.head 0).state = .active ∧ (t.sel 0).shift = none) ∧
    (let t := loaded.needleChoice 1203 0 .main 0 0 0xFFFF
     (t.head 0).state = .shifting false ∧ (t.sel 0).shift = some ⟨4, .unsent, 1500, false⟩) ∧
    (let t := loaded.needleChoice 9 0 .main 0 0 0xFFFF
     (t.head 0).state = .off ∧ (t.faultHead 0).latest = some .noThread) ∧
    (let s := run [.needleSet 1 5 1 1204 0] sewing
     (s.sel 0).needles[(4 : NeedleId)].staged.isSome = true ∧
       ((s.needleChoice 1203 0 .main 0 0 0xFFFF).sel 0).needles[(4 : NeedleId)] = ⟨1204, false, none⟩) ∧
    (shifting.pc.phase = .choice .segmentStart ∧ (shifting.sel 0).shift.isSome = true) ∧
    (let s := choosing .segmentStart none sewing
     s.pc.phase = .choice .segmentStart ∧ (∀ h, (s.sel h).shift = none) ∧ s.pc.due = none ∧ s.activeSeg.isSome = true) ∧
    (choosing .segmentStart (some .stopRequest) sewing).pc.due = some .stopRequest ∧
    (let s := choosing .repairPass none (inRepair sewing)
     s.pc.phase = .choice .repairPass ∧ (∀ h, (s.sel h).shift = none) ∧ s.rt.pass.map (·.segment) = some 0 ∧
       (s.findSeg 0).isSome = true) := by decide +kernel

theorem sewing_sound : sewing.ds.Sound := by
  refine ⟨?_, ?_, ?_, ?_⟩ <;> decide +kernel

theorem sewing_pinned : sewing.Pinned := by unfold State.Pinned PinsMatch; decide +kernel

/-- A stop with what a hold owes: head 1 OFF, in the faulted set with a target, trims and carry records owed. -/
def holding (carry : Bool) (trims : HeadSet) (p : ResumePoint) (records : List RepairRecord) (target : Option Nat) : State :=
  let s := headIs .off stopped
  { s with
    pc := { s.pc with
      carryOwed := carry, owedTrims := trims, point := some p, faulted := s.pc.faulted.set 0 (some ⟨target, .carry⟩) }
    rt := { s.rt with records := records } }

/-- RESUME with each kind of debt, and at each point. -/
theorem witness_ResumeSettlesWhatIsOwed :
    (let s := holding true 3 (.atStitch 0 0) [] (some 0)
     Acts s ∧ MayBegin s ∧ s.pc.state = .halted ∧ s.pc.cause = .stopRequest ∧
       (run [.resume] s).rt.records.map (fun r => (r.head, r.first)) = [(0, 0)] ∧
       (run [.resume] s).pc.phase = .trim .owed ∧ (run [.resume] s).pc.faulted[(0 : HeadId)] = none) ∧
    (run [.resume] (holding true 0 (.atStitch 0 0) full.rt.records none)).pc.cause = .repairFull ∧
    (run [.resume] (holding false 0 (.atStitch 0 0) full.rt.records (some 0))).pc.cause = .repairFull ∧
    ((run [.resume] (holding false 0 (.atStitch 0 0) [] (some 0))).pc.state = .sewing) ∧
    (let s := holding false 0 .beforeTake [] none
     MayBegin s ∧ s.pc.point = some .beforeTake ∧ (run [.resume] s).pc.cause = .starved) ∧
    (let s := holding false 0 .jobEnd [] none
     MayBegin s ∧ (run [.resume] s).pc.state = .finished) ∧
    (let s := holding false 0 (.atEnd 0) [{ owing .closed with head := 0 }] none
     MayBegin s ∧ (run [.resume] s).pc.cause = .repairsOutstanding) := by
  unfold Acts MayBegin; decide +kernel

/-- The choice of a resume at a stitch is complete: head 1, of the faulted set, waits, is out again or has rejoined. -/
def rechoosing (st : HeadState) (target : Option Nat) (records : List RepairRecord) : State :=
  let s := choosing .resume none (headIs st sewing)
  { s with
    pc := { s.pc with point := some (.atStitch 0 1), faulted := s.pc.faulted.set 0 (some ⟨target, .carry⟩) }
    rt := { s.rt with records := records } }

theorem witness_ResumeSettlesWhatIsOwed_choice :
    (let s := rechoosing .rejoinWait (some 0) []
     s.pc.phase = .choice .resume ∧ (∀ h, (s.sel h).shift = none) ∧ s.pc.due = none ∧ s.pc.point = some (.atStitch 0 1) ∧
       (s.findSeg 0).map (·.state) = some .active ∧ s.pc.job.isSome = true ∧
       s.microStep.map (fun t => (t.rt.records.length, t.pc.resumePlan.start)) = some (1, 1)) ∧
    ((rechoosing .off none []).microStep.map (fun t => t.pc.faulted[(0 : HeadId)]) = some none) ∧
    ((rechoosing .active (some 0) []).microStep.map (fun t => (t.pc.resumePlan.start, t.pc.resumePlan.latch)) = some (0, true)) ∧
    ((rechoosing .rejoinWait (some 0) full.rt.records).microStep.map (fun t => t.pc.cause) = some .repairFull) := by
  decide +kernel

theorem witness_ResumeSettlesWhatIsOwed_sound :
    (rechoosing .rejoinWait (some 0) []).ds.Sound ∧ (rechoosing .rejoinWait (some 0) []).Pinned :=
  ⟨by refine ⟨?_, ?_, ?_, ?_⟩ <;> decide +kernel, by unfold State.Pinned PinsMatch; decide +kernel⟩

/-- The trims of a request have all ended. -/
def allTrimmed (a : TrimAim) (kind : PassKind) (due : Option HaltCause) (p : Option ResumePoint) : State :=
  let s := sewing.beginIssue 0 0 2 kind true none
  { s with
    se := { s.se with context := s.se.context.map fun c => { c with held := some (.trim 1) } }
    mp := { s.mp with mode := .atRest, spindle := 0, window := [], marker := none, shaft := .turning }
    pc := { s.pc with state := .change, phase := .trim a, due := due, point := p } }

/-- Each request's trims, with a stop due and with none; the segment of the main pass is served and sound. -/
theorem witness_TrimsCompleteGoOn :
    sewing.ds.Sound ∧
    ((trimming .sent (allTrimmed .endMain .main none none)).sel 0).trim.isSome = true ∧
    (let s := allTrimmed .midMain .main none none
     s.pc.phase = .trim .midMain ∧ (∀ h, (s.sel h).trim = none) ∧ s.pc.due = none ∧
       s.se.context.map (fun c => (c.kind, c.held, c.passedPauses)) = some (.main, some (.trim 1), []) ∧
       s.microStep.map (fun t => (t.pc.phase, t.frontier)) = some (.begin .onward, 2)) ∧
    ((allTrimmed .midMain .main (some .stopRequest) none).microStep.map (fun t => (t.pc.state, t.pc.point)) =
      some (.halted, some (.atStitch 0 2))) ∧
    ((allTrimmed .midRepair .repair none none).microStep.map (·.pc.phase) = some (.begin .onward)) ∧
    ((allTrimmed .endMain .main none none).ds.served = some 0 ∧ (allTrimmed .endMain .main none none).activeSeg.isSome = true ∧
      (allTrimmed .endMain .main none none).microStep.map (fun t => (t.pc.repairPoint, t.findSeg 0)) = some (.jobEnd, none)) ∧
    ((allTrimmed .endMain .main (some .stopRequest) none).microStep.map (·.pc.point) = some (some (.atEnd 0))) ∧
    ((allTrimmed .endRepair .repair none none).microStep.map (·.pc.phase) = some .schedule) ∧
    ((allTrimmed .stopRepair .repair (some .stopRequest) none).microStep.map (·.pc.state) = some .halted) ∧
    ((allTrimmed .owed .main none (some (.atStitch 0 1))).microStep.map (·.pc.phase) = some (.choice .resume)) ∧
    ((allTrimmed .owed .main (some .stopRequest) (some (.atStitch 0 1))).microStep.map (·.pc.state) = some .halted) ∧
    ((allTrimmed .repairRun .main none (some (.atStitch 0 1))).microStep.map (·.pc.repairPoint) = some .run) ∧
    ((allTrimmed .repairRun .main (some .stopRequest) (some (.atStitch 0 1))).microStep.map (·.pc.trimmed) = some true) := by
  exact ⟨sewing_sound, by decide +kernel⟩

/-- The place in the round is a take, or a schedule request of a point. -/
def scheduling (p : RepairPoint) (s : State) : State := { s with pc := { s.pc with state := .change, phase := .schedule, repairPoint := p } }

/-- A pin ceiling of one page. -/
def ceilinged (s : State) : State := { s with pc := { s.pc with job := s.pc.job.map fun j => { j with pinCeiling := 1 } } }

/-- The take of a READY segment and of one that is absent; after the repairs of each point; a REPAIR_RUN's return from a
STARVED wait whose segment is READY by then; a travel with no step left, with a stop due and with none. -/
theorem witness_RoundGoesOn :
    (let s := { loaded with pc := { loaded.pc with state := .change, phase := .take } }
     s.pc.phase = .take ∧ s.ds.mark = none ∧ (s.findSeg 0).map (·.state) = some .ready ∧ (∀ q ∈ s.ds.segs, q.state ≠ .active) ∧
       s.microStep.map (·.ds.mark) = some (some 0)) ∧
    (let s := { opened with pc := { opened.pc with state := .change, phase := .take } }
     s.pc.phase = .take ∧ s.findSeg 0 = none ∧ s.microStep.map (·.pc.cause) = some .starved) ∧
    ((scheduling .run (passing .closed none)).microStep.map (fun t => (t.pc.phase, t.rt.records.map (·.state))) =
      some (.choice .repairPass, [.active])) ∧
    ((scheduling .segmentEnd stopped).microStep.map (·.pc.phase) = some .take ∧
      (scheduling .segmentEnd (ceilinged sewnOwing)).pc.phase = .schedule ∧
      (scheduling .forced stopped).microStep.map (·.pc.phase) = some .take ∧
      (scheduling .jobEnd stopped).microStep.map (·.pc.state) = some .finished) ∧
    (let s := scheduling .run { loaded with pc := { loaded.pc with point := some .beforeTake, runCause := .starved } }
     s.pc.point = some .beforeTake ∧ s.mp.referenced = true ∧ s.tablesValid = true ∧ s.microStep.map (·.pc.phase) = some .take ∧
       ({ s with mp := { s.mp with referenced := false } } : State).microStep.map (·.pc.cause) = some .stopRequest) ∧
    (let s := { lastStep with mp := { lastStep.mp with move := none } }
     s.pc.phase = .travel .segmentStart ∧ s.mp.mode = .travelling ∧ s.se.plan = some [] ∧ s.pc.due = none ∧
       s.microStep.map (·.pc.phase) = some (.begin .segmentStart)) := by decide +kernel

/-- A head that is OFF cannot repair what it owes. -/
def barred : State := (ceilinged sewnOwing).setHeadState 1 .off

/-- The schedule names segment 0; it names none where no record stands, and none where the record's head is OFF. -/
theorem witness_RoundGoesOn_named (p : RepairPoint) :
    Named (passing .closed none) .run 0 ∧ (passing .closed none).Pinned ∧ (∀ g, ¬ Named stopped p g) ∧
    (∀ g, ¬ Named barred p g) ∧
    (scheduling .segmentEnd barred).microStep.map (·.pc.repairPoint) = some .forced ∧
    (scheduling .forced barred).microStep.map (·.pc.cause) = some .pinCeiling ∧
    (scheduling .jobEnd barred).microStep.map (·.pc.cause) = some .repairsOutstanding := by
  refine ⟨⟨⟨owing .closed, ⟨?_, ?_, by simp, by simp⟩, by decide +kernel, rfl⟩, fun _ _ _ => Nat.zero_le _⟩,
    passing_pinned.1, ?_, ?_, by decide +kernel, by decide +kernel, by decide +kernel⟩
  · decide +kernel
  · unfold Eligible; decide +kernel
  · rintro g ⟨⟨r, ⟨h, _⟩, _⟩, _⟩
    have none : stopped.rt.records = [] := by decide +kernel
    rw [none] at h; cases h
  · rintro g ⟨⟨r, ⟨h, ⟨_, e, _⟩, _⟩, _⟩, _⟩
    have one : barred.rt.records = [owing .closed] := by decide +kernel
    rw [one, List.mem_singleton] at h
    subst h
    have out : (barred.head (owing .closed).head).state = .off := by decide +kernel
    rw [out] at e; rcases e with e | e <;> cases e

/-- Two transitions follow one another and then the part waits: travel complete, and the pass begun. -/
theorem witness_RoundGoesOn_drive :
    let s := { lastStep with mp := { lastStep.mp with move := none } }
    2 ≤ Config.driveBound ∧ (s.microStep.map (·.pc.phase)) = some (.begin .segmentStart) ∧
    ((s.microStep.bind State.microStep).map fun t => (t.pc.phase, t.microStep.isNone)) = some (.sew, true) := by
  decide +kernel

/-! ## Hypotheses that are met: clauses on repair passes, on holds and on moves that take no time -/

/-- A fault of head h at stitch d of segment 0. -/
def faultAt (k : FaultKind) (p : PassKind) (d : Nat) : FaultContext := ⟨k, some 0, some d, some 4, some p, none, none⟩

/-- The state in a pass state, at a place of the round, with a halt due or none. -/
def putAt (st : PassState) (ph : Phase) (due : Option HaltCause) (s : State) : State :=
  { s with pc := { s.pc with state := st, phase := ph, due := due, cause := .none } }

/-- A repair pass sews stitches 0 to 2 for head 2, whose record is repaired through stitch 1. -/
def repairing : State :=
  let s := inRepair sewing
  { putAt .repair .sew none s with
    rt := ⟨[{ owing .active with through := some 1, last := some 2 }], some 0, false, some ⟨0, 0, 2, 2⟩⟩
    ds := { s.ds with segs := s.ds.segs.map fun r => { r with pins := 1 } } }

/-- A resume context at stitch 2 is held. -/
def heldAt (p : ResumePoint) (s : State) : State := { s with pc := { s.pc with point := some p } }

/-- UPPER_BREAK and TENSION_LOOSE of head 2 at stitch 2 of the pass. -/
def offThere (s : State) : State := s.resolveGroup 1 [faultAt .upperBreak .repair 2]
def holdThere (s : State) : State := s.resolveGroup 1 [faultAt .tensionLoose .repair 2]

theorem repairing_pointless (m k : Nat) : repairing.pc.point ≠ some (.atStitch m k) := by
  have none : repairing.pc.point = none := by decide +kernel
  rw [none]; exact fun h => nomatch h

/-- A group in a repair pass cuts the record of its head short; with a resume context at a stitch HEAD_OFF enters the head
at its index (R143, R160, R78). -/
theorem witness_FaultsAreResolved_repair :
    (offThere repairing).rt.records.map (fun r => (r.first, r.last, r.state)) = [(0, some 2, .closed)] ∧
    (offThere repairing).pc.state = .repair ∧ (offThere repairing).pc.faulted[(1 : HeadId)] = none ∧
    ((offThere (heldAt (.atStitch 0 2) repairing)).pc.faulted[(1 : HeadId)]).map (·.target) = some (some 2) := by
  decide +kernel

/-- A HOLD there cuts it too and stops the pass, the head having no target. -/
theorem witness_FaultsAreResolved_repairHold :
    (holdThere repairing).rt.records.map (fun r => (r.first, r.last, r.state)) = [(0, some 2, .closed)] ∧
    ((holdThere repairing).pc.faulted[(1 : HeadId)]).map (·.target) = some none ∧
    ((holdThere repairing).pc.state, (holdThere repairing).pc.due) = (.stopping, some .faultHold) := by
  decide +kernel

/-- The state and the halt due after a HOLD of head 1 at stitch 20 in the main pass, and the head's target. -/
def heldAfter (s : State) : PassState × Option HaltCause × Option (Option Nat) :=
  let t := s.resolveGroup 0 [faultAt .tensionLoose .main 20]
  (t.pc.state, t.pc.due, (t.pc.faulted[(0 : HeadId)]).map (·.target))

/-- A HOLD in each pass state: the cause due or kept, and the target (R75, R78, R144). -/
theorem witness_FaultsAreResolved_hold :
    heldAfter sewing = (.stopping, some .faultHold, some (some 16)) ∧
    heldAfter (putAt .stopping .sew (some .estop) sewing) = (.stopping, some .estop, some (some 16)) ∧
    heldAfter travelling = (.travel, some .faultHold, some (some 0)) ∧
    heldAfter shifting = (.change, some .faultHold, some (some 0)) ∧
    heldAfter (heldAt (.atStitch 0 2) (putAt .travel (.travel .resume) none sewing)) =
      (.travel, some .faultHold, some (some 2)) := by decide +kernel

theorem witness_FaultsAreResolved_holdMore :
    heldAfter (putAt .change (.trim .midMain) none sewing) = (.change, some .faultHold, some (some 16)) ∧
    heldAfter (putAt .change (.choice .repairPass) none sewing) = (.change, some .faultHold, some none) ∧
    heldAfter stopped = (.halted, none, some (some 16)) ∧
    heldAfter (heldAt .beforeTake stopped) = (.halted, none, some none) ∧
    heldAfter opened = (.standby, none, none) := by decide +kernel

/-- A full table outside SEWING; HEAD_OFF with no segment, the head in, already out, and with no resume point held. -/
theorem witness_FaultsAreResolved_full :
    let tables := fun s : State => { s with rt := full.rt }
    let off := fun s : State => s.resolveGroup 0 [faultAt .upperBreak .main 20]
    let bare := fun s : State => (s.resolveGroup 0 [⟨.noThread, none, none, some 4, none, none, none⟩]).pc.faulted[(0 : HeadId)]
    ((off (tables (putAt .stopping .sew (some .stopRequest) sewing))).pc.due = some .repairFull ∧
      (off (tables (putAt .stopping .sew (some .estop) sewing))).pc.due = some .estop) ∧
    (let t := off (tables stopped)
     (t.pc.state, t.pc.cause, t.pc.due, (t.pc.faulted[(0 : HeadId)]).map (·.target)) =
       (.halted, .stopRequest, none, some (some 14))) ∧
    (stopped.pc.point.isSome = true ∧ stopped.ts.working = none ∧ (stopped.head 0).state = .active ∧
      bare stopped = some ⟨none, .fault .noThread⟩) ∧
    bare (headIs .off stopped) = none ∧ (opened.pc.point = none ∧ bare opened = none) := by decide +kernel

/-- A stitch that moves on no axis is complete at the window open: no move is left, and the position stays (R49). -/
theorem witness_WindowOpenTakes_still :
    let s := run [.shaftAngleChange 180] sewing
    let s := { s with mp := { s.mp with window := [⟨tieStitch .none 0 0 none, 1000⟩] } }
    Acts s ∧ s.mp.mode = .running ∧ s.pc.phase = .sew ∧ s.mp.move = none ∧ s.mp.stopEnd = false ∧
    ¬ Inside s s.sm.angle ∧ Inside s (300 : Fin 360) ∧ TakesNoTime s 0 0 ∧
    ((run [.shaftAngleChange 300] s).mp.move = none ∧ (run [.shaftAngleChange 300] s).mp.position = s.mp.position) := by
  unfold Acts Inside TakesNoTime; decide +kernel

/-- The shaft rests in the window or outside it. -/
def shaftIs (sh : Shaft) (s : State) : State := { s with mp := { s.mp with shaft := sh } }

/-- A travel in TRAVELLING with its steps left. -/
def steps (plan : List Pos) : State :=
  { travelling with mp := { travelling.mp with mode := .travelling }, se := { travelling.se with plan := some plan } }

/-- A travel that waits: the shaft turns, rests outside, rests inside with and without pulses owed; steps that take time
and none; the travel of a frame already in place is one step of (0, 0), complete at once (R53). -/
theorem witness_RoundGoesOn_travel :
    (travelling.pc.phase = .travel .segmentStart ∧ travelling.mp.mode = .atRest ∧ travelling.mp.shaft = .turning ∧
      travelling.mp.unfinished = none ∧ Waits travelling) ∧
    (AtWork (shaftIs .outOfWindow travelling) ∧
      (shaftIs .outOfWindow travelling).microStep.map (·.pc.cause) = some .spindlePosition) ∧
    ((shaftIs .inWindow travelling).microStep.map (·.mp.mode) = some .travelling) ∧
    (travelling.se.plan = some [⟨0, 0⟩] ∧ TakesNoTime (steps [⟨0, 0⟩]) 0 0 ∧
      (steps [⟨0, 0⟩]).microStep.map (fun t => (t.mp.move, t.se.plan)) = some (none, some [])) ∧
    (TakesTime (steps [⟨5, 0⟩]) 5 0 ∧ (steps [⟨5, 0⟩]).microStep.map (fun t => t.mp.move.map (·.dx)) = some (some 5)) ∧
    (run [.spindleAtRest] travelling).pc.state = .sewing := by
  unfold Waits AtWork TakesTime TakesNoTime; decide +kernel

theorem steps_params_sound : (steps [⟨5, 0⟩]).par.Sound := by unfold Params.Sound; decide +kernel

/-- A table that gives 0 for up to 4 units, so that a retraction of 32 pulses takes no time. -/
def quick (s : State) : State := { s with mp := { s.mp with
  tableX := (List.range 128).map fun d => 3000 * (d - 4), tableY := (List.range 128).map fun d => 3000 * (d - 4) } }

/-- Pulses owed before a travel and before a begin-pass request: taken back in a time and in none (R54). -/
theorem witness_RoundGoesOn_retraction :
    let waits := shaftIs .inWindow (owingPulses travelling)
    let begins := shaftIs .inWindow (owingPulses beginning)
    (waits.mp.unfinished = some (32, -14) ∧ units 32 waits.par.axisScaleX ≤ 127 ∧ units (-14) waits.par.axisScaleY ≤ 127) ∧
    (beginning.pc.phase = .begin .segmentStart ∧ beginning.pc.due = none ∧ begins.mp.mode = .atRest) ∧
    (RetractionTakesTime waits 32 (-14) ∧
      waits.microStep.map (fun t => t.mp.move.map (·.kind)) = some (some .retraction)) ∧
    (RetractionTakesTime begins 32 (-14) ∧
      begins.microStep.map (fun t => t.mp.move.map (·.kind)) = some (some .retraction)) ∧
    (¬ RetractionTakesTime (quick waits) 32 (-14) ∧
      (quick waits).microStep.map (fun t => (t.mp.move, t.mp.unfinished)) = some (none, none)) := by
  unfold RetractionTakesTime; decide +kernel

/-- A begin-pass request: the shaft turning and outside, a halt due, and TRAVELLING left once nothing moves. -/
theorem witness_RoundGoesOn_begin :
    (beginning.mp.mode = .atRest ∧ beginning.mp.shaft = .turning ∧ Waits beginning) ∧
    (AtWork beginning ∧ (shaftIs .outOfWindow beginning).microStep.map (·.pc.cause) = some .spindlePosition) ∧
    (let s := { beginning with pc := { beginning.pc with due := some .stopRequest } }
     s.microStep.map (fun t => (t.pc.state, t.pc.cause, t.pc.point)) = some (.halted, .stopRequest, some (.atStitch 0 0))) ∧
    (let s := { beginning with mp := { beginning.mp with mode := .travelling } }
     s.mp.move = none ∧ s.microStep.map (·.mp.mode) = some .atRest) := by
  unfold Waits AtWork; decide +kernel

/-! ## Hypotheses that are met: warm starts, heads, records and halts -/

/-- The segment being served is SEWN and no record pins it. -/
def lastServed : State :=
  { stopped with ds := { stopped.ds with segs := stopped.ds.segs.map fun r => { r with state := .sewn }, served := some 0 } }

theorem lastServed_sound : lastServed.ds.Sound := by
  refine ⟨?_, ?_, ?_, ?_⟩ <;> decide +kernel

theorem repairing_sound : repairing.ds.Sound := by
  refine ⟨?_, ?_, ?_, ?_⟩ <;> decide +kernel

/-- A warm start frees it, and forms no pass (R14, R22, R165). -/
theorem witness_WarmStarts_served :
    lastServed.ds.Sound ∧ repairing.ds.Sound ∧ Acts lastServed ∧ lastServed.sm.retention = false ∧
    lastServed.ds.segs.map (fun q => (q.state, q.pins)) = [(.sewn, 0)] ∧ (run [.reset] lastServed).ds.segs = [] ∧
    Acts repairing ∧ repairing.sm.retention = false ∧ (run [.reset] repairing).rt.pass = none ∧
    (run [.reset] repairing).rt.records.map (fun r => (r.first, r.state)) = [(2, .closed)] := by
  refine ⟨lastServed_sound, repairing_sound, ?_⟩; unfold Acts; decide +kernel

/-- No attention cause is pending. -/
def unraised (s : State) : State := { s with rl := { s.rl with sticky := 0 } }

/-- Head 3 joins with a READY segment: no needle of it fits the thread, so THREAD_MISSING rises; with a needle set for
the thread before, the set stays empty and it does not (R96, R97). -/
theorem witness_HeadModeIncludesExcludes_sets :
    (Acts loaded ∧ Names 3 2 ∧ loaded.pc.state = .standby ∧ loaded.pc.job.isSome = true ∧ inSet loaded.jobHeads 2 = false ∧
      (loaded.findSeg 0).map (fun q => (q.state, q.unthreaded)) = some (.ready, 0)) ∧
    (let s := unraised loaded
     let t := run [.headMode 3 0] s
     s.rl.sticky = 0 ∧ (t.findSeg 0).map (·.unthreaded) = some 4 ∧ t.rl.sticky.getLsbD 3 = true) ∧
    (let s := run [.needleSet 3 1 1 1203 0] (unraised loaded)
     let t := run [.headMode 3 0] s
     (t.findSeg 0).map (·.unthreaded) = some 0 ∧ t.rl.sticky = 0) := by
  unfold Acts Names; decide +kernel

/-- REPAIR_CANCEL by head of the only record of a SEWN segment, which is freed; a choice byte of 2. -/
theorem witness_RepairCancels_head :
    sewnOwing.ds.Sound ∧ sewnOwing.Pinned ∧
    (Acts sewnOwing ∧ sewnOwing.pc.state ≠ .idle ∧ Names 2 1 ∧ 1 < (2 : Byte).toNat ∧
      sewnOwing.rt.records.map (fun r => (r.head, r.state)) = [(1, .closed)]) ∧
    ((run [.repairCancel 1 2] sewnOwing).rt.records = [] ∧ (run [.repairCancel 1 2] sewnOwing).findSeg 0 = none) := by
  refine ⟨sewnOwing_sound, sewnOwing_pinned, ?_⟩; unfold Acts Names; decide +kernel

/-- A repair pass and a shift are cut short: the record keeps its place, the pass is over (R93, R161). -/
theorem witness_ImmediateHalts_repair :
    (repairing.sm.powered = true ∧ AtWork repairing ∧ Acts repairing ∧ repairing.sm.estopInput = false ∧
      repairing.rt.pass.isSome = true) ∧
    (let t := run [.estopAssert] repairing
     t.rt.pass = none ∧ t.rt.records.map (fun r => (r.first, r.state)) = [(2, .closed)]) ∧
    (AtWork shifting ∧ Acts shifting ∧ (shifting.sel 0).shift.isSome = true ∧ (shifting.head 0).state = .shifting false ∧
      ((run [.estopAssert] shifting).head 0).state = .active) := by
  unfold AtWork Acts; decide +kernel

/-! ## Hypotheses that are met: frames, reads in every state, and clauses beside the common path -/

/-- The frames of DONE with one byte, of NO_RESPONSE and of LINK_BUSY (R181, R182). -/
theorem witness_TransactionExchanges_frames :
    Frames ⟨.done, .none, [7]⟩ ([0, 0, 1, 7] ++ beBytes 2 (crc16 [0, 0, 1, 7]).toNat) ∧
    Frames ⟨.noResponse, .none, []⟩ ([4, 0, 0] ++ beBytes 2 (crc16 [4, 0, 0]).toNat) ∧
    Frames ⟨.linkBusy, .none, []⟩ ([5, 0, 0] ++ beBytes 2 (crc16 [5, 0, 0]).toNat) := by
  refine ⟨⟨_, rfl, ?_⟩, ⟨_, rfl, ?_⟩, ⟨_, rfl, ?_⟩⟩ <;> unfold Carries <;> decide +kernel

/-- Tables that are valid and, with one entry above the next, not (R39). -/
theorem witness_StartResumeRunRefusals_tables :
    let s := run [.tableWrite 0 1 1 (List.replicate 32 0xFFFF)] opened
    opened.mp.Sound ∧ opened.tablesValid = true ∧ s.mp.tableX.length = 128 ∧ s.tablesValid = false ∧
      s.mp.tableX[1]? = some 65535 ∧ s.mp.tableX[2]? = some 3300 :=
  ⟨witness_TableEntriesAreReplaced_sound, by decide +kernel⟩

/-- Two READY records from the chain's start on, the third number absent (R5, R18). -/
theorem test_chain_counts :
    let two := fun s => run [.segOpen 1 1203 1 60 25 0, .segWrite 1 0 [⟨1, 1, 0⟩], .segClose 1 61 26] s
    let s := two (run [.jobOpen 3 3 0 1024 5, .frameSet 0 0, .segOpen 0 1203 3 0 0 3,
      .segWrite 0 0 [⟨30, 10, 0⟩, ⟨20, 5, 0⟩, ⟨10, 10, 0⟩], .segClose 0 60 25] State.reset)
    (s.readyAhead, s.nextWanted) = (4, 2) := by decide +kernel

/-- STOP while the retraction before a begin-pass runs (R74). -/
theorem witness_StopActs_retraction :
    let s := run [.spindleAtRest] (owingPulses beginning)
    (Acts s ∧ Waits s ∧ s.pc.state = .travel ∧ s.pc.due = none ∧ s.pc.phase = .begin .segmentStart ∧
      s.mp.mode = .travelling) ∧
    ((run [.stop] s).pc.state, (run [.stop] s).pc.due) = (.travel, some .stopRequest) := by
  unfold Acts Waits; decide +kernel

/-- REPAIR_RUN with a record to repair and no head to trim, and with EXCLUDED heads alone owed a trim: the request ends
at once and the repair pass begins (R82, R94). -/
theorem witness_RepairRunTrimsFirst_untrimmed :
    let s := passing .closed none
    let x := { s with pc := { s.pc with owedTrims := 0x0008 } }
    (Acts s ∧ MayBegin s ∧ s.pc.state = .halted ∧ s.pc.cause = .stopRequest ∧ s.pc.due = none ∧ s.pc.owedTrims = 0 ∧
      (∀ h : HeadId, (s.sel h).trim = none) ∧ (∀ h : HeadId, (s.head h).inTrim = false)) ∧
    (Acts x ∧ MayBegin x ∧ inSet x.pc.owedTrims 3 = true ∧ (x.head 3).state = .excluded) ∧
    ((run [.repairRun] s).rt.pass.isSome = true ∧ (run [.repairRun] s).pc.phase ≠ .trim .repairRun) ∧
    (run [.repairRun] x).pc.owedTrims = 0 := by
  unfold Acts MayBegin; decide +kernel

/-- The record of those states is eligible. -/
theorem witness_RepairRunTrimsFirst_eligible : Eligible (passing .closed none) (owing .closed) ∧
    (passing .closed none).rt.records = [owing .closed] := by
  refine ⟨⟨rfl, by decide +kernel, ⟨4, by decide +kernel⟩⟩, by decide +kernel⟩

/-- The lowest and highest deltas and every kind, as bytes and as the stitches they send; each ground of a bad one. -/
theorem witness_SegWriteStoresOrRefuses_stitches :
    let sent : List RawStitch := [⟨127, -127, 0⟩, ⟨0x81, 5, 1⟩, ⟨0, 0, 2⟩, ⟨0, 0, 3⟩]
    (∀ t ∈ sent, ¬ BadStitch t) ∧
    sent.map sentStitch = [⟨127, -127, .normal⟩, ⟨-127, 5, .jump⟩, ⟨0, 0, .trim⟩, ⟨0, 0, .pause⟩] ∧
    (∀ t ∈ ([⟨0x80, 0, 0⟩, ⟨0, 0x80, 0⟩, ⟨0, 0, 4⟩, ⟨0, 1, 2⟩, ⟨1, 0, 3⟩] : List RawStitch), BadStitch t) := by
  unfold BadStitch; decide +kernel

/-- A SEG_WRITE keeps dx and dy apart, and the kind (R7, R8). -/
theorem test_segWrite_entries :
    let t := run [.segWrite 0 0 [⟨127, -127, 0⟩, ⟨0x81, 5, 1⟩]] reserved
    (t.findSeg 0).map (fun r => (List.range 2).map fun k => memRead t.ds.memory (entryOf r k)) =
      some [⟨127, -127, .normal⟩, ⟨-127, 5, .jump⟩] := by decide +kernel

/-- RULE_READ of the last rule, which nothing has written, while sewing (R137). -/
theorem witness_RulesAreWritten_reads :
    (Acts sewing ∧ sewing.pc.state = .sewing ∧ (31 : Byte).toNat = (31 : Fin 32).val ∧
      sewing.fr.rules[(31 : Fin 32)].byKind = false) ∧
    (Acts policed ∧ (2 : Byte).toNat = (2 : Fin 32).val ∧ policed.fr.rules[(2 : Fin 32)].minSpeed = 800) := by
  unfold Acts; decide +kernel

/-- CONFIG_READ of the first and the last number parameter and of each set while sewing (R175). -/
theorem witness_NumbersAreStored_reads :
    Acts sewing ∧ sewing.pc.state = .sewing ∧ stored sewing.par (1 : Byte).toNat = some 2000 ∧
    stored sewing.par (31 : Byte).toNat = some 20000 ∧ stored sewing.par (35 : Byte).toNat = some 64 ∧
    stored sewing.par (15 : Byte).toNat = some (-3000) ∧ stored sewing.par 0 = some 2000 ∧
    stored sewing.par 36 = none ∧
    (36 ≤ (36 : Byte).toNat ∧ (38 : Byte).toNat ≤ 38 ∧ sewing.fr.enable = 0x1FFF ∧ sewing.rl.enable = 0x007F) := by
  unfold Acts; decide +kernel

/-- The rows of the identifiers at the ends of the two runs that CONFIG_WRITE stores as numbers (R185), and a value past
each end of a range. -/
theorem witness_NumbersAreStored_rows :
    ([1, 6, 7, 14, 19, 31, 35].map fun i => (parameters opened.par)[i - 1]?) =
      [some (2000, 0, 65535), some (100, 60, 400), some (1000, 100, 1200), some (8, 1, 64), some (1500, 100, 5000),
       some (20000, 0, 16777215), some (64, 1, 1024)] ∧
    (parameters opened.par).length = 35 ∧
    (run [.configWrite 6 59] opened).par.sMin = 60 ∧ (run [.configWrite 6 401] opened).par.sMin = 400 := by
  decide +kernel

/-- The exchange of the second window open awaits the report on the first stitch. -/
def reporting : State :=
  run [.moveCompletion, report 0 (still (some 4)), .shaftAngleChange 180, .shaftAngleChange 310] moving

/-- A metered report of a head with a judged trim in flight, which it says is done, and which it does not. -/
theorem witness_MeteringAccounts_trims :
    let s := trimming .judged reporting
    let r : Report := ⟨90, true, false, true, false, some 4⟩
    (Acts s ∧ (s.head 0).awaiting = true ∧ (s.sel 0).shift = none ∧ (s.sel 0).trim = some ⟨.judged, 600⟩) ∧
    (∃ x, Metered s 0 x) ∧ (parseReport 0 (r.message 0) = some r ∧ r.trimDone = true) ∧
    ((run [report 0 r] s).sel 0).trim = none ∧
    ((run [report 0 { r with trimDone := false }] s).sel 0).trim = some ⟨.judged, 600⟩ := by
  refine ⟨by unfold Acts; decide +kernel, ?_, by decide +kernel, by decide +kernel, by decide +kernel⟩
  unfold Metered
  exact ⟨(trimming .judged reporting).hs.previous.get (by decide +kernel), by decide +kernel⟩

/-- A report on which five faults are raised has them in the order of R117, each once. -/
theorem test_fault_order :
    let m := { metered with breakRun := 2, loose := 4000, tight := 4000, bobbinAbsent := 3, storm := 191 }
    let t : Taken := ⟨{ tieStitch .none 0 (-30) none with index := some 92 }, 40, .main, true⟩
    ((State.reset.setMeter 1 m).meterReport 1 ⟨0, false, false, false, false, some 4⟩ t).2.map (·.kind) =
      [.tensionLoose, .tensionTight, .upperBreak, .bobbinOut, .breakStorm] := by decide +kernel

/-- A report that turns the colour YELLOW raises TENSION_WARN before UPPER_BREAK. -/
theorem test_fault_order_warn :
    let m := { metered with breakRun := 2, loose := 300 }
    let t : Taken := ⟨{ tieStitch .none 0 (-30) none with index := some 92 }, 40, .main, true⟩
    ((State.reset.setMeter 1 m).meterReport 1 ⟨0, true, false, false, false, some 4⟩ t).2.map (·.kind) =
      [.tensionWarn, .upperBreak, .breakStorm] := by decide +kernel
end Sys2Proof.Tests
end

