-- ==== Sys2Proof/Proofs/CommandsKeep.lean ====
section
/-! PROOF. What each command keeps: the queue, and the soundness of every block (`Keeps`). One lemma for each
command over its own operations: those of the link, the needles, the heads, the policy and the parameters here. -/

namespace Sys2Proof.Machine

/-! ## The shapes of a meaning -/

/-- A command answers a next state that keeps what `s` holds. -/
def Completes (s : State) (o : Host.Outcome State Fault Refusal) : Prop := ∃ t, o = .next t ∧ Keeps s t

section
variable {a s t : State}

theorem Completes.next (k : Keeps s t) : Completes s (.next t) := ⟨t, rfl, k⟩

theorem Completes.whenOperating {f : State → State} (k : Keeps s (f s)) :
    Completes s (whenOperating s f) :=
  .next (Keeps.ite (fun _ => k) fun _ => .refl s)

@[simp] theorem firstReason_nil : firstReason [] = none := rfl

/-- The first reason of a list applies, or the first of the rest. -/
@[simp] theorem firstReason_cons (b : Bool) (w : Reason) (l : List (Bool × Reason)) :
    firstReason ((b, w) :: l) = if b = true then some w else firstReason l := by
  cases b <;> rfl

/-- No reason of a list applies where none is found. -/
theorem firstReason_eq_none {l : List (Bool × Reason)} : firstReason l = none ↔ ∀ c ∈ l, c.1 = false := by
  induction l with
  | nil => simp
  | cons c l ih => obtain ⟨b, w⟩ := c; cases b <;> simp [ih]

theorem Keeps.unless {l : List (Bool × Reason)} {f : State → State} (k : Keeps a s)
    (hf : firstReason l = none → Keeps a (f s)) : Keeps a (s.unless l f) := by
  unfold State.unless
  split
  · exact k.refuse _
  · exact hf ‹_›

theorem Keeps.answerStored (k : Keeps a s) (b : Bool) : Keeps a (s.stored b) := k.answer _

theorem Keeps.setSlot (k : Keeps a s) (x : Slot) : Keeps a (s.setSlot x) := k.withRl _

theorem Keeps.shifted (k : Keeps a s) (x : List (Option Byte)) : Keeps a (s.shifted x) := k.withRl _

/-- An update of the Motion Planner alone. -/
theorem Keeps.withMp (k : Keeps a s) {m : Motion} (h : s.mp.Sound → m.Sound) : Keeps a { s with mp := m } :=
  k.move rfl rfl h rfl rfl rfl

/-- An update of the Motion Planner that no soundness condition reads. -/
theorem Keeps.withMotion (k : Keeps a s) {m : Motion} (h1 : m.mode = s.mp.mode) (h2 : m.spindle = s.mp.spindle)
    (h3 : m.window = s.mp.window) (h4 : m.tableX = s.mp.tableX) (h5 : m.tableY = s.mp.tableY) :
    Keeps a { s with mp := m } := k.withMp fun h => by
  unfold Motion.Sound at *
  rw [h1, h2, h3, h4, h5]
  exact h

/-- An update of the Design Store that leaves its segments, its pool and the Stitch Memory. -/
theorem Keeps.withDs (k : Keeps a s) {d : Store} (h1 : d.segs = s.ds.segs) (h2 : d.pool = s.ds.pool)
    (h3 : d.memory = s.ds.memory) : Keeps a { s with ds := d } :=
  k.stored rfl (fun h => h.same h1 h2) (h3 ▸ id) rfl rfl rfl fun _ h => by
    unfold State.Pinned at *; rw [h1]; exact h

/-- An update of the Fault Resolver that leaves what it holds of the heads. -/
theorem Keeps.withFr (k : Keeps a s) {f : Resolver} (h : f.heads = s.fr.heads) : Keeps a { s with fr := f } :=
  ⟨k.queue, k.store, k.memory, k.motion, fun hs => by unfold Resolver.Sound; rw [h]; exact k.faults hs,
    k.params, k.pins⟩

theorem Keeps.setParams (k : Keeps a s) {p : Params} (h : s.par.Sound → p.Sound) : Keeps a (s.setParams p) :=
  ⟨k.queue, k.store, k.memory, k.motion, k.faults, h ∘ k.params, k.pins⟩

theorem Keeps.setJobHeads (k : Keeps a s) (x : HeadSet) : Keeps a (s.setJobHeads x) := k.withPc _

theorem Keeps.setRule (k : Keeps a s) (n : Nat) (r : PolicyRule) : Keeps a (s.setRule n r) := k.withFr rfl

theorem Keeps.setNeedle (k : Keeps a s) (h : HeadId) (n : NeedleId) (e : NeedleEntry) :
    Keeps a (s.setNeedle h n e) := k.setSel _ _

theorem Keeps.setShaft (k : Keeps a s) (c : Shaft) : Keeps a (s.setShaft c) :=
  k.withMotion rfl rfl rfl rfl rfl

theorem Keeps.waitForSupply (k : Keeps a s) : Keeps a s.waitForSupply := k.withSm _

/-! ## The request link, the needles, the heads and the policy -/

theorem transaction_completes (rx : List Byte) (s : State) : Completes s (execTransaction rx s) := by
  have k := Keeps.refl s
  have discard : Keeps s (s.discardTransaction rx) := k.shifted _
  have take : ∀ frame, Keeps s (s.takeTransaction frame rx) := fun frame => (k.shifted _).setSlot _
  refine .next (Keeps.ite (fun _ => ?_) fun _ => discard)
  split
  · exact k.shifted _
  · exact Keeps.ite (fun _ => discard) fun _ => take _
  · exact Keeps.ite (fun _ => discard) fun _ => take _

theorem Keeps.withdrawalCheck (k : Keeps a s) (h : HeadId) (n : NeedleId) (e : NeedleEntry) :
    Keeps a (s.withdrawalCheck h n e) := by
  unfold State.withdrawalCheck
  split
  · exact Keeps.ite (fun _ => k.resolveGroup _ _) fun _ => k
  · exact k

theorem needleSet_completes (head needle given : Byte) (code : BitVec 16) (state : Byte) (s : State) :
    Completes s (execNeedleSet head needle given code state s) := by
  have k := Keeps.refl s
  refine .whenOperating ?_
  split
  · refine k.unless fun _ => Keeps.ite (fun _ => (k.setNeedle _ _ _).done _) fun _ => ?_
    exact (((k.setNeedle _ _ _).done _).computeUnthreaded.withdrawalCheck _ _ _).drive
  · exact k.refuse _

theorem needleQuery_completes (head needle : Byte) (s : State) : Completes s (execNeedleQuery head needle s) := by
  have k := Keeps.refl s
  refine .whenOperating ?_
  split
  · exact k.done _
  · exact k.refuse _

theorem Keeps.excludeHead (k : Keeps a s) (h : HeadId) : Keeps a (s.excludeHead h) :=
  Keeps.computeUnthreaded (Keeps.withPc
    (((((k.setJobHeads _).retireHead h).setHead h _).clearMeter h).dropFaulted h) _)

theorem Keeps.includeHead (k : Keeps a s) (h : HeadId) : Keeps a (s.includeHead h) :=
  ((k.setJobHeads _).setHead h _).computeUnthreaded

theorem headMode_completes (head mode : Byte) (s : State) : Completes s (execHeadMode head mode s) := by
  have k := Keeps.refl s
  refine .whenOperating ?_
  split
  · refine k.unless fun _ => ?_
    exact Keeps.ite (fun _ => (k.excludeHead _).done _) fun _ =>
      Keeps.ite (fun _ => (k.includeHead _).done _) fun _ => k.done _
  · exact k.refuse _

theorem Keeps.rejoinHead (k : Keeps a s) (h : HeadId) : Keeps a (s.rejoinHead h) := by
  unfold State.rejoinHead
  split
  · exact k.setHeadState _ _
  · exact (k.setHeadState _ _).setMeter _ _
  · exact k

theorem headRejoin_completes (head : Byte) (s : State) : Completes s (execHeadRejoin head s) := by
  have k := Keeps.refl s
  refine .whenOperating ?_
  split
  · exact k.unless fun _ => (k.rejoinHead _).done _
  · exact k.refuse _

theorem headQuery_completes (head : Byte) (s : State) : Completes s (execHeadQuery head s) := by
  have k := Keeps.refl s
  refine .whenOperating ?_
  split
  · exact k.done _
  · exact k.refuse _

theorem headClear_completes (head : Byte) (s : State) : Completes s (execHeadClear head s) := by
  have k := Keeps.refl s
  refine .whenOperating ?_
  split
  · exact ((k.setHead _ _).setFaultHead _ _ fun _ => ⟨Nat.zero_le _, (absurd · Bool.false_ne_true)⟩).done _
  · exact k.refuse _

theorem headBobbin_completes (head : Byte) (length : BitVec 24) (s : State) :
    Completes s (execHeadBobbin head length s) := by
  have k := Keeps.refl s
  refine .whenOperating ?_
  split
  · exact (k.setMeter _ _).done _
  · exact k.refuse _

theorem ruleWrite_completes (number : Byte) (rule : Option RawRule) (s : State) :
    Completes s (execRuleWrite number rule s) :=
  have k := Keeps.refl s
  .whenOperating (k.unless fun _ => (k.setRule _ _).answerStored _)

/-! ## The parameters, the Move-Time Tables and the frame -/

theorem Keeps.writeNumber (k : Keeps a s) {i : Nat} (hi : (1 ≤ i ∧ i ≤ 14) ∨ (19 ≤ i ∧ i ≤ 35)) (v : Nat) :
    Keeps a (s.writeNumber i v) := by
  have put := k.setParams (p := s.par.put i (s.par.fitted i v)) fun h => Params.put_sound h hi v
  unfold State.writeNumber
  exact (Keeps.ite (fun _ => put.evalLoad) fun _ => put).answerStored _

/-- A limit of the frame field that does not cross its other limit keeps the parameters sound. -/
theorem Params.putField_sound {p : Params} (h : p.Sound) (i : Nat) (v : Int)
    (hc : (p.putField i (clampInt (-16000) 16000 v)).fieldCrossed = false) :
    (p.putField i (clampInt (-16000) 16000 v)).Sound := by
  have hv : -16000 ≤ clampInt (-16000) 16000 v ∧ clampInt (-16000) 16000 v ≤ 16000 := by
    unfold clampInt; omega
  generalize clampInt (-16000) 16000 v = w at hv hc ⊢
  unfold Params.Sound at h ⊢
  obtain ⟨h1, h2, h3, h4, h5, h6, h7, h8, h9, h10, h11, h12, h13, hx, hy, rest⟩ := h
  unfold Params.fieldCrossed at hc
  simp only [Bool.or_eq_false_iff, decide_eq_false_iff_not, Int.not_lt] at hc
  obtain ⟨cx, cy⟩ := hc
  unfold Params.putField at cx cy ⊢
  split <;> exact ⟨h1, h2, h3, h4, h5, h6, h7, h8, h9, h10, h11, h12, h13, by grind, by grind, rest⟩

theorem Keeps.writeField (k : Keeps a s) (i : Nat) (v : Int) : Keeps a (s.writeField i v) := by
  unfold State.writeField
  refine k.unless fun h => (k.setParams fun hp => Params.putField_sound hp i v ?_).answerStored _
  exact firstReason_eq_none.1 h _ (List.mem_cons_self ..)

theorem Keeps.writeSet (k : Keeps a s) (i : Nat) (v : BitVec 16) : Keeps a (s.writeSet i v) := by
  unfold State.writeSet
  refine Keeps.done ?_ _
  split
  · exact k.withFr rfl
  · exact k.withFr rfl
  · exact k.withRl _

/-- The identifiers of the number parameters (R185). -/
theorem configKind_number {i : Nat} (h : configKind i = .number) : (1 ≤ i ∧ i ≤ 14) ∨ (19 ≤ i ∧ i ≤ 35) := by
  unfold configKind at h
  grind

theorem configWrite_completes (ident : Byte) (value : BitVec 24) (s : State) :
    Completes s (execConfigWrite ident value s) := by
  have k := Keeps.refl s
  refine .whenOperating (Keeps.ite (fun _ => k.unless fun _ => ?_) fun _ => k.badRequest)
  split
  · exact k.writeNumber (configKind_number ‹_›) _
  · exact k.writeField _ _
  · exact k.writeSet _ _
  · exact k

theorem tableWrite_completes (axis first count : Byte) (entries : List (BitVec 16)) (s : State) :
    Completes s (execTableWrite axis first count entries s) := by
  have k := Keeps.refl s
  refine .whenOperating (Keeps.ite (fun _ => k.unless fun h => Keeps.done ?_ _) fun _ => k.badRequest)
  simp only [firstReason_eq_none, List.forall_mem_cons, Bool.or_eq_false_iff, decide_eq_false_iff_not] at h
  have len : ∀ table : List Nat, table.length = 128 →
      (replaceFrom table first.toNat ((entries.take count.toNat).map (·.toNat))).length = 128 := fun table ht => by
    rw [replaceFrom_length, ht]
    simp only [List.length_map, List.length_take]
    omega
  refine Keeps.ite (fun _ => ?_) fun _ => ?_
  · exact k.withMp fun ⟨h1, h2, hx, hy⟩ => ⟨h1, h2, len _ hx, hy⟩
  · exact k.withMp fun ⟨h1, h2, hx, hy⟩ => ⟨h1, h2, hx, len _ hy⟩

theorem frameSet_completes (x y : BitVec 16) (s : State) : Completes s (execFrameSet x y s) := by
  have k := Keeps.refl s
  refine .whenOperating (k.unless fun _ => Keeps.done ?_ _)
  exact k.withMotion rfl rfl rfl rfl rfl

end

end Sys2Proof.Machine
end

