-- ==== Sys2Proof/Proofs/EventsKeep.lean ====
section
/-! PROOF. What the commands of the Repair Table, the Pass Controller, the spindle and the moves, the head link and
the supply keep. -/

namespace Sys2Proof.Machine

variable {a s t : State}

/-! ## The repair records -/

theorem Keeps.cancelSlot (k : Keeps a s) (n : Nat) : Keeps a (s.cancelSlot n) := by
  unfold State.cancelSlot
  refine k.unless fun _ => Keeps.done (Keeps.elim k fun r hr => ?_) _
  exact k.retire (Stands.of_mem (List.mem_of_find?_eq_some hr))

theorem Keeps.cancelHead (k : Keeps a s) (h : HeadId) : Keeps a (s.cancelHead h) := by
  unfold State.cancelHead
  refine k.unless fun _ => Keeps.done (k.retireSome ?_) _
  exact List.filter_sublist.trans List.filter_sublist

theorem repairCancel_completes (by_ which : Byte) (s : State) : Completes s (execRepairCancel by_ which s) := by
  have k := Keeps.refl s
  refine .whenOperating (k.unless fun _ => Keeps.ite (fun _ => ?_) fun _ => Keeps.ite (fun _ => ?_) fun _ => k.refuse _)
  · exact Keeps.ite (fun _ => k.cancelSlot _) fun _ => k.refuse _
  · split
    · exact k.cancelHead _
    · exact k.refuse _

/-! ## The Pass Controller -/

theorem Keeps.openJob (k : Keeps a s) (j : Job) : Keeps a (s.openJob j) := by
  unfold State.openJob
  have heads := (k.clearContext.withPc { s.clearContext.pc with
    state := .standby, cause := .none, due := none, job := some j, phase := .rest }).forHeads (p := fun _ => true)
    (f := fun h s => s.setHead h ((s.head h).atJobOpen (inSet j.heads h))) fun h t kt => kt.setHead _ _
  exact Keeps.evalLoad (heads.withDs rfl rfl rfl)

theorem jobOpen_completes (segments heads : BitVec 16) (repairWhen : Byte) (pinCeiling : BitVec 16)
    (powerBacktrack : Byte) (s : State) :
    Completes s (execJobOpen segments heads repairWhen pinCeiling powerBacktrack s) :=
  have k := Keeps.refl s
  .whenOperating (k.unless fun _ => (k.openJob _).answerStored _)

theorem Keeps.closeJob (k : Keeps a s) : Keeps a s.closeJob := by
  have heads := k.applyStagedEdits.dropAll.forHeads (p := fun _ => true)
    (f := fun h s => (s.setHead h (s.head h).leaveJob).clearMeter h) fun h t kt => (kt.setHead _ _).clearMeter _
  exact heads.clearPolicy.clearContext.clearWorking.withPc _

theorem jobClose_completes (s : State) : Completes s (execJobClose s) :=
  have k := Keeps.refl s
  .whenOperating (k.unless fun _ => k.closeJob.done _)

theorem start_completes (s : State) : Completes s (execStart s) :=
  have k := Keeps.refl s
  .whenOperating (k.unless fun _ => (k.accepted.goTo _ _).drive)

theorem stop_completes (s : State) : Completes s (execStop s) := by
  have k := Keeps.refl s
  refine .whenOperating (k.unless fun _ => ?_)
  split
  · exact Keeps.ite (fun _ => (k.changeCause _).done _) fun _ => k.done _
  · exact k.done _
  · exact k.done _
  · exact (k.accepted.askHalt _).drive

theorem Keeps.recordFaulted (g : Nat) (l : List HeadId) :
    ∀ {s : State}, Keeps a s → Keeps a (State.recordFaulted g l s).1 := by
  induction l with
  | nil => exact fun k => k
  | cons h l ih =>
    intro s k
    unfold State.recordFaulted
    split
    · exact ih k
    · split
      · exact ih ((k.openRequest ‹_›).dropFaulted h)
      · exact k

theorem Keeps.settleOwed (k : Keeps a s) : Keeps a s.settleOwed.1 := by
  unfold State.settleOwed
  have carried : Keeps a (if s.pc.carryOwed then State.carryFor s.pointSegment 0 allHeads s else (s, none)).1 := by
    split
    · exact Keeps.carryFor allHeads k
    · exact k
  dsimp only
  generalize (if s.pc.carryOwed then State.carryFor s.pointSegment 0 allHeads s else (s, none)) = p at carried ⊢
  obtain ⟨u, o⟩ := p
  cases o with
  | none => exact Keeps.recordFaulted _ _ carried
  | some _ => exact carried

theorem Keeps.resumeSettled (k : Keeps a s) : Keeps a s.resumeSettled := by
  have k1 : Keeps a (s.faultedOut.foldl (fun s h => s.dropFaulted h) s) :=
    Keeps.foldl (fun _ _ kt => kt.dropFaulted _) _ k
  unfold State.resumeSettled
  exact Keeps.ite (fun _ => (k1.withPc _).goOn) fun _ => ((k1.withPc _).goTo _ _).requestTrim _

theorem resume_completes (s : State) : Completes s (execResume s) := by
  have k := Keeps.refl s
  refine .whenOperating (k.unless fun _ => ?_)
  have owed := k.accepted.settleOwed
  generalize s.accepted.settleOwed = p at owed ⊢
  obtain ⟨u, b⟩ := p
  cases b with
  | false => exact owed.changeCause _
  | true => exact owed.resumeSettled.drive

theorem repairRun_completes (s : State) : Completes s (execRepairRun s) :=
  have k := Keeps.refl s
  .whenOperating (k.unless fun _ =>
    Keeps.ite (fun _ => (((k.accepted.withPc _).goTo _ _).requestTrim _).drive) fun _ => k.done _)

/-! ## The spindle and the moves -/

theorem Keeps.endOrRefill (k : Keeps a s) : Keeps a s.endOrRefill :=
  Keeps.ite (fun _ => k.withMotion rfl rfl rfl rfl rfl) fun _ => k.refill

theorem Keeps.completeStitch (k : Keeps a s) : Keeps a s.completeStitch := by
  unfold State.completeStitch
  split
  · exact k.withMotion rfl rfl rfl rfl rfl
  · rename_i w rest hw
    have k1 : Keeps a { s.advancePosition w.stitch.dx w.stitch.dy with
        mp := { (s.advancePosition w.stitch.dx w.stitch.dy).mp with window := rest } } := by
      refine (k.advancePosition _ _).withMp fun ⟨h1, h2, h3⟩ => ⟨h1, ?_, h3⟩
      have : (s.advancePosition w.stitch.dx w.stitch.dy).mp.window = w :: rest := hw
      rw [this, List.length_cons] at h2
      exact Nat.le_of_succ_le h2
    exact (k1.superviseCompletion _).endOrRefill

theorem Keeps.completeMove (k : Keeps a s) (m : Move) : Keeps a (s.completeMove m) := by
  unfold State.completeMove
  split
  · exact k.completeStitch
  · exact k.advancePosition _ _
  · exact k.withMotion rfl rfl rfl rfl rfl

theorem moveCompletion_completes (s : State) : Completes s (execMoveCompletion s) := by
  have k := Keeps.refl s
  refine .whenOperating ?_
  split
  · exact (k.completeMove _).drive
  · exact k

theorem Keeps.takeStitch (k : Keeps a s) (hm : s.mp.mode = .running) (st : Issued) : Keeps a (s.takeStitch st) := by
  have planned : Keeps a { s with mp := { s.mp with
      spindle := s.plannedSpeed, prevSpeed := some s.plannedSpeed } } :=
    k.withMp fun ⟨_, h2⟩ => ⟨fun hne => absurd hm hne, h2⟩
  have begun := (planned.superviseTake st).beginMove
  exact Keeps.ite (fun _ => (begun _).completeMove _) fun _ => begun _

theorem Keeps.comeToStop (k : Keeps a s) : Keeps a s.comeToStop :=
  (k.exchange _ _ _).withMp fun ⟨_, h2⟩ => ⟨fun _ => rfl, h2⟩

theorem Keeps.windowOpen (k : Keeps a s) (hm : s.mp.mode = .running) : Keeps a s.windowOpen := by
  unfold State.windowOpen
  refine Keeps.ite (fun _ => k.exchange _ _ _) fun _ => Keeps.ite (fun _ => k.comeToStop) fun _ => ?_
  split
  · exact k.takeStitch hm _
  · exact k.comeToStop

theorem Keeps.angleMoves (k : Keeps a s) (b c : Bool) : Keeps a (s.angleMoves b c) := by
  have k1 := k.setShaft .turning
  unfold State.angleMoves
  dsimp only
  split
  · exact Keeps.ite (fun _ => k1.windowOpen ‹_›) fun _ =>
      Keeps.ite (fun _ => Keeps.ite (fun _ => k1.immediateHalt _) fun _ => k1) fun _ => k1
  · exact Keeps.ite (fun _ => k1.shaftOut) fun _ => k1
  · exact k1

theorem shaftAngleChange_completes (angle : Fin 360) (s : State) : Completes s (execShaftAngleChange angle s) := by
  have k : Keeps s { s with sm := { s.sm with angle := angle } } := (Keeps.refl s).withSm _
  exact .next (Keeps.ite (fun _ => (k.angleMoves _ _).drive) fun _ => k)

theorem Keeps.restsInside (k : Keeps a s) : Keeps a s.restsInside := by
  unfold State.restsInside
  split
  · exact k.toRest.atStandstill _
  · exact k

theorem Keeps.restsOutside (k : Keeps a s) : Keeps a s.restsOutside := by
  unfold State.restsOutside
  split
  · exact k.shaftOut
  · exact k.shaftOut
  · exact k

theorem spindleAtRest_completes (s : State) : Completes s (execSpindleAtRest s) :=
  have k := Keeps.refl s
  .whenOperating (Keeps.ite (fun _ => (k.setShaft _).restsInside.drive) fun _ => (k.setShaft _).restsOutside.drive)

/-! ## The head link -/

theorem standstillExchange_completes (s : State) : Completes s (execStandstillExchange s) :=
  have k := Keeps.refl s
  .whenOperating (Keeps.ite (fun _ => k) fun _ => k.exchange _ _ _)

theorem headReport_completes (head : HeadId) (message : List Byte) (s : State) :
    Completes s (execHeadReport head message s) := by
  have k := Keeps.refl s
  refine .whenOperating (Keeps.ite (fun _ => ?_) fun _ => k)
  split
  · exact (k.takeReport _ _).drive
  · exact k

theorem reportDue_completes (head : HeadId) (s : State) : Completes s (execReportDue head s) :=
  have k := Keeps.refl s
  .whenOperating (Keeps.ite (fun _ => (k.missReport _).drive) fun _ => k)

theorem shiftTimerExpiry_completes (head : HeadId) (s : State) : Completes s (execShiftTimerExpiry head s) := by
  have k := Keeps.refl s
  refine .whenOperating ?_
  split
  · exact Keeps.ite (fun _ => ((k.failShift _).resolveGroup _ _).drive) fun _ => k
  · exact k

theorem trimTimerExpiry_completes (head : HeadId) (s : State) : Completes s (execTrimTimerExpiry head s) := by
  have k := Keeps.refl s
  refine .whenOperating ?_
  split
  · exact Keeps.ite (fun _ => ((k.setSel _ _).resolveGroup _ _).drive) fun _ => k
  · exact k

/-! ## The supply, the resets and the emergency stop -/

/-- The parameters of a cold start lie in their ranges (R20, R35, R57, R58, R98, R114, R130). -/
theorem Params.cold_sound : Params.cold.Sound := by
  unfold Params.Sound Params.cold
  simp

theorem Store.cold_sound : Store.cold.Sound := by
  refine ⟨?_, ?_, ?_, ?_⟩ <;> simp [Store.cold]

theorem Motion.cold_sound : Motion.cold.Sound := by
  refine ⟨?_, ?_, ?_, ?_⟩ <;> simp [Motion.cold, Motion.coldTable]

theorem Resolver.cold_sound : Resolver.cold.Sound := fun h => by simp [Resolver.cold]

theorem State.reset_pinned : State.reset.Pinned := by
  refine ⟨?_, ?_, ?_⟩ <;> simp [State.reset, Store.cold, Repairs.cold]

/-- A cold start is sound in every block, whatever the part held. -/
theorem Keeps.coldStart (k : Keeps a s) : Keeps a s.coldStart :=
  ⟨k.queue, fun _ => Store.cold_sound, fun _ => rfl, fun _ => Motion.cold_sound, fun _ => Resolver.cold_sound,
    fun _ => Params.cold_sound, fun _ _ => State.reset_pinned⟩

theorem Keeps.warmPlanner (k : Keeps a s) (b : Bool) : Keeps a (s.warmPlanner b) :=
  k.immediateStop.clearPolicy.withMotion rfl rfl rfl rfl rfl

theorem Keeps.warmHeads (k : Keeps a s) : Keeps a s.warmHeads := by
  have heads := k.forHeads (p := fun _ => true)
    (f := fun h s => ((s.setSel h (s.sel h).warm).setHead h (s.head h).warm).clearMeter h)
    fun h t kt => ((kt.setSel _ _).setHead _ _).clearMeter _
  unfold State.warmHeads
  exact heads.frame rfl rfl rfl rfl rfl rfl

theorem Keeps.warmPass (k : Keeps a s) (c : HaltCause) : Keeps a (s.warmPass c) :=
  Keeps.ite (fun _ => (k.noteStop.formContext _).withPc _) fun _ => k

theorem Keeps.announce (k : Keeps a s) : Keeps a s.announce := by
  have k1 : Keeps a (if s.jobOpen then s.raise .halted else s) := Keeps.ite (fun _ => k.raise _) fun _ => k
  exact (k1.raise _).setSlot _

theorem Keeps.warmStart (k : Keeps a s) (b : Bool) : Keeps a (s.warmStart b) := by
  have settled := ((k.warmPass (if b then .reset else .powerLoss)).warmPlanner b).warmHeads.endIssue.settleRecords
  unfold State.warmStart
  dsimp only
  refine Keeps.announce (Keeps.withSm (Keeps.evalLoad (Keeps.endService ?_)) _)
  exact settled.withRt _ rfl

theorem Keeps.resetHalt (k : Keeps a s) : Keeps a s.resetHalt := (k.immediateHalt _).immediateStop

theorem reset_completes (s : State) : Completes s (execReset s) :=
  have k := Keeps.refl s
  .whenOperating (Keeps.ite (fun _ => k.resetHalt.waitForSupply.setSlot _) fun _ => k.warmStart _)

theorem powerFailWarning_completes (backup : Bool) (s : State) : Completes s (execPowerFailWarning backup s) :=
  have k := Keeps.refl s
  .next (Keeps.ite (fun _ => (k.immediateHalt _).withSm _) fun _ => k)

theorem warningClear_completes (s : State) : Completes s (execWarningClear s) :=
  have k := Keeps.refl s
  .next (Keeps.ite (fun _ => Keeps.ite (fun _ => (k.withSm _).warmStart _) fun _ => (k.withSm _).coldStart) fun _ => k)

theorem mainSupplyFailure_completes (s : State) : Completes s (execMainSupplyFailure s) :=
  have k := Keeps.refl s
  .next (Keeps.ite (fun _ => k.immediateStop.withSm _) fun _ => k)

theorem backupFailure_completes (s : State) : Completes s (execBackupFailure s) :=
  .next ((Keeps.refl s).withSm _)

theorem powerReturn_completes (backup : Bool) (s : State) : Completes s (execPowerReturn backup s) :=
  have k := Keeps.refl s
  .next (Keeps.ite (fun _ => (k.withSm _).warmStart _) fun _ => (k.withSm _).coldStart)

theorem resetLineAssert_completes (s : State) : Completes s (execResetLineAssert s) := by
  have k := Keeps.refl s
  have halted : Keeps s (if s.sm.powered then s.resetHalt else s) := Keeps.ite (fun _ => k.resetHalt) fun _ => k
  exact .next (Keeps.ite (fun _ => k) fun _ => halted.withSm _)

theorem resetLineRelease_completes (s : State) : Completes s (execResetLineRelease s) := by
  have k := Keeps.refl s
  have released : Keeps s { s with sm := { s.sm with resetLine := false } } := k.withSm _
  exact .next (Keeps.ite (fun _ => Keeps.ite (fun _ => Keeps.ite (fun _ => released.waitForSupply)
    fun _ => released.warmStart _) fun _ => released) fun _ => k)

theorem estopAssert_completes (s : State) : Completes s (execEstopAssert s) := by
  have k := Keeps.refl s
  have stopped : Keeps s s.emergencyStop := Keeps.ite (fun _ => k.changeCause _) fun _ => k.immediateHalt _
  have acted : Keeps s (if s.operating then s.emergencyStop else s) := Keeps.ite (fun _ => stopped) fun _ => k
  exact .next (Keeps.ite (fun _ => k) fun _ => acted.withSm _)

end Sys2Proof.Machine
end

