-- ==== Sys2Proof/Proofs/StepKeeps.lean ====
section
/-! PROOF. What the requests to the Design Store keep; then every command, and the step, with the statements on
what every step keeps. -/

namespace Sys2Proof.Machine

variable {a s t : State}

/-! ## The stitches of a SEG_WRITE -/

@[simp] theorem SegRecord.writeStitch_pages (r : SegRecord) (st : Stitch) : (r.writeStitch st).pages = r.pages := rfl

@[simp] theorem SegRecord.writeStitch_written (r : SegRecord) (st : Stitch) :
    (r.writeStitch st).written = r.written + 1 := rfl

/-- A write changes the written count, the running end and the box of a record, and nothing else of it. -/
theorem writeStitches_record (l : List Stitch) (m : Memory) (r : SegRecord) :
    (writeStitches l (m, r)).2 = { r with
      written := r.written + l.length
      runEnd := (writeStitches l (m, r)).2.runEnd
      box := (writeStitches l (m, r)).2.box } := by
  induction l generalizing m r with
  | nil => rfl
  | cons st l ih =>
    unfold writeStitches
    rw [ih]
    simp [SegRecord.writeStitch, Nat.add_assoc, Nat.add_comm 1]

/-- A write keeps the canonical form of the Stitch Memory. -/
theorem writeStitches_wf (l : List Stitch) (m : Memory) (r : SegRecord) (h : Memory.wf m = true) :
    Memory.wf (writeStitches l (m, r)).1 = true := by
  induction l generalizing m r with
  | nil => exact h
  | cons st l ih => exact ih _ _ (memWrite_wf m _ st h)

/-! ## The requests to the Design Store -/

/-- A segment of a state whose pins agree is not pinned before it is taken. -/
theorem State.Pinned.unpinned (h : s.Pinned) {r : SegRecord} (hr : r ∈ s.ds.segs) (ha : r.state ≠ .active)
    (hs : r.state ≠ .sewn) : r.pins = 0 := by
  by_contra hp
  rcases (h.2.2 r hr).2 (Nat.pos_of_ne_zero hp) with e | e
  · exact ha e
  · exact hs e

/-- A number not present is no record's number. -/
theorem State.number_ne_of_absent {n : Nat} (h : s.findSeg n = none) : ∀ q ∈ s.ds.segs, q.number ≠ n := by
  simpa [State.findSeg] using h

/-- The slot of the record an accepted SEG_OPEN makes is free. -/
theorem State.openedSeg_slot_free (hd : s.ds.Sound) (number thread count : Nat) (start : Pos) (flags : Byte) :
    ∀ q ∈ s.ds.segs, q.slot ≠ (s.openedSeg number thread count start flags).slot := by
  intro q hq e
  refine (lowestFreeSlot_spec hd.1 (a := 0) fun _ _ => Nat.zero_le _).1 ?_
  exact List.mem_map.2 ⟨q, hq, e⟩

theorem State.openedSeg_sound (hd : s.ds.Sound) {number thread count : Nat} {start : Pos} {flags : Byte}
    (absent : s.findSeg number = none) (space : pagesFor count ≤ s.ds.pool.length) :
    (s.addSeg (s.openedSeg number thread count start flags)).ds.Sound :=
  hd.add (State.openedSeg_slot_free hd _ _ _ _ _) (State.number_ne_of_absent absent) rfl space (Nat.zero_le _)

theorem segOpen_completes (number thread count x y : BitVec 16) (flags : Byte) (s : State) :
    Completes s (execSegOpen number thread count x y flags s) := by
  have k := Keeps.refl s
  refine .whenOperating (k.unless fun h => ?_)
  unfold State.segOpenRefusals at h
  simp only [firstReason_eq_none, List.forall_mem_cons, State.present, Option.isSome_eq_false_iff,
    Option.isNone_iff_eq_none, decide_eq_false_iff_not, Nat.not_lt] at h
  obtain ⟨-, -, absent, -, -, space, -⟩ := h
  refine Keeps.done (Keeps.evalLoad (k.addSeg (fun hd => State.openedSeg_sound hd absent space) rfl ?_)) _
  exact State.number_ne_of_absent absent

theorem segWrite_completes (number offset : BitVec 16) (stitches : List RawStitch) (s : State) :
    Completes s (execSegWrite number offset stitches s) := by
  have k := Keeps.refl s
  refine .whenOperating (Keeps.ite (fun _ => k.unless fun h => ?_) fun _ => k.badRequest)
  split
  · rename_i r hr
    unfold State.segWriteRefusals at h
    simp only [hr, firstReason_eq_none, List.forall_mem_cons, Option.elim_some, bne_eq_false_iff_eq,
      decide_eq_false_iff_not, Nat.not_lt] at h
    obtain ⟨-, -, -, offset_eq, fits, -⟩ := h
    have short := List.length_filterMap_le stitchOf stitches
    have record := writeStitches_record (stitches.filterMap stitchOf) s.ds.memory r
    have stored : Keeps s { s with ds := { s.ds with
        memory := (writeStitches (stitches.filterMap stitchOf) (s.ds.memory, r)).1 } } :=
      k.stored rfl (fun h => h.same rfl rfl) (writeStitches_wf _ _ _) rfl rfl rfl fun _ h => h
    refine Keeps.done (stored.put (State.findSeg_mem hr).1 ?_ ?_ ?_ ?_ ?_ ?_ ?_) _
    all_goals rw [record]
    · exact fun _ => by dsimp only; omega
    · exact id
  · exact k

theorem Keeps.noteClose (k : Keeps a s) (n : Nat) (why : Reason) : Keeps a (s.noteClose n why) := by
  unfold State.noteClose
  split
  · rename_i r hr
    exact k.putSame hr rfl rfl rfl rfl rfl rfl id
  · rename_i r hr
    exact k.putSame hr rfl rfl rfl rfl rfl rfl id
  · exact k

/-- A segment that is not being sewn and not sewn becomes READY. -/
theorem Keeps.becomeReady (k : Keeps a s) {n : Nat} {r : SegRecord} (hr : s.findSeg n = some r)
    (hl : r.state = .loading) : Keeps a (s.becomeReady r) := by
  have put : Keeps a (s.putSeg { r with state := .ready, unthreaded := s.unthreadedFor r.thread }) :=
    k.putSame hr rfl rfl rfl rfl rfl rfl (by simp [hl])
  exact Keeps.evalLoad (Keeps.ite (fun _ => put) fun _ => put.raise _)

theorem segClose_completes (number : BitVec 16) (x y : BitVec 32) (s : State) :
    Completes s (execSegClose number x y s) := by
  have k := Keeps.refl s
  refine .whenOperating ?_
  split
  · exact (k.noteClose _ _).refuse _
  · rename_i h
    split
    · rename_i r hr
      unfold State.segCloseRefusals at h
      simp only [hr, firstReason_eq_none, List.forall_mem_cons, Option.elim_some, bne_eq_false_iff_eq] at h
      obtain ⟨-, -, loading, -⟩ := h
      exact ((k.becomeReady hr loading).done _).starvedRepeat.drive
    · exact k

theorem segDiscard_completes (number : BitVec 16) (s : State) : Completes s (execSegDiscard number s) := by
  have k := Keeps.refl s
  refine .whenOperating (k.unless fun h => Keeps.done (Keeps.elim k fun r hr => ?_) _)
  simp only [hr, firstReason_eq_none, List.forall_mem_cons, Option.elim_some, Bool.or_eq_false_iff,
    beq_eq_false_iff_ne, Bool.and_eq_false_iff, decide_eq_false_iff_not, Nat.not_lt] at h
  obtain ⟨-, -, ⟨active, -⟩, sewn, -⟩ := h
  have mem := (State.findSeg_mem hr).1
  exact k.freeSeg mem fun hp => sewn.elim (hp.unpinned mem active) Nat.le_zero.1

/-! ## The requests that ask -/

theorem segQuery_completes (number : BitVec 16) (s : State) : Completes s (execSegQuery number s) := by
  have k := Keeps.refl s
  refine .whenOperating (k.unless fun _ => ?_)
  exact k.done _

theorem segLocate_completes (number i : BitVec 16) (s : State) : Completes s (execSegLocate number i s) := by
  have k := Keeps.refl s
  refine .whenOperating (k.unless fun _ => ?_)
  exact k.done _

theorem ruleRead_completes (number : Byte) (s : State) : Completes s (execRuleRead number s) := by
  have k := Keeps.refl s
  refine .whenOperating (k.unless fun _ => ?_)
  exact k.done _

theorem configRead_completes (ident : Byte) (s : State) : Completes s (execConfigRead ident s) := by
  have k := Keeps.refl s
  refine .whenOperating (k.unless fun _ => ?_)
  exact k.done _

theorem attentionRead_completes (s : State) : Completes s (execAttentionRead s) := by
  have k := Keeps.refl s
  refine .whenOperating (Keeps.done ?_ _)
  exact k.withRl _

/-! ## Every command, and the step -/

/-- Every command answers a next state that has the queue it found and is sound wherever the state was. -/
theorem exec_completes (i : Instr) (s : State) : Completes s (exec i s) := by
  have k := Keeps.refl s
  cases i with
  | transaction => exact transaction_completes _ s
  | jobOpen => exact jobOpen_completes _ _ _ _ _ s
  | jobClose => exact jobClose_completes s
  | start => exact start_completes s
  | stop => exact stop_completes s
  | resume => exact resume_completes s
  | repairRun => exact repairRun_completes s
  | frameSet => exact frameSet_completes _ _ s
  | segOpen => exact segOpen_completes _ _ _ _ _ _ s
  | segWrite => exact segWrite_completes _ _ _ s
  | segClose => exact segClose_completes _ _ _ s
  | segDiscard => exact segDiscard_completes _ s
  | segQuery => exact segQuery_completes _ s
  | segLocate => exact segLocate_completes _ _ s
  | needleSet => exact needleSet_completes _ _ _ _ _ s
  | needleQuery => exact needleQuery_completes _ _ s
  | headMode => exact headMode_completes _ _ s
  | headRejoin => exact headRejoin_completes _ s
  | headQuery => exact headQuery_completes _ s
  | headClear => exact headClear_completes _ s
  | headBobbin => exact headBobbin_completes _ _ s
  | repairList => exact .whenOperating (k.done _)
  | repairCancel => exact repairCancel_completes _ _ s
  | ruleWrite => exact ruleWrite_completes _ _ s
  | ruleRead => exact ruleRead_completes _ s
  | tableWrite => exact tableWrite_completes _ _ _ _ s
  | configWrite => exact configWrite_completes _ _ s
  | configRead => exact configRead_completes _ s
  | status => exact .whenOperating (k.done _)
  | attentionRead => exact attentionRead_completes s
  | nop => exact .whenOperating (k.done _)
  | reset => exact reset_completes s
  | estopAssert => exact estopAssert_completes s
  | estopRelease => exact .next (k.withSm _)
  | powerFailWarning => exact powerFailWarning_completes _ s
  | warningClear => exact warningClear_completes s
  | powerReturn => exact powerReturn_completes _ s
  | resetLineAssert => exact resetLineAssert_completes s
  | resetLineRelease => exact resetLineRelease_completes s
  | shaftAngleChange => exact shaftAngleChange_completes _ s
  | spindleAtRest => exact spindleAtRest_completes s
  | moveCompletion => exact moveCompletion_completes s
  | standstillExchange => exact standstillExchange_completes s
  | headReport => exact headReport_completes _ _ s
  | reportDue => exact reportDue_completes _ s
  | shiftTimerExpiry => exact shiftTimerExpiry_completes _ s
  | trimTimerExpiry => exact trimTimerExpiry_completes _ s
  | mainSupplyFailure => exact mainSupplyFailure_completes s
  | backupFailure => exact backupFailure_completes s

/-- The state a command answers keeps what `s` holds. -/
theorem Completes.of_next {o : Host.Outcome State Fault Refusal} (h : Completes s o) (e : o = .next t) : Keeps s t := by
  obtain ⟨u, rfl, k⟩ := h
  cases e
  exact k

/-- What a state keeps beside the queue does not depend on the queue. -/
theorem Keeps.of_queue {l : List Instr} (k : Keeps { a with pending := l } t) (q : List Instr) :
    Keeps { a with pending := q } { t with pending := q } :=
  ⟨rfl, k.store, k.memory, k.motion, k.faults, k.params, k.pins⟩

/-- A step is sound wherever the state before it is: what it makes, the queue apart, keeps all that the state
before it, the queue apart, holds. -/
theorem step_keeps (h : step s = .next t) : Keeps { s with pending := [] } { t with pending := [] } := by
  have k := Keeps.refl s
  have elapsed : Keeps s s.elapse := Keeps.ite (fun _ => k.withMotion rfl rfl rfl rfl rfl) fun _ => k
  unfold step at h
  split at h
  · rename_i i rest _
    exact ((exec_completes i { s with pending := rest }).of_next h).of_queue []
  · refine Keeps.of_queue (a := s) (l := s.pending) ?_ []
    split at h
    · split at h
      · exact (exec_completes _ s).of_next h
      · cases h; exact k
    · cases h; exact Keeps.ite (fun _ => k.badRequest) fun _ => k
    · cases h; exact elapsed

/-- Settles O5: the Design Store and the Stitch Memory are two of the blocks every step keeps. -/
theorem storeStaysSound : Obligations.StoreStaysSound :=
  fun _ _ h => ⟨(step_keeps h).store, (step_keeps h).memory⟩

/-- Settles O7: the parameters and the fault counts are two of the blocks every step keeps. -/
theorem parametersAndFaultCountsStaySound : Obligations.ParametersAndFaultCountsStaySound :=
  fun _ _ h => ⟨(step_keeps h).params, (step_keeps h).faults⟩

/-- Settles O58: the pins follow the records wherever the Design Store is sound. -/
theorem pinsMatchRecords : Obligations.PinsMatchRecords :=
  fun _ _ sound pinned h => (step_keeps h).pins sound pinned

end Sys2Proof.Machine
end

