-- ==== Sys2Proof/Proofs/ColdStart.lean ====
section
/-! PROOF. The state after a cold start, block by block. -/

open Sys2Proof.Claims

namespace Sys2Proof.Machine

/-! ## The state after a cold start -/

theorem Store.cold_pool : Store.cold.pool = List.range 4096 := by
  simp only [Store.cold, Config.pageCount]

/-- R37: entry 0 of a table is 0, entry d from 1 on is 3,000 + 150 × d. -/
theorem Motion.coldTable_get {d : Nat} (h1 : 1 ≤ d) (h2 : d ≤ 127) :
    Motion.coldTable[d]? = some (3000 + 150 * d) := by
  obtain ⟨e, rfl⟩ : ∃ e, d = e + 1 := ⟨d - 1, by omega⟩
  have he : e < 127 := by omega
  simp [Motion.coldTable, he]

@[simp] theorem State.reset_head (h : HeadId) : State.reset.head h = HeadRecord.cold := by
  simp [State.head, State.reset, Supervisor.cold]

@[simp] theorem State.reset_sel (h : HeadId) : State.reset.sel h =
    { needles := Vector.replicate 12 ⟨Config.emptyThread, false, none⟩, current := none, shift := none, trim := none } := by
  simp [State.sel, State.reset, Selector.cold]

@[simp] theorem State.reset_meter (h : HeadId) : State.reset.meter h = Meter.cold := by
  simp [State.meter, State.reset]

@[simp] theorem State.reset_faultHead (h : HeadId) : State.reset.faultHead h = ⟨none, none, 0, false⟩ := by
  simp [State.faultHead, State.reset, Resolver.cold]

theorem State.reset_yellow : State.reset.yellow = false := by
  simp [State.yellow, HeadRecord.cold]

/-- The resume context is empty after a cold start (R83). -/
theorem State.reset_noContext : NoContext State.reset.pc :=
  ⟨rfl, fun h => by simp [State.reset, Pass.cold], rfl, rfl, rfl, rfl⟩

/-- R147: every kind is enabled, and every kind but TENSION_WARN and BOBBIN_LOW is counted. -/
theorem Resolver.cold_sets (k : FaultKind) : kindInSet Resolver.cold.enable k = true ∧
    (kindInSet Resolver.cold.countSelect k = true ↔ k ≠ .tensionWarn ∧ k ≠ .bobbinLow) := by
  cases k <;> decide

theorem Resolver.cold_rule (i : Fin 32) : Resolver.cold.rules[i] = PolicyRule.disabled := by
  simp [Resolver.cold]

/-- R168, R179: START alone is pending, and every cause is enabled. -/
theorem Link.cold_sets (c : Attention) :
    (Link.cold.sticky.getLsbD (c.code - 1) = true ↔ c = .start) ∧ Link.cold.enable.getLsbD (c.code - 1) = true := by
  cases c <;> decide

theorem State.reset_sound : State.reset.ds.Sound ∧ Memory.wf State.reset.ds.memory = true ∧ State.reset.mp.Sound ∧
    State.reset.fr.Sound ∧ State.reset.par.Sound ∧ State.reset.Pinned :=
  ⟨Store.cold_sound, rfl, Motion.cold_sound, Resolver.cold_sound, Params.cold_sound, State.reset_pinned⟩

/-- Settles O4: the registers as the cold-start values of each block give them, block by block. -/
theorem coldValues : Obligations.ColdValues := by
  refine ⟨⟨rfl, .of_eq Store.cold_pool, rfl, rfl, rfl, rfl, rfl⟩, ⟨rfl, rfl, rfl, rfl, rfl⟩, ?planner, ?motion, ⟨rfl, rfl, rfl⟩, ?meter,
    ⟨rfl, rfl, rfl, rfl, State.reset_noContext⟩, fun h => ⟨?head, ?needles, State.reset_meter h, State.reset_faultHead h⟩,
    rfl, rfl, Resolver.cold_sets, fun i => ?rule, ⟨rfl, rfl, rfl, rfl⟩, ⟨rfl, rfl⟩, ⟨rfl, Link.cold_sets⟩,
    State.reset_sound⟩
  case planner =>
    obtain ⟨-, -, length, -⟩ := Motion.cold_sound
    exact ⟨rfl, rfl, rfl, rfl, rfl, rfl, rfl, rfl, rfl, rfl, rfl, rfl, rfl, length, rfl, rfl,
      fun d => Motion.coldTable_get⟩
  case motion => and_intros <;> rfl
  case meter => exact ⟨rfl, rfl, rfl, rfl, rfl, rfl, rfl, rfl, rfl, rfl, rfl, rfl, rfl, rfl, State.reset_yellow⟩
  case head => rw [State.reset_head]; and_intros <;> rfl
  case needles =>
    rw [State.reset_sel]
    exact ⟨rfl, rfl, rfl, fun n => by simp [Config.emptyThread]⟩
  case rule => dsimp only; rw [show State.reset.fr.rules[i] = _ from Resolver.cold_rule i]; and_intros <;> rfl

end Sys2Proof.Machine
end

