-- ==== Sys2Proof/Proofs/RequestFacts.lean ====
section
/-! PROOF. The layer under the statements on single requests: a request of a part that acts, the bytes of a report,
the records after an operation on the Segment Table, LOAD_WANT after its evaluation, the segments' sets of unthreaded
heads. -/

open Sys2Proof.Claims

namespace Sys2Proof.Machine

variable {s t u : State}

/-! ## A request of a part that acts -/

theorem operating_of_acts (h : Acts s) : s.operating = true := by
  obtain ⟨powered, line, waits⟩ := h
  simp [State.operating, powered, line, waits]

/-- A part that acts carries a command out. -/
theorem whenOperating_of_acts (h : Acts s) (f : State → State) : whenOperating s f = .next (f s) := by
  simp [whenOperating, operating_of_acts h]

/-- A job is open in every pass state but IDLE (R60). -/
theorem State.jobOpen_iff : s.jobOpen = true ↔ s.pc.state ≠ .idle := by simp [State.jobOpen]

/-- The first reason of a list that applies refuses the request. -/
theorem State.unless_refused {l : List (Bool × Reason)} {why : Reason} (h : firstReason l = some why)
    (f : State → State) : s.unless l f = refused why s := by
  simp only [State.unless, h]
  rfl

/-- A request to which no reason applies is carried out. -/
theorem State.unless_carriedOut {l : List (Bool × Reason)} (h : firstReason l = none) (f : State → State) :
    s.unless l f = f s := by
  simp only [State.unless, h]

/-! ## The bytes of a report (R181) -/

/-- The bytes of a payload, field after field, each with its width. -/
def fieldBytes (l : List (Nat × Int)) : List Byte := l.flatMap fun f => beBytes f.1 f.2

theorem fieldBytes_append (l m : List (Nat × Int)) : fieldBytes (l ++ m) = fieldBytes l ++ fieldBytes m :=
  List.flatMap_append

theorem fieldBytes_length (l : List (Nat × Int)) : (fieldBytes l).length = (l.map (·.1)).sum := by
  simp [fieldBytes, List.length_flatMap, beBytes_length]

/-- A payload carries each of its fields, after the widths of the fields before it. -/
theorem carries_field {l : List (Nat × Int)} {widths : List Nat} (hw : l.map (·.1) = widths) (i : Nat) {o w : Nat}
    {v : Int} (h : l[i]? = some (w, v)) (ho : (widths.take i).sum = o := by decide) : Carries (fieldBytes l) o w v := by
  obtain ⟨hi, hv⟩ := List.getElem?_eq_some_iff.1 h
  have parts : fieldBytes l = fieldBytes (l.take i) ++ (beBytes w v ++ fieldBytes (l.drop (i + 1))) := by
    conv_lhs => rw [← List.take_append_drop i l, fieldBytes_append, List.drop_eq_getElem_cons hi, hv]
    rfl
  have before : (fieldBytes (l.take i)).length = o := by rw [fieldBytes_length, List.map_take, hw, ho]
  rw [← before, parts]
  refine ⟨by simp [beBytes_length], ?_⟩
  rw [List.drop_left, List.take_left' (beBytes_length w v), ofBytes_beBytes]

/-! ## The records of the Segment Table -/

theorem number_inj {l : List SegRecord} (h : (l.map (·.number)).Nodup) {q r : SegRecord} (hq : q ∈ l) (hr : r ∈ l)
    (e : q.number = r.number) : q = r :=
  List.inj_on_of_nodup_map h hq hr e

/-- The present record of a number is the record of the table that has it. -/
theorem State.findSeg_eq_some (hd : s.ds.Sound) {n : Nat} {r : SegRecord} :
    s.findSeg n = some r ↔ r ∈ s.ds.segs ∧ r.number = n := by
  refine ⟨State.findSeg_mem, fun ⟨mem, num⟩ => ?_⟩
  obtain ⟨-, numbers, -⟩ := hd
  cases hq : s.findSeg n with
  | none => exact absurd num (State.number_ne_of_absent hq r mem)
  | some q =>
    obtain ⟨mq, nq⟩ := State.findSeg_mem hq
    rw [number_inj numbers mq mem (nq.trans num.symm)]

/-- A number is found alike in two sound tables that hold the same records of it. -/
theorem State.findSeg_same (hs : s.ds.Sound) (ht : t.ds.Sound) {n : Nat}
    (h : ∀ q : SegRecord, q.number = n → (q ∈ t.ds.segs ↔ q ∈ s.ds.segs)) : t.findSeg n = s.findSeg n := by
  refine Option.ext fun r => ?_
  rw [State.findSeg_eq_some hs, State.findSeg_eq_some ht]
  exact and_congr_left fun e => h r e

/-- The records of a table after one is put in the place of that of its slot. -/
theorem State.mem_putSeg {r' q : SegRecord} {r : SegRecord} (hr : r ∈ s.ds.segs) (e : r'.slot = r.slot) :
    q ∈ (s.putSeg r').ds.segs ↔ q = r' ∨ q ∈ s.ds.segs ∧ q.slot ≠ r'.slot := by
  unfold State.putSeg
  simp only [List.mem_map]
  constructor
  · rintro ⟨x, hx, rfl⟩
    by_cases c : x.slot = r'.slot
    · simp [c]
    · simp [c, hx]
  · rintro (rfl | ⟨hq, c⟩)
    · exact ⟨r, hr, by simp [e]⟩
    · exact ⟨q, hq, by simp [c]⟩

theorem State.mem_addSeg {r q : SegRecord} : q ∈ (s.addSeg r).ds.segs ↔ q = r ∨ q ∈ s.ds.segs := by
  unfold State.addSeg
  rw [(insertSeg_perm r s.ds.segs).mem_iff, List.mem_cons]

theorem State.mem_freeSeg (hd : s.ds.Sound) {r q : SegRecord} (hr : r ∈ s.ds.segs) :
    q ∈ (s.freeSeg r).ds.segs ↔ q ∈ s.ds.segs ∧ q ≠ r := by
  obtain ⟨slots, -⟩ := hd
  unfold State.freeSeg State.evalLoad
  simp only [List.mem_filter, bne_iff_ne]
  refine and_congr_right fun hq => not_congr ⟨pairwise_slot_inj slots hq hr, ?_⟩
  rintro rfl
  rfl

/-- A record put in the place of the one of its slot and number is found by its number; the others are found as
before. -/
theorem State.findSeg_putSeg (hd : s.ds.Sound) {r r' : SegRecord} {n : Nat} (hr : s.findSeg n = some r)
    (e1 : r'.slot = r.slot) (e2 : r'.number = r.number) (e3 : r'.pages = r.pages) (e4 : r'.count = r.count)
    (e5 : r'.written ≤ r'.count) :
    (s.putSeg r').findSeg n = some r' ∧ ∀ m, m ≠ n → (s.putSeg r').findSeg m = s.findSeg m := by
  obtain ⟨mem, num⟩ := State.findSeg_mem hr
  have sound := hd.put mem e1 e2 e3 e4 e5
  refine ⟨(State.findSeg_eq_some sound).2 ⟨(State.mem_putSeg mem e1).2 (.inl rfl), e2.trans num⟩, fun m hm => ?_⟩
  refine State.findSeg_same hd sound fun q hq => ?_
  rw [State.mem_putSeg mem e1]
  refine ⟨?_, fun mq => .inr ⟨mq, fun e => ?_⟩⟩
  · rintro (rfl | ⟨mq, -⟩)
    · omega
    · exact mq
  · obtain ⟨slots, -⟩ := hd
    have : q = r := pairwise_slot_inj slots mq mem (e.trans e1)
    rw [this] at hq
    omega

/-! ## LOAD_WANT (R19) -/

theorem State.findSeg_congr (h : t.ds.segs = s.ds.segs) (n : Nat) : t.findSeg n = s.findSeg n := by
  unfold State.findSeg; rw [h]

theorem State.readyFrom_congr (h : t.ds.segs = s.ds.segs) (fuel n : Nat) : t.readyFrom fuel n = s.readyFrom fuel n := by
  induction fuel generalizing n with
  | zero => rfl
  | succ f ih => simp only [State.readyFrom, State.findSeg_congr h, ih]

theorem State.nextAbsent_congr (h : t.ds.segs = s.ds.segs) (fuel n : Nat) :
    t.nextAbsent fuel n = s.nextAbsent fuel n := by
  induction fuel generalizing n with
  | zero => rfl
  | succ f ih => unfold State.nextAbsent State.present; rw [State.findSeg_congr h, ih]

theorem State.readyAhead_congr (h : t.ds.segs = s.ds.segs) (hm : t.ds.mark = s.ds.mark) :
    t.readyAhead = s.readyAhead := by
  unfold State.readyAhead State.chainStart; rw [State.readyFrom_congr h, h, hm]

theorem State.nextWanted_congr (h : t.ds.segs = s.ds.segs) (hm : t.ds.mark = s.ds.mark) :
    t.nextWanted = s.nextWanted := by
  unfold State.nextWanted State.chainStart; rw [State.nextAbsent_congr h, h, hm]

/-- A state that has the flag R19 makes of another, with the same table, pool, mark, job and load marks. -/
theorem LoadWantFollows.of_evaluated (h1 : t.ds.segs = u.ds.segs) (h2 : t.ds.pool = u.ds.pool)
    (h3 : t.ds.mark = u.ds.mark) (h4 : t.pc = u.pc) (h5 : t.par = u.par) (h6 : t.ds.loadWant = u.loadWantNow) :
    LoadWantFollows u.ds.loadWant t := by
  have e1 := State.readyAhead_congr h1 h3
  have e2 := State.nextWanted_congr h1 h3
  unfold LoadWantFollows State.segmentCount
  rw [e1, e2, h2, h4, h5, h6]
  unfold State.loadWantNow State.segmentCount
  by_cases open_ : u.jobOpen = true
  · have state := State.jobOpen_iff.1 open_
    refine ⟨fun e => absurd e state, fun _ wants => ?_, fun _ wants drops => ?_, fun _ wants drops => ?_⟩
    · rw [if_pos open_, if_pos wants]
    · rw [if_pos open_, if_neg wants, if_pos drops]
    · rw [if_pos open_, if_neg wants, if_neg drops]
  · have state : u.pc.state = .idle := by simpa [State.jobOpen] using open_
    refine ⟨fun _ => ?_, fun h => absurd state h, fun h => absurd state h, fun h => absurd state h⟩
    rw [if_neg open_]

/-! ## The unthreaded heads (R96) -/

theorem inSet_headSetOf (p : HeadId → Bool) (h : HeadId) : inSet (headSetOf p) h = p h := by
  have key : ∀ (l : List HeadId) (acc : HeadSet),
      inSet (l.foldl (fun acc g => if p g then acc ||| single g else acc) acc) h =
        (inSet acc h || (decide (h ∈ l) && p h)) := by
    intro l
    induction l with
    | nil => simp
    | cons g l ih =>
      intro acc
      rw [List.foldl_cons, ih]
      by_cases e : h = g
      · subst e
        by_cases hp : p h = true <;> simp [hp, inSet, single]
      · have ne : g.val ≠ h.val := fun x => e (Fin.ext x.symm)
        have other : inSet (if p g = true then acc ||| single g else acc) h = inSet acc h := by
          split
          · have : ¬ (h.val ≥ g.val ∧ h.val - g.val = 0) := by omega
            simp [inSet, single]
            omega
          · rfl
        simp [other, e]
  have := key allHeads 0
  rw [headSetOf, this]
  simp [mem_allHeads, inSet]

theorem State.fitNeedle_eq_none {h : HeadId} {thread : Nat} : s.fitNeedle h thread = none ↔
    ∀ n : NeedleId, ¬ ((s.sel h).needles[n].disabled = false ∧ (s.sel h).needles[n].code = thread) := by
  simp [State.fitNeedle, allNeedles, NeedleEntry.fit]

/-- The set computed for a thread holds the heads of the job with no needle fit for it. -/
theorem State.unthreadedFor_spec (thread : Nat) : Unthreaded s thread (s.unthreadedFor thread) := by
  intro h
  rw [State.unthreadedFor, inSet_headSetOf, Bool.and_eq_true, Option.isNone_iff_eq_none, State.fitNeedle_eq_none]

end Sys2Proof.Machine
end

