-- ==== Sys2Proof/Proofs/SegOpenDiscard.lean ====
section
/-! PROOF. The requests SEG_OPEN, SEG_DISCARD, SEG_QUERY and SEG_LOCATE: what each does, and its refusals in their
order. -/

open Sys2Proof.Claims

namespace Sys2Proof.Machine

variable {s : State}

/-! ## SEG_DISCARD (R11) -/

/-- A freed record is found no more, and the others are found as before. -/
theorem State.findSeg_freeSeg (hd : s.ds.Sound) {r : SegRecord} {n : Nat} (hr : s.findSeg n = some r) :
    (s.freeSeg r).findSeg n = none ∧ ∀ m, m ≠ n → (s.freeSeg r).findSeg m = s.findSeg m := by
  obtain ⟨mem, num⟩ := State.findSeg_mem hr
  have sound := hd.free mem
  obtain ⟨-, numbers, -⟩ := id hd
  refine ⟨Option.eq_none_iff_forall_ne_some.2 fun q hq => ?_, fun m hm => State.findSeg_same hd sound fun q hq => ?_⟩
  · obtain ⟨mq, nq⟩ := State.findSeg_mem hq
    rw [State.mem_freeSeg hd mem] at mq
    exact mq.2 (number_inj numbers mq.1 mem (nq.trans num.symm))
  · rw [State.mem_freeSeg hd mem, and_iff_left]
    rintro rfl
    omega

/-- The refusals of SEG_DISCARD in their order. -/
def State.segDiscardRefusals (s : State) (n : Nat) : List (Bool × Reason) :=
  let r := s.findSeg n
  [ (!s.jobOpen, .noJob),
    (r.isNone, .notFound),
    (r.elim false fun r => r.state == .active || (r.state == .sewn && s.ds.served == some r.number), .busy),
    (r.elim false fun r => r.state == .sewn && decide (0 < r.pins), .pinned) ]

theorem exec_segDiscard (acts : Acts s) (number : BitVec 16) : exec (.segDiscard number) s =
    .next (s.unless (s.segDiscardRefusals number.toNat) fun t => ((s.findSeg number.toNat).elim t t.freeSeg).done []) := by
  show execSegDiscard number s = _
  unfold execSegDiscard
  rw [whenOperating_of_acts acts]
  rfl

/-- Settles O26: the refusals in their order, and otherwise the record is freed. -/
theorem segDiscardFrees : Obligations.SegDiscardFrees := by
  intro number s acts
  rw [exec_segDiscard acts]
  refine ⟨fun idle => ?_, fun job absent => ?_, fun r sound job hr => ?_⟩
  · rw [State.unless_refused]
    simp [State.segDiscardRefusals, State.jobOpen, idle]
  · rw [State.unless_refused]
    simp [State.segDiscardRefusals, State.jobOpen, job, absent]
  obtain ⟨mem, num⟩ := State.findSeg_mem hr
  refine ⟨fun busy => ?_, fun busy pinned => ?_, fun busy pinned => ?_⟩
  · rw [State.unless_refused]
    simp [State.segDiscardRefusals, State.jobOpen, job, hr, num, busy]
  · obtain ⟨sewn, pins⟩ := pinned
    have unserved : s.ds.served ≠ some number.toNat := fun e => busy (.inr ⟨sewn, e⟩)
    rw [State.unless_refused]
    simp [State.segDiscardRefusals, State.jobOpen, job, hr, num, sewn, pins, unserved]
  · obtain ⟨gone, others⟩ := State.findSeg_freeSeg sound hr
    refine ⟨s.freeSeg r, ?_, rfl, gone, others, fun q => State.mem_freeSeg sound mem, .refl _,
      LoadWantFollows.of_evaluated (u := { s with ds := { s.ds with
        segs := s.ds.segs.filter (·.slot != r.slot), pool := s.ds.pool ++ r.pages } }) rfl rfl rfl rfl rfl rfl⟩
    have idle : r.state ≠ .active := fun e => busy (.inl e)
    have unserved : r.state = .sewn → s.ds.served ≠ some number.toNat := fun e1 e2 => busy (.inr ⟨e1, e2⟩)
    have unpinned : r.state = .sewn → r.pins = 0 := fun e => by_contra fun c => pinned ⟨e, Nat.pos_of_ne_zero c⟩
    rw [State.unless_carriedOut, hr]
    · rfl
    · rw [firstReason_eq_none]
      simpa [State.segDiscardRefusals, State.jobOpen, job, hr, num, idle]
        using And.intro unserved unpinned

/-! ## SEG_OPEN (R6) -/

theorem exec_segOpen (acts : Acts s) (number thread count x y : BitVec 16) (flags : Byte) :
    exec (.segOpen number thread count x y flags) s =
      .next (s.unless (s.segOpenRefusals number.toNat thread.toNat count.toNat) fun t =>
        let r := t.openedSeg number.toNat thread.toNat count.toNat ⟨x.toInt, y.toInt⟩ flags
        ((t.addSeg r).evalLoad).done (beBytes 1 r.slot)) := by
  show execSegOpen number thread count x y flags s = _
  unfold execSegOpen
  rw [whenOperating_of_acts acts]

theorem pagesFor_eq (count : Nat) : pagesFor count = (count + 15) / 16 := rfl

/-- A number not present is stale at and below the mark (R5). -/
theorem State.stale_iff {n : Nat} (absent : s.findSeg n = none) :
    s.stale n = true ↔ ∃ m, s.ds.mark = some m ∧ n ≤ m := by
  cases h : s.ds.mark <;> simp [State.stale, State.present, absent, h]

/-- The first refusal of SEG_OPEN, each in the words of R6. -/
theorem State.segOpenRefusals_first (number thread count : Nat) :
    firstReason (s.segOpenRefusals number thread count) =
      if s.pc.state = .idle then some .noJob
      else if s.segmentCount ≤ number ∨ count < 1 ∨ 4096 < count ∨ thread = 65535 then some .badArgument
      else if (s.findSeg number).isSome = true then some .duplicate
      else if ∃ m, s.ds.mark = some m ∧ number ≤ m then some .stale
      else if 256 ≤ s.ds.segs.length then some .noSlot
      else if s.ds.pool.length < (count + 15) / 16 then some .noSpace
      else none := by
  unfold State.segOpenRefusals
  simp only [firstReason_cons, firstReason_nil, State.jobOpen, Bool.not_eq_true', bne_eq_false_iff_eq, Bool.or_eq_true,
    decide_eq_true_eq, or_assoc, State.present]
  by_cases absent : s.findSeg number = none
  · simp only [State.stale_iff absent]
    rfl
  · have present : (s.findSeg number).isSome = true := Option.isSome_iff_ne_none.2 absent
    simp only [present, if_true]
    rfl

/-- A number not present joins with a record; the others are found as before. -/
theorem State.findSeg_addSeg (hd : s.ds.Sound) {r : SegRecord} (sound : (s.addSeg r).ds.Sound) :
    (s.addSeg r).findSeg r.number = some r ∧ ∀ m, m ≠ r.number → (s.addSeg r).findSeg m = s.findSeg m := by
  refine ⟨(State.findSeg_eq_some sound).2 ⟨State.mem_addSeg.2 (.inl rfl), rfl⟩, fun m hm => ?_⟩
  refine State.findSeg_same hd sound fun q hq => ?_
  rw [State.mem_addSeg, or_iff_right]
  rintro rfl
  exact hm hq.symm

/-- Settles O23: the lowest free slot takes the segment, or the first refusal that applies is answered. -/
theorem segOpenReservesOrRefuses : Obligations.SegOpenReservesOrRefuses := by
  constructor
  · intro number thread count x y flags s acts sound job inJob some_ most threaded absent ahead slots space
    rw [exec_segOpen acts, State.unless_carriedOut]
    case h =>
      have fresh : ¬ ∃ m, s.ds.mark = some m ∧ number.toNat ≤ m := fun ⟨m, hm, le⟩ => by
        have := ahead m hm
        omega
      have proper : ¬ (s.segmentCount ≤ number.toNat ∨ count.toNat < 1 ∨ 4096 < count.toNat ∨ thread.toNat = 65535) := by
        omega
      rw [State.segOpenRefusals_first, if_neg job, if_neg proper, if_neg (by simp [absent]), if_neg fresh,
        if_neg (by omega), if_neg (by omega)]
    dsimp only
    generalize hr : s.openedSeg number.toNat thread.toNat count.toNat ⟨x.toInt, y.toInt⟩ flags = r
    have opened : (s.addSeg r).ds.Sound := hr ▸ State.openedSeg_sound sound absent space
    have number_eq : number.toNat = r.number := by rw [← hr]; rfl
    have pages_eq : r.pages = s.ds.pool.take (pagesFor count.toNat) := by rw [← hr]; rfl
    have length_eq : r.pages.length = pagesFor count.toNat := by
      rw [pages_eq, List.length_take, pagesFor_eq]
      omega
    obtain ⟨found, others⟩ := State.findSeg_addSeg sound opened
    have slot_eq : r.slot = lowestFreeSlot (s.ds.segs.map (·.slot)) 0 := by rw [← hr]; rfl
    obtain ⟨slots_rise, -⟩ := sound
    obtain ⟨slot_free, -, below⟩ := lowestFreeSlot_spec slots_rise (a := 0) fun _ _ => Nat.zero_le _
    rw [← slot_eq] at slot_free below
    refine ⟨_, r, _, rfl, rfl, by simp [beBytes_length], ?_, number_eq ▸ found, number_eq ▸ others,
      fun q => State.mem_addSeg, fun q hq e => slot_free (List.mem_map.2 ⟨q, hq, e⟩), fun k hk => ?_, ?_, length_eq, ?_,
      LoadWantFollows.of_evaluated (u := s.addSeg r) rfl rfl rfl rfl rfl rfl⟩
    · exact carries_field (l := [(1, (r.slot : Int))]) (widths := [1]) rfl 0 rfl
    · simpa using below k (Nat.zero_le k) hk
    · rw [← hr]; rfl
    · show (r.pages ++ s.ds.pool.drop r.pages.length).Perm s.ds.pool
      rw [length_eq, pages_eq, List.take_append_drop]
  · intro number thread count x y flags s acts
    have first := s.segOpenRefusals_first number.toNat thread.toNat count.toNat
    rw [exec_segOpen acts]
    refine ⟨fun idle => ?_, fun job bad => ?_, fun job good dup => ?_, fun job good new stale => ?_,
      fun job good new fresh slots => ?_, fun job good new fresh slots space => ?_⟩
    · rw [if_pos idle] at first
      rw [State.unless_refused first]
    · rw [if_neg job, if_pos bad] at first
      rw [State.unless_refused first]
    · rw [if_neg job, if_neg good, if_pos dup] at first
      rw [State.unless_refused first]
    · rw [if_neg job, if_neg good, if_neg new, if_pos stale] at first
      rw [State.unless_refused first]
    · rw [if_neg job, if_neg good, if_neg new, if_neg fresh, if_pos slots] at first
      rw [State.unless_refused first]
    · rw [if_neg job, if_neg good, if_neg new, if_neg fresh, if_neg (by omega), if_pos space] at first
      rw [State.unless_refused first]

end Sys2Proof.Machine
end

