-- ==== Sys2Proof/Proofs/SegQueryLocate.lean ====
section
/-! PROOF. The requests SEG_QUERY and SEG_LOCATE: the bytes of the segment report, and the position before a stitch. -/

open Sys2Proof.Claims

namespace Sys2Proof.Machine

variable {s : State}

/-! ## SEG_QUERY and SEG_LOCATE (R12, R184) -/

theorem exec_segQuery (acts : Acts s) (number : BitVec 16) : exec (.segQuery number) s =
    .next (s.unless [(!s.jobOpen, .noJob), ((s.findSeg number.toNat).isNone, .notFound)]
      fun t => t.done ((s.findSeg number.toNat).elim [] (·.report))) := by
  show execSegQuery number s = _
  unfold execSegQuery
  rw [whenOperating_of_acts acts]

/-- The refusals of SEG_LOCATE in their order. -/
def State.segLocateRefusals (s : State) (n k : Nat) : List (Bool × Reason) :=
  let r := s.findSeg n
  [(!s.jobOpen, .noJob), (r.isNone, .notFound), (r.elim false fun r => decide (r.written < k), .badArgument)]

theorem exec_segLocate (acts : Acts s) (number k : BitVec 16) : exec (.segLocate number k) s =
    .next (s.unless (s.segLocateRefusals number.toNat k.toNat) fun t =>
      t.done (beBytes 4 (t.placeOf number.toNat k.toNat).x ++ beBytes 4 (t.placeOf number.toNat k.toNat).y)) := by
  show execSegLocate number k s = _
  unfold execSegLocate
  rw [whenOperating_of_acts acts]
  rfl

/-- The fields of the segment report, each with its width (R184). -/
def SegRecord.reportFields (r : SegRecord) : List (Nat × Int) :=
  [(1, r.slot), (2, r.number), (1, r.state.code), (2, r.thread), (2, r.count), (2, r.written), (2, r.start.x),
   (2, r.start.y), (4, r.runEnd.x), (4, r.runEnd.y), (4, r.box.minX), (4, r.box.maxX), (4, r.box.minY), (4, r.box.maxY),
   (2, r.pages.length), (1, r.finishFlags), (1, r.close.code), (2, r.unthreaded.toNat), (1, r.pins)]

theorem SegRecord.report_eq (r : SegRecord) : r.report = fieldBytes r.reportFields := by
  simp [SegRecord.report, SegRecord.reportFields, fieldBytes]

/-- The widths of the fields of the segment report. -/
def segmentReportWidths : List Nat := [1, 2, 1, 2, 2, 2, 2, 2, 4, 4, 4, 4, 4, 4, 2, 1, 1, 2, 1]

theorem SegRecord.report_length (r : SegRecord) : r.report.length = 45 := by
  rw [r.report_eq, fieldBytes_length]
  exact (show segmentReportWidths.sum = 45 from rfl)

/-- The segment report carries each of its fields. -/
theorem SegRecord.carries_report (r : SegRecord) (i : Nat) {o w : Nat} {v : Int}
    (h : r.reportFields[i]? = some (w, v)) (ho : (segmentReportWidths.take i).sum = o := by decide) :
    Carries r.report o w v :=
  r.report_eq ▸ carries_field (widths := segmentReportWidths) rfl i h ho

theorem SegRecord.finishFlags_eq (r : SegRecord) :
    (r.finishFlags : Int) = (if r.tieIn then 1 else 0) + (if r.tieOff then 2 else 0) := by
  unfold SegRecord.finishFlags boolCode
  cases r.tieIn <;> cases r.tieOff <;> rfl

/-- The position before stitch k is the start and the deltas of the stitches before it (R12). -/
theorem State.positionBefore_eq (r : SegRecord) (k : Nat) : s.positionBefore r k =
    ⟨r.start.x + ((List.range k).map fun i => (s.storedStitch r i).dx).sum,
      r.start.y + ((List.range k).map fun i => (s.storedStitch r i).dy).sum⟩ := by
  induction k with
  | zero => simp [State.positionBefore]
  | succ k ih => simp [State.positionBefore, ih, List.range_succ, Int.add_assoc]

/-- Settles O13: the report field by field, the position as a sum, and the refusals. -/
theorem segQueryAndLocate : Obligations.SegQueryAndLocate := by
  intro number k s acts
  dsimp only
  rw [exec_segQuery acts, exec_segLocate acts]
  refine ⟨fun idle => ⟨?_, ?_⟩, fun job absent => ⟨?_, ?_⟩, fun r job hr => ⟨?_, fun far => ?_, fun near => ?_⟩⟩
  · rw [State.unless_refused]
    simp [State.jobOpen, idle]
  · rw [State.unless_refused]
    simp [State.segLocateRefusals, State.jobOpen, idle]
  · rw [State.unless_refused]
    simp [State.jobOpen, job, absent]
  · rw [State.unless_refused]
    simp [State.segLocateRefusals, State.jobOpen, job, absent]
  · obtain ⟨-, num⟩ := State.findSeg_mem hr
    rw [State.unless_carriedOut (by simp [State.jobOpen, job, hr]), hr, ← num, ← r.finishFlags_eq]
    refine ⟨r.report, rfl, r.report_length, ?_⟩
    exact ⟨r.carries_report 0 rfl, r.carries_report 1 rfl, r.carries_report 2 rfl, r.carries_report 3 rfl,
      r.carries_report 4 rfl, r.carries_report 5 rfl, r.carries_report 6 rfl, r.carries_report 7 rfl,
      r.carries_report 8 rfl, r.carries_report 9 rfl, r.carries_report 10 rfl, r.carries_report 11 rfl,
      r.carries_report 12 rfl, r.carries_report 13 rfl, r.carries_report 14 rfl, r.carries_report 15 rfl,
      r.carries_report 16 rfl, r.carries_report 17 rfl, r.carries_report 18 rfl⟩
  · rw [State.unless_refused]
    simp [State.segLocateRefusals, State.jobOpen, job, hr, far]
  · have place : s.placeOf number.toNat k.toNat = s.positionBefore r k.toNat := by simp [State.placeOf, hr]
    rw [State.unless_carriedOut (by simp [State.segLocateRefusals, State.jobOpen, job, hr, near]), place,
      State.positionBefore_eq]
    have bytes : ∀ x y : Int, beBytes 4 x ++ beBytes 4 y = fieldBytes [(4, x), (4, y)] := by simp [fieldBytes]
    rw [bytes]
    exact ⟨_, rfl, fieldBytes_length _, carries_field (widths := [4, 4]) rfl 0 rfl, carries_field (widths := [4, 4]) rfl 1 rfl⟩

end Sys2Proof.Machine
end

