-- ==== Sys2Proof/Proofs/SegClose.lean ====
section
/-! PROOF. SEG_CLOSE: the segment made READY, the end of a STARVED wait, and the refusals with the reasons kept. -/

open Sys2Proof.Claims

namespace Sys2Proof.Machine

variable {s t : State}

/-! ## SEG_CLOSE (R9, R10, R72) -/

/-- A part that acts takes a SEG_CLOSE as a refusal noted in the record, or as a segment made READY. -/
theorem exec_segClose_refused (acts : Acts s) {number : BitVec 16} {x y : BitVec 32} {why : Reason}
    (h : firstReason (s.segCloseRefusals number.toNat ⟨x.toInt, y.toInt⟩) = some why) :
    exec (.segClose number x y) s = .next (refused why (s.noteClose number.toNat why)) := by
  show execSegClose number x y s = _
  unfold execSegClose
  rw [whenOperating_of_acts acts]
  simp only [h]
  rfl

theorem exec_segClose_ready (acts : Acts s) {number : BitVec 16} {x y : BitVec 32} {r : SegRecord}
    (h : firstReason (s.segCloseRefusals number.toNat ⟨x.toInt, y.toInt⟩) = none)
    (hr : s.findSeg number.toNat = some r) :
    exec (.segClose number x y) s = .next ((s.becomeReady r).done []).starvedRepeat.drive := by
  show execSegClose number x y s = _
  unfold execSegClose
  rw [whenOperating_of_acts acts]
  simp only [h, hr]

/-- The box of a record lies in the frame field, corner by corner (R9). -/
theorem State.boxInField_iff (b : Box) : s.boxInField b = true ↔
    s.par.fieldXLow ≤ b.minX ∧ b.minX ≤ s.par.fieldXHigh ∧ s.par.fieldXLow ≤ b.maxX ∧ b.maxX ≤ s.par.fieldXHigh ∧
    s.par.fieldYLow ≤ b.minY ∧ b.minY ≤ s.par.fieldYHigh ∧ s.par.fieldYLow ≤ b.maxY ∧ b.maxY ≤ s.par.fieldYHigh := by
  simp only [State.boxInField, State.inField, Bool.and_eq_true, decide_eq_true_eq]
  tauto

/-- The first refusal of SEG_CLOSE of a present segment, each in the words of R9 and R10. -/
theorem State.segCloseRefusals_first {number : Nat} {r : SegRecord} (job : s.pc.state ≠ .idle)
    (hr : s.findSeg number = some r) (expected : Pos) : firstReason (s.segCloseRefusals number expected) =
      if r.state ≠ .loading then some .busy
      else if r.close ≠ .none then some r.close.reason
      else if r.written < r.count then some .incomplete
      else if r.runEnd ≠ expected then some .geometry
      else if s.boxInField r.box = false then some .outOfField
      else none := by
  simp [State.segCloseRefusals, State.jobOpen, job, hr]

/-- What the segment made READY leaves: the set of its unthreaded heads, THREAD_MISSING raised where it is not empty,
and LOAD_WANT evaluated (R9, R96, R97, R19). -/
theorem State.becomeReady_shape (s : State) (r : SegRecord) : s.becomeReady r = { s with
    rl := { s.rl with sticky := s.rl.sticky ||| if s.unthreadedFor r.thread = 0 then 0 else 0x0008 }
    ds := { s.ds with segs := (s.becomeReady r).ds.segs, loadWant := (s.becomeReady r).ds.loadWant } } := by
  unfold State.becomeReady
  dsimp only
  by_cases h : s.unthreadedFor r.thread = 0
  · simp [h, State.evalLoad, State.putSeg]
  · simp only [h, if_false]
    rfl

theorem State.becomeReady_segs (s : State) (r : SegRecord) : (s.becomeReady r).ds.segs =
    (s.putSeg { r with state := .ready, unthreaded := s.unthreadedFor r.thread }).ds.segs := by
  unfold State.becomeReady
  dsimp only
  split <;> rfl

theorem State.becomeReady_loadWant (s : State) (r : SegRecord) :
    LoadWantFollows s.ds.loadWant ((s.becomeReady r).done []) := by
  unfold State.becomeReady
  dsimp only
  split
  · exact LoadWantFollows.of_evaluated (u := s.putSeg _) rfl rfl rfl rfl rfl rfl
  · exact LoadWantFollows.of_evaluated (u := (s.putSeg _).raise .threadMissing) rfl rfl rfl rfl rfl rfl

/-- A STARVED wait whose segment is READY repeats the take or ends, by the checks of the reference and the tables
(R72). -/
theorem State.starvedRepeat_eq (s : State) : s.starvedRepeat =
    if s.pc.state = .halted ∧ s.pc.cause = .starved ∧ ∃ q, s.findSeg s.awaited = some q ∧ q.state = .ready then
      if s.mp.referenced = true ∧ s.tablesValid = true then
        { s with pc := { s.pc with state := .change, cause := .none, phase := .take } }
      else { s with pc := { s.pc with cause := .stopRequest }, rl := { s.rl with sticky := s.rl.sticky ||| 0x0002 } }
    else s := by
  have ready : (s.findSeg s.awaited).elim false (·.state == .ready) = true ↔
      ∃ q, s.findSeg s.awaited = some q ∧ q.state = .ready := by
    cases s.findSeg s.awaited <;> simp
  unfold State.starvedRepeat
  simp only [ready, Bool.and_eq_true]
  split
  · rename_i starved
    obtain ⟨-, cause, -⟩ := starved
    unfold State.changeCause
    simp only [cause, reduceCtorEq, if_false]
    rfl
  · rfl

/-- The number the next take names is above the mark, or 0 (R64). -/
theorem State.awaited_eq (s : State) : s.awaited = match s.ds.mark with | some m => m + 1 | none => 0 := by
  unfold State.awaited State.chainStart
  cases s.ds.mark <;> rfl

/-- The record that keeps the reason of a refused close. -/
theorem State.noteClose_kept (hd : s.ds.Sound) {n : Nat} {r : SegRecord} (hr : s.findSeg n = some r) {why : Reason}
    (h : why = .geometry ∨ why = .outOfField) :
    s.noteClose n why = { s with ds := { s.ds with segs := (s.noteClose n why).ds.segs } } ∧
    (s.noteClose n why).findSeg n = some { r with close := if why = .geometry then .geometry else .outOfField } ∧
    ∀ m, m ≠ n → (s.noteClose n why).findSeg m = s.findSeg m := by
  have noted : s.noteClose n why =
      s.putSeg { r with close := if why = .geometry then .geometry else .outOfField } := by
    unfold State.noteClose
    rcases h with rfl | rfl <;> simp only [hr, if_true, reduceCtorEq, if_false]
  obtain ⟨-, -, -, sized⟩ := id hd
  rw [noted]
  exact ⟨rfl, State.findSeg_putSeg hd hr rfl rfl rfl rfl (sized r (State.findSeg_mem hr).1).2⟩

/-- A refusal for another reason leaves the record. -/
theorem State.noteClose_left {n : Nat} {why : Reason} (h1 : why ≠ .geometry) (h2 : why ≠ .outOfField) :
    s.noteClose n why = s := by
  unfold State.noteClose
  split
  · exact absurd rfl h1
  · exact absurd rfl h2
  · rfl

/-- A close refused for the reason kept in its record leaves the record as it is. -/
theorem State.noteClose_again (hd : s.ds.Sound) {n : Nat} {r : SegRecord} (hr : s.findSeg n = some r)
    (h : r.close ≠ .none) : s.noteClose n r.close.reason = s := by
  obtain ⟨slots, -⟩ := hd
  obtain ⟨mem, -⟩ := State.findSeg_mem hr
  have same : s.putSeg r = s := by
    unfold State.putSeg
    rw [show (s.ds.segs.map fun q => if q.slot = r.slot then r else q) = s.ds.segs from ?_]
    conv_rhs => rw [← List.map_id s.ds.segs]
    refine List.map_congr_left fun q hq => ?_
    split
    · exact (pairwise_slot_inj slots hq mem ‹_›).symm
    · rfl
  unfold State.noteClose
  cases hc : r.close with
  | none => exact absurd hc h
  | geometry => simp only [hr, CloseResult.reason]; rw [← hc]; exact same
  | outOfField => simp only [hr, CloseResult.reason]; rw [← hc]; exact same

/-- The answer DONE of a segment made READY, in the blocks it leaves alone. -/
theorem State.becomeReady_done (s : State) (r : SegRecord) :
    let t := (s.becomeReady r).done []
    t = { s with rl := { s.rl with slot := .ready ⟨.done, .none, []⟩, sticky := t.rl.sticky }
                 ds := { s.ds with segs := t.ds.segs, loadWant := t.ds.loadWant } } ∧
    t.rl.sticky = s.rl.sticky ||| if s.unthreadedFor r.thread = 0 then 0 else 0x0008 := by
  have shape := s.becomeReady_shape r
  generalize s.becomeReady r = u at shape ⊢
  rw [shape]
  exact ⟨rfl, rfl⟩

/-- A SEG_CLOSE that no reason refuses: the segment is READY, and a STARVED wait that it ends goes on (R72). -/
theorem segClose_accepted {number : BitVec 16} {x y : BitVec 32} {r : SegRecord} (acts : Acts s) (sound : s.ds.Sound)
    (job : s.pc.state ≠ .idle) (hr : s.findSeg number.toNat = some r) (loading : r.state = .loading)
    (open_ : r.close = .none) (written : r.written = r.count) (ends : r.runEnd = ⟨x.toInt, y.toInt⟩)
    (box : s.boxInField r.box = true) : ∃ t set,
    let starved := s.pc.state = .halted ∧ s.pc.cause = .starved ∧
      ∃ q, t.findSeg (match s.ds.mark with | some m => m + 1 | none => 0) = some q ∧ q.state = .ready
    let checked := s.mp.referenced = true ∧ s.tablesValid = true
    (¬ starved → Waits s → exec (.segClose number x y) s = .next t) ∧
    (starved → checked → exec (.segClose number x y) s =
      .next ({ t with pc := { s.pc with state := .change, cause := .none, phase := .take } }).drive) ∧
    (starved → ¬ checked → Waits s → exec (.segClose number x y) s = .next { t with
      pc := { s.pc with cause := .stopRequest }, rl := { t.rl with sticky := t.rl.sticky ||| 0x0002 } }) ∧
    t = { s with rl := { s.rl with slot := .ready ⟨.done, .none, []⟩, sticky := t.rl.sticky }
                 ds := { s.ds with segs := t.ds.segs, loadWant := t.ds.loadWant } } ∧
    Unthreaded s r.thread set ∧
    t.findSeg number.toNat = some { r with state := .ready, unthreaded := set } ∧
    (∀ m, m ≠ number.toNat → t.findSeg m = s.findSeg m) ∧
    t.rl.sticky = s.rl.sticky ||| (if set = 0 then 0 else 0x0008) ∧
    LoadWantFollows s.ds.loadWant t := by
  have first : firstReason (s.segCloseRefusals number.toNat ⟨x.toInt, y.toInt⟩) = none := by
    simp [State.segCloseRefusals_first job hr, loading, open_, written, ends, box]
  have run := exec_segClose_ready acts first hr
  have segs : ((s.becomeReady r).done []).ds.segs = _ := s.becomeReady_segs r
  obtain ⟨-, -, -, sized⟩ := id sound
  obtain ⟨found, others⟩ := State.findSeg_putSeg (r' := { r with state := .ready, unthreaded := s.unthreadedFor r.thread })
    sound hr rfl rfl rfl rfl (sized r (State.findSeg_mem hr).1).2
  obtain ⟨shape, sticky⟩ := s.becomeReady_done r
  have load := s.becomeReady_loadWant r
  generalize (s.becomeReady r).done [] = t at run segs shape sticky load
  have pc : t.pc = s.pc := by rw [shape]
  have mp : t.mp = s.mp := by rw [shape]
  have ts : t.ts = s.ts := by rw [shape]
  have checks : (t.mp.referenced = true ∧ t.tablesValid = true) ↔ (s.mp.referenced = true ∧ s.tablesValid = true) := by
    rw [shape]
    rfl
  have awaited : t.awaited = match s.ds.mark with | some m => m + 1 | none => 0 := by rw [t.awaited_eq, shape]
  rw [t.starvedRepeat_eq, pc, awaited] at run
  refine ⟨t, s.unthreadedFor r.thread, fun calm waits => ?_, fun starved checked => ?_, fun starved failed waits => ?_,
    shape, State.unthreadedFor_spec _, (State.findSeg_congr segs _).trans found,
    fun m hm => (State.findSeg_congr segs m).trans (others m hm), sticky, load⟩
  · rw [run, if_neg calm, State.drive_waits]
    exact State.waits_same waits (by rw [pc]) (by rw [pc]) mp ts
  · rw [run, if_pos starved, if_pos (checks.2 checked)]
  · rw [run, if_pos starved, if_neg (mt checks.1 failed), State.drive_waits]
    exact State.waits_same waits rfl rfl mp ts

/-- Settles O25: the segment made READY, and the refusals with the reasons a record keeps. -/
theorem segCloseMakesReadyOrRefuses : Obligations.SegCloseMakesReadyOrRefuses := by
  constructor
  · intro number x y s r acts sound job hr loading open_ written ends left right low high wide tall
    refine segClose_accepted acts sound job hr loading open_ written ends ((State.boxInField_iff _).2 ?_)
    exact ⟨left, by omega, by omega, right, low, by omega, by omega, high⟩
  · intro number x y s acts sound
    have left : ∀ why, why ≠ .geometry → why ≠ .outOfField →
        firstReason (s.segCloseRefusals number.toNat ⟨x.toInt, y.toInt⟩) = some why →
        exec (.segClose number x y) s = .next (refused why s) := fun why h1 h2 first => by
      rw [exec_segClose_refused acts first, State.noteClose_left h1 h2]
    refine ⟨fun idle => left _ nofun nofun ?_, fun job absent => left _ nofun nofun ?_, fun r job hr => ?_⟩
    · simp [State.segCloseRefusals, State.jobOpen, idle]
    · simp [State.segCloseRefusals, State.jobOpen, job, absent]
    have first := State.segCloseRefusals_first job hr ⟨x.toInt, y.toInt⟩
    have kept : ∀ why, why = .geometry ∨ why = .outOfField →
        firstReason (s.segCloseRefusals number.toNat ⟨x.toInt, y.toInt⟩) = some why →
        ∃ t, exec (.segClose number x y) s = .next t ∧ t.rl.slot = .ready ⟨.refused, why, []⟩ ∧
          t = { s with rl := { s.rl with slot := t.rl.slot }, ds := { s.ds with segs := t.ds.segs } } ∧
          t.findSeg number.toNat = some { r with close := if why = .geometry then .geometry else .outOfField } ∧
          ∀ m, m ≠ number.toNat → t.findSeg m = s.findSeg m := fun why h first => by
      obtain ⟨shape, found, others⟩ := State.noteClose_kept sound hr h
      refine ⟨_, exec_segClose_refused acts first, rfl, ?_, found, others⟩
      rw [shape]
      rfl
    have again : r.state = .loading → r.close ≠ .none →
        exec (.segClose number x y) s = .next (refused r.close.reason s) := fun loading closed => by
      rw [if_neg (by simp [loading]), if_pos closed] at first
      rw [exec_segClose_refused acts first, State.noteClose_again sound hr closed]
    refine ⟨fun busy => left _ nofun nofun ?_, fun loading closed => ?_, fun loading closed => ?_,
      fun loading open_ short => left _ nofun nofun ?_, fun loading open_ full off => kept _ (.inl rfl) ?_,
      fun loading open_ full ends out => kept _ (.inr rfl) ?_⟩
    · simp [first, busy]
    · simpa only [closed, CloseResult.reason] using again loading (by simp [closed])
    · simpa only [closed, CloseResult.reason] using again loading (by simp [closed])
    · simp [first, loading, open_, short]
    · simp [first, loading, open_, Nat.not_lt.2 full, off]
    · have outside : s.boxInField r.box = false := by
        rw [← Bool.not_eq_true, State.boxInField_iff]
        exact out
      simp [first, loading, open_, Nat.not_lt.2 full, ends, outside]

end Sys2Proof.Machine
end

