-- ==== Sys2Proof/Proofs/SegWrite.lean ====
section
/-! PROOF. SEG_WRITE: the stitches sent and stored, the entries of the Stitch Memory they go to, the running end and the
box, and the refusals. -/

open Sys2Proof.Claims

namespace Sys2Proof.Machine

variable {s : State}

/-! ## The stitches as sent (R7, R183) -/

theorem toInt_eq_min_iff (b : Byte) : b.toInt = -128 ↔ b = 0x80 :=
  ⟨fun h => BitVec.eq_of_toInt_eq (h.trans (by decide)), fun h => by rw [h]; decide⟩

/-- The kind that a byte 0..3 names (R183). -/
def kindSent (b : Byte) : StitchKind :=
  if b = 0 then .normal else if b = 1 then .jump else if b = 2 then .trim else .pause

theorem stitchKindOf_eq (b : Byte) : stitchKindOf b = if 3 < b.toNat then none else some (kindSent b) := by
  have named : ∀ n : Nat, n < 256 → (b = BitVec.ofNat 8 n ↔ b.toNat = n) := fun n hn => by
    rw [← BitVec.toNat_inj, BitVec.toNat_ofNat, Nat.mod_eq_of_lt (by omega)]
  have e0 := named 0 (by omega)
  have e1 := named 1 (by omega)
  have e2 := named 2 (by omega)
  unfold stitchKindOf kindSent
  generalize b.toNat = n at e0 e1 e2
  split <;> simp_all
  omega

/-- TRIM and PAUSE are the kinds 2 and 3. -/
theorem kindSent_stops (b : Byte) : kindSent b = .trim ∨ kindSent b = .pause ↔ 2 ≤ b.toNat := by
  have goes_on : b = 0 ∨ b = 1 ↔ ¬ 2 ≤ b.toNat := by
    constructor
    · rintro (rfl | rfl) <;> decide
    · intro h
      bv_omega
  rw [← not_iff_not, ← goes_on]
  unfold kindSent
  split_ifs with h0 h1 h2
  · simp [h0]
  · simp [h1]
  · simpa using And.intro h0 h1
  · simpa using And.intro h0 h1

/-- A triple that is not bad sends the stitch of its bytes. -/
theorem stitchOf_good {t : RawStitch} (h : ¬ BadStitch t) : stitchOf t = some (sentStitch t) := by
  unfold BadStitch at h
  simp only [not_or] at h
  obtain ⟨hx, hy, hk, still⟩ := h
  rw [← toInt_eq_min_iff] at hx hy
  rw [← kindSent_stops] at still
  simp only [stitchOf, stitchKindOf_eq, if_neg hk, hx, hy, or_self, if_false, if_neg still]
  rfl

/-- A bad triple sends none. -/
theorem stitchOf_bad {t : RawStitch} (h : BadStitch t) : stitchOf t = none := by
  unfold BadStitch at h
  rw [← toInt_eq_min_iff, ← toInt_eq_min_iff, ← kindSent_stops] at h
  simp only [stitchOf, stitchKindOf_eq]
  by_cases hk : 3 < t.kind.toNat
  · simp only [if_pos hk]
  · simp only [if_neg hk]
    by_cases range : t.dx.toInt = -128 ∨ t.dy.toInt = -128
    · rw [if_pos range]
    · rw [if_neg range, if_pos (by tauto)]

theorem filterMap_stitchOf {l : List RawStitch} (h : ∀ t ∈ l, ¬ BadStitch t) :
    l.filterMap stitchOf = l.map sentStitch := by
  rw [← List.filterMap_eq_map]
  exact List.filterMap_congr fun t ht => stitchOf_good (h t ht)

theorem any_stitchOf_isNone {l : List RawStitch} :
    (l.any fun t => (stitchOf t).isNone) = true ↔ ∃ t ∈ l, BadStitch t := by
  rw [List.any_eq_true]
  refine exists_congr fun t => and_congr_right fun _ => ⟨fun h => by_contra fun good => ?_, fun bad => ?_⟩
  · rw [stitchOf_good good] at h
    cases h
  · rw [stitchOf_bad bad]
    rfl

/-! ## The entries of a segment (R2, R3) -/

/-- The pages of a record of a sound table differ. -/
theorem Store.Sound.pages_nodup {d : Store} (hd : d.Sound) {r : SegRecord} (hr : r ∈ d.segs) : r.pages.Nodup := by
  obtain ⟨-, -, pages, -⟩ := hd
  have all := pages.nodup_iff.2 List.nodup_range
  exact (List.nodup_flatMap.1 (List.nodup_append.1 all).2.1).1 r hr

/-- Stitches of different indices within the pages of a record are kept in different entries (R2). -/
theorem SegRecord.entry_inj {r : SegRecord} (h : r.pages.Nodup) {i j : Nat} (hi : i < 16 * r.pages.length)
    (hj : j < 16 * r.pages.length) (e : r.entry i = r.entry j) : i = j := by
  have li : i / 16 < r.pages.length := by omega
  have lj : j / 16 < r.pages.length := by omega
  unfold SegRecord.entry Config.pageSize at e
  rw [List.getD_eq_getElem _ _ li, List.getD_eq_getElem _ _ lj] at e
  have page : r.pages[i / 16] = r.pages[j / 16] := by omega
  have place : i / 16 = j / 16 := (h.getElem_inj_iff).1 page
  omega

/-! ## What a write stores (R8) -/

/-- An entry that no stitch of a write goes to is kept. -/
theorem writeStitches_other (l : List Stitch) {m : Memory} {r : SegRecord} (hm : Memory.wf m = true) {a : Nat}
    (h : ∀ i, i < l.length → a ≠ r.entry (r.written + i)) : memRead (writeStitches l (m, r)).1 a = memRead m a := by
  induction l generalizing m r with
  | nil => rfl
  | cons st l ih =>
    unfold writeStitches
    rw [ih (memWrite_wf m _ st hm), memRead_memWrite m _ _ _ hm, if_neg (show a ≠ r.entry r.written from h 0 (by simp))]
    intro i hi
    have := h (i + 1) (by simpa using hi)
    rwa [Nat.add_comm i 1, ← Nat.add_assoc] at this

/-- Each stitch of a write is stored in its entry. -/
theorem writeStitches_stored (l : List Stitch) {m : Memory} {r : SegRecord} (hm : Memory.wf m = true)
    (apart : ∀ i j, i < j → j < l.length → r.entry (r.written + i) ≠ r.entry (r.written + j)) {i : Nat} {st : Stitch}
    (h : l[i]? = some st) : memRead (writeStitches l (m, r)).1 (r.entry (r.written + i)) = st := by
  induction l generalizing m r i with
  | nil => simp at h
  | cons st' l ih =>
    have shift : ∀ j, r.written + (j + 1) = (r.writeStitch st').written + j := fun j => by
      rw [SegRecord.writeStitch_written]
      omega
    have hw := memWrite_wf m (r.entry r.written) st' hm
    unfold writeStitches
    cases i with
    | zero =>
      obtain rfl : st' = st := by simpa using h
      rw [Nat.add_zero, writeStitches_other l hw, memRead_memWrite m _ _ _ hm, if_pos rfl]
      intro j hj
      have := apart 0 (j + 1) (by omega) (by simpa using hj)
      rwa [shift] at this
    | succ i =>
      rw [shift]
      refine ih (r := r.writeStitch st') hw (fun j k hjk hk => ?_) (by simpa using h)
      have := apart (j + 1) (k + 1) (by omega) (by simpa using hk)
      rwa [shift, shift] at this

/-- The running ends that a list of stitches passes, from a position on. -/
def runEnds (p : Pos) : List Stitch → List Pos
  | [] => []
  | st :: l => ⟨p.x + st.dx, p.y + st.dy⟩ :: runEnds ⟨p.x + st.dx, p.y + st.dy⟩ l

theorem runEnds_eq (p : Pos) (l : List Stitch) : runEnds p l = (List.range l.length).map fun k =>
    ⟨p.x + ((l.take (k + 1)).map (·.dx)).sum, p.y + ((l.take (k + 1)).map (·.dy)).sum⟩ := by
  induction l generalizing p with
  | nil => rfl
  | cons st l ih => simp [runEnds, ih, List.range_succ_eq_map, Int.add_assoc]

/-- The running end moves over the deltas of a write. -/
theorem writeStitches_runEnd (l : List Stitch) (m : Memory) (r : SegRecord) : (writeStitches l (m, r)).2.runEnd =
    ⟨r.runEnd.x + (l.map (·.dx)).sum, r.runEnd.y + (l.map (·.dy)).sum⟩ := by
  induction l generalizing m r with
  | nil => simp [writeStitches]
  | cons st l ih => simp [writeStitches, ih, SegRecord.writeStitch, Int.add_assoc]

/-- The box takes in every running end of a write. -/
theorem writeStitches_box (l : List Stitch) (m : Memory) (r : SegRecord) :
    (writeStitches l (m, r)).2.box = (runEnds r.runEnd l).foldl Box.widen r.box := by
  induction l generalizing m r with
  | nil => rfl
  | cons st l ih =>
    unfold writeStitches
    rw [ih]
    rfl

theorem Box.widen_sides (ps : List Pos) (b : Box) : ps.foldl Box.widen b =
    ⟨(ps.map (·.x)).foldl min b.minX, (ps.map (·.x)).foldl max b.maxX,
      (ps.map (·.y)).foldl min b.minY, (ps.map (·.y)).foldl max b.maxY⟩ := by
  induction ps generalizing b with
  | nil => rfl
  | cons p ps ih => rw [List.foldl_cons, ih]; rfl

theorem leastOf_foldl_min (xs : List Int) (a : Int) : LeastOf (xs.foldl min a) a xs := by
  induction xs generalizing a with
  | nil => exact ⟨Int.le_refl a, by simp, .inl rfl⟩
  | cons x xs ih =>
    obtain ⟨h1, h2, h3⟩ := ih (min a x)
    rw [List.foldl_cons]
    refine ⟨by omega, ?_, ?_⟩
    · rw [List.forall_mem_cons]
      exact ⟨by omega, h2⟩
    · rcases h3 with h3 | h3
      · rw [h3, List.mem_cons]
        omega
      · exact .inr (List.mem_cons_of_mem _ h3)

theorem greatestOf_foldl_max (xs : List Int) (a : Int) : GreatestOf (xs.foldl max a) a xs := by
  induction xs generalizing a with
  | nil => exact ⟨Int.le_refl a, by simp, .inl rfl⟩
  | cons x xs ih =>
    obtain ⟨h1, h2, h3⟩ := ih (max a x)
    rw [List.foldl_cons]
    refine ⟨by omega, ?_, ?_⟩
    · rw [List.forall_mem_cons]
      exact ⟨by omega, h2⟩
    · rcases h3 with h3 | h3
      · rw [h3, List.mem_cons]
        omega
      · exact .inr (List.mem_cons_of_mem _ h3)

/-! ## SEG_WRITE (R7, R8) -/

/-- What an accepted SEG_WRITE stores, in the Stitch Memory and in the record. -/
def State.writeSegment (s : State) (r : SegRecord) (l : List Stitch) : State :=
  ({ s with ds := { s.ds with memory := (writeStitches l (s.ds.memory, r)).1 } }).putSeg
    (writeStitches l (s.ds.memory, r)).2

theorem exec_segWrite (acts : Acts s) {number offset : BitVec 16} {sent : List RawStitch} (some_ : 1 ≤ sent.length)
    (most : sent.length ≤ 64) : exec (.segWrite number offset sent) s =
      .next (s.unless (s.segWriteRefusals number.toNat offset.toNat sent) fun t =>
        match t.findSeg number.toNat with
        | some r => (t.writeSegment r (sent.filterMap stitchOf)).done []
        | none => t) := by
  have formed : (Instr.segWrite number offset sent).wellFormed = true := by simp [Instr.wellFormed, some_, most]
  show execSegWrite number offset sent s = _
  unfold execSegWrite
  rw [whenOperating_of_acts acts, if_pos formed]
  rfl

/-- The first refusal of SEG_WRITE to a present segment, each in the words of R7. -/
theorem State.segWriteRefusals_first {number : Nat} {r : SegRecord} (job : s.pc.state ≠ .idle)
    (hr : s.findSeg number = some r) (offset : Nat) (sent : List RawStitch) :
    firstReason (s.segWriteRefusals number offset sent) =
      if r.state ≠ .loading then some .busy
      else if r.written ≠ offset then some .badOffset
      else if r.count < offset + sent.length then some .badArgument
      else if (sent.any fun t => (stitchOf t).isNone) = true then some .badStitch
      else none := by
  simp [State.segWriteRefusals, State.jobOpen, job, hr]

/-- A write to a segment that has room for it, in the words of R2 and R8. -/
theorem State.writeSegment_spec (sound : s.ds.Sound) (wf : Memory.wf s.ds.memory = true) {n : Nat} {r : SegRecord}
    (hr : s.findSeg n = some r) {l : List Stitch} (room : r.written + l.length ≤ r.count) :
    let ends := fun k => (r.runEnd.x + ((l.take k).map (·.dx)).sum, r.runEnd.y + ((l.take k).map (·.dy)).sum)
    let passed := (List.range l.length).map fun k => ends (k + 1)
    let t := s.writeSegment r l
    ∃ r', t.findSeg n = some r' ∧ (∀ m, m ≠ n → t.findSeg m = s.findSeg m) ∧
      r' = { r with written := r.written + l.length
                    runEnd := ⟨(ends l.length).1, (ends l.length).2⟩, box := r'.box } ∧
      LeastOf r'.box.minX r.box.minX (passed.map (·.1)) ∧ GreatestOf r'.box.maxX r.box.maxX (passed.map (·.1)) ∧
      LeastOf r'.box.minY r.box.minY (passed.map (·.2)) ∧ GreatestOf r'.box.maxY r.box.maxY (passed.map (·.2)) ∧
      (∀ (i : Nat) (st : Stitch), l[i]? = some st → memRead t.ds.memory (entryOf r (r.written + i)) = st) ∧
      ∀ a, (∀ i, i < l.length → a ≠ entryOf r (r.written + i)) →
        memRead t.ds.memory a = memRead s.ds.memory a := by
  dsimp only
  obtain ⟨mem, -⟩ := State.findSeg_mem hr
  obtain ⟨-, -, -, sized⟩ := id sound
  have apart : ∀ i j, i < j → j < l.length → r.entry (r.written + i) ≠ r.entry (r.written + j) :=
    fun i j hij hj same => by
      have pages := (sized r mem).1
      rw [pagesFor_eq] at pages
      have := r.entry_inj (sound.pages_nodup mem) (by omega) (by omega) same
      omega
  have stored := fun i st => writeStitches_stored (i := i) (st := st) l wf apart
  have others := fun a => writeStitches_other (a := a) l (r := r) wf
  have record := writeStitches_record l s.ds.memory r
  rw [writeStitches_runEnd, writeStitches_box, Box.widen_sides] at record
  have passedX : (runEnds r.runEnd l).map (·.x) = (List.range l.length).map fun k =>
      r.runEnd.x + ((l.take (k + 1)).map (·.dx)).sum := by simp [runEnds_eq]
  have passedY : (runEnds r.runEnd l).map (·.y) = (List.range l.length).map fun k =>
      r.runEnd.y + ((l.take (k + 1)).map (·.dy)).sum := by simp [runEnds_eq]
  rw [passedX, passedY] at record
  have written : Store.Sound { s.ds with memory := (writeStitches l (s.ds.memory, r)).1 } := sound.same rfl rfl
  unfold State.writeSegment
  generalize writeStitches l (s.ds.memory, r) = mr at record stored others written ⊢
  obtain ⟨m, r'⟩ := mr
  change r' = _ at record
  obtain ⟨found, rest⟩ := State.findSeg_putSeg (s := { s with ds := { s.ds with memory := m } }) (r' := r') written hr
    (by rw [record]) (by rw [record]) (by rw [record]) (by rw [record]) (by rw [record]; exact room)
  refine ⟨r', found, rest, by rw [List.take_length, record], ?_, ?_, ?_, ?_, stored, others⟩
  all_goals rw [record, List.map_map]
  · exact leastOf_foldl_min _ _
  · exact greatestOf_foldl_max _ _
  · exact leastOf_foldl_min _ _
  · exact greatestOf_foldl_max _ _

/-- Settles O24: a list with no bad stitch is written whole, and the refusals come in their order. -/
theorem segWriteStoresOrRefuses : Obligations.SegWriteStoresOrRefuses := by
  constructor
  · intro number offset sent s r acts sound wf job hr loading off some_ most room good
    have first : firstReason (s.segWriteRefusals number.toNat offset.toNat sent) = none := by
      have proper : ¬ (sent.any fun t => (stitchOf t).isNone) = true := fun bad => by
        obtain ⟨t, ht, hbad⟩ := any_stitchOf_isNone.1 bad
        exact good t ht hbad
      rw [State.segWriteRefusals_first job hr, if_neg (by simp [loading]), if_neg (by simp [off]), if_neg (by omega),
        if_neg proper]
    have length : (sent.map sentStitch).length = sent.length := List.length_map _
    obtain ⟨r', spec⟩ := State.writeSegment_spec sound wf hr (l := sent.map sentStitch) (by rw [length]; exact room)
    refine ⟨s.writeSegment r (sent.map sentStitch), r', ?_, rfl, spec⟩
    rw [exec_segWrite acts some_ most, State.unless_carriedOut first, ← filterMap_stitchOf good]
    simp only [hr]
    rfl
  · intro number offset sent s acts some_ most
    dsimp only
    rw [exec_segWrite acts some_ most]
    refine ⟨fun idle => ?_, fun job absent => ?_, fun r job hr => ?_⟩
    · rw [State.unless_refused]
      simp [State.segWriteRefusals, State.jobOpen, idle]
    · rw [State.unless_refused]
      simp [State.segWriteRefusals, State.jobOpen, job, absent]
    have first := State.segWriteRefusals_first job hr offset.toNat sent
    refine ⟨fun busy => ?_, fun loading off => ?_, fun loading off past => ?_, fun loading off room bad => ?_⟩
    · rw [if_pos busy] at first
      rw [State.unless_refused first]
    · rw [if_neg (by simp [loading]), if_pos (Ne.symm off)] at first
      rw [State.unless_refused first]
    · rw [if_neg (by simp [loading]), if_neg (by simp [off]), if_pos (by omega)] at first
      rw [State.unless_refused first]
    · rw [if_neg (by simp [loading]), if_neg (by simp [off]), if_neg (by omega),
        if_pos (any_stitchOf_isNone.2 bad)] at first
      rw [State.unless_refused first]

end Sys2Proof.Machine
end

