-- ==== Sys2Proof/Proofs/Partition.lean ====
section
/-! PROOF. The partition formula of R28: the sums of the parts and their bound; then the travel plan, which is made of
such parts (R33). -/

namespace Sys2Proof.Machine

/-! ## The partition formula (R28) -/

theorem partitionOffset_zero (d : Int) (n : Nat) : partitionOffset d n 0 = 0 := by simp [partitionOffset]

/-- All n parts together are the whole. -/
theorem partitionOffset_self (d : Int) {n : Nat} (h : 1 ≤ n) : partitionOffset d n n = d := by
  rw [partitionOffset, Nat.mul_div_cancel _ h, Int.sign_mul_natAbs]

/-- The first k parts together reach the k-th offset. -/
theorem sum_partitionPart (d : Int) (n k : Nat) :
    ((List.range k).map fun i => partitionPart d n (i + 1)).sum = partitionOffset d n k := by
  induction k with
  | zero => exact (partitionOffset_zero d n).symm
  | succ k ih =>
    rw [List.range_succ, List.map_append, List.sum_append, ih]
    simp [partitionPart]

/-- A part goes no further than j where the whole goes no further than n times j. -/
theorem natAbs_partitionPart_le (d : Int) {n j : Nat} (hn : 1 ≤ n) (h : d.natAbs ≤ n * j) (i : Nat) :
    (partitionPart d n (i + 1)).natAbs ≤ j := by
  have below : d.natAbs * (i + 1) / n ≤ d.natAbs * i / n + j := calc
    d.natAbs * (i + 1) / n ≤ (d.natAbs * i + n * j) / n := Nat.div_le_div_right (by rw [Nat.mul_succ]; omega)
    _ = d.natAbs * i / n + j := Nat.add_mul_div_left _ _ hn
  have above : d.natAbs * i / n ≤ d.natAbs * (i + 1) / n :=
    Nat.div_le_div_right (Nat.mul_le_mul_left _ (Nat.le_succ i))
  have sign : d.sign.natAbs ≤ 1 := by rw [Int.natAbs_sign]; split <;> decide
  calc (partitionPart d n (i + 1)).natAbs
    _ = d.sign.natAbs * (((d.natAbs * (i + 1) / n : Nat) : Int) - ((d.natAbs * i / n : Nat) : Int)).natAbs := by
      rw [← Int.natAbs_mul, Int.mul_sub]; rfl
    _ ≤ 1 * (((d.natAbs * (i + 1) / n : Nat) : Int) - ((d.natAbs * i / n : Nat) : Int)).natAbs :=
      Nat.mul_le_mul_right _ sign
    _ ≤ j := by omega

/-! ## The travel plan (R33) -/

theorem le_ceilDiv_mul (a : Nat) {j : Nat} (h : 1 ≤ j) : a ≤ ceilDiv a j * j := by
  have := Nat.lt_div_mul_add (a := a + j - 1) (b := j) h
  unfold ceilDiv; omega

theorem ceilDiv_pred_mul_lt {a j : Nat} (h : 1 ≤ j) (big : 1 < ceilDiv a j) : (ceilDiv a j - 1) * j < a := by
  have := Nat.div_mul_le_self (a + j - 1) j
  have : j ≤ ceilDiv a j * j := Nat.le_mul_of_pos_left _ (by omega)
  rw [Nat.sub_mul]
  unfold ceilDiv at *
  omega

/-- The number of steps of a travel plan (R33). -/
def stepCount (d : Pos) (j : Nat) : Nat := max (max (ceilDiv d.x.natAbs j) (ceilDiv d.y.natAbs j)) 1

theorem travelSteps_eq (d : Pos) (j : Nat) : travelSteps d j = (List.range (stepCount d j)).map fun i =>
    ⟨partitionPart d.x (stepCount d j) (i + 1), partitionPart d.y (stepCount d j) (i + 1)⟩ := rfl

theorem travelSteps_length (d : Pos) (j : Nat) : (travelSteps d j).length = stepCount d j := by simp [travelSteps_eq]

/-- Both axes of a plan's steps reach their displacement in steps of at most J units. -/
theorem le_stepCount_mul (d : Pos) {j : Nat} (h : 1 ≤ j) :
    d.x.natAbs ≤ stepCount d j * j ∧ d.y.natAbs ≤ stepCount d j * j :=
  ⟨(le_ceilDiv_mul _ h).trans (Nat.mul_le_mul_right _ (by simp [stepCount])),
    (le_ceilDiv_mul _ h).trans (Nat.mul_le_mul_right _ (by simp [stepCount]))⟩

/-- One step fewer would not reach the larger displacement. -/
theorem stepCount_pred_mul_lt (d : Pos) {j : Nat} (h : 1 ≤ j) (big : 1 < stepCount d j) :
    (stepCount d j - 1) * j < max d.x.natAbs d.y.natAbs := by
  rcases le_total (ceilDiv d.x.natAbs j) (ceilDiv d.y.natAbs j) with le | le
  · have e : stepCount d j = ceilDiv d.y.natAbs j := by unfold stepCount at *; omega
    rw [e] at big ⊢
    exact lt_max_of_lt_right (ceilDiv_pred_mul_lt h big)
  · have e : stepCount d j = ceilDiv d.x.natAbs j := by unfold stepCount at *; omega
    rw [e] at big ⊢
    exact lt_max_of_lt_left (ceilDiv_pred_mul_lt h big)

/-- After k steps each axis has gone the k-th offset of its displacement. -/
theorem sum_take_travelSteps (d : Pos) (j : Nat) {k : Nat} (h : k ≤ stepCount d j) :
    (((travelSteps d j).take k).map (·.x)).sum = partitionOffset d.x (stepCount d j) k ∧
    (((travelSteps d j).take k).map (·.y)).sum = partitionOffset d.y (stepCount d j) k := by
  rw [travelSteps_eq, ← List.map_take, List.take_range, Nat.min_eq_left h, List.map_map, List.map_map]
  exact ⟨sum_partitionPart d.x _ k, sum_partitionPart d.y _ k⟩

/-- Settles O54, from the sums and the bound of the partition formula at the plan's number of steps. -/
theorem travelStepsAddUp : Obligations.TravelStepsAddUp := by
  intro d j hj
  have one : 1 ≤ stepCount d j := le_max_right _ _
  obtain ⟨reachX, reachY⟩ := le_stepCount_mul d hj
  obtain ⟨allX, allY⟩ := sum_take_travelSteps d j le_rfl
  simp only [travelSteps_length]
  refine ⟨allX.trans (partitionOffset_self d.x one), allY.trans (partitionOffset_self d.y one), one, fun p hp => ?_,
    stepCount_pred_mul_lt d hj, fun k hk => sum_take_travelSteps d j hk⟩
  rw [travelSteps_eq] at hp
  obtain ⟨i, -, rfl⟩ := List.mem_map.1 hp
  exact ⟨natAbs_partitionPart_le d.x one reachX i, natAbs_partitionPart_le d.y one reachY i⟩

end Sys2Proof.Machine
end

