-- ==== Sys2Proof/Proofs/StitchSplit.lean ====
section
/-! PROOF. The overlong split (R28, R40) and the ties (R29 to R31): how many parts a stitch is cut into, which stitch
gives a tie its direction, and the tie vector. -/

namespace Sys2Proof.Machine

variable {s : State}

/-! ## The geometric cap (R37, R40) -/

/-- The cap by the entries of the Move-Time Tables, for the deltas they list. -/
theorem State.geometricCap_listed (s : State) {dx dy : Int} (hx : dx.natAbs ≤ 127) (hy : dy.natAbs ≤ 127) :
    s.geometricCap dx dy = if max (s.mp.tableX.getD dx.natAbs 0) (s.mp.tableY.getD dy.natAbs 0) = 0 then s.par.sMax
      else s.par.windowDeg * 500000 /
        (3 * max (s.mp.tableX.getD dx.natAbs 0) (s.mp.tableY.getD dy.natAbs 0)) := by
  have x : s.timeX dx = s.mp.tableX.getD dx.natAbs 0 := if_pos (by omega)
  have y : s.timeY dy = s.mp.tableY.getD dy.natAbs 0 := if_pos (by omega)
  rw [State.geometricCap, x, y]
  simp only [Nat.pos_iff_ne_zero, ite_not]

theorem getD_le_of_nonDecreasing {l : List Nat} (h : nonDecreasing l = true) {i j : Nat} (le : i ≤ j)
    (room : j < l.length) : l.getD i 0 ≤ l.getD j 0 := by
  induction le with
  | refl => exact le_rfl
  | @step j _ ih =>
    have rises := (nonDecreasing_iff l).1 h j _ _ (List.getElem?_eq_getElem (Nat.lt_of_succ_lt room))
      (List.getElem?_eq_getElem room)
    rw [List.getD_eq_getElem _ _ (Nat.lt_of_succ_lt room)] at ih
    rw [List.getD_eq_getElem _ _ room]
    exact (ih (Nat.lt_of_succ_lt room)).trans rises

/-- With valid tables every delta of at most 16 units on each axis may be sewn at S_MIN or more (R39). -/
theorem State.sMin_le_geometricCap (par : s.par.Sound) (mp : s.mp.Sound) (valid : s.tablesValid = true) {dx dy : Int}
    (hx : dx.natAbs ≤ 16) (hy : dy.natAbs ≤ 16) : s.par.sMin ≤ s.geometricCap dx dy := by
  obtain ⟨-, -, lengthX, lengthY⟩ := mp
  obtain ⟨-, -, -, -, -, ⟨order, -⟩, -⟩ := par
  simp only [State.tablesValid, Bool.and_eq_true, decide_eq_true_eq] at valid
  obtain ⟨⟨risesX, risesY⟩, cap⟩ := valid
  have x : s.mp.tableX.getD dx.natAbs 0 ≤ s.mp.tableX.getD 16 0 := getD_le_of_nonDecreasing risesX hx (by omega)
  have y : s.mp.tableY.getD dy.natAbs 0 ≤ s.mp.tableY.getD 16 0 := getD_le_of_nonDecreasing risesY hy (by omega)
  rw [State.geometricCap_listed s (by decide) (by decide)] at cap
  rw [State.geometricCap_listed s (by omega) (by omega)]
  split
  · exact order
  · rename_i moves
    rw [if_neg (by simp only [Int.reduceAbs]; omega)] at cap
    exact cap.trans (Nat.div_le_div_left (Nat.mul_le_mul_left 3 (max_le_max x y)) (by omega))

/-! ## The number of parts (R28) -/

theorem State.partsFit_iff (x : Issued) (n : Nat) : s.partsFit x n = true ↔ ∀ k, 1 ≤ k → k ≤ n →
    s.par.sMin ≤ s.geometricCap (partitionPart x.dx n k) (partitionPart x.dy n k) := by
  simp only [State.partsFit, Issued.parts, List.all_map, List.all_eq_true, List.mem_range, Function.comp,
    decide_eq_true_eq]
  constructor
  · intro h k one most
    obtain ⟨i, rfl⟩ := Nat.exists_eq_add_of_le' one
    exact h i most
  · exact fun h i hi => h (i + 1) (Nat.le_add_left 1 i) hi

/-- The count is the first of n, …, n + fuel that fits, the last of them where none does. -/
theorem State.splitCount_spec (s : State) (x : Issued) (fuel n : Nat) :
    n ≤ s.splitCount x fuel n ∧ s.splitCount x fuel n ≤ n + fuel ∧
    (∀ m, n ≤ m → m < s.splitCount x fuel n → ¬ s.partsFit x m = true) ∧
    (s.splitCount x fuel n < n + fuel → s.partsFit x (s.splitCount x fuel n) = true) := by
  induction fuel generalizing n with
  | zero => simp only [State.splitCount]; exact ⟨le_rfl, le_rfl, by omega, by omega⟩
  | succ fuel ih =>
    rw [State.splitCount]
    split
    case isTrue fit => exact ⟨le_rfl, by omega, by omega, fun _ => fit⟩
    case isFalse misfit =>
      obtain ⟨least, most, before, fits⟩ := ih (n + 1)
      refine ⟨by omega, by omega, fun m hm lt => ?_, fun lt => fits (by omega)⟩
      rcases hm.eq_or_lt with rfl | hm
      · exact misfit
      · exact before m hm lt

theorem State.split_whole {x : Issued} (h : s.par.sMin ≤ s.geometricCap x.dx x.dy) : s.split x = [x] := if_pos h

theorem State.split_parts {x : Issued} (h : ¬ s.par.sMin ≤ s.geometricCap x.dx x.dy) :
    s.split x = x.parts (s.splitCount x 6 2) := if_neg h

theorem State.split_ne_nil (s : State) (x : Issued) : s.split x ≠ [] := by
  by_cases h : s.par.sMin ≤ s.geometricCap x.dx x.dy
  · rw [State.split_whole h]; exact List.cons_ne_nil _ _
  · obtain ⟨two, -⟩ := s.splitCount_spec x 6 2
    rw [State.split_parts h, Issued.parts, ne_eq, List.map_eq_nil_iff, List.range_eq_nil]
    omega

theorem Issued.length_parts (x : Issued) (n : Nat) : (x.parts n).length = n := by simp [Issued.parts]

theorem Issued.getElem?_parts (x : Issued) {n k : Nat} (h : k < n) : (x.parts n)[k]? = some (x.partOf n (k + 1)) := by
  simp [Issued.parts, h]

/-- The parts of a stitch go as far as the stitch. -/
theorem Issued.sum_parts (x : Issued) {n : Nat} (h : 1 ≤ n) :
    ((x.parts n).map (·.dx)).sum = x.dx ∧ ((x.parts n).map (·.dy)).sum = x.dy := by
  rw [Issued.parts, List.map_map, List.map_map]
  exact ⟨(sum_partitionPart x.dx n n).trans (partitionOffset_self _ h),
    (sum_partitionPart x.dy n n).trans (partitionOffset_self _ h)⟩

/-- Eight parts of a stitch the tables list fit wherever the tables are valid (R39). -/
theorem State.partsFit_eight (par : s.par.Sound) (mp : s.mp.Sound) (valid : s.tablesValid = true) {x : Issued}
    (hx : x.dx.natAbs ≤ 127) (hy : x.dy.natAbs ≤ 127) : s.partsFit x 8 = true := by
  refine (State.partsFit_iff x 8).2 fun k one _ => ?_
  obtain ⟨i, rfl⟩ := Nat.exists_eq_add_of_le' one
  exact State.sMin_le_geometricCap par mp valid (natAbs_partitionPart_le _ (by decide) (by omega) i)
    (natAbs_partitionPart_le _ (by decide) (by omega) i)

/-! ## The direction and the vector of a tie (R29, R30) -/

/-- A stored stitch that ends the search for the direction of a tie-in: a TRIM, and in the main pass a PAUSE (R25). -/
def Stitch.stops (st : Stitch) (kind : PassKind) : Prop := st.kind = .trim ∨ st.kind = .pause ∧ kind = .main

theorem Stitch.directs_iff (st : Stitch) : st.directs = true ↔ st.kind = .normal ∧ ¬ (st.dx = 0 ∧ st.dy = 0) := by
  simp only [Stitch.directs, chebyshev, Bool.and_eq_true, beq_iff_eq, bne_iff_ne]
  exact and_congr_right fun _ => by omega

theorem Stitch.chebyshev_pos {st : Stitch} (h : st.directs = true) : 0 < chebyshev st.dx st.dy := by
  simp only [Stitch.directs, Bool.and_eq_true, bne_iff_ne] at h
  omega

section
variable {r : SegRecord} {kind : PassKind} {n i : Nat}

theorem State.firstDirection_stops (h : (s.storedStitch r i).stops kind) :
    s.firstDirection r kind (n + 1) i = none := by
  rw [State.firstDirection]
  rcases h with trim | ⟨pause, main⟩
  · simp [trim]
  · simp [pause, main]

theorem State.firstDirection_directs (h : (s.storedStitch r i).directs = true) :
    s.firstDirection r kind (n + 1) i = some (s.storedStitch r i) := by
  rw [State.firstDirection]
  simp [((Stitch.directs_iff _).1 h).1, h]

theorem State.firstDirection_passes (h : ¬ (s.storedStitch r i).stops kind) (h' : ¬ (s.storedStitch r i).directs = true) :
    s.firstDirection r kind (n + 1) i = s.firstDirection r kind n (i + 1) := by
  rw [State.firstDirection]
  cases e : (s.storedStitch r i).kind
  case trim => exact absurd (.inl e) h
  case pause =>
    have main : kind ≠ .main := fun main => h (.inr ⟨e, main⟩)
    simp [main]
  case jump => simp [h']
  case normal => simp [h']

/-- No direction where every directing stitch stands after a stop. -/
theorem State.firstDirection_none (h : ∀ j, i ≤ j → j < i + n → (s.storedStitch r j).directs = true →
    ∃ k, i ≤ k ∧ k < j ∧ (s.storedStitch r k).stops kind) : s.firstDirection r kind n i = none := by
  induction n generalizing i with
  | zero => rfl
  | succ n ih =>
    by_cases stop : (s.storedStitch r i).stops kind
    · exact State.firstDirection_stops stop
    have still : ¬ (s.storedStitch r i).directs = true := fun d => by
      obtain ⟨k, low, high, -⟩ := h i le_rfl (by omega) d
      omega
    rw [State.firstDirection_passes stop still]
    refine ih fun j low high d => ?_
    obtain ⟨k, low', high', hk⟩ := h j (by omega) (by omega) d
    have : k ≠ i := fun e => stop (e ▸ hk)
    exact ⟨k, by omega, high', hk⟩

/-- The first directing stitch, where no stop stands before it. -/
theorem State.firstDirection_some {j : Nat} (low : i ≤ j) (high : j < i + n) (d : (s.storedStitch r j).directs = true)
    (h : ∀ k, i ≤ k → k < j → ¬ (s.storedStitch r k).directs = true ∧ ¬ (s.storedStitch r k).stops kind) :
    s.firstDirection r kind n i = some (s.storedStitch r j) := by
  induction n generalizing i with
  | zero => omega
  | succ n ih =>
    rcases low.eq_or_lt with rfl | lt
    · exact State.firstDirection_directs d
    · obtain ⟨still, free⟩ := h i le_rfl lt
      rw [State.firstDirection_passes free still]
      exact ih lt (by omega) fun k hk => h k (by omega)

theorem State.lastDirection_none {from_ : Nat}
    (h : ∀ j, from_ ≤ j → j < from_ + n → ¬ (s.storedStitch r j).directs = true) :
    s.lastDirection r from_ n = none := by
  induction n with
  | zero => rfl
  | succ n ih =>
    rw [State.lastDirection, if_neg (h (from_ + n) (by omega) (by omega))]
    exact ih fun j low high => h j low (by omega)

theorem State.lastDirection_some {from_ j : Nat} (low : from_ ≤ j) (high : j < from_ + n)
    (d : (s.storedStitch r j).directs = true)
    (h : ∀ k, j < k → k < from_ + n → ¬ (s.storedStitch r k).directs = true) :
    s.lastDirection r from_ n = some (s.storedStitch r j) := by
  induction n with
  | zero => omega
  | succ n ih =>
    rcases Nat.lt_or_ge j (from_ + n) with lt | ge
    · rw [State.lastDirection, if_neg (h (from_ + n) lt (by omega))]
      exact ih lt fun k hk lt' => h k hk (by omega)
    · have e : j = from_ + n := by omega
      subst e
      rw [State.lastDirection, if_pos d]

end

/-- A quotient rounded to the nearest lies within half a divisor, on the dividend's side (section 1.7). -/
theorem roundDiv_near (v : Int) {m : Nat} (h : 0 < m) :
    2 * ((roundDiv v m).natAbs * m) ≤ 2 * v.natAbs + m ∧ 2 * v.natAbs < 2 * ((roundDiv v m).natAbs * m) + m ∧
    (roundDiv v m ≠ 0 → (roundDiv v m).sign = v.sign) := by
  rcases eq_or_ne v 0 with rfl | moves
  · simp [roundDiv, h]
  have abs : (roundDiv v m).natAbs = (2 * v.natAbs + m) / (2 * m) := by
    rw [roundDiv, Int.natAbs_mul, Int.natAbs_sign, if_neg moves, one_mul, Int.natAbs_natCast]
  have most := Nat.div_mul_le_self (2 * v.natAbs + m) (2 * m)
  have least := Nat.lt_div_mul_add (a := 2 * v.natAbs + m) (b := 2 * m) (by omega)
  rw [← abs, mul_left_comm] at most least
  refine ⟨most, by omega, fun nonzero => ?_⟩
  rw [roundDiv] at nonzero ⊢
  have : (2 * v.natAbs + m) / (2 * m) ≠ 0 := fun e => nonzero (by rw [e]; simp)
  have positive : (((2 * v.natAbs + m) / (2 * m) : Nat) : Int).sign = 1 := Int.sign_natCast_of_ne_zero this
  rw [Int.sign_mul, Int.sign_sign, positive, mul_one]

theorem State.inField_iff (p : Pos) : s.inField p = true ↔ s.par.fieldXLow ≤ p.x ∧ p.x ≤ s.par.fieldXHigh ∧
    s.par.fieldYLow ≤ p.y ∧ p.y ≤ s.par.fieldYHigh := by
  simp [State.inField, and_assoc]

/-! ## The ties (R29 to R31) -/

section
variable {r : SegRecord} {c : IssueContext} {l b : Nat}

theorem State.tieIn_off (h : r.tieIn = false ∨ s.par.tieLength = 0) : s.tieIn r c l = [] := by
  refine if_neg fun on => ?_
  simp only [Bool.and_eq_true, decide_eq_true_eq] at on
  rcases h with h | h
  · simp [h] at on
  · omega

theorem State.tieIn_undirected (h : s.firstDirection r c.kind (c.last + 1 - l) l = none) : s.tieIn r c l = [] := by
  rw [State.tieIn, h]
  exact ite_self _

theorem State.tieIn_directed {st : Stitch} (asked : r.tieIn = true) (long : 0 < s.par.tieLength)
    (h : s.firstDirection r c.kind (c.last + 1 - l) l = some st) : s.tieIn r c l =
      if s.inField ⟨(s.positionBefore r l).x + (s.tieVector st).1, (s.positionBefore r l).y + (s.tieVector st).2⟩ then
        s.split (tieStitch .tieIn (s.tieVector st).1 (s.tieVector st).2 (some l)) ++
          s.split (tieStitch .tieIn (-(s.tieVector st).1) (-(s.tieVector st).2) (some l))
      else [] := by
  rw [State.tieIn, h, if_pos (by simp [asked, long])]

theorem State.tieOff_off (h : r.tieOff = false ∨ s.par.tieLength = 0) : s.tieOff r c b = [] := by
  refine if_neg fun on => ?_
  simp only [Bool.and_eq_true, decide_eq_true_eq] at on
  rcases h with h | h
  · simp [h] at on
  · omega

theorem State.tieOff_undirected (h : s.lastDirection r c.stretch (b - c.stretch) = none) : s.tieOff r c b = [] := by
  rw [State.tieOff, h]
  exact ite_self _

theorem State.tieOff_directed {st : Stitch} (asked : r.tieOff = true) (long : 0 < s.par.tieLength)
    (h : s.lastDirection r c.stretch (b - c.stretch) = some st) : s.tieOff r c b =
      if s.inField ⟨(s.positionBefore r b).x - (s.tieVector st).1, (s.positionBefore r b).y - (s.tieVector st).2⟩ then
        s.split (tieStitch .tieOff (-(s.tieVector st).1) (-(s.tieVector st).2) c.lastIndex) ++
          s.split (tieStitch .tieOff (s.tieVector st).1 (s.tieVector st).2 c.lastIndex)
      else [] := by
  rw [State.tieOff, h, if_pos (by simp [asked, long])]

end

/-- Settles O56, from the count of the split, the search for a tie's direction and the rounding of its vector. -/
theorem splitsAndTiesAreMade : Obligations.SplitsAndTiesAreMade := by
  intro s cap offset fits near along directs inField tie
  have listed : ∀ {dx dy : Int}, dx.natAbs ≤ 127 → dy.natAbs ≤ 127 → s.geometricCap dx dy = cap dx dy :=
    fun hx hy => s.geometricCap_listed hx hy
  constructor
  · intro x hx hy
    have fits_iff : ∀ {m}, 1 ≤ m → (s.partsFit x m = true ↔ fits x m) := fun {m} hm => by
      have within : ∀ {d : Int} (i : Nat), d.natAbs ≤ 127 → (partitionPart d m (i + 1)).natAbs ≤ 127 := fun i h =>
        natAbs_partitionPart_le _ hm (h.trans (Nat.le_mul_of_pos_left 127 hm)) i
      rw [State.partsFit_iff]
      refine forall_congr' fun k => forall_congr' fun one => forall_congr' fun _ => ?_
      obtain ⟨i, rfl⟩ := Nat.exists_eq_add_of_le' one
      rw [listed (within i hx) (within i hy)]
      exact Iff.rfl
    refine ⟨fun whole => State.split_whole (listed hx hy ▸ whole), fun overlong => ?_⟩
    obtain ⟨two, most, before, after⟩ := s.splitCount_spec x 6 2
    have cut := State.split_parts (s := s) (x := x) (by rw [listed hx hy]; omega)
    generalize s.splitCount x 6 2 = n at two most before after cut
    have one : 1 ≤ n := by omega
    have fit : n < 8 → fits x n := fun lt => (fits_iff one).1 (after lt)
    rw [cut]
    refine ⟨n, two, most, x.length_parts n, fun k hk => x.getElem?_parts hk, (x.sum_parts one).1, (x.sum_parts one).2,
      fun m hm lt => mt (fits_iff (by omega)).2 (before m hm lt), fit, fun par mp valid => ?_⟩
    rcases most.eq_or_lt with rfl | lt
    · exact (fits_iff one).1 (State.partsFit_eight par mp valid hx hy)
    · exact fit lt
  · intro r c st stop place
    have directs_iff : ∀ j, (s.storedStitch r j).directs = true ↔ directs (st j) := fun j => Stitch.directs_iff _
    have alongVector : ∀ j, directs (st j) → along (st j) (s.tieVector (st j)) := fun j d =>
      have pos := Stitch.chebyshev_pos ((directs_iff j).2 d)
      ⟨roundDiv_near _ pos, roundDiv_near _ pos⟩
    have inside : ∀ p, s.inField p = true ↔ inField p := fun p => State.inField_iff p
    refine ⟨fun l off => State.tieIn_off off, fun l h => ?_, fun l j asked long low high d h => ?_,
      fun b off => State.tieOff_off off, fun b h => ?_, fun b j asked long low high d h => ?_⟩
    · exact State.tieIn_undirected (State.firstDirection_none fun j low high d =>
        h j low (by omega) ((directs_iff j).1 d))
    · have made := State.tieIn_directed (c := c) asked long (State.firstDirection_some low (by omega)
        ((directs_iff j).2 d) fun k low' high' => ⟨mt (directs_iff k).1 (h k low' high').1, (h k low' high').2⟩)
      exact ⟨_, alongVector j d, fun yes => made.trans (if_pos ((inside _).2 yes)),
        fun no => made.trans (if_neg (mt (inside _).1 no))⟩
    · exact State.tieOff_undirected (State.lastDirection_none fun j low high =>
        mt (directs_iff j).1 (h j low (by omega)))
    · have made := State.tieOff_directed (c := c) (b := b) asked long (State.lastDirection_some low (by omega)
        ((directs_iff j).2 d) fun k low' high' => mt (directs_iff k).1 (h k low' (by omega)))
      exact ⟨_, alongVector j d, fun yes => made.trans (if_pos ((inside _).2 yes)),
        fun no => made.trans (if_neg (mt (inside _).1 no))⟩

end Sys2Proof.Machine
end

