-- ==== Sys2Proof/Proofs/EditorStream.lean ====
section
/-! PROOF. What the editor answers to a request (R24 to R27, R32), branch by branch; that the fuel of a request is
enough, so that a branch which goes on is the request made again; and the continue request (R25). -/

namespace Sys2Proof.Machine

variable {s : State} {r : SegRecord} {c c' : IssueContext} {a : Answer} {fuel : Nat}

/-! ## One branch of the issue each (R24, R25) -/

theorem State.issueFrom_waiting {x : Issued} {rest : List Issued} (h : c.waiting = x :: rest) :
    s.issueFrom r (fuel + 1) c = (.stitch x, { c with waiting := rest }) := by
  rw [State.issueFrom, h]

theorem State.issueFrom_held (w : c.waiting = []) (h : c.held.isSome = true) :
    s.issueFrom r (fuel + 1) c = (.nothing, c) := by
  rw [State.issueFrom, w]
  exact if_pos h

section
variable (w : c.waiting = []) (h : c.held = none)
include w h

theorem State.issueFrom_past (past : c.last < c.readIndex) : s.issueFrom r (fuel + 1) c =
    if c.tieOffDue then s.issueFrom r fuel { c with tieOffDue := false, waiting := s.tieOff r c (c.last + 1) }
    else (.marker .endOfPass, { c with held := some .endOfPass }) := by
  rw [State.issueFrom, w, h]
  exact if_pos past

variable (within : c.readIndex ≤ c.last)
include within

theorem State.issueFrom_trim (k : (s.storedStitch r c.readIndex).kind = .trim) : s.issueFrom r (fuel + 1) c =
    if c.kind = .main ∧ c.tieOffDue then
      s.issueFrom r fuel { c with tieOffDue := false, waiting := s.tieOff r c c.readIndex }
    else (.marker (.trim c.readIndex), { c with held := some (.trim c.readIndex), readIndex := c.readIndex + 1 }) := by
  rw [State.issueFrom, w, h]
  simp only [Option.isSome_none, Bool.false_eq_true, if_false, if_neg (Nat.not_lt.2 within), k]

theorem State.issueFrom_pause (k : (s.storedStitch r c.readIndex).kind = .pause) : s.issueFrom r (fuel + 1) c =
    if c.kind = .main then
      (.marker (.pause c.readIndex), { c with held := some (.pause c.readIndex), readIndex := c.readIndex + 1 })
    else s.issueFrom r fuel { c with
      readIndex := c.readIndex + 1, passedPauses := c.passedPauses ++ [c.readIndex]
      frontier := skipPauses c.frontier (c.passedPauses ++ [c.readIndex]) } := by
  rw [State.issueFrom, w, h]
  simp only [Option.isSome_none, Bool.false_eq_true, if_false, if_neg (Nat.not_lt.2 within), k]

theorem State.issueFrom_jump (k : (s.storedStitch r c.readIndex).kind = .jump) : s.issueFrom r (fuel + 1) c =
    s.issueFrom r fuel (c.streamed c.readIndex (s.split ⟨(s.storedStitch r c.readIndex).dx,
      (s.storedStitch r c.readIndex).dy, true, .none, some c.readIndex, some c.readIndex, none, none⟩)) := by
  rw [State.issueFrom, w, h]
  simp only [Option.isSome_none, Bool.false_eq_true, if_false, if_neg (Nat.not_lt.2 within), k]

theorem State.issueFrom_normal (k : (s.storedStitch r c.readIndex).kind = .normal) {dx dy : Int} {lowest : Nat}
    (hx : dx = (s.storedStitch r c.readIndex).dx + c.carry.elim 0 (·.dx))
    (hy : dy = (s.storedStitch r c.readIndex).dy + c.carry.elim 0 (·.dy))
    (hl : lowest = c.carry.elim c.readIndex (·.lowest)) : s.issueFrom r (fuel + 1) c =
    if s.carries r c c.readIndex dx dy then
      s.issueFrom r fuel { c with readIndex := c.readIndex + 1, carry := some ⟨dx, dy, lowest⟩ }
    else s.issueFrom r fuel { c.streamed c.readIndex ((if c.tieInPending then s.tieIn r c lowest else []) ++
      s.split ⟨dx, dy, false, .none, some c.readIndex, some lowest, none, none⟩) with tieInPending := false } := by
  subst hx hy hl
  rw [State.issueFrom, w, h]
  simp only [Option.isSome_none, Bool.false_eq_true, if_false, if_neg (Nat.not_lt.2 within), k]

end

/-! ## The fuel is enough -/

/-- The stored stitches and tie points a request may pass from here on before it answers. -/
def IssueContext.enough (c : IssueContext) : Nat :=
  (c.last + 1 - c.readIndex) + 1 + if c.tieOffDue then 1 else 0

theorem IssueContext.enough_lt_of_read (within : c.readIndex ≤ c.last) (last : c'.last = c.last)
    (read : c'.readIndex = c.readIndex + 1) (due : c'.tieOffDue = c.tieOffDue) : c'.enough < c.enough := by
  unfold IssueContext.enough
  rw [last, read, due]
  omega

theorem IssueContext.enough_lt_of_tied (due : c.tieOffDue = true) (queue : List Issued) :
    IssueContext.enough { c with tieOffDue := false, waiting := queue } < c.enough := by
  simp [IssueContext.enough, due]

/-- A request answers, or goes on with fewer stitches and tie points ahead of it. -/
theorem State.issueFrom_cases (s : State) (r : SegRecord) (c : IssueContext) :
    (∃ p, ∀ fuel, s.issueFrom r (fuel + 1) c = p) ∨
    ∃ c', c'.enough < c.enough ∧ ∀ fuel, s.issueFrom r (fuel + 1) c = s.issueFrom r fuel c' := by
  cases w : c.waiting with
  | cons x rest => exact .inl ⟨_, fun _ => State.issueFrom_waiting w⟩
  | nil =>
  cases h : c.held with
  | some m => exact .inl ⟨_, fun _ => State.issueFrom_held w (by rw [h]; rfl)⟩
  | none =>
  rcases Nat.lt_or_ge c.last c.readIndex with past | within
  · by_cases due : c.tieOffDue = true
    · exact .inr ⟨_, IssueContext.enough_lt_of_tied due _, fun _ => (State.issueFrom_past w h past).trans (if_pos due)⟩
    · exact .inl ⟨_, fun _ => (State.issueFrom_past w h past).trans (if_neg due)⟩
  cases k : (s.storedStitch r c.readIndex).kind with
  | trim =>
    by_cases due : c.kind = .main ∧ c.tieOffDue = true
    · exact .inr ⟨_, IssueContext.enough_lt_of_tied due.2 _,
        fun _ => (State.issueFrom_trim w h within k).trans (if_pos due)⟩
    · exact .inl ⟨_, fun _ => (State.issueFrom_trim w h within k).trans (if_neg due)⟩
  | pause =>
    by_cases main : c.kind = .main
    · exact .inl ⟨_, fun _ => (State.issueFrom_pause w h within k).trans (if_pos main)⟩
    · exact .inr ⟨_, .symm ⟨fun _ => (State.issueFrom_pause w h within k).trans (if_neg main),
        IssueContext.enough_lt_of_read within rfl rfl rfl⟩⟩
  | jump => exact .inr ⟨_, .symm ⟨fun _ => State.issueFrom_jump w h within k,
      IssueContext.enough_lt_of_read within rfl rfl rfl⟩⟩
  | normal =>
    by_cases small : s.carries r c c.readIndex ((s.storedStitch r c.readIndex).dx + c.carry.elim 0 (·.dx))
        ((s.storedStitch r c.readIndex).dy + c.carry.elim 0 (·.dy)) = true
    · exact .inr ⟨_, .symm ⟨fun _ => (State.issueFrom_normal w h within k rfl rfl rfl).trans (if_pos small),
        IssueContext.enough_lt_of_read within rfl rfl rfl⟩⟩
    · exact .inr ⟨_, .symm ⟨fun _ => (State.issueFrom_normal w h within k rfl rfl rfl).trans (if_neg small),
        IssueContext.enough_lt_of_read within rfl rfl rfl⟩⟩

theorem IssueContext.enough_pos (c : IssueContext) : 0 < c.enough := by unfold IssueContext.enough; omega

/-- More fuel than enough changes nothing. -/
theorem State.issueFrom_fuel (h : c.enough ≤ fuel) : s.issueFrom r fuel c = s.issueFrom r c.enough c := by
  induction fuel using Nat.strong_induction_on generalizing c with
  | _ fuel ih =>
  have pos := c.enough_pos
  obtain ⟨f, rfl⟩ := Nat.exists_eq_add_of_le' (show 1 ≤ fuel by omega)
  obtain ⟨e, he⟩ := Nat.exists_eq_add_of_le' (show 1 ≤ c.enough by omega)
  rcases s.issueFrom_cases r c with ⟨p, answer⟩ | ⟨c', less, on⟩
  · rw [he, answer, answer]
  · rw [he, on, on, ih f (Nat.lt_succ_self f) (by omega), ih e (by omega) (by omega)]

/-! ## A request is about the store, the tables and the parameters: not about the context that is open or the window -/

/-- The state with another editor and another look-ahead window. -/
def State.atStream (s : State) (e : Editor) (window : List Planned) : State :=
  { s with se := e, mp := { s.mp with window := window } }

section
variable {e : Editor} {window : List Planned}

theorem State.positionBefore_atStream (k : Nat) :
    (s.atStream e window).positionBefore r k = s.positionBefore r k := by
  induction k with
  | zero => rfl
  | succ k ih => simp only [State.positionBefore, ih]; rfl

theorem State.firstDirection_atStream (kind : PassKind) (n i : Nat) :
    (s.atStream e window).firstDirection r kind n i = s.firstDirection r kind n i := by
  induction n generalizing i with
  | zero => rfl
  | succ n ih => simp only [State.firstDirection, ih]; rfl

theorem State.lastDirection_atStream (b n : Nat) :
    (s.atStream e window).lastDirection r b n = s.lastDirection r b n := by
  induction n with
  | zero => rfl
  | succ n ih => simp only [State.lastDirection, ih]; rfl

theorem State.tieIn_atStream (l : Nat) : (s.atStream e window).tieIn r c l = s.tieIn r c l := by
  simp only [State.tieIn, State.firstDirection_atStream, State.positionBefore_atStream]; rfl

theorem State.tieOff_atStream (b : Nat) : (s.atStream e window).tieOff r c b = s.tieOff r c b := by
  simp only [State.tieOff, State.lastDirection_atStream, State.positionBefore_atStream]; rfl

theorem State.issueFrom_atStream : (s.atStream e window).issueFrom r fuel c = s.issueFrom r fuel c := by
  induction fuel generalizing c with
  | zero => rfl
  | succ fuel ih => simp only [State.issueFrom, ih, State.tieIn_atStream, State.tieOff_atStream]; rfl

end

theorem State.issueFrom_setContext : (s.setContext c').issueFrom r fuel c = s.issueFrom r fuel c :=
  State.issueFrom_atStream (e := { s.se with context := some c' }) (window := s.mp.window)

/-- A request made with another window standing has the same answer and does the same to the editor. -/
theorem State.issue_window (s : State) (window : List Planned) :
    ({ s with mp := { s.mp with window := window } }).issue =
      (s.issue.1, { s with se := s.issue.2.se, mp := { s.mp with window := window } }) := by
  have shape (r : SegRecord) (fuel : Nat) (c : IssueContext) :
      ({ s with mp := { s.mp with window := window } } : State).issueFrom r fuel c = s.issueFrom r fuel c :=
    State.issueFrom_atStream (e := s.se) (window := window)
  have find (n : Nat) : ({ s with mp := { s.mp with window := window } } : State).findSeg n = s.findSeg n := rfl
  unfold State.issue
  cases s.se.context with
  | none => rfl
  | some c =>
    dsimp only
    rw [find]
    cases s.findSeg c.segment with
    | none => rfl
    | some r => dsimp only; rw [shape]; rfl

/-! ## The request (R24) -/

theorem State.setContext_of_open (h : s.se.context = some c) : s.setContext c = s := by
  unfold State.setContext; rw [← h]

section
variable (open_ : s.se.context = some c) (present : s.findSeg c.segment = some r) (read : c.readIndex ≤ c.last + 1)
include open_ present read

theorem State.issue_eq (h : c.enough ≤ fuel) :
    s.issue = ((s.issueFrom r fuel c).1, s.setContext (s.issueFrom r fuel c).2) := by
  have enough : c.enough ≤ c.last + 4 - c.readIndex := by unfold IssueContext.enough; split <;> omega
  rw [State.issueFrom_fuel h, ← State.issueFrom_fuel enough]
  simp only [State.issue, open_, present]

theorem State.issue_answers (answer : ∀ fuel, s.issueFrom r (fuel + 1) c = (a, c')) :
    s.issue = (a, s.setContext c') := by
  rw [State.issue_eq open_ present read (Nat.le_succ _), answer]

theorem State.issue_goesOn (less : c'.enough < c.enough) (on : ∀ fuel, s.issueFrom r (fuel + 1) c = s.issueFrom r fuel c')
    (same : c'.segment = c.segment) (read' : c'.readIndex ≤ c'.last + 1) : s.issue = (s.setContext c').issue := by
  have open' : (s.setContext c').se.context = some c' := rfl
  have present' : (s.setContext c').findSeg c'.segment = some r := same ▸ present
  rw [State.issue_eq open_ present read (Nat.le_succ _), on, State.issue_eq open' present' read' less.le,
    State.issueFrom_setContext]
  rfl

/-- A request that puts a queue into the stream answers with its front. -/
theorem State.issue_gives {queue : List Issued} (some_ : queue ≠ [])
    (on : ∀ fuel, s.issueFrom r (fuel + 1) c = s.issueFrom r fuel { c' with waiting := queue }) :
    ∃ x rest, queue = x :: rest ∧ s.issue = (.stitch x, s.setContext { c' with waiting := rest }) := by
  obtain ⟨x, rest, rfl⟩ := List.exists_cons_of_ne_nil some_
  refine ⟨x, rest, rfl, ?_⟩
  obtain ⟨e, he⟩ := Nat.exists_eq_add_of_le' (show 1 ≤ c.enough from c.enough_pos)
  rw [State.issue_eq (fuel := c.enough + 1) open_ present read (Nat.le_succ _), on, he, State.issueFrom_waiting rfl]

end

theorem State.carries_iff {i : Nat} {dx dy : Int} : s.carries r c i dx dy = true ↔
    c.kind = .main ∧ max dx.natAbs dy.natAbs < s.par.minStitch ∧ i < c.last ∧
    (s.storedStitch r (i + 1)).kind = .normal ∧ (dx + (s.storedStitch r (i + 1)).dx).natAbs ≤ 127 ∧
    (dy + (s.storedStitch r (i + 1)).dy).natAbs ≤ 127 ∧ c.barrier ≠ some (i + 1) := by
  simp [State.carries, chebyshev, and_assoc]

/-! ## The frontier over the PAUSEs (R32) -/

theorem skipPauses_cons_same (f : Nat) (pauses : List Nat) :
    skipPauses f (f :: pauses) = skipPauses (f + 1) pauses := by simp [skipPauses]

theorem skipPauses_cons_of_ne {p f : Nat} (h : p ≠ f) (pauses : List Nat) :
    skipPauses f (p :: pauses) = skipPauses f pauses := by simp [skipPauses, h]

/-- The frontier moves on over PAUSE indices alone. -/
theorem skipPauses_passes (f : Nat) (pauses : List Nat) :
    f ≤ skipPauses f pauses ∧ ∀ j, f ≤ j → j < skipPauses f pauses → j ∈ pauses := by
  induction pauses generalizing f with
  | nil => exact ⟨le_rfl, fun j low high => absurd high (Nat.not_lt.2 low)⟩
  | cons p pauses ih =>
    rcases eq_or_ne p f with rfl | apart
    · rw [skipPauses_cons_same]
      obtain ⟨grows, passed⟩ := ih (p + 1)
      refine ⟨by omega, fun j low high => ?_⟩
      rcases low.eq_or_lt with rfl | low
      · exact List.mem_cons_self
      · exact List.mem_cons_of_mem _ (passed j low high)
    · rw [skipPauses_cons_of_ne apart]
      obtain ⟨grows, passed⟩ := ih f
      exact ⟨grows, fun j low high => List.mem_cons_of_mem _ (passed j low high)⟩

/-- Past rising indices the frontier is none of them. -/
theorem skipPauses_not_mem {pauses : List Nat} (rising : pauses.Pairwise (· < ·)) (f : Nat) :
    skipPauses f pauses ∉ pauses := by
  induction pauses generalizing f with
  | nil => exact List.not_mem_nil
  | cons p pauses ih =>
    obtain ⟨above, rising⟩ := List.pairwise_cons.1 rising
    rw [List.mem_cons, not_or]
    rcases eq_or_ne p f with rfl | apart
    · rw [skipPauses_cons_same]
      obtain ⟨grows, -⟩ := skipPauses_passes (p + 1) pauses
      exact ⟨by omega, ih rising (p + 1)⟩
    · rw [skipPauses_cons_of_ne apart]
      obtain ⟨grows, passed⟩ := skipPauses_passes f pauses
      refine ⟨fun e => ?_, ih rising f⟩
      have := above f (passed f le_rfl (by omega))
      omega

/-! ## The continue request (R25) -/

theorem State.continueIssue_trim (open_ : s.se.context = some c) {j : Nat} (held : c.held = some (.trim j)) :
    s.continueIssue = s.setContext (if c.kind = .main
      then { c with held := none, tieInPending := true, tieOffDue := true, stretch := j + 1, lastIndex := none }
      else { c with held := none }) := by
  simp only [State.continueIssue, open_, held]

theorem State.continueIssue_other (open_ : s.se.context = some c) (held : ∀ j, c.held ≠ some (.trim j)) :
    s.continueIssue = s := by
  simp only [State.continueIssue, open_]

/-- Settles O55, branch by branch of the request. -/
theorem editorFollowsTheStream : Obligations.EditorFollowsTheStream := by
  constructor
  · intro s none_
    simp [State.issue, State.continueIssue, none_]
  intro s c r open_ present read i st main goesOn stops gives within past tied dx dy lowest small after
  have answers {a : Answer} {c' : IssueContext} := State.issue_answers (a := a) (c' := c') open_ present read
  have again {c' : IssueContext} := State.issue_goesOn (c' := c') open_ present read
  have puts {c' : IssueContext} {queue : List Issued} :=
    State.issue_gives (c' := c') (queue := queue) open_ present read
  have goesOnTied (h : c.tieOffDue = true)
      (on : ∀ fuel, s.issueFrom r (fuel + 1) c = s.issueFrom r fuel tied) : goesOn tied :=
    again (IssueContext.enough_lt_of_tied h _) on rfl read
  have split_ne (tie : List Issued) (x : Issued) : tie ++ s.split x ≠ [] := fun e =>
    s.split_ne_nil x (List.append_eq_nil_iff.1 e).2
  refine ⟨fun x rest w => answers fun _ => State.issueFrom_waiting w, fun w h => ?_, ?_, ?_, ?_, ?_, ?_, ?_, ?_, ?_, ?_,
    fun j held => State.continueIssue_trim open_ held, fun held => State.continueIssue_other open_ held⟩
  · exact (answers fun _ => State.issueFrom_held w h).trans (by rw [State.setContext_of_open open_])
  · rintro ⟨at_, w, h⟩ due
    refine goesOnTied due fun _ => (State.issueFrom_past w h (by omega)).trans ?_
    rw [if_pos due, ← at_]
  · rintro ⟨at_, w, h⟩ due
    exact answers fun _ => (State.issueFrom_past w h (by omega)).trans (if_neg (by simp [due]))
  · rintro ⟨room, w, h⟩ k isMain due
    exact goesOnTied due fun _ => (State.issueFrom_trim w h room k).trans (if_pos ⟨isMain, due⟩)
  · rintro ⟨room, w, h⟩ k free
    refine answers fun _ => (State.issueFrom_trim w h room k).trans (if_neg ?_)
    rintro ⟨isMain, due⟩
    rcases free with notMain | undue
    · exact notMain isMain
    · exact absurd due (by simp [undue])
  · rintro ⟨room, w, h⟩ k isMain
    exact answers fun _ => (State.issueFrom_pause w h room k).trans (if_pos isMain)
  · rintro ⟨room, w, h⟩ k notMain
    obtain ⟨grows, passed⟩ := skipPauses_passes c.frontier (c.passedPauses ++ [i])
    refine ⟨_, grows, ?_, passed, fun rising => skipPauses_not_mem rising _⟩
    exact again (IssueContext.enough_lt_of_read room rfl rfl rfl)
      (fun _ => (State.issueFrom_pause w h room k).trans (if_neg notMain)) rfl (Nat.succ_le_succ room)
  · rintro ⟨room, w, h⟩ k
    exact puts (s.split_ne_nil _) fun _ => State.issueFrom_jump w h room k
  · rintro ⟨room, w, h⟩ k isSmall
    exact again (IssueContext.enough_lt_of_read room rfl rfl rfl)
      (fun _ => (State.issueFrom_normal w h room k rfl rfl rfl).trans (if_pos (State.carries_iff.2 isSmall))) rfl
      (Nat.succ_le_succ room)
  · rintro ⟨room, w, h⟩ k notSmall
    exact puts (split_ne _ _) fun _ =>
      (State.issueFrom_normal w h room k rfl rfl rfl).trans (if_neg (mt State.carries_iff.1 notSmall))

end Sys2Proof.Machine
end

