-- ==== Sys2Proof/Proofs/Turns.lean ====
section
/-! PROOF. The states between one head's turn and the next, and the records a repair pass advances (R159), turn by turn
and index by index. -/

open Sys2Proof.Claims

namespace Sys2Proof.Machine

variable {s t : State}

/-! ## The heads' turns, one after the other -/

section
variable (p : HeadId → Bool) (f : HeadId → State → State) (s : State)

/-- The state after the turns of the first k heads. -/
def State.turns (k : Nat) : State := (allHeads.take k).foldl (fun s h => if p h then f h s else s) s

theorem State.turns_zero : State.turns p f s 0 = s := rfl

theorem State.turns_all : State.turns p f s 16 = State.forHeads p f s := by
  rw [State.turns, List.take_of_length_le (by simp [allHeads])]
  rfl

theorem State.turns_succ (h : HeadId) : State.turns p f s (h.val + 1) =
    if p h then f h (State.turns p f s h.val) else State.turns p f s h.val := by
  have front : allHeads.take (h.val + 1) = allHeads.take h.val ++ [h] := by
    rw [List.take_add_one, List.getElem?_eq_getElem (by simp [allHeads])]
    simp [allHeads]
  rw [State.turns, front, List.foldl_append]
  rfl

variable {p f s}

/-- What each head's turn keeps stands after every number of turns. -/
theorem State.turns_keep {P : State → Prop} (hf : ∀ h t, P t → P (f h t)) (hs : P s) (k : Nat) :
    P (State.turns p f s k) := by
  unfold State.turns
  generalize allHeads.take k = l
  induction l generalizing s with
  | nil => exact hs
  | cons h l ih =>
    rw [List.foldl_cons]
    split
    · exact ih (hf h s hs)
    · exact ih hs

end

/-! ## The records of a repair pass (R159) -/

theorem State.advanceRecords_only (h : HeadId) (i : Nat) (s : State) : s.OnlyRecords (State.advanceRecords h i s) :=
  State.OnlyRecords.foldl (fun t x => by
    split
    · exact (t.retire_only x).trans rfl
    · rfl) _ s

theorem State.OnlyRecords.head (h : s.OnlyRecords t) (g : HeadId) : t.head g = s.head g := by rw [h]; rfl

theorem State.OnlyRecords.memory (h : s.OnlyRecords t) : t.ds.memory = s.ds.memory := by rw [h]

theorem State.OnlyRecords.se (h : s.OnlyRecords t) : t.se = s.se := by rw [h]

theorem State.OnlyRecords.pc (h : s.OnlyRecords t) : t.pc = s.pc := by rw [h]

theorem State.advanceOver_succ (h : HeadId) (n i : Nat) (s : State) :
    State.advanceOver h (n + 1) i s = State.advanceRecords h (i + n) (State.advanceOver h n i s) := by
  induction n generalizing i s with
  | zero => rfl
  | succ n ih =>
    rw [State.advanceOver, ih, Nat.add_right_comm]
    rfl

theorem State.advanceOver_only (h : HeadId) (n i : Nat) (s : State) : s.OnlyRecords (State.advanceOver h n i s) := by
  induction n with
  | zero => rfl
  | succ n ih =>
    rw [State.advanceOver_succ]
    exact ih.trans (State.advanceRecords_only _ _ _)

theorem State.passIndices_succ (g n i : Nat) (s : State) :
    State.passIndices g (n + 1) i s = (State.passIndices g n i s).passIndex g (i + n) := by
  induction n generalizing i s with
  | zero => rfl
  | succ n ih =>
    rw [State.passIndices, ih, Nat.add_right_comm]
    rfl

/-- The ACTIVE heads' records pass a stored stitch that is not sewn, head by head. -/
theorem State.passIndex_turns (i : Nat) (s : State) : ∃ y : Nat → State, y 0 = s ∧
    y 16 = s.forHeads (fun h => (s.head h).state == .active) (fun h => State.advanceRecords h i) ∧
    ∀ h : HeadId, ((y h.val).head h).state = .active ∧ y (h.val + 1) = (y h.val).advanceRecords h i ∨
      ((y h.val).head h).state ≠ .active ∧ y (h.val + 1) = y h.val := by
  refine ⟨State.turns (fun h => (s.head h).state == .active) (fun h => State.advanceRecords h i) s, State.turns_zero _ _ _,
    State.turns_all _ _ _, fun h => ?_⟩
  have same : s.OnlyRecords (State.turns (fun h => (s.head h).state == .active) (fun h => State.advanceRecords h i) s
      h.val) := State.turns_keep (P := s.OnlyRecords) (fun h t ht => ht.trans (State.advanceRecords_only h i t))
      (show s.OnlyRecords s from rfl) _
  rw [State.turns_succ, same.head]
  by_cases active : (s.head h).state = .active
  · exact .inl ⟨active, if_pos (beq_iff_eq.2 active)⟩
  · exact .inr ⟨active, if_neg (mt beq_iff_eq.1 active)⟩

/-- The frontier's passing over indices, as the statements tell it. -/
theorem State.passIndices_passesOver (g lo hi : Nat) (s : State) :
    PassesOver g lo hi s (State.passIndices g (hi - lo) lo s) := by
  refine ⟨fun i => State.passIndices g (i - lo) lo s, by simp [State.passIndices], by
    dsimp only; congr 1; omega, fun i low _ => ?_⟩
  obtain ⟨n, rfl⟩ := Nat.exists_eq_add_of_le low
  have next : State.passIndices g (lo + n + 1 - lo) lo s = (State.passIndices g n lo s).passIndex g (lo + n) := by
    rw [show lo + n + 1 - lo = n + 1 by omega, State.passIndices_succ]
  have memory := (State.passIndices_only g n lo s).memory
  dsimp only
  rw [next, Nat.add_sub_cancel_left]
  generalize State.passIndices g n lo s = y at memory
  refine ⟨fun absent => ?_, fun r found normal => ?_, fun r found notNormal => ?_⟩
  · rw [State.passIndex, absent]
  · rw [State.passIndex, found]
    exact if_pos (by rw [State.storedStitch, memory]; exact normal)
  · have made : y.passIndex g (lo + n) =
        y.forHeads (fun h => (y.head h).state == .active) (fun h => State.advanceRecords h (lo + n)) := by
      rw [State.passIndex, found]
      exact if_neg (by rw [State.storedStitch, memory]; exact notNormal)
    rw [made]
    exact State.passIndex_turns (lo + n) y

end Sys2Proof.Machine
end

