-- ==== Sys2Proof/Proofs/WindowFilled.lean ====
section
/-! PROOF. The filling of the look-ahead window, stitch by stitch (R41, R43). -/

open Sys2Proof.Claims

namespace Sys2Proof.Machine

variable {s t u : State}

/-! ## The look-ahead window (R41, R43) -/

theorem getElem?_lowerLast (m : Nat) (l : List Planned) (i : Nat) :
    (lowerLast m l)[i]? = if i + 1 = l.length then l[i]?.map ({ · with cap := m }) else l[i]? := by
  induction l generalizing i with
  | nil => simp [lowerLast]
  | cons w l ih =>
    cases l with
    | nil => cases i <;> simp [lowerLast]
    | cons v l =>
      cases i with
      | zero => simp [lowerLast]
      | succ i => simpa [lowerLast] using ih i

/-- The static cap is the least of the geometric cap and the limits that stand (R41). -/
theorem State.staticCap_least (s : State) (st : Issued) : LeastOf (s.staticCap st) (s.geometricCap st.dx st.dy)
    ([(s.par.sMax : Int)] ++ (if st.jump then [(s.par.jumpCap : Int)] else []) ++
      (if s.mp.passKind = .repair then [(s.par.repairCap : Int)] else [])) := by
  unfold State.staticCap LeastOf
  dsimp only
  cases st.jump <;> split <;> simp only [Bool.false_eq_true, if_false, if_true, List.append_nil, List.mem_append,
    List.mem_singleton, forall_eq, or_imp, forall_and] <;> omega

theorem Filled.marked (h : s.mp.marker.isSome = true) : Filled s s :=
  ⟨fun _ => ⟨rfl, rfl, rfl⟩, fun none_ => by simp [none_] at h⟩

/-- What a request for no further stitch leaves: the stitches stand, the last before a marker at S_MIN. -/
theorem Filled.answered {m : Option Marker} {window : List Planned} (unmarked : u.mp.marker = none)
    (mark : t.mp.marker = m) (length : window.length = u.mp.window.length) (e : t.mp.window = window)
    (last : ∀ i w, window[i]? = some w → m.isSome = true → i + 1 = window.length → w.cap = u.par.sMin)
    (stand : ∀ i w, window[i]? = some w → ∃ c, u.mp.window[i]? = some ⟨w.stitch, c⟩ ∧
      (¬ (m.isSome = true ∧ i + 1 = window.length) → w.cap = c))
    (full : 32 ≤ u.mp.window.length → m = none ∧ t.se = u.se)
    (answer : u.mp.window.length < 32 → ∃ a, u.issue = (a, { u with se := t.se }) ∧
      (a = .nothing ∧ m = none ∨ ∃ k, a = .marker k ∧ m = some k)) : Filled u t := by
  subst mark e
  refine ⟨fun marked => by simp [unmarked] at marked, fun _ => ⟨fun _ => u.se, rfl, length.ge, by omega,
    fun i w hw => ⟨fun ⟨some_, at_⟩ => last i w hw some_ at_, fun _ => stand i w hw, fun past => ?_⟩,
    fun h => full (by omega), fun h => answer (by omega)⟩⟩
  obtain ⟨within, -⟩ := List.getElem?_eq_some_iff.1 hw
  omega

/-- A stitch put behind the others, and the filling gone on with from there. -/
theorem Filled.cons {st : Issued} {e : Editor} (unmarked : u.mp.marker = none) (room : u.mp.window.length < 32)
    (answer : u.issue = (.stitch st, { u with se := e }))
    (rest : Filled { u with se := e, mp := { u.mp with window := u.mp.window ++ [⟨st, u.staticCap st⟩] } } t) :
    Filled u t := by
  obtain ⟨-, filled⟩ := rest
  obtain ⟨f, start, least, most, each, stop, answered⟩ := filled unmarked
  simp only [List.length_append, List.length_singleton] at start least most each
  have issue_of {v : Editor} {a : Answer} {v' : Editor}
      (h : ({ u with se := v, mp := { u.mp with window := u.mp.window ++ [⟨st, u.staticCap st⟩] } } : State).issue =
        (a, { u with se := v', mp := { u.mp with window := u.mp.window ++ [⟨st, u.staticCap st⟩] } })) :
      ({ u with se := v } : State).issue = (a, { u with se := v' }) := by
    have asked := State.issue_window { u with se := v } (u.mp.window ++ [⟨st, u.staticCap st⟩])
    rw [State.issue_shape]
    obtain ⟨same, after⟩ := Prod.mk.inj (asked.symm.trans h)
    have editor := congrArg State.se after
    dsimp only at editor
    rw [same, editor]
  have later {j : Nat} (hj : u.mp.window.length < j) : Function.update f u.mp.window.length u.se j = f j :=
    Function.update_of_ne hj.ne' _ _
  refine ⟨fun marked => by simp [unmarked] at marked, fun _ =>
    ⟨Function.update f u.mp.window.length u.se, Function.update_self _ _ _, by omega, by omega, fun i w hw => ?_,
      fun h => ?_, fun h => ?_⟩⟩
  · obtain ⟨last, stands, issued⟩ := each i w hw
    refine ⟨last, fun before => ?_, fun from_ => ?_⟩
    · obtain ⟨c, at_, cap⟩ := stands (by omega)
      exact ⟨c, (List.getElem?_append_left before).symm.trans at_, cap⟩
    rcases from_.eq_or_lt with rfl | past
    · obtain ⟨c, at_, cap⟩ := stands (by omega)
      rw [List.getElem?_concat_length, Option.some.injEq, Planned.mk.injEq] at at_
      obtain ⟨stitch, rfl⟩ := at_
      rw [Function.update_self, later (Nat.lt_succ_self _), start, ← stitch]
      exact ⟨answer, fun notLast => cap notLast ▸ u.staticCap_least st⟩
    · obtain ⟨asked, capped⟩ := issued (by omega)
      rw [later past, later (by omega)]
      exact ⟨issue_of asked, capped⟩
  · rw [later (by omega)]
    exact stop h
  · obtain ⟨a, asked, how⟩ := answered h
    rw [later (by omega)]
    exact ⟨a, issue_of asked, how⟩

theorem Filled.full (unmarked : u.mp.marker = none) (h : 32 ≤ u.mp.window.length) : Filled u u :=
  Filled.answered unmarked unmarked rfl rfl (fun _ _ _ some_ => absurd some_ (by simp))
    (fun _ w hw => ⟨w.cap, hw, fun _ => rfl⟩) (fun _ => ⟨rfl, rfl⟩) (fun room => absurd h (Nat.not_le.2 room))

/-- The filling of the window, as the statements tell it: the fuel lasts past the 32 stitches. -/
theorem State.fillWindow_filled (fuel : Nat) (u : State) (enough : 32 < u.mp.window.length + fuel) :
    Filled u (State.fillWindow fuel u) := by
  induction fuel generalizing u with
  | zero =>
    cases m : u.mp.marker with
    | some _ => exact Filled.marked (by simp [m])
    | none => exact Filled.full m (by omega)
  | succ fuel ih =>
    rw [State.fillWindow]
    cases m : u.mp.marker with
    | some _ => exact Filled.marked (by simp [m])
    | none =>
    by_cases full : 32 ≤ u.mp.window.length
    · rw [if_pos (by simp [full, Config.windowSize])]
      exact Filled.full m full
    rw [if_neg (by simp [full, Config.windowSize])]
    have shape := u.issue_shape
    cases answer : u.issue with
    | mk a v =>
    rw [answer] at shape
    obtain ⟨-, shape⟩ := Prod.mk.inj shape
    dsimp only at shape
    rw [shape] at answer ⊢
    cases a with
    | stitch st =>
      exact Filled.cons m (by omega) answer (ih _ (by simp only [List.length_append, List.length_singleton]; omega))
    | nothing =>
      exact Filled.answered m m rfl rfl (fun _ _ _ some_ => absurd some_ (by simp))
        (fun _ w hw => ⟨w.cap, hw, fun _ => rfl⟩) (fun h => absurd h full) fun _ => ⟨_, answer, .inl ⟨rfl, rfl⟩⟩
    | marker k =>
      refine Filled.answered m rfl (lowerLast_length _ _) rfl (fun i w hw _ at_ => ?_) (fun i w hw => ?_)
        (fun h => absurd h full) fun _ => ⟨_, answer, .inr ⟨k, rfl, rfl⟩⟩
      · rw [lowerLast_length] at at_
        rw [getElem?_lowerLast, if_pos at_] at hw
        obtain ⟨v, -, rfl⟩ := Option.map_eq_some_iff.1 hw
        rfl
      · rw [lowerLast_length]
        rw [getElem?_lowerLast] at hw
        split at hw
        case isTrue at_ =>
          obtain ⟨v, hv, rfl⟩ := Option.map_eq_some_iff.1 hw
          exact ⟨v.cap, hv, fun notLast => absurd ⟨rfl, at_⟩ notLast⟩
        case isFalse => exact ⟨w.cap, hw, fun _ => rfl⟩

/-- The window filled again, the records following the frontier, as the statements tell it. -/
theorem State.refill_refilled (s : State) : Refilled s s.refill := by
  refine ⟨State.fillWindow (Config.windowSize + 1) s, State.fillWindow_shape _ s,
    State.fillWindow_filled _ s (by simp only [Config.windowSize]; omega), fun c open_ repair => ?_, fun notRepair => ?_⟩
  · have made : s.refill = State.passIndices c.segment
        ((State.fillWindow (Config.windowSize + 1) s).frontier - s.frontier) s.frontier
        (State.fillWindow (Config.windowSize + 1) s) := by
      simp only [State.refill, open_, repair, if_true]
    rw [made]
    exact State.passIndices_passesOver _ _ _ _
  · unfold State.refill
    dsimp only
    split
    · rename_i c open_
      exact if_neg (notRepair c open_)
    · rfl

end Sys2Proof.Machine
end

