-- ==== Sys2Proof/Proofs/HaltEntry.lean ====
section
/-! PROOF. The entry to HALTED as the statements tell it: the end of service (R14), the end of a repair pass (R161), the
resume context (R77), and the point where a halt finds the controller (R78). -/

open Sys2Proof.Claims

namespace Sys2Proof.Machine

variable {s t v : State}

/-! ## The end of service (R14) -/

theorem LoadWantFollows.of_busy {b : Bool} (h : LoadWantFollows b v) (ds : t.ds = v.ds) (par : t.par = v.par)
    (job : t.pc.job = v.pc.job) (busy : v.pc.state ≠ .idle) (busy' : t.pc.state ≠ .idle) : LoadWantFollows b t := by
  obtain ⟨-, wants, drops, stays⟩ := h
  have ahead : t.readyAhead = v.readyAhead := State.readyAhead_congr (by rw [ds]) (by rw [ds])
  have wanted : t.nextWanted = v.nextWanted := State.nextWanted_congr (by rw [ds]) (by rw [ds])
  unfold LoadWantFollows
  unfold State.segmentCount at *
  rw [ahead, wanted, ds, par, job]
  exact ⟨fun idle => absurd idle busy', fun _ => wants busy, fun _ => drops busy, fun _ => stays busy⟩

theorem State.endService_unserved (h : s.ds.served = none) : s.endService = s := by
  simp only [State.endService, h]

theorem State.endService_keeps {g : Nat} (h : s.ds.served = some g)
    (kept : ∀ q, s.findSeg g = some q → ¬ (q.state = .sewn ∧ q.pins = 0)) :
    s.endService = { s with ds := { s.ds with served := none } } := by
  have find : ({ s with ds := { s.ds with served := none } } : State).findSeg g = s.findSeg g := rfl
  simp only [State.endService, h, State.freeIfDone, find]
  cases hq : s.findSeg g with
  | none => rfl
  | some q => exact if_neg fun ⟨sewn, pins, _⟩ => kept q hq ⟨sewn, pins⟩

theorem State.endService_frees {g : Nat} {q : SegRecord} (h : s.ds.served = some g) (hq : s.findSeg g = some q)
    (sewn : q.state = .sewn) (pins : q.pins = 0) :
    s.endService = ({ s with ds := { s.ds with served := none } }).freeSeg q := by
  have find : ({ s with ds := { s.ds with served := none } } : State).findSeg g = s.findSeg g := rfl
  simp only [State.endService, h, State.freeIfDone, find, hq]
  exact if_pos ⟨sewn, pins, by simp⟩

/-- Service ends in a state with the Design Store of `s`, and `t` has what it leaves. -/
theorem ServiceEnds.of_endService (before : v.ds = s.ds) (state : v.pc.state = s.pc.state) (after : t.ds = v.endService.ds)
    (par : t.par = v.par) (job : t.pc.job = v.pc.job) : ServiceEnds s t := by
  have find (n : Nat) : v.findSeg n = s.findSeg n := State.findSeg_congr (by rw [before]) n
  refine ⟨?_, fun unserved => ?_, fun g served => ⟨fun kept => ?_, fun q sound hq sewn pins => ?_⟩⟩
  · rw [after, v.endService_shape, before]
  · rw [after, State.endService_unserved (before ▸ unserved), before]
    exact ⟨rfl, rfl, rfl⟩
  · rw [after, State.endService_keeps (before ▸ served) (fun q hq => kept q (find g ▸ hq)), before]
    exact ⟨rfl, rfl, rfl⟩
  · have freed := State.endService_frees (s := v) (before ▸ served) ((find g).trans hq) sewn pins
    have sound' : ({ v with ds := { v.ds with served := none } } : State).ds.Sound := before ▸ sound
    obtain ⟨gone, others⟩ := State.findSeg_freeSeg sound' (show State.findSeg _ g = some q from (find g).trans hq)
    rw [freed] at after
    have found (n : Nat) := State.findSeg_congr (congrArg Store.segs after) n
    refine ⟨(found g).trans gone, fun m hm => (found m).trans ((others m hm).trans (find m)), ?_, fun busy busy' => ?_⟩
    · rw [after, ← before]
      exact .refl _
    · have wants := LoadWantFollows.of_evaluated (u := { v with ds := { v.ds with
        served := none, segs := v.ds.segs.filter (·.slot != q.slot), pool := v.ds.pool ++ q.pages } })
        (t := ({ v with ds := { v.ds with served := none } } : State).freeSeg q) rfl rfl rfl rfl rfl rfl
      rw [← before]
      exact LoadWantFollows.of_busy wants after par job (state ▸ busy) busy'

/-! ## The end of a repair pass (R161) -/

theorem State.forHeads_hom {p : HeadId → Bool} {f : HeadId → State → State} {g : State → State}
    (hf : ∀ h t, f h (g t) = g (f h t)) (s : State) : State.forHeads p f (g s) = g (State.forHeads p f s) :=
  List.foldl_hom g fun t h => by
    split
    · exact hf h t
    · rfl

/-- The end of a repair pass is not about the editor or the controller. -/
theorem State.endRepairPass_frame (s : State) (e : Editor) (p : Pass) :
    ({ s with se := e, pc := p } : State).endRepairPass = { s.endRepairPass with se := e, pc := p } := by
  have heads := State.forHeads_hom (p := fun _ => true) (f := fun h t => t.setHead h { t.head h with ranges := [] })
    (g := fun t => { t with se := e, pc := p }) (fun _ _ => rfl) s.settleRecords
  have settled : ({ s with se := e, pc := p } : State).settleRecords = { s.settleRecords with se := e, pc := p } := rfl
  unfold State.endRepairPass
  dsimp only
  rw [settled, heads]
  split <;> rfl

/-! ## The entry to HALTED (R60, R77, R78) -/

theorem State.formContext_pc (s : State) (at_ : ResumePoint × Bool) :
    s.formContext at_ = { s with pc := (s.formContext at_).pc } := by
  rw [State.formContext_shape]

theorem State.formContext_held (h : s.pc.point.isSome = true) (at_ : ResumePoint × Bool) : s.formContext at_ = s :=
  if_pos h

theorem State.formContext_new (h : ¬ s.pc.point.isSome = true) (p : ResumePoint) (b : Bool) :
    (s.formContext (p, b)).pc = { s.pc with
      point := some p, trimmed := b
      faulted := if p.isStitch then s.pc.faulted else s.pc.faulted.map (·.map Faulted.dropTarget) } := by
  rw [State.formContext, if_neg h]

theorem State.endService_frame (s : State) :
    s.endService.rt = s.rt ∧ s.endService.hs = s.hs ∧ s.endService.rl = s.rl := by
  rw [State.endService_shape]
  exact ⟨rfl, rfl, rfl⟩

section
variable (s : State) (c : HaltCause) (at_ : ResumePoint × Bool)

theorem State.enterHalted_pc : (s.enterHalted c at_).pc =
    { (s.formContext at_).pc with state := .halted, cause := c, due := none, phase := .rest } := by
  rw [State.enterHalted_shape]

/-- What the end of service leaves of the Repair Table, the heads and the sticky causes is what the end of the pass left. -/
theorem State.enterHalted_ended : (s.enterHalted c at_).rt = (s.formContext at_).endIssue.endPassIfAny.rt ∧
    (s.enterHalted c at_).hs = (s.formContext at_).endIssue.endPassIfAny.hs ∧
    (s.enterHalted c at_).rl.sticky = (s.formContext at_).endIssue.endPassIfAny.rl.sticky ||| 0x0002 := by
  obtain ⟨rt, hs, rl⟩ := (s.formContext at_).endIssue.endPassIfAny.endService_frame
  exact ⟨rt, hs, congrArg (fun l : Link => l.sticky ||| 0x0002) rl⟩

theorem State.enterHalted_noPass (h : s.rt.pass = none) : (s.enterHalted c at_).rt = s.rt ∧
    (s.enterHalted c at_).hs = s.hs ∧ (s.enterHalted c at_).rl.sticky = s.rl.sticky ||| 0x0002 := by
  obtain ⟨rt, hs, sticky⟩ := s.enterHalted_ended c at_
  have stays : (s.formContext at_).endIssue.endPassIfAny = (s.formContext at_).endIssue := by
    rw [State.formContext_pc]
    exact if_neg (by simp [State.endIssue, h])
  rw [rt, hs, sticky, stays, State.formContext_pc]
  exact ⟨rfl, rfl, rfl⟩

theorem State.enterHalted_passEnds (h : s.rt.pass.isSome = true) : (s.enterHalted c at_).rt = s.endRepairPass.rt ∧
    (s.enterHalted c at_).hs = s.endRepairPass.hs ∧
    (s.enterHalted c at_).rl.sticky = s.endRepairPass.rl.sticky ||| 0x0002 := by
  obtain ⟨rt, hs, sticky⟩ := s.enterHalted_ended c at_
  have ends : (s.formContext at_).endIssue.endPassIfAny =
      { s.endRepairPass with se := { s.se with context := none }, pc := (s.formContext at_).pc } := by
    rw [← State.endRepairPass_frame, State.formContext_pc]
    exact if_pos h
  rw [rt, hs, sticky, ends]
  exact ⟨rfl, rfl, rfl⟩

theorem State.enterHalted_serviceEnds : ServiceEnds s (s.enterHalted c at_) := by
  have before : (s.formContext at_).endIssue.endPassIfAny.ds = s.ds ∧
      (s.formContext at_).endIssue.endPassIfAny.pc = (s.formContext at_).pc ∧
      (s.formContext at_).endIssue.endPassIfAny.par = s.par := by
    rw [State.endPassIfAny_shape, State.formContext_pc]
    exact ⟨rfl, rfl, rfl⟩
  obtain ⟨ds, pc, par⟩ := before
  have state : (s.formContext at_).pc.state = s.pc.state := by rw [State.formContext_shape]
  exact ServiceEnds.of_endService ds ((congrArg Pass.state pc).trans state) rfl
    ((congrArg State.par (s.enterHalted_shape c at_)).trans par.symm)
    ((congrArg Pass.job (s.enterHalted_pc c at_)).trans (congrArg Pass.job pc).symm)

end

theorem ResumePoint.not_isStitch {p : ResumePoint} (h : ∀ g k, p ≠ .atStitch g k) : ¬ p.isStitch = true := by
  cases p with
  | atStitch g k => exact absurd rfl (h g k)
  | _ => simp [ResumePoint.isStitch]

/-- A halt entered at a point is the halt the statements tell of. -/
theorem State.enterHalted_halts (s : State) (c : HaltCause) (p : ResumePoint) (b : Bool) :
    Halts s (s.enterHalted c (p, b)) c p b := by
  have shape := s.enterHalted_shape c (p, b)
  have pc := s.enterHalted_pc c (p, b)
  refine ⟨shape.trans ?_, fun held => ?_, fun fresh => ?_, s.enterHalted_serviceEnds c _, s.enterHalted_noPass c _,
    s.enterHalted_passEnds c _⟩
  · refine State.mk.injEq .. ▸ ⟨rfl, (congrArg State.ds shape).symm, rfl, rfl, ?_, rfl, rfl, rfl, rfl, rfl, rfl, rfl, rfl⟩
    rw [pc, State.formContext_shape]
  · rw [pc, State.formContext_held held]
    exact ⟨rfl, rfl, rfl⟩
  · rw [pc, State.formContext_new fresh]
    refine ⟨rfl, rfl, fun ⟨g, k, e⟩ => by rw [e]; rfl, fun apart h => ?_⟩
    rw [if_neg (ResumePoint.not_isStitch apart)]
    exact Vector.getElem_map _ h.isLt

/-! ## Where a halt finds the controller (R78) -/

theorem State.inRepairPass_iff (s : State) : s.inRepairPass = true ↔ Repairing s := by
  unfold State.inRepairPass Repairing
  cases s.pc.phase with
  | choice a => cases a <;> simp
  | travel a => cases a <;> simp
  | begin a => cases a <;> simp
  | trim a => cases a <;> simp
  | _ => simp

theorem State.stands_repairing (h : Repairing s ∨ s.pc.phase = .schedule) : s.stands = s.repairsStand := by
  unfold State.stands
  rcases h with repairing | schedule
  · exact if_pos (s.inRepairPass_iff.2 repairing)
  · rw [schedule]
    exact ite_self _

theorem State.repairsStand_atEnd (h : s.pc.repairPoint ≠ .jobEnd) {m : Nat} (mark : s.ds.mark = some m) :
    s.repairsStand = (.atEnd m, true) := by
  unfold State.repairsStand
  rw [mark]
  cases e : s.pc.repairPoint with
  | jobEnd => exact absurd e h
  | _ => rfl

/-- The model's point is the one the statements tell of. -/
theorem State.stands_standsAt (s : State) : StandsAt s s.stands.1 s.stands.2 := by
  refine ⟨fun repairs => ?_, fun apart => ?_⟩
  · rw [State.stands_repairing repairs]
    refine ⟨?_, fun jobEnd => by rw [State.repairsStand, jobEnd], fun h m mark => by rw [State.repairsStand_atEnd h mark]⟩
    unfold State.repairsStand
    split <;> rfl
  have notRepairing : ¬ s.inRepairPass = true := mt s.inRepairPass_iff.1 (not_or.1 apart).1
  unfold State.stands
  dsimp only
  rw [if_neg notRepairing]
  refine ⟨fun take => by rw [take]; exact ⟨rfl, rfl⟩, fun rest standby => ?_, fun rest finished => ?_, fun r active => ?_⟩
  · rw [rest]
    simp [standby]
  · rw [rest]
    simp [finished]
  have number : s.activeNumber.getD 0 = r.number := by rw [State.activeNumber, active]; rfl
  rw [number]
  refine ⟨?_, fun onward => by rw [onward]; exact ⟨rfl, rfl⟩, ?_⟩
  · rintro (sew | ⟨a, trim⟩)
    · rw [sew]; exact ⟨rfl, rfl⟩
    · rw [trim]; exact ⟨rfl, rfl⟩
  · rintro ⟨a, choice | travel | ⟨begin_, notOnward⟩⟩
    · rw [choice]; exact ⟨rfl, rfl⟩
    · rw [travel]; exact ⟨rfl, rfl⟩
    · rw [begin_]
      cases a with
      | onward => exact absurd rfl notOnward
      | _ => exact ⟨rfl, rfl⟩

end Sys2Proof.Machine
end

