-- ==== Sys2Proof/Proofs/TravelArrives.lean ====
section
/-! PROOF. The steps of a travel and its end (R53): the move of a delta as it begins (R48), and the begin-pass request
made at travel complete (R64, R69, R80). -/

open Sys2Proof.Claims

namespace Sys2Proof.Machine

variable {s t : State}

/-! ## The move of a delta (R48, R49) -/

theorem tableTime_listed (table : List Nat) {d : Nat} (h : d ≤ 127) : tableTime table d = table.getD d 0 :=
  if_pos (by omega)

theorem State.moveOf_eq_begun (kind : MoveKind) {dx dy : Int} (hx : dx.natAbs ≤ 127) (hy : dy.natAbs ≤ 127) :
    s.moveOf kind dx dy = begun s kind dx dy := by
  rw [State.moveOf, State.timeX, State.timeY, tableTime_listed _ hx, tableTime_listed _ hy]
  rfl

theorem begun_duration_pos (par : s.par.Sound) {dx dy : Int} (time : TakesTime s dx dy) (kind : MoveKind) :
    0 < (begun s kind dx dy).duration := by
  obtain ⟨-, -, -, -, -, -, -, -, -, -, -, ⟨scaleX, -⟩, ⟨scaleY, -⟩, -⟩ := par
  obtain ⟨-, -, ⟨moves, long⟩ | ⟨moves, long⟩⟩ := time
  · refine lt_max_of_lt_left ?_
    have pulses : (begun s kind dx dy).pulsesX ≠ 0 := (Nat.mul_pos (Int.natAbs_pos.2 moves) scaleX).ne'
    rw [if_neg pulses]
    exact long
  · refine lt_max_of_lt_right ?_
    have pulses : (begun s kind dx dy).pulsesY ≠ 0 := (Nat.mul_pos (Int.natAbs_pos.2 moves) scaleY).ne'
    rw [if_neg pulses]
    exact long

/-- The next step of a travel, where it takes a time: it is in progress, and the part waits for its completion. -/
theorem State.startStep_takesTime (par : s.par.Sound) {d : Pos} (time : TakesTime s d.x d.y) (rest : List Pos) :
    s.startStep d rest = { s with
      se := { s.se with plan := some rest }
      mp := { s.mp with move := some (begun s .step d.x d.y), dirX := d.x.sign, dirY := d.y.sign } } := by
  have long := begun_duration_pos par time .step
  obtain ⟨listedX, listedY, -⟩ := time
  have begins : ({ s with se := { s.se with plan := some rest } } : State).moveOf .step d.x d.y = begun s .step d.x d.y :=
    State.moveOf_eq_begun .step listedX listedY
  unfold State.startStep
  dsimp only
  rw [begins, if_neg long.ne']
  rfl

/-! ## The transitions of a travel (R53) -/

section
variable {a : Aim} (phase : s.pc.phase = .travel a) (mode : s.mp.mode = .travelling) (still : s.mp.move = none)
include phase mode still

theorem State.microStep_step {d : Pos} {rest : List Pos} (plan : s.se.plan = some (d :: rest)) :
    s.microStep = some (s.startStep d rest) := by
  simp only [State.microStep, phase, State.stepTravel, mode, still, plan]
  rfl

theorem State.microStep_travelComplete (plan : s.se.plan = some []) : s.microStep = some (s.travelComplete a) := by
  simp only [State.microStep, phase, State.stepTravel, mode, still, plan]
  rfl

/-- The next step of a travel begins, and the part waits for its completion. -/
theorem State.drive_step {d : Pos} {rest : List Pos} (plan : s.se.plan = some (d :: rest)) (par : s.par.Sound)
    (time : TakesTime s d.x d.y) : s.drive = { s with
      se := { s.se with plan := some rest }
      mp := { s.mp with move := some (begun s .step d.x d.y), dirX := d.x.sign, dirY := d.y.sign } } := by
  rw [← State.startStep_takesTime par time rest]
  refine State.drive_once (State.microStep_step phase mode still plan) ?_
  rw [State.startStep_takesTime par time rest]
  simp only [State.microStep, phase, State.stepTravel, mode]
  rfl

end

/-! ## Travel complete (R64, R69, R80) -/

theorem State.travelComplete_due {c : HaltCause} (due : s.pc.due = some c) (a : Aim) :
    s.travelComplete a = s.toRest.abandonTravel.enterHalted c s.stands := by
  have stands : s.toRest.abandonTravel.stands = s.stands := rfl
  unfold State.travelComplete
  dsimp only
  rw [if_pos (by rw [State.abandonTravel_pc, State.toRest_pc, due]; rfl), State.haltDue, State.abandonTravel_pc,
    State.toRest_pc, due, stands]
  rfl

/-- Updates of the heads' records alone. -/
theorem State.forHeads_setHead_shape (p : HeadId → Bool) (F : State → HeadId → HeadRecord) (s : State) :
    ∃ heads, (s.forHeads p fun h t => t.setHead h (F t h)) = { s with hs := { s.hs with heads := heads } } :=
  State.forHeads_keep (P := fun t => ∃ heads, t = { s with hs := { s.hs with heads := heads } })
    (fun h t _ ⟨heads, e⟩ => ⟨heads.set h (F t h), by rw [State.setHead, e]⟩) ⟨s.hs.heads, rfl⟩

theorem State.takeRanges_shape (s : State) : ∃ heads, s.takeRanges = { s with hs := { s.hs with heads := heads } } :=
  State.forHeads_setHead_shape _ (fun t h => { t.head h with ranges := t.rangesOf h }) s

theorem State.takeRanges_head (s : State) (h : HeadId) :
    s.takeRanges.head h = { s.head h with ranges := s.rangesOf h } := by
  have key := State.forHeads_at (p := fun _ => true)
    (f := fun h t => t.setHead h { t.head h with ranges := t.rangesOf h })
    (g := fun t h => (t.head h, t.rangesOf h)) (fun _ x => ({ x.1 with ranges := x.2 }, x.2))
    (fun h t => Prod.ext (State.head_setHead_self _ _ _) rfl)
    (fun h k t e => Prod.ext ((State.head_setHead _ _ _ _).trans (if_neg e)) rfl) s h
  exact congrArg Prod.fst key

theorem HeadRecord.differs_in_ranges {x y : HeadRecord} {l : List (Nat × Nat)} (h : x = { y with ranges := l }) :
    x = { y with ranges := x.ranges } := by rw [h]

theorem State.mem_rangesOf (s : State) (h : HeadId) (range : Nat × Nat) : range ∈ s.rangesOf h ↔
    ∃ r ∈ s.rt.records, r.head = h ∧ r.state = .active ∧ range = (r.first, r.last.getD r.first) := by
  simp only [State.rangesOf, List.mem_map, List.mem_filter, Bool.and_eq_true, beq_iff_eq]
  constructor
  · rintro ⟨r, ⟨mem, head, active⟩, rfl⟩
    exact ⟨r, mem, head, active, rfl⟩
  · rintro ⟨r, mem, head, active, rfl⟩
    exact ⟨r, ⟨mem, head, active⟩, rfl⟩

/-- The heads that hold replay latches until k in segment g from a resume on (R80, R109). -/
def State.latched (s : State) (g k : Nat) : State := s.forHeads (inSet s.toLatch) fun h t =>
  t.setHead h { t.head h with replay := latchUntil g k (t.head h).replay }

theorem State.latched_shape (s : State) (g k : Nat) :
    ∃ heads, s.latched g k = { s with hs := { s.hs with heads := heads } } :=
  State.forHeads_setHead_shape _ (fun t h => { t.head h with replay := latchUntil g k (t.head h).replay }) s

theorem State.latched_head (s : State) (g k : Nat) (h : HeadId) : (s.latched g k).head h =
    if inSet s.toLatch h then { s.head h with replay := latchUntil g k (s.head h).replay } else s.head h :=
  State.forHeads_at (g := State.head) (fun _ x => { x with replay := latchUntil g k x.replay })
    (fun _ _ => State.head_setHead_self _ _ _) (fun _ _ _ e => (State.head_setHead _ _ _ _).trans (if_neg e)) s h

theorem State.inSet_toLatch (s : State) (h : HeadId) : inSet s.toLatch h = true ↔ s.pc.resumePlan.latch = true ∧
    (s.head h).state = .active ∧ inSet s.pc.resumePlan.rejoined h = false := by
  unfold State.toLatch
  split
  case isTrue latch => simp [inSet_headSetOf, latch]
  case isFalse unlatched => simp [unlatched, inSet]

theorem State.latchedUntil_iff (s : State) (g k : Nat) :
    s.latchedUntil g k = true ↔ ∃ h : HeadId, (s.head h).replay = some (g, k) := by
  simp [State.latchedUntil, mem_allHeads]

theorem State.resumeBarrier_eq (g k : Nat) :
    let merges := s.pc.resumePlan.start < k ∧
      (s.pc.resumePlan.fromTarget = true ∨ ∃ h : HeadId, (s.head h).replay = some (g, k))
    (merges → s.resumeBarrier g k = some k) ∧ (¬ merges → s.resumeBarrier g k = none) := by
  simp only [← State.latchedUntil_iff]
  exact ⟨fun merges => if_pos merges, fun apart => if_neg apart⟩

theorem State.resumeBegin_atStitch {g k : Nat} (point : s.pc.point = some (.atStitch g k)) : s.resumeBegin =
    (((s.latched g k).openService g).beginIssue g (s.latched g k).pc.resumePlan.start ((s.latched g k).countOf g - 1) .main
      (s.latched g k).pc.trimmed ((s.latched g k).resumeBarrier g k)).goTo .travel (.begin .resume) := by
  simp only [State.resumeBegin, point]
  rfl

theorem State.travelComplete_eq (due : s.pc.due = none) (a : Aim) : s.travelComplete a =
    match a with
    | .segmentStart =>
      ((s.toRest.abandonTravel.openService s.activeNo).beginIssue s.activeNo 0 (s.countOf s.activeNo - 1) .main true
        none).goTo .travel (.begin a)
    | .resume => s.toRest.abandonTravel.resumeBegin
    | .repairPass =>
      match s.rt.pass with
      | some p => (s.toRest.abandonTravel.takeRanges.beginIssue p.segment p.first p.last .repair true none).goTo .travel
          (.begin a)
      | none => s.toRest.abandonTravel
    | .onward => s.toRest.abandonTravel := by
  unfold State.travelComplete
  dsimp only
  rw [if_neg (by rw [State.abandonTravel_pc, State.toRest_pc, due]; simp)]
  cases a <;> rfl

/-- At travel complete the begin-pass request is made as the statements tell it. -/
theorem State.travelComplete_arrived (due : s.pc.due = none) (a : Aim) : Arrived s (s.travelComplete a) a := by
  rw [State.travelComplete_eq due]
  refine ⟨?_, ?_, ?_⟩
  · rintro r rfl active sound
    have number : s.activeNo = r.number := by rw [State.activeNo, State.activeNumber, active]; rfl
    have found : s.findSeg r.number = some r := (State.findSeg_eq_some sound).2 ⟨List.mem_of_find?_eq_some active, rfl⟩
    have count : s.countOf r.number = r.count := by rw [State.countOf, found]; rfl
    dsimp only
    rw [number, count]
    rfl
  · rintro p rfl pass
    obtain ⟨heads, shape⟩ := s.toRest.abandonTravel.takeRanges_shape
    have ranges := s.toRest.abandonTravel.takeRanges_head
    dsimp only
    rw [pass]
    dsimp only
    generalize s.toRest.abandonTravel.takeRanges = v at shape ranges
    subst shape
    refine ⟨rfl, fun h => ?_⟩
    have head := ranges h
    exact ⟨HeadRecord.differs_in_ranges head, fun range =>
      (iff_of_eq (congrArg (fun x : HeadRecord => range ∈ x.ranges) head)).trans (State.mem_rangesOf _ h range)⟩
  · rintro g k r rfl point found
    have count : s.countOf g = r.count := by rw [State.countOf, found]; rfl
    have point' : s.toRest.abandonTravel.pc.point = some (.atStitch g k) := point
    obtain ⟨heads, shape⟩ := s.toRest.abandonTravel.latched_shape g k
    have latches := s.toRest.abandonTravel.latched_head g k
    have toLatch := s.toRest.abandonTravel.inSet_toLatch
    dsimp only
    rw [State.resumeBegin_atStitch point']
    generalize s.toRest.abandonTravel.latched g k = v at shape latches
    subst shape
    have barrier := State.resumeBarrier_eq (s := { s.toRest.abandonTravel with
      hs := { s.toRest.abandonTravel.hs with heads := heads } }) g k
    refine ⟨_, barrier.1, barrier.2, ?_, fun h => ⟨fun free => ?_, fun held => ?_⟩⟩
    · rw [← count]
      rfl
    · exact (latches h).trans (if_neg (mt (toLatch h).1 free))
    · exact (latches h).trans (if_pos ((toLatch h).2 held))

/-- After travel complete the planner rests, and the controller has made its begin-pass request or stands where it was. -/
theorem State.travelComplete_rests (due : s.pc.due = none) (a : Aim) : (s.travelComplete a).mp = s.toRest.mp ∧
    (s.travelComplete a).pc.due = none ∧
    ((∃ b, (s.travelComplete a).pc.phase = .begin b) ∨ (s.travelComplete a).pc.phase = s.pc.phase) := by
  rw [State.travelComplete_eq due]
  cases a with
  | segmentStart => exact ⟨rfl, due, .inl ⟨_, rfl⟩⟩
  | onward => exact ⟨rfl, due, .inr rfl⟩
  | repairPass =>
    cases pass : s.rt.pass with
    | none => exact ⟨rfl, due, .inr rfl⟩
    | some p =>
      obtain ⟨heads, shape⟩ := s.toRest.abandonTravel.takeRanges_shape
      dsimp only
      rw [shape]
      exact ⟨rfl, due, .inl ⟨_, rfl⟩⟩
  | resume =>
    dsimp only
    by_cases stitch : ∃ g k, s.toRest.abandonTravel.pc.point = some (.atStitch g k)
    · obtain ⟨g, k, point⟩ := stitch
      obtain ⟨heads, shape⟩ := s.toRest.abandonTravel.latched_shape g k
      rw [State.resumeBegin_atStitch point, shape]
      exact ⟨rfl, due, .inl ⟨_, rfl⟩⟩
    · have stays : s.toRest.abandonTravel.resumeBegin = s.toRest.abandonTravel := by
        unfold State.resumeBegin
        split
        · exact absurd ⟨_, _, ‹_›⟩ stitch
        · rfl
      rw [stays]
      exact ⟨rfl, due, .inr rfl⟩

/-! ## Waiting for the shaft (R46, R53) -/

/-- A travel or a begin-pass request at rest waits while the shaft turns. -/
theorem State.waits_turning (mode : s.mp.mode = .atRest) (turning : s.mp.shaft = .turning) (due : s.pc.due = none)
    (phase : (∃ a, s.pc.phase = .begin a) ∨ ∃ a, s.pc.phase = .travel a) : s.microStep = none := by
  rcases phase with ⟨a, phase⟩ | ⟨a, phase⟩
  · simp only [State.microStep, phase, State.stepBegin, mode, turning, due]
    rfl
  · simp only [State.microStep, phase, State.stepTravel, mode, turning]

end Sys2Proof.Machine
end

