-- ==== Sys2Proof/Proofs/MoveCompletion.lean ====
section
/-! PROOF. MOVE_COMPLETION (R49): the accounts of a stitch (R110, R159), the bobbins and the storm drain (R125, R128), the
end of stopping or the refill, and what follows a travel step and a retraction (R53, R54). -/

open Sys2Proof.Claims

namespace Sys2Proof.Machine

variable {s t u : State}

/-! ## The controller's place in the round while a stitch is accounted -/

theorem State.truncate_only (h : HeadId) (d : Nat) (s : State) : s.OnlyRecords (State.truncate h d s) :=
  State.OnlyRecords.foldl (fun t x => by
    dsimp only
    split
    · rfl
    · exact (t.retire_only x).trans rfl) _ s

theorem State.askHalt_phase (c : HaltCause) (s : State) : (s.askHalt c).pc.phase = s.pc.phase := by
  unfold State.askHalt
  split <;> rfl

theorem State.takeHold_phase (h : HeadId) (target : Option Nat) (r : RepairCause) (c : HaltCause) (s : State) :
    (s.takeHold h target r c).pc.phase = s.pc.phase := by
  unfold State.takeHold
  split
  · rfl
  · rfl
  · rfl
  · exact State.askHalt_phase c s

theorem State.faultAtResume_phase (h : HeadId) (c : RepairCause) (s : State) :
    (s.faultAtResume h c).pc.phase = s.pc.phase := by
  unfold State.faultAtResume
  split <;> rfl

theorem State.putHeadOut_phase (h : HeadId) (b : Bool) (m : RejoinMode) (s : State) :
    (s.putHeadOut h b m).pc.phase = s.pc.phase := by
  unfold State.putHeadOut
  dsimp only
  split
  · rw [State.abandonShift_shape]; rfl
  · rfl

theorem State.accountGroup_phase (h : HeadId) (c : FaultContext) (r : Resolution) (w : Bool) (s : State) :
    (s.accountGroup h c r w).pc.phase = s.pc.phase := by
  have truncated (d : Nat) : (State.truncate h d s).pc.phase = s.pc.phase := by rw [(State.truncate_only h d s).pc]
  unfold State.accountGroup
  dsimp only
  split
  · rfl
  · split
    · split
      · exact (State.faultAtResume_phase _ _ _).trans (truncated _)
      · split
        · rename_i e; rw [(State.openRequest_only e).pc]
        · exact State.takeHold_phase _ _ _ _ _
    · split <;> rfl
  · split
    · split
      · exact (State.takeHold_phase _ _ _ _ _).trans (truncated _)
      · exact State.takeHold_phase _ _ _ _ _
    · exact State.takeHold_phase _ _ _ _ _

theorem State.applyGroup_phase (h : HeadId) (c : FaultContext) (r : Resolution) (s : State) :
    (s.applyGroup h c r).pc.phase = s.pc.phase := by
  have out : (if r.reaction = .continue_ then s else s.putHeadOut h r.bench r.rejoin).pc.phase = s.pc.phase := by
    split
    · rfl
    · exact State.putHeadOut_phase _ _ _ _
  unfold State.applyGroup
  dsimp only
  have accounted := (State.accountGroup_phase h c r (s.polled h && !s.isOut h) _).trans out
  cases r.cap with
  | none => split <;> exact accounted
  | some cap => split <;> exact accounted

/-- A group of faults leaves the controller at its place in the round (R142 to R145). -/
theorem State.resolveGroup_phase (h : HeadId) (g : List FaultContext) (s : State) :
    (s.resolveGroup h g).pc.phase = s.pc.phase := by
  unfold State.resolveGroup
  split
  · rfl
  · exact State.applyGroup_phase _ _ _ _

/-! ## The accounts of a stitch (R32, R110, R159) -/

theorem Issued.accounts_iff (st : Issued) (l i : Nat) : st.accounts = some (l, i) ↔ Accounts st l i := by
  unfold Issued.accounts Accounts
  cases st.index with
  | none => simp
  | some j =>
  cases st.lowest with
  | none => simp
  | some m =>
  cases st.part with
  | none => simp [and_comm]
  | some p =>
    obtain ⟨k, n⟩ := p
    by_cases last : k = n <;> simp [last, and_comm]

theorem State.sewnThrough_open {c : IssueContext} (h : s.se.context = some c) (i : Nat) : s.sewnThrough i =
    s.setContext { c with frontier := skipPauses (max c.frontier (i + 1)) c.passedPauses } := by
  simp only [State.sewnThrough, h]

theorem FrontierAt.skipPauses (c : IssueContext) (base : Nat) :
    FrontierAt c base (skipPauses base c.passedPauses) := by
  obtain ⟨grows, passed⟩ := skipPauses_passes base c.passedPauses
  exact ⟨grows, passed, fun rising => skipPauses_not_mem rising base⟩

/-- One head's account of n indices from l on: its counters, and in a repair pass its records (R110, R159). -/
def State.countHead (n l : Nat) (repair : Bool) (h : HeadId) (s : State) : State :=
  let s := s.setHead h ((s.head h).count n repair)
  if repair then State.advanceOver h n l s else s

theorem State.countSewn_none {w : Taken} (h : w.stitch.accounts = none) : s.countSewn w = s := by
  simp only [State.countSewn, h]

theorem State.countSewn_some {w : Taken} {l i : Nat} (h : w.stitch.accounts = some (l, i)) : s.countSewn w =
    let v := (s.sewnThrough i).forHeads (fun h => ((s.sewnThrough i).head h).latch)
      (State.countHead (i + 1 - l) l (w.kind == .repair))
    if w.kind == .repair then State.passIndices w.segment (v.frontier - s.frontier) s.frontier v else v := by
  simp only [State.countSewn, h]
  rfl

theorem State.countHead_se (n l : Nat) (repair : Bool) (h : HeadId) (s : State) :
    (State.countHead n l repair h s).se = s.se := by
  unfold State.countHead
  dsimp only
  split
  · rw [(State.advanceOver_only _ _ _ _).se, State.setHead_se]
  · rfl

theorem HeadRecord.count_eq (r : HeadRecord) (n : Nat) (kind : PassKind) : r.count n (kind == .repair) = { r with
    sewn := min (r.sewn + n) 4294967295
    sewnRepair := if kind = .repair then min (r.sewnRepair + n) 4294967295 else r.sewnRepair } := by
  simp only [HeadRecord.count, beq_iff_eq]

/-- A head's records advance over the indices one at a time. -/
theorem State.advanceOver_steps (h : HeadId) (l i : Nat) (s : State) : ∃ a : Nat → State, a l = s ∧
    a (max l (i + 1)) = State.advanceOver h (i + 1 - l) l s ∧ ∀ j, l ≤ j → j ≤ i → a (j + 1) = (a j).advanceRecords h j := by
  refine ⟨fun j => State.advanceOver h (j - l) l s, by simp [State.advanceOver], by dsimp only; congr 1; omega,
    fun j low _ => ?_⟩
  obtain ⟨n, rfl⟩ := Nat.exists_eq_add_of_le low
  dsimp only
  rw [show l + n + 1 - l = n + 1 by omega, State.advanceOver_succ, Nat.add_sub_cancel_left]

theorem State.countHead_phase (n l : Nat) (repair : Bool) (h : HeadId) (s : State) :
    (State.countHead n l repair h s).pc.phase = s.pc.phase := by
  unfold State.countHead
  dsimp only
  split
  · rw [(State.advanceOver_only _ _ _ _).pc, State.setHead_pc]
  · rfl

theorem State.sewnThrough_phase (i : Nat) (s : State) : (s.sewnThrough i).pc.phase = s.pc.phase := by
  unfold State.sewnThrough
  split <;> rfl

theorem State.countSewn_phase (w : Taken) (s : State) : (s.countSewn w).pc.phase = s.pc.phase := by
  cases h : w.stitch.accounts with
  | none => rw [State.countSewn_none h]
  | some range =>
    obtain ⟨l, i⟩ := range
    have heads := (State.forHeads_view (g := fun t => t.pc.phase)
      (p := fun h => ((s.sewnThrough i).head h).latch) (State.countHead_phase (i + 1 - l) l (w.kind == .repair))
      (s.sewnThrough i)).trans (s.sewnThrough_phase i)
    rw [State.countSewn_some h]
    dsimp only
    split
    · rw [(State.passIndices_only _ _ _ _).pc]
      exact heads
    · exact heads

/-- The indices accounted, as the statements tell it. -/
theorem State.countSewn_accounted (s : State) (st : Issued) : Accounted s (s.countSewn
    { stitch := st, segment := s.ds.served.getD 0, kind := s.mp.passKind, completed := true }) st := by
  refine ⟨fun none_ => ?_, fun l i some_ c open_ => ?_⟩
  · refine State.countSewn_none (Option.eq_none_iff_forall_ne_some.2 fun ⟨l, i⟩ e => ?_)
    exact none_ l i ((st.accounts_iff l i).1 e)
  have kind : (s.mp.passKind == .repair) = true ↔ s.mp.passKind = .repair := beq_iff_eq
  have counted := State.countSewn_some (s := s) (w := { stitch := st, segment := s.ds.served.getD 0
                                                        kind := s.mp.passKind, completed := true })
    ((st.accounts_iff l i).2 some_)
  have frontier : s.frontier = c.frontier := by rw [State.frontier, open_]; rfl
  rw [State.sewnThrough_open open_, frontier] at counted
  generalize hf : skipPauses (max c.frontier (i + 1)) c.passedPauses = f at counted
  generalize hu : s.setContext { c with frontier := f } = u at counted
  dsimp only at counted
  rw [counted, ← State.turns_all]
  refine ⟨f, State.turns (fun h => (u.head h).latch) (State.countHead (i + 1 - l) l (s.mp.passKind == .repair)) u,
    hf ▸ FrontierAt.skipPauses c _, hu.symm, fun h => ?_, fun main => if_neg (mt kind.1 main), fun repair => ?_⟩
  · dsimp only
    rw [State.turns_succ, State.turns_zero, State.countHead, HeadRecord.count_eq]
    refine ⟨fun up => if_neg up, fun down main => ?_, fun down repair => ?_⟩
    · rw [if_pos down, if_neg (mt kind.1 main)]
    · rw [if_pos down, if_pos (kind.2 repair)]
      exact State.advanceOver_steps h l i _
  · rw [if_pos (kind.2 repair)]
    have same : (State.turns (fun h => (u.head h).latch)
        (State.countHead (i + 1 - l) l (s.mp.passKind == .repair)) u 16).se = u.se :=
      State.turns_keep (P := fun t => t.se = u.se) (fun h t e => (State.countHead_se _ _ _ h t).trans e) rfl 16
    have reached : (State.turns (fun h => (u.head h).latch)
        (State.countHead (i + 1 - l) l (s.mp.passKind == .repair)) u 16).frontier = f := by
      rw [State.frontier, same, ← hu]
      rfl
    rw [reached]
    exact State.passIndices_passesOver _ _ _ _

/-! ## The bobbins and the storm drain (R125, R128) -/

section
variable (w : Taken) (h : HeadId) (y : State)

/-- What a completed stitch leaves of a head's bobbin. -/
def State.bobbinAfter : Nat :=
  (y.meter h).bobbin - (max w.stitch.dx.natAbs w.stitch.dy.natAbs +
    3 * min w.stitch.dx.natAbs w.stitch.dy.natAbs / 8 + y.par.bobbinAllow)

/-- What a completed stitch makes of a head's meter. -/
def State.meterAfter : Meter :=
  let old := y.meter h
  let drains := y.par.stormLeak ≤ old.stormLeak + 1
  { old with
    bobbin := y.bobbinAfter w h
    lowArmed := old.lowArmed && !decide (y.bobbinAfter w h < y.par.bobbinLowMark)
    storm := if drains then old.storm - 1 else old.storm
    stormLeak := if drains then 0 else old.stormLeak + 1 }

theorem Params.completeStitch_eq : y.par.completeStitch (y.meter h) w.stitch.dx w.stitch.dy = y.meterAfter w h := by
  simp only [Params.completeStitch, decide_eq_true_eq]
  rfl

/-- BOBBIN_LOW is raised once, when the count falls below the mark. -/
theorem State.meterCompletion_eq : State.meterCompletion w h y =
    if (y.meter h).lowArmed = true ∧ y.bobbinAfter w h < y.par.bobbinLowMark then
      (y.setMeter h (y.meterAfter w h)).resolveGroup h
        [⟨.bobbinLow, some w.segment, if w.stitch.index.isSome then w.stitch.index else w.stitch.anchor,
          (y.sel h).current, some w.kind, none, none⟩]
    else y.setMeter h (y.meterAfter w h) := by
  unfold State.meterCompletion
  dsimp only
  rw [Params.completeStitch_eq]
  have armed : (y.meterAfter w h).lowArmed =
    ((y.meter h).lowArmed && !decide (y.bobbinAfter w h < y.par.bobbinLowMark)) := rfl
  have raised : ((y.meter h).lowArmed && !(y.meterAfter w h).lowArmed) = true ↔
      (y.meter h).lowArmed = true ∧ y.bobbinAfter w h < y.par.bobbinLowMark := by
    rw [armed]
    cases (y.meter h).lowArmed <;> simp
  simp only [raised]
  rfl

theorem State.meterCompletion_phase : (State.meterCompletion w h y).pc.phase = y.pc.phase := by
  rw [State.meterCompletion_eq]
  split
  · exact State.resolveGroup_phase _ _ _
  · rfl

end

/-! ## The completion of a stitch (R49, R110) -/

/-- The stitch at the window's front has gone into the commanded position and out of the window. -/
def State.stitchDone (s : State) (st : Issued) (rest : List Planned) : State := { s with
  mp := { s.mp with position := ⟨s.mp.position.x + st.dx, s.mp.position.y + st.dy⟩, move := none, window := rest }
  hs := { s.hs with current := s.hs.current.map fun taken => { taken with completed := true } } }

/-- The stitch as it is accounted. -/
def State.completion (s : State) (st : Issued) : Taken :=
  { stitch := st, segment := s.ds.served.getD 0, kind := s.mp.passKind, completed := true }

/-- The state once the stitch's indices are accounted. -/
def State.stitchCounted (s : State) (st : Issued) (rest : List Planned) : State :=
  (s.stitchDone st rest).countSewn (s.completion st)

/-- The heads whose thread and bobbin a stitch has drawn on: none for a JUMP, else those whose latch was DOWN. -/
def State.drawnOn (v : State) (st : Issued) (h : HeadId) : Bool := !st.jump && (v.head h).latch

theorem State.drawnOn_iff (st : Issued) (h : HeadId) :
    s.drawnOn st h = true ↔ st.jump = false ∧ (s.head h).latch = true := by
  simp [State.drawnOn]

/-- The states between the turns in which the heads' bobbins are counted. -/
def State.drawing (s : State) (st : Issued) (rest : List Planned) : Nat → State :=
  State.turns ((s.stitchCounted st rest).drawnOn st) (State.meterCompletion (s.completion st)) (s.stitchCounted st rest)

theorem State.drawing_succ (s : State) (st : Issued) (rest : List Planned) (h : HeadId) :
    s.drawing st rest (h.val + 1) = if st.jump = false ∧ ((s.drawing st rest 0).head h).latch = true then
      State.meterCompletion (s.completion st) h (s.drawing st rest h.val) else s.drawing st rest h.val := by
  refine (State.turns_succ _ _ _ h).trans ?_
  simp only [State.drawnOn_iff]
  rfl

theorem State.completeStitch_eq {w : Planned} {rest : List Planned} (window : s.mp.window = w :: rest) :
    s.completeStitch = (s.drawing w.stitch rest 16).endOrRefill := by
  simp only [State.completeStitch, window]
  refine congrArg State.endOrRefill (Eq.trans ?_ (State.turns_all _ _ _).symm)
  unfold State.superviseCompletion
  dsimp only
  change (if w.stitch.jump = true then s.stitchCounted w.stitch rest else (s.stitchCounted w.stitch rest).forHeads
    (fun h => ((s.stitchCounted w.stitch rest).head h).latch) (State.meterCompletion (s.completion w.stitch))) = _
  cases jump : w.stitch.jump with
  | true => exact (State.forHeads_id fun h drawn => by simp [State.drawnOn, jump] at drawn).symm
  | false =>
    have heads : (s.stitchCounted w.stitch rest).drawnOn w.stitch =
        fun h => ((s.stitchCounted w.stitch rest).head h).latch := by
      funext h
      simp [State.drawnOn, jump]
    rw [heads]
    rfl

theorem State.fillWindow_pc (n : Nat) (s : State) : (State.fillWindow n s).pc = s.pc := by rw [State.fillWindow_shape]

theorem State.endOrRefill_phase (s : State) : s.endOrRefill.pc.phase = s.pc.phase := by
  unfold State.endOrRefill
  split
  · rfl
  · unfold State.refill
    dsimp only
    split
    · split
      · rw [(State.passIndices_only _ _ _ _).pc, State.fillWindow_pc]
      · rw [State.fillWindow_pc]
    · rw [State.fillWindow_pc]

/-- A part that sews goes on by itself to nothing else. -/
theorem State.waits_sewing (h : s.pc.phase = .sew) : s.microStep = none := by simp only [State.microStep, h]

theorem State.completeStitch_phase {w : Planned} {rest : List Planned} (window : s.mp.window = w :: rest) :
    s.completeStitch.pc.phase = s.pc.phase := by
  rw [State.completeStitch_eq window, State.endOrRefill_phase]
  have drawn : (s.drawing w.stitch rest 16).pc.phase = (s.stitchCounted w.stitch rest).pc.phase :=
    State.turns_keep (P := fun t => t.pc.phase = (s.stitchCounted w.stitch rest).pc.phase)
      (fun h t e => (State.meterCompletion_phase _ h t).trans e) rfl 16
  exact drawn.trans (State.countSewn_phase _ _)

/-! ## MOVE_COMPLETION (R49) -/

theorem exec_moveCompletion_still (acts : Acts s) (still : s.mp.move = none) : exec .moveCompletion s = .next s := by
  show execMoveCompletion s = _
  unfold execMoveCompletion
  rw [whenOperating_of_acts acts, still]

theorem exec_moveCompletion_moving (acts : Acts s) {m : Move} (moving : s.mp.move = some m) :
    exec .moveCompletion s = .next (s.completeMove m).drive := by
  show execMoveCompletion s = _
  unfold execMoveCompletion
  rw [whenOperating_of_acts acts, moving]

theorem exec_moveCompletion_step (acts : Acts s) {m : Move} (moving : s.mp.move = some m) (kind : m.kind = .step) :
    exec .moveCompletion s = .next (s.advancePosition m.dx m.dy).drive := by
  rw [exec_moveCompletion_moving acts moving, State.completeMove, kind]

theorem exec_moveCompletion_retraction (acts : Acts s) {m : Move} (moving : s.mp.move = some m)
    (kind : m.kind = .retraction) : exec .moveCompletion s =
      .next ({ s with mp := { s.mp with move := none, unfinished := none } } : State).drive := by
  rw [exec_moveCompletion_moving acts moving, State.completeMove, kind]

theorem exec_moveCompletion_stitch (acts : Acts s) {m : Move} (moving : s.mp.move = some m) (kind : m.kind = .stitch)
    (phase : s.pc.phase = .sew) {w : Planned} {rest : List Planned} (window : s.mp.window = w :: rest) :
    exec .moveCompletion s = .next s.completeStitch := by
  have waits := State.waits_sewing ((State.completeStitch_phase window).trans phase)
  rw [exec_moveCompletion_moving acts moving, State.completeMove, kind]
  dsimp only
  rw [State.drive_waits waits]

/-- Settles O48: a move completes by its kind, and what the part then goes on to is a step of the travel, its end, or a
begin-pass request. -/
theorem moveCompletionMoves : Obligations.MoveCompletionMoves := by
  intro s acts event steps rested
  refine ⟨exec_moveCompletion_still acts, fun m a moving kind phase mode => ?_, fun m moving kind mode => ?_,
    fun m w rest moving kind phase mode window => ?_⟩
  · intro moved
    have completes : event = .next moved.drive := exec_moveCompletion_step acts moving kind
    refine ⟨completes, fun d rest plan par time => ?_, fun plan => ⟨fun due => ?_, fun c due => ?_⟩⟩
    · rw [completes, State.drive_step (s := moved) phase mode rfl plan par time]
      rfl
    · have next : moved.microStep = some (moved.travelComplete a) := State.microStep_travelComplete phase mode rfl plan
      obtain ⟨rests, due', at_⟩ := State.travelComplete_rests (s := moved) due a
      refine ⟨_, State.travelComplete_arrived (s := moved) due a, fun turning => ?_, fun v then_ waits => ?_⟩
      · rw [completes, State.drive_once next]
        refine State.waits_turning (by rw [rests]; rfl) (by rw [rests]; exact turning) due' ?_
        exact at_.imp id fun e => ⟨a, e.trans phase⟩
      · rw [completes, State.drive_twice next then_ waits]
    · have next : moved.microStep = some (moved.toRest.abandonTravel.enterHalted c moved.stands) := by
        rw [State.microStep_travelComplete (s := moved) phase mode rfl plan, State.travelComplete_due (s := moved) due]
      refine ⟨_, s.stands.1, s.stands.2, ?_, s.stands_standsAt, State.enterHalted_halts _ c _ _⟩
      rw [completes, State.drive_once next]
      · rfl
      · rw [State.enterHalted_shape]
        rfl
  · intro back
    have completes : event = .next back.drive := exec_moveCompletion_retraction acts moving kind
    refine ⟨completes, fun a d rest phase plan par time => ?_, fun a phase => ?_⟩
    · rw [completes, State.drive_step (s := back) phase mode rfl plan par time]
      rfl
    · have next : back.microStep = some (rested back) := by
        simp only [State.microStep, back, phase, State.stepBegin, mode]
        rfl
      refine ⟨fun due turning => ?_, fun v then_ waits => ?_⟩
      · rw [completes, State.drive_once next (State.waits_turning rfl turning due (.inl ⟨a, phase⟩))]
      · rw [completes, State.drive_twice next then_ waits]
  · intro st small length
    have completes : event = .next s.completeStitch := exec_moveCompletion_stitch acts moving kind phase window
    rw [State.completeStitch_eq window] at completes
    refine ⟨s.drawing st rest, _, completes, State.countSewn_accounted (s.stitchDone st rest) st, fun h => ?_,
      fun ends => if_pos ends, fun on => ?_⟩
    · dsimp only
      rw [State.drawing_succ, State.meterCompletion_eq]
      exact ⟨fun up => if_neg up, fun sews calm => (if_pos sews).trans (if_neg calm),
        fun sews armed low => (if_pos sews).trans (if_pos ⟨armed, low⟩)⟩
    · rw [State.endOrRefill, if_neg on]
      exact State.refill_refilled _

end Sys2Proof.Machine
end

section
/-! PROOF. The soundness of the Motion Planner, and the requests FRAME_SET and TABLE_WRITE. -/

open Sys2Proof.Claims

namespace Sys2Proof.Machine

variable {s : State}

/-- Settles O6: the Motion Planner is one of the blocks every step keeps sound. -/
theorem motionStaysSound : Obligations.MotionStaysSound :=
  fun _ _ sound h => (step_keeps h).motion sound

/-! ## FRAME_SET (R56) -/

theorem PassState.settable_iff (p : PassState) : p.settable = true ↔ p = .idle ∨ p = .standby ∨ p = .halted := by
  cases p <;> simp [PassState.settable]

theorem exec_frameSet (acts : Acts s) (x y : BitVec 16) : exec (.frameSet x y) s =
    .next (s.unless [(!s.pc.state.settable, .busy), (!s.inField ⟨x.toInt, y.toInt⟩, .outOfField)] fun s =>
      done [] { s with mp := { s.mp with position := ⟨x.toInt, y.toInt⟩, referenced := true, unfinished := none } }) := by
  show execFrameSet x y s = _
  unfold execFrameSet
  rw [whenOperating_of_acts acts]
  rfl

/-- Settles O21: the refusals in their order, and otherwise the position is set. -/
theorem frameSetSetsPosition : Obligations.FrameSetSetsPosition := by
  intro x y s acts settable inField
  have state : s.pc.state.settable = true ↔ settable := s.pc.state.settable_iff
  have field : s.inField ⟨x.toInt, y.toInt⟩ = true ↔ inField := State.inField_iff _
  rw [exec_frameSet acts]
  refine ⟨fun busy => ?_, fun rests outside => ?_, fun rests inside => ?_⟩
  · rw [State.unless_refused]
    simp [mt state.1 busy]
  · rw [State.unless_refused]
    simp [state.2 rests, mt field.1 outside]
  · rw [State.unless_carriedOut]
    simp [state.2 rests, field.2 inside]

/-! ## TABLE_WRITE (R38) -/

/-- The refusals of TABLE_WRITE in their order. -/
def State.tableWriteRefusals (s : State) (axis first count : Byte) : List (Bool × Reason) :=
  [ (!s.pc.state.settable, .busy),
    (decide (1 < axis.toNat) || decide (127 < first.toNat) || decide (count.toNat < 1) ||
      decide (32 < count.toNat) || decide (128 < first.toNat + count.toNat), .badArgument) ]

/-- The entries of a table after a TABLE_WRITE. -/
def tableWritten (table : List Nat) (first count : Byte) (entries : List (BitVec 16)) : List Nat :=
  replaceFrom table first.toNat ((entries.take count.toNat).map (·.toNat))

theorem exec_tableWrite (acts : Acts s) (axis first count : Byte) {entries : List (BitVec 16)}
    (carried : entries.length = 32) : exec (.tableWrite axis first count entries) s =
      .next (s.unless (s.tableWriteRefusals axis first count) fun s => done [] { s with mp := { s.mp with
        tableX := if axis = 0 then tableWritten s.mp.tableX first count entries else s.mp.tableX
        tableY := if axis = 0 then s.mp.tableY else tableWritten s.mp.tableY first count entries } }) := by
  show execTableWrite axis first count entries s = _
  unfold execTableWrite
  rw [whenOperating_of_acts acts, if_pos (by simp [Instr.wellFormed, carried])]
  refine congrArg (fun f => Host.Outcome.next (s.unless (s.tableWriteRefusals axis first count) f)) (funext fun s => ?_)
  by_cases x : axis = 0
  · simp only [x, if_true]; rfl
  · simp only [x, if_false]; rfl

/-- An entry after a TABLE_WRITE within the table: the one sent for it, or the one before. -/
theorem getElem?_tableWritten {table : List Nat} {first count : Byte} {entries : List (BitVec 16)}
    (length : table.length = 128) (carried : entries.length = 32) (few : count.toNat ≤ 32)
    (within : first.toNat + count.toNat ≤ 128) (d : Nat) : (tableWritten table first count entries)[d]? =
      if first.toNat ≤ d ∧ d < first.toNat + count.toNat then (entries[d - first.toNat]?).map (·.toNat)
      else table[d]? := by
  have sent : ((entries.take count.toNat).map (·.toNat)).length = count.toNat := by simp; omega
  rw [tableWritten, replaceFrom_get _ _ _ _ (by omega), sent]
  by_cases named : first.toNat ≤ d ∧ d < first.toNat + count.toNat
  · rw [if_pos named, if_pos named, List.getElem?_map, List.getElem?_take_of_lt (by omega)]
  · rw [if_neg named, if_neg named]

/-- Settles O20: the refusals in their order, and otherwise the entries named are replaced. -/
theorem tableEntriesAreReplaced : Obligations.TableEntriesAreReplaced := by
  intro axis first count entries s acts sound carried settable inRange written
  have state : s.pc.state.settable = true ↔ settable := s.pc.state.settable_iff
  rw [exec_tableWrite acts axis first count carried]
  refine ⟨fun busy => ?_, fun rests outside => ?_, fun rests inside => ?_⟩
  · rw [State.unless_refused]
    simp [State.tableWriteRefusals, mt state.1 busy]
  · rw [State.unless_refused]
    simp only [State.tableWriteRefusals, firstReason_cons, state.2 rests, Bool.or_eq_true, decide_eq_true_eq]
    rw [if_neg (by simp), if_pos (by omega)]
  · obtain ⟨-, -, lengthX, lengthY⟩ := sound
    obtain ⟨axes, -, -, few, within⟩ := id inside
    rw [State.unless_carriedOut]
    · refine ⟨_, rfl, rfl, fun d => ?_⟩
      have entryX := getElem?_tableWritten lengthX carried few within d
      have entryY := getElem?_tableWritten lengthY carried few within d
      by_cases x : axis = 0
      · subst x
        exact ⟨entryX, rfl⟩
      · have y : axis = 1 := by bv_omega
        subst y
        exact ⟨rfl, entryY⟩
    · simp only [State.tableWriteRefusals, firstReason_cons, state.2 rests, Bool.or_eq_true, decide_eq_true_eq]
      rw [if_neg (by simp), if_neg (by omega)]
      rfl

end Sys2Proof.Machine
end

section
/-! PROOF. The requests CONFIG_WRITE and CONFIG_READ on the limits of the frame field and on the sets, with the
refusals of both. -/

open Sys2Proof.Claims

namespace Sys2Proof.Machine

variable {s : State}

/-! ## CONFIG_READ (R175) -/

theorem configKind_absent_iff (i : Nat) : configKind i = .absent ↔ i = 0 ∨ 38 < i := by
  unfold configKind
  grind

theorem configKind_field {i : Nat} (low : 15 ≤ i) (high : i ≤ 18) : configKind i = .field := by
  unfold configKind
  grind

theorem configKind_set {i : Nat} (low : 36 ≤ i) (high : i ≤ 38) : configKind i = .set := by
  unfold configKind
  grind

theorem exec_configRead_absent (acts : Acts s) {ident : Byte} (absent : configKind ident.toNat = .absent) :
    exec (.configRead ident) s = .next (refused .badArgument s) := by
  show execConfigRead ident s = _
  unfold execConfigRead
  rw [whenOperating_of_acts acts, State.unless_refused]
  simp [absent]

theorem exec_configRead_present (acts : Acts s) {ident : Byte} (present : configKind ident.toNat ≠ .absent) :
    exec (.configRead ident) s = .next (done (s.configValue ident) s) := by
  show execConfigRead ident s = _
  unfold execConfigRead
  rw [whenOperating_of_acts acts, State.unless_carriedOut]
  · rfl
  · simp [present]

theorem carries_beBytes (w : Nat) (v : Int) : Carries (beBytes w v) 0 w v := by
  refine ⟨by simp [beBytes_length], ?_⟩
  rw [List.drop_zero, List.take_of_length_le (beBytes_length w v).le, ofBytes_beBytes]

/-- CONFIG_READ of a parameter of 2 bytes. -/
theorem exec_configRead_two (acts : Acts s) {ident : Byte} {v : Int} (present : configKind ident.toNat ≠ .absent)
    (value : s.configValue ident = beBytes 2 v) :
    ∃ p, exec (.configRead ident) s = .next (done p s) ∧ p.length = 2 ∧ Carries p 0 2 v :=
  ⟨beBytes 2 v, by rw [exec_configRead_present acts present, value], beBytes_length 2 v, carries_beBytes 2 v⟩

/-! ## CONFIG_WRITE (R175) -/

/-- The refusals of CONFIG_WRITE in their order. -/
def State.configWriteRefusals (s : State) (i : Nat) : List (Bool × Reason) :=
  [(configKind i == .absent, .badArgument), (!s.pc.state.writable i, .busy)]

theorem exec_configWrite (acts : Acts s) {ident : Byte} {value : BitVec 24} (narrow : value.toNat < 65536) :
    exec (.configWrite ident value) s = .next (s.unless (s.configWriteRefusals ident.toNat) fun s =>
      match configKind ident.toNat with
      | .number => s.writeNumber ident.toNat value.toNat
      | .field => s.writeField ident.toNat (value.setWidth 16).toInt
      | .set => s.writeSet ident.toNat (value.setWidth 16)
      | .absent => s) := by
  show execConfigWrite ident value s = _
  unfold execConfigWrite
  rw [whenOperating_of_acts acts, if_pos]
  · rfl
  · refine decide_eq_true (narrow.trans_le (Nat.pow_le_pow_right (n := 256) (i := 2) (by decide) ?_))
    unfold configWidth
    split <;> decide

theorem exec_configWrite_absent (acts : Acts s) {ident : Byte} {value : BitVec 24} (narrow : value.toNat < 65536)
    (absent : configKind ident.toNat = .absent) :
    exec (.configWrite ident value) s = .next (refused .badArgument s) := by
  rw [exec_configWrite acts narrow, State.unless_refused]
  simp [State.configWriteRefusals, absent]

theorem exec_configWrite_busy (acts : Acts s) {ident : Byte} {value : BitVec 24} (narrow : value.toNat < 65536)
    (present : configKind ident.toNat ≠ .absent) (busy : s.pc.state.writable ident.toNat = false) :
    exec (.configWrite ident value) s = .next (refused .busy s) := by
  rw [exec_configWrite acts narrow, State.unless_refused]
  simp [State.configWriteRefusals, present, busy]

theorem exec_configWrite_field (acts : Acts s) {ident : Byte} {value : BitVec 24} (narrow : value.toNat < 65536)
    (field : configKind ident.toNat = .field) (free : s.pc.state.writable ident.toNat = true) :
    exec (.configWrite ident value) s = .next (s.writeField ident.toNat (value.setWidth 16).toInt) := by
  rw [exec_configWrite acts narrow, State.unless_carriedOut, field]
  simp [State.configWriteRefusals, field, free]

theorem exec_configWrite_set (acts : Acts s) {ident : Byte} {value : BitVec 24} (narrow : value.toNat < 65536)
    (set : configKind ident.toNat = .set) (free : s.pc.state.writable ident.toNat = true) :
    exec (.configWrite ident value) s = .next (s.writeSet ident.toNat (value.setWidth 16)) := by
  rw [exec_configWrite acts narrow, State.unless_carriedOut, set]
  simp [State.configWriteRefusals, set, free]

/-- A limit of the frame field is written in IDLE alone (R58). -/
theorem PassState.writable_field (p : PassState) {i : Nat} (low : 15 ≤ i) (high : i ≤ 18) :
    p.writable i = true ↔ p = .idle := by
  rw [PassState.writable, if_neg (by omega), if_pos ⟨low, high⟩, beq_iff_eq]

theorem PassState.writable_set (p : PassState) {i : Nat} (low : 36 ≤ i) : p.writable i = true := by
  rw [PassState.writable, if_neg (by omega), if_neg (by omega)]

/-- An editor or motion parameter is written in IDLE, STANDBY and HALTED (R175). -/
theorem PassState.writable_motion (p : PassState) {i : Nat} (low : 3 ≤ i) (high : i ≤ 14) :
    p.writable i = true ↔ p = .idle ∨ p = .standby ∨ p = .halted := by
  rw [PassState.writable, if_pos ⟨low, high⟩, PassState.settable_iff]

/-! ## The limits of the frame field (R58) -/

/-- The parameters with the limit of an identifier at a value, as the statement tells it. -/
theorem Params.putField_eq (p : Params) (i : Nat) (v : Int) : p.putField i v = { p with
    fieldXLow := if i = 15 then v else p.fieldXLow
    fieldXHigh := if i = 16 then v else p.fieldXHigh
    fieldYLow := if i = 17 then v else p.fieldYLow
    fieldYHigh := if i = 18 then v else p.fieldYHigh } := by
  unfold Params.putField
  split
  · rfl
  · rfl
  · rfl
  · rfl
  · rename_i xLow xHigh yLow yHigh
    rw [if_neg xLow, if_neg xHigh, if_neg yLow, if_neg yHigh]

theorem Params.stored_putField (p : Params) {i : Nat} (low : 15 ≤ i) (high : i ≤ 18) (v : Int) :
    stored (p.putField i v) i = some v ∧ (p.putField i v).get i = v := by
  interval_cases i <;> exact ⟨rfl, rfl⟩

/-- The value of a limit as CONFIG_READ sends it. -/
theorem State.configValue_field {ident : Byte} (low : 15 ≤ ident.toNat) (high : ident.toNat ≤ 18) :
    s.configValue ident = beBytes 2 (s.par.get ident.toNat) := by
  have width : configWidth ident = 2 := by
    refine if_neg ?_
    rintro rfl
    exact absurd high (by decide)
  unfold State.configValue
  rw [width]
  split
  · omega
  · omega
  · omega
  · rfl

/-- The refusals of the write of a limit in their order (R58). -/
def State.writeFieldRefusals (s : State) (p : Params) : List (Bool × Reason) :=
  [(p.fieldCrossed, .badArgument), (s.mp.referenced && !(s.setParams p).inField s.mp.position, .outOfField)]

theorem State.writeField_eq (i : Nat) (v : Int) : s.writeField i v =
    s.unless (s.writeFieldRefusals (s.par.putField i (clampInt (-16000) 16000 v))) fun s =>
      (s.setParams (s.par.putField i (clampInt (-16000) 16000 v))).stored (clampInt (-16000) 16000 v != v) := rfl

/-! ## The sets (R135, R177) -/

/-- The set that an identifier names. -/
def State.configSet (s : State) (ident : Byte) : BitVec 16 :=
  if ident = 36 then s.fr.enable else if ident = 37 then s.fr.countSelect else s.rl.enable

theorem set_ident {ident : Byte} (low : 36 ≤ ident.toNat) (high : ident.toNat ≤ 38) :
    ident = 36 ∨ ident = 37 ∨ ident = 38 := by bv_omega

theorem State.configValue_set {ident : Byte} (low : 36 ≤ ident.toNat) (high : ident.toNat ≤ 38) :
    s.configValue ident = beBytes 2 (s.configSet ident).toNat := by
  rcases set_ident low high with rfl | rfl | rfl <;> rfl

/-- The state with the set of an identifier at a value. -/
def State.withSet (s : State) (ident : Byte) (set : BitVec 16) : State := { s with
  fr := { s.fr with
    enable := if ident = 36 then set else s.fr.enable
    countSelect := if ident = 37 then set else s.fr.countSelect }
  rl := { s.rl with enable := if ident = 38 then set else s.rl.enable } }

/-- A set is written whole, the members that do not exist left out. -/
theorem State.writeSet_eq {ident : Byte} (low : 36 ≤ ident.toNat) (high : ident.toNat ≤ 38) (v : BitVec 16) :
    s.writeSet ident.toNat v = State.done [] (s.withSet ident (v &&& (if ident = 38 then 0x007F else 0x1FFF))) := by
  rcases set_ident low high with rfl | rfl | rfl <;> rfl

theorem State.configSet_withSet {ident : Byte} (low : 36 ≤ ident.toNat) (high : ident.toNat ≤ 38) (set : BitVec 16) :
    (s.withSet ident set).configSet ident = set := by
  rcases set_ident low high with rfl | rfl | rfl <;> rfl

/-- Settles O19: a limit of the field is clamped, checked and stored; a set is stored whole; the identifiers and the
states that are refused. -/
theorem fieldLimitsSetsAndRefusals : Obligations.FieldLimitsSetsAndRefusals := by
  refine ⟨fun ident value s acts low high narrow => ?_, fun ident s acts low high => ?_,
    fun ident value s acts narrow => ⟨fun low high => ?_, fun absent => ?_, fun low high idle standby halted => ?_⟩⟩
  · intro sent v limit xLow xHigh yLow yHigh crossed outside
    have field := configKind_field low high
    have free := s.pc.state.writable_field low high
    have put := s.par.putField_eq ident.toNat v
    have crosses : (s.par.putField ident.toNat v).fieldCrossed = true ↔ crossed := by
      rw [put]
      simp only [Params.fieldCrossed, Bool.or_eq_true, decide_eq_true_eq]
      rfl
    have leaves : (s.mp.referenced && !(s.setParams (s.par.putField ident.toNat v)).inField s.mp.position) = true ↔
        outside := by
      rw [put, Bool.and_eq_true, Bool.not_eq_true', ← Bool.not_eq_true, State.inField_iff]
      rfl
    have writes (idle : s.pc.state = .idle) : exec (.configWrite ident value) s =
        .next (s.unless (s.writeFieldRefusals (s.par.putField ident.toNat v)) fun s =>
          (s.setParams (s.par.putField ident.toNat v)).stored (v != sent)) :=
      exec_configWrite_field acts narrow field (free.2 idle)
    refine ⟨fun busy => ?_, fun idle cross => ?_, fun idle apart out => ?_, fun idle apart within => ?_⟩
    · exact exec_configWrite_busy acts narrow (by simp [field]) (by simpa using mt free.1 busy)
    · rw [writes idle, State.unless_refused]
      simp [State.writeFieldRefusals, crosses.2 cross]
    · rw [writes idle, State.unless_refused]
      simp only [State.writeFieldRefusals, firstReason_cons, crosses, leaves, if_neg apart, if_pos out]
    · rw [writes idle, State.unless_carriedOut]
      · obtain ⟨kept, get⟩ := s.par.stored_putField low high v
        obtain ⟨p, reads, length, carries⟩ := exec_configRead_two (v := v)
          (s := (s.setParams (s.par.putField ident.toNat v)).stored (v != sent)) acts (ident := ident) (by simp [field])
          (by rw [State.configValue_field low high]; exact congrArg (beBytes 2) get)
        refine ⟨_, p, rfl, ?_, ?_, kept, reads, length, carries⟩
        · rw [put]
          rfl
        · show Slot.ready _ = _
          simp only [bne_iff_ne, ne_eq, ite_not]
      · simp only [State.writeFieldRefusals, firstReason_cons, crosses, leaves, if_neg apart, if_neg within, firstReason_nil]
  · exact exec_configRead_two acts (by simp [configKind_set low high]) (State.configValue_set low high)
  · intro set
    have present := configKind_set low high
    obtain ⟨p, reads, length, carries⟩ := exec_configRead_two (s := s.withSet ident set) acts (ident := ident)
      (by simp [present]) (State.configValue_set low high)
    rw [State.configSet_withSet low high] at carries
    refine ⟨s.withSet ident set, p, ?_, rfl, reads, length, carries⟩
    rw [exec_configWrite_set acts narrow present (s.pc.state.writable_set low), State.writeSet_eq low high]
    rfl
  · rw [← configKind_absent_iff] at absent
    exact ⟨exec_configWrite_absent acts narrow absent, exec_configRead_absent acts absent⟩
  · refine exec_configWrite_busy acts narrow (fun absent => ?_) ?_
    · rw [configKind_absent_iff] at absent
      omega
    · simpa [idle, standby, halted] using mt (s.pc.state.writable_motion low high).1

end Sys2Proof.Machine
end

section
/-! PROOF. The immediate halt as the statements tell it (R54, R76 to R78, R93, R95, R161): the orders abandoned, the
pulses owed, the resume context kept or formed, service and a repair pass ended. -/

open Sys2Proof.Claims

namespace Sys2Proof.Machine

variable {s t u : State} {c : HaltCause}

/-! ## The orders abandoned (R93, R95) -/

/-- The needle that a head is sent once its orders are abandoned: that of its case, or the current one while its shift
has named none. -/
def needleKept (r : HeadRecord) (x : SelectorHead) : Option NeedleId :=
  match x.shift with
  | none => r.selectNeedle
  | some y => if y.named then r.selectNeedle else x.current

theorem State.abandonShift_selectNeedle (h : HeadId) (s : State) :
    ((s.abandonShift h).head h).selectNeedle = needleKept (s.head h) (s.sel h) := by
  unfold State.abandonShift needleKept
  cases e : (s.sel h).shift with
  | none => rfl
  | some y =>
    dsimp only
    by_cases named : y.named = true
    · rw [if_pos named, if_pos named]
      rfl
    · rw [if_neg named, if_neg named, State.head_congr (State.setSel_hs _ _ _), State.head_setHead_self]

theorem State.dropOrders_head_self (h : HeadId) (s : State) : (s.dropOrders h).head h =
    { s.head h with state := beforeShift (s.head h).state, selectNeedle := needleKept (s.head h) (s.sel h) } := by
  have needle : ((s.dropOrders h).head h).selectNeedle = needleKept (s.head h) (s.sel h) := by
    unfold State.dropOrders
    dsimp only
    rw [State.head_congr (State.setSel_hs _ _ _), State.setHeadState, State.head_setHead_self]
    exact s.abandonShift_selectNeedle h
  rw [State.dropOrders_head, if_pos rfl, needle]

theorem State.dropOrders_head_other {h g : HeadId} (e : g ≠ h) (s : State) : (s.dropOrders h).head g = s.head g := by
  unfold State.dropOrders
  dsimp only
  rw [State.head_congr (State.setSel_hs _ _ _), State.setHeadState, State.head_setHead, if_neg e]
  unfold State.abandonShift
  split
  · rfl
  · dsimp only
    split
    · rfl
    · rw [State.head_congr (State.setSel_hs _ _ _), State.head_setHead, if_neg e]

/-- What the link holds of a head once its orders are abandoned. -/
def ordersDropped (x : HeadRecord × SelectorHead) : HeadRecord × SelectorHead :=
  ({ x.1 with state := beforeShift x.1.state, selectNeedle := needleKept x.1 x.2 },
    { x.2 with current := if x.2.shift = none then x.2.current else none, shift := none, trim := none })

theorem State.abandonOrders_head_eq (s : State) (h : HeadId) : s.abandonOrders.head h =
    { s.head h with state := beforeShift (s.head h).state, selectNeedle := needleKept (s.head h) (s.sel h) } := by
  have own (h : HeadId) (t : State) :
      ((t.dropOrders h).head h, (t.dropOrders h).sel h) = ordersDropped (t.head h, t.sel h) := by
    rw [t.dropOrders_head_self h, State.dropOrders_sel, if_pos rfl]
    rfl
  have other (h k : HeadId) (t : State) (e : k ≠ h) :
      ((t.dropOrders h).head k, (t.dropOrders h).sel k) = (t.head k, t.sel k) := by
    rw [t.dropOrders_head_other e, State.dropOrders_sel, if_neg e]
  have both : ((s.forHeads (fun _ => true) State.dropOrders).head h, (s.forHeads (fun _ => true) State.dropOrders).sel h) =
      ordersDropped (s.head h, s.sel h) :=
    (State.forHeads_at (g := fun t h => (t.head h, t.sel h)) (fun _ => ordersDropped) own other s h).trans (if_pos rfl)
  unfold State.abandonOrders
  rw [State.forgetTrims_head]
  exact (Prod.mk.inj both).1

theorem beforeShift_shifting (b : Bool) : beforeShift (.shifting b) = if b then .rejoinWait else .active := by
  cases b <;> rfl

theorem beforeShift_other {st : HeadState} (h : ∀ b, st ≠ .shifting b) : beforeShift st = st := by
  cases st with
  | shifting b => exact absurd rfl (h b)
  | _ => rfl

/-! ## The pulses owed (R54) -/

theorem State.unfinishedAfterStop_owes (s : State) : Owes s s.unfinishedAfterStop := by
  unfold State.unfinishedAfterStop
  refine ⟨fun still => by rw [still], fun m moving kind => ?_, fun m p moving kind owed => ?_⟩
  · rw [moving]
    dsimp only
    cases e : m.kind with
    | retraction => exact absurd e kind
    | stitch => rfl
    | step => rfl
  · rw [moving]
    dsimp only
    rw [kind, owed]
    rfl

/-! ## The end of a repair pass (R161) -/

/-- The end of a repair pass makes of the Repair Table and of the sticky causes what these alone decide. -/
theorem State.endRepairPass_congr (rt : t.rt = s.rt) (rl : t.rl = s.rl) :
    t.endRepairPass.rt = s.endRepairPass.rt ∧ t.endRepairPass.rl.sticky = s.endRepairPass.rl.sticky := by
  have heads (v : State) : ∃ hs, (v.settleRecords.forHeads (fun _ => true) fun h s =>
      s.setHead h { s.head h with ranges := [] }) = { v.settleRecords with hs := { v.hs with heads := hs } } :=
    State.forHeads_setHead_shape _ (fun t h => { t.head h with ranges := [] }) v.settleRecords
  obtain ⟨hs, shape⟩ := heads s
  obtain ⟨hs', shape'⟩ := heads t
  unfold State.endRepairPass
  dsimp only
  rw [shape, shape', rt]
  split
  · simp only [State.raise, State.settleRecords, rt, rl, and_self]
  · simp only [State.settleRecords, rt, rl, and_self]

theorem ServiceEnds.of_same (h : ServiceEnds u t) (ds : u.ds = s.ds) (state : u.pc.state = s.pc.state) :
    ServiceEnds s t := by
  have find (n : Nat) : u.findSeg n = s.findSeg n := State.findSeg_congr (by rw [ds]) n
  unfold ServiceEnds at h ⊢
  simpa only [ds, state, find] using h

/-! ## The immediate halt (R76) -/

theorem moving_of_atWork (h : AtWork s) : s.pc.state.moving = true := by
  rcases h with e | e | e | e | e <;> rw [e] <;> rfl

theorem State.immediateHalt_moving (h : s.pc.state.moving = true) (c : HaltCause) :
    s.immediateHalt c = s.noteStop.immediateStop.abandonOrders.enterHalted c s.stands := if_pos h

/-- What the stop before a halt leaves of the blocks that the entry to HALTED reads. -/
theorem State.stopped_blocks (s : State) : s.noteStop.immediateStop.abandonOrders.ds = s.ds ∧
    s.noteStop.immediateStop.abandonOrders.pc = s.noteStop.pc ∧ s.noteStop.immediateStop.abandonOrders.rt = s.rt ∧
    s.noteStop.immediateStop.abandonOrders.rl = s.rl := by
  rw [State.stopped_shape]
  exact ⟨rfl, rfl, rfl, rfl⟩

/-- The controller's record as an immediate halt leaves it. -/
theorem State.immediateHalt_pc (h : s.pc.state.moving = true) : (s.immediateHalt c).pc =
    { (s.noteStop.formContext s.stands).pc with state := .halted, cause := c, due := none, phase := .rest } := by
  rw [State.immediateHalt_shape s c h]

theorem inSet_or (a b : HeadSet) (h : HeadId) : inSet (a ||| b) h = (inSet a h || inSet b h) := BitVec.getLsbD_or

theorem State.noteStop_owedTrims (s : State) (h : HeadId) : inSet s.noteStop.pc.owedTrims h = true ↔
    inSet s.pc.owedTrims h = true ∨ Repairing s ∧ (s.head h).inTrim = true := by
  rw [← State.inRepairPass_iff]
  unfold State.noteStop
  dsimp only
  split
  case isTrue repairing => simp [inSet_or, State.trimSet, inSet_headSetOf, repairing]
  case isFalse apart => simp [apart]

theorem State.noteStop_wasMoving (s : State) : s.noteStop.pc.wasMoving = true ↔
    s.pc.wasMoving = true ∨ s.pc.phase = .sew ∧ s.mp.passKind = .main := by
  simp [State.noteStop]

/-- What a halt finds of the resume context is kept; otherwise it is formed where the halt finds the controller. -/
theorem State.immediateHalt_kept (h : s.pc.state.moving = true) (c : HaltCause) : Kept s (s.immediateHalt c) := by
  have stands := s.stands_standsAt
  have pc := State.immediateHalt_pc (c := c) h
  have shape := congrArg State.pc (s.noteStop.formContext_shape s.stands)
  have moving := s.noteStop_wasMoving
  have owed := s.noteStop_owedTrims
  unfold Kept
  rw [pc]
  refine ⟨fun p held => ?_, fun fresh => ?_, by rw [shape]; rfl, by rw [shape]; exact moving,
    fun g => by rw [shape]; exact owed g⟩
  · rw [State.formContext_held (s := s.noteStop) (by simp [State.noteStop, held])]
    exact ⟨held, rfl, rfl⟩
  · generalize s.stands = at_ at stands
    obtain ⟨p, b⟩ := at_
    rw [State.formContext_new (s := s.noteStop) (by simp [State.noteStop, fresh])]
    refine ⟨p, rfl, stands, fun ⟨g, k, e⟩ => by rw [e]; rfl, fun apart g => ?_⟩
    rw [if_neg (ResumePoint.not_isStitch apart)]
    exact Vector.getElem_map _ g.isLt

/-- The entry to HALTED empties the heads' repair ranges where a repair pass ends. -/
theorem State.enterHalted_head_eq (s : State) (c : HaltCause) (at_ : ResumePoint × Bool) (h : HeadId) :
    (s.enterHalted c at_).head h = { s.head h with ranges := if s.rt.pass = none then (s.head h).ranges else [] } := by
  cases pass : s.rt.pass with
  | none => exact State.head_congr (s.enterHalted_noPass c at_ pass).2.1 h
  | some p =>
    have ends : s.rt.pass.isSome = true := by rw [pass]; rfl
    exact (State.head_congr (s.enterHalted_passEnds c at_ ends).2.1 h).trans (s.endRepairPass_head h)

/-- What an immediate halt leaves of a head (R93, R95, R109). -/
theorem State.immediateHalt_head_eq (hm : s.pc.state.moving = true) (c : HaltCause) (h : HeadId) :
    (s.immediateHalt c).head h = { s.head h with
      state := beforeShift (s.head h).state
      selectNeedle := needleKept (s.head h) (s.sel h)
      ranges := if s.rt.pass = none then (s.head h).ranges else [] } := by
  obtain ⟨-, -, rt, -⟩ := s.stopped_blocks
  rw [State.immediateHalt_moving hm, State.enterHalted_head_eq, rt, State.abandonOrders_head_eq]
  rfl

/-- An immediate halt is the one the statements tell of. -/
theorem State.immediateHalt_haltedAtOnce (work : AtWork s) (c : HaltCause) : HaltedAtOnce s (s.immediateHalt c) c := by
  have hm := moving_of_atWork work
  obtain ⟨ds, pc, rt, rl⟩ := s.stopped_blocks
  have shape := s.immediateHalt_shape c hm
  have ends : ServiceEnds s (s.immediateHalt c) := by
    rw [State.immediateHalt_moving hm]
    exact ServiceEnds.of_same (State.enterHalted_serviceEnds _ c _) ds ((congrArg Pass.state pc).trans rfl)
  refine ⟨by rw [shape], by rw [shape], by rw [shape], by rw [shape], by rw [shape], ?_, State.immediateHalt_kept hm c,
    s.immediateHalt_raises c hm, by rw [shape], by rw [shape]; rfl, ?_, ends, by rw [shape], by rw [shape],
    fun h => ⟨s.immediateHalt_sel c hm h, ?_⟩, fun apart => ?_, fun pass => ?_⟩
  · rw [State.immediateHalt_pc hm, State.formContext_shape]
    rfl
  · rw [shape]
    exact s.unfinishedAfterStop_owes
  · rw [State.immediateHalt_head_eq hm]
    refine ⟨rfl, fun none_ => ?_, fun x shift => ?_, fun b shifting => ?_, fun other => beforeShift_other other⟩
    · simp only [needleKept, none_]
    · simp only [needleKept, shift]
    · simp only [shifting, beforeShift_shifting]
  · rw [State.immediateHalt_moving hm]
    obtain ⟨rt', -, sticky⟩ := State.enterHalted_noPass _ c s.stands ((congrArg Repairs.pass rt).trans apart)
    rw [rt', sticky, rt, rl]
    exact ⟨rfl, rfl⟩
  · rw [State.immediateHalt_moving hm]
    obtain ⟨rt', -, sticky⟩ := State.enterHalted_passEnds _ c s.stands
      ((congrArg (fun r : Repairs => r.pass.isSome) rt).trans pass)
    obtain ⟨rtEq, stickyEq⟩ := State.endRepairPass_congr rt rl
    rw [rt', sticky, rtEq, stickyEq]
    exact ⟨rfl, rfl⟩

end Sys2Proof.Machine
end

section
/-! PROOF. An exchange on the head link (R100, R186): the command a polled head is sent and its CRC, the orders carried
one exchange further. -/

open Sys2Proof.Claims

namespace Sys2Proof.Machine

variable {s t : State}

/-! ## The CRC of a message (R181) -/

/-- A shift of the register that brings no bit out of it doubles it. -/
theorem crcShift_small {r : BitVec 16} (h : r.toNat < 32768) : (crcShift r).toNat = 2 * r.toNat := by
  have msb : r.msb = false := by
    rw [BitVec.msb_eq_decide]
    exact decide_eq_false (by omega)
  rw [crcShift, msb, if_neg Bool.false_ne_true, BitVec.toNat_shiftLeft, Nat.shiftLeft_eq]
  omega

/-- Eight shifts of a register that holds its low byte alone bring that byte to the top. -/
theorem crcShift_eight {r : BitVec 16} (h : r.toNat < 256) :
    ((List.range 8).foldl (fun r _ => crcShift r) r).toNat = 256 * r.toNat := by
  have shifts (n : Nat) (few : n ≤ 8) : ((List.range n).foldl (fun r _ => crcShift r) r).toNat = 2 ^ n * r.toNat := by
    induction n with
    | zero => simp
    | succ n ih =>
      have before := ih (by omega)
      have small : 2 ^ n * r.toNat < 32768 := by
        calc 2 ^ n * r.toNat ≤ 2 ^ 7 * r.toNat := Nat.mul_le_mul_right _ (Nat.pow_le_pow_right (by decide) (by omega))
          _ < 32768 := by omega
      rw [List.range_succ, List.foldl_append, List.foldl_cons, List.foldl_nil, crcShift_small (by omega), before]
      ring
  exact shifts 8 le_rfl

theorem beBytes_two (v : Nat) : beBytes 2 v = [BitVec.ofNat 8 (v / 256), BitVec.ofNat 8 v] := by
  have high : BitVec.ofInt 8 ((v : Int) / 256) = BitVec.ofNat 8 (v / 256) := BitVec.ofInt_natCast 8 (v / 256)
  have low : BitVec.ofInt 8 (v : Int) = BitVec.ofNat 8 v := BitVec.ofInt_natCast 8 v
  rw [beBytes_succ, beBytes_succ, high, low]
  rfl

theorem crcByte_eq (r : BitVec 16) (b : Byte) :
    crcByte r b = (List.range 8).foldl (fun r _ => crcShift r) (r ^^^ (b.zeroExtend 16 <<< 8)) := rfl

/-- The high byte of the register takes itself out of it. -/
theorem crcByte_high (r : BitVec 16) : (crcByte r (BitVec.ofNat 8 (r.toNat / 256))).toNat = 256 * (r.toNat % 256) := by
  have low : r ^^^ ((BitVec.ofNat 8 (r.toNat / 256)).zeroExtend 16 <<< 8) = BitVec.ofNat 16 (r.toNat % 256) := by
    refine BitVec.eq_of_getLsbD_eq fun i small => ?_
    have high (j : Nat) : (r.toNat / 256).testBit j = r.getLsbD (j + 8) := by
      rw [show 256 = 2 ^ 8 from rfl, Nat.testBit_div_two_pow]
      rfl
    have below : (r.toNat % 256).testBit i = (decide (i < 8) && r.getLsbD i) := by
      rw [show 256 = 2 ^ 8 from rfl, Nat.testBit_mod_two_pow]
      rfl
    rw [BitVec.getLsbD_xor, BitVec.getLsbD_shiftLeft, BitVec.getLsbD_ofNat, below]
    by_cases top : i < 8
    · simp [top, small]
    · have back : i - 8 + 8 = i := by omega
      have byte : (BitVec.ofNat 8 (r.toNat / 256)).getLsbD (i - 8) = r.getLsbD i := by
        rw [BitVec.getLsbD_ofNat, high, back, decide_eq_true (by omega), Bool.true_and]
      rw [BitVec.zeroExtend_eq_setWidth, BitVec.getLsbD_setWidth, byte, decide_eq_true (show i - 8 < 16 by omega)]
      simp [top, small]
  have byte : (BitVec.ofNat 16 (r.toNat % 256)).toNat = r.toNat % 256 := by simp; omega
  rw [crcByte_eq, low, crcShift_eight (by omega), byte]

/-- A low byte that stands at the top of the register takes itself out of it. -/
theorem crcByte_low {r : BitVec 16} {v : Nat} (h : r.toNat = 256 * (v % 256)) : crcByte r (BitVec.ofNat 8 v) = 0 := by
  have same : r = (BitVec.ofNat 8 v).zeroExtend 16 <<< 8 := by
    refine BitVec.eq_of_toNat_eq ?_
    rw [h]
    simp [Nat.shiftLeft_eq]
    omega
  rw [crcByte_eq, ← same, BitVec.xor_self]
  refine BitVec.eq_of_toNat_eq ?_
  rw [crcShift_eight (by decide)]
  rfl

/-- The CRC over a message with its CRC after it is 0. -/
theorem crc16_withCrc (bs : List Byte) : crc16 (withCrc bs) = 0 := by
  have after : crc16 (withCrc bs) = (beBytes 2 (crc16 bs).toNat).foldl crcByte (crc16 bs) := List.foldl_append
  rw [after, beBytes_two, List.foldl_cons, List.foldl_cons, List.foldl_nil]
  exact crcByte_low (crcByte_high _)

/-! ## The command of an exchange (R100, R186) -/

/-- The command that a head with a record and orders is sent with a latch. -/
def commandOf (h : HeadId) (r : HeadRecord) (x : SelectorHead) (down : Bool) : List Byte :=
  withCrc (beBytes 1 (headNumber h) ++
    beBytes 1 (boolCode down + 2 * boolCode x.trim.isSome + 4 * boolCode r.state.lamp : Nat) ++
    beBytes 1 (needleNumber ((x.shift.map (·.target)).or r.selectNeedle)))

theorem HeadState.lamp_iff (st : HeadState) : st.lamp = true ↔ st = .off ∨ st = .benched ∨ st = .rejoinWait := by
  cases st <;> simp [HeadState.lamp]

/-- The command a head is sent is the one the statements tell of. -/
theorem commandOf_commanded (h : HeadId) (r : HeadRecord) (x : SelectorHead) :
    Commanded (commandOf h r x r.latch) h r x := by
  have fields : commandOf h r x r.latch = fieldBytes [(1, headNumber h),
      (1, (boolCode r.latch + 2 * boolCode x.trim.isSome + 4 * boolCode r.state.lamp : Nat)),
      (1, needleNumber ((x.shift.map (·.target)).or r.selectNeedle)),
      (2, (crc16 (beBytes 1 (headNumber h) ++
        beBytes 1 (boolCode r.latch + 2 * boolCode x.trim.isSome + 4 * boolCode r.state.lamp : Nat) ++
        beBytes 1 (needleNumber ((x.shift.map (·.target)).or r.selectNeedle)))).toNat)] := by
    simp only [commandOf, withCrc, fieldBytes, List.flatMap_cons, List.flatMap_nil, List.append_nil, List.append_assoc]
  have widths (a b c d : Int) : List.map (·.1) [((1 : Nat), a), (1, b), (1, c), (2, d)] = [1, 1, 1, 2] := rfl
  have flag (b : Bool) : boolCode b = if b = true then 1 else 0 := rfl
  refine ⟨by rw [fields, fieldBytes_length]; rfl, crc16_withCrc _, ?_, ?_, fun y shift => ?_, fun none_ => ?_⟩
  · rw [fields]
    exact carries_field (widths _ _ _ _) 0 rfl
  · rw [fields]
    refine carries_field (widths _ _ _ _) 1 (congrArg (fun n : Int => some (1, n)) ?_)
    simp only [flag, r.state.lamp_iff]
    push_cast
    simp only [mul_ite, mul_one, mul_zero]
  · rw [fields]
    refine carries_field (widths _ _ _ _) 2 (congrArg (fun n : Int => some (1, n)) ?_)
    simp [shift, needleNumber]
  · rw [fields]
    refine carries_field (widths _ _ _ _) 2 (congrArg (fun n : Int => some (1, n)) ?_)
    rw [none_]
    cases r.selectNeedle <;> rfl

/-! ## The exchange with every polled head (R100) -/

/-- A head's record after an exchange that sends it a latch. -/
def HeadRecord.exchanged (r : HeadRecord) (h : HeadId) (x : SelectorHead) (down : Bool) : HeadRecord :=
  { r with awaiting := true, takenBefore := r.taken, taken := false, latchBefore := r.latch, latch := down
           command := commandOf h r x down }

/-- A head's orders after an exchange. -/
def SelectorHead.exchanged (x : SelectorHead) : SelectorHead :=
  { x with shift := x.shift.map fun o => { o with order := o.order.next }
           trim := x.trim.map fun o => { o with order := o.order.next } }

theorem OrderPhase.next_eq (o : OrderPhase) : o.next = if o = .unsent then .sent else .judged := by
  cases o <;> rfl

theorem SelectorHead.exchanged_goesOn (x : SelectorHead) : OrdersGoOn x x.exchanged := by
  refine ⟨rfl, fun o order => ?_, fun none_ => ?_, fun o order => ?_, fun none_ => ?_⟩
  · rw [SelectorHead.exchanged, order, Option.map_some, OrderPhase.next_eq]
  · rw [SelectorHead.exchanged, none_, Option.map_none]
  · rw [SelectorHead.exchanged, order, Option.map_some, OrderPhase.next_eq]
  · rw [SelectorHead.exchanged, none_, Option.map_none]

theorem HeadRecord.exchanged_commanded (r : HeadRecord) (h : HeadId) (x : SelectorHead) (down : Bool) :
    Commanded (r.exchanged h x down).command h (r.exchanged h x down) x :=
  commandOf_commanded h (r.exchanged h x down) x

theorem State.exchangeHead_eq (down : HeadSet) (h : HeadId) (s : State) : s.exchangeHead down h =
    (s.setHead h ((s.head h).exchanged h (s.sel h) (inSet down h))).setSel h (s.sel h).exchanged := rfl

theorem State.exchange_shape (r : Bool) (down : HeadSet) (taken : Option Taken) (s : State) :
    s.exchange r down taken = { s with
      ts := { s.ts with heads := (s.exchange r down taken).ts.heads }
      hs := { s.hs with heads := (s.exchange r down taken).hs.heads, revolution := r, current := taken
                        previous := s.hs.current } } := by
  unfold State.exchange
  refine State.forHeads_keep (P := fun t => t = { s with
    ts := { s.ts with heads := t.ts.heads }
    hs := { s.hs with heads := t.hs.heads, revolution := r, current := taken, previous := s.hs.current } })
    (fun h t _ e => ?_) rfl
  rw [e]
  rfl

theorem State.exchange_mp (r : Bool) (down : HeadSet) (taken : Option Taken) (s : State) :
    (s.exchange r down taken).mp = s.mp := by rw [State.exchange_shape]

theorem State.exchange_pc (r : Bool) (down : HeadSet) (taken : Option Taken) (s : State) :
    (s.exchange r down taken).pc = s.pc := by rw [State.exchange_shape]

/-- An exchange is not about the Motion Planner. -/
theorem State.exchange_frame (r : Bool) (down : HeadSet) (taken : Option Taken) (s : State) (m : Motion) :
    ({ s with mp := m } : State).exchange r down taken = { s.exchange r down taken with mp := m } :=
  State.forHeads_hom (g := fun t => { t with mp := m }) (fun _ _ => rfl)
    { s with hs := { s.hs with revolution := r, previous := s.hs.current, current := taken } }

/-- What an exchange makes of one head: nothing where it is not polled. -/
theorem State.exchange_at (r : Bool) (down : HeadSet) (taken : Option Taken) (s : State) (h : HeadId) :
    ((s.exchange r down taken).head h, (s.exchange r down taken).sel h) =
      if s.polled h then ((s.head h).exchanged h (s.sel h) (inSet down h), (s.sel h).exchanged)
      else (s.head h, s.sel h) := by
  unfold State.exchange
  refine State.forHeads_at (f := State.exchangeHead down) (g := fun t h => (t.head h, t.sel h))
    (fun h x => (x.1.exchanged h x.2 (inSet down h), x.2.exchanged)) (fun h t => ?_) (fun h k t e => ?_) _ h
  · rw [State.exchangeHead_eq, State.head_congr (State.setSel_hs _ _ _), State.head_setHead_self, State.sel_setSel_self]
  · rw [State.exchangeHead_eq, State.head_congr (State.setSel_hs _ _ _), State.head_setHead, State.sel_setSel, if_neg e,
      if_neg e, State.sel_congr (State.setHead_ts _ _ _)]

theorem State.polled_iff (h : HeadId) : s.polled h = true ↔ (s.head h).state ≠ .excluded := by
  simp [State.polled]

theorem State.exchange_polled (r : Bool) (down : HeadSet) (taken : Option Taken) {h : HeadId}
    (polled : (s.head h).state ≠ .excluded) :
    (s.exchange r down taken).head h = (s.head h).exchanged h (s.sel h) (inSet down h) ∧
      (s.exchange r down taken).sel h = (s.sel h).exchanged :=
  Prod.mk.inj ((s.exchange_at r down taken h).trans (if_pos (State.polled_iff h |>.2 polled)))

theorem State.exchange_excluded (r : Bool) (down : HeadSet) (taken : Option Taken) {h : HeadId}
    (excluded : (s.head h).state = .excluded) :
    (s.exchange r down taken).head h = s.head h ∧ (s.exchange r down taken).sel h = s.sel h :=
  Prod.mk.inj ((s.exchange_at r down taken h).trans (if_neg (fun polled => State.polled_iff h |>.1 polled excluded)))

/-- An exchange leaves the same orders in flight. -/
theorem State.exchange_orders (r : Bool) (down : HeadSet) (taken : Option Taken) (s : State) :
    (s.exchange r down taken).anyShift = s.anyShift ∧ (s.exchange r down taken).anyTrim = s.anyTrim := by
  have same (h : HeadId) : ((s.exchange r down taken).sel h).shift.isSome = (s.sel h).shift.isSome ∧
      ((s.exchange r down taken).sel h).trim.isSome = (s.sel h).trim.isSome := by
    by_cases excluded : (s.head h).state = .excluded
    · rw [(State.exchange_excluded r down taken excluded).2]
      exact ⟨rfl, rfl⟩
    · rw [(State.exchange_polled r down taken excluded).2]
      exact ⟨Option.isSome_map .., Option.isSome_map ..⟩
  unfold State.anyShift State.anyTrim
  simp only [same, and_self]

/-- An exchange that latches no head is the one the statements tell of. -/
theorem State.exchange_allUp (r : Bool) (s : State) : AllUp s (s.exchange r 0 none) r := by
  refine ⟨s.exchange_shape r 0 none, fun h => ⟨State.exchange_excluded r 0 none, fun polled => ?_⟩⟩
  obtain ⟨head, sel⟩ := State.exchange_polled r 0 none polled
  have up : inSet 0 h = false := by simp [inSet]
  rw [head, sel, up]
  exact ⟨rfl, HeadRecord.exchanged_commanded _ h _ false, (s.sel h).exchanged_goesOn⟩

end Sys2Proof.Machine
end

section
/-! PROOF. SHAFT_ANGLE_CHANGE where no stitch is taken (R47, R48, R50, R51, R53): the window's opening and its close, the
shaft's leaving it in a travel, and a turn that crosses nothing. -/

open Sys2Proof.Claims

namespace Sys2Proof.Machine

variable {s t : State}

/-! ## When the part waits (R46, R53) -/

theorem State.stepTravel_eq_none_iff (a : Aim) : s.stepTravel a = none ↔
    (s.mp.mode = .atRest → s.mp.shaft = .turning) ∧ (s.mp.mode = .travelling → s.mp.move.isSome = true) := by
  unfold State.stepTravel
  cases s.mp.mode with
  | atRest => cases s.mp.shaft <;> simp
  | travelling =>
    cases s.mp.move with
    | none => simp only [Option.isSome_none, Bool.false_eq_true, if_false]; split <;> simp
    | some m => simp
  | running => simp
  | runningDown => simp

theorem State.stepBegin_eq_none_iff : s.stepBegin = none ↔
    (s.mp.mode = .atRest → s.pc.due = none ∧ s.mp.shaft = .turning) ∧
      (s.mp.mode = .travelling → s.mp.move.isSome = true) := by
  unfold State.stepBegin
  cases s.mp.mode with
  | atRest => cases s.pc.due <;> cases s.mp.shaft <;> simp
  | travelling => cases s.mp.move <;> simp
  | running => simp
  | runningDown => simp

/-- A move of a travel or of a retraction goes on: the part waits for its completion, wherever the shaft stands. -/
theorem State.waits_moving (mode : s.mp.mode = .travelling) (moving : s.mp.move.isSome = true)
    (phase : (∃ a, s.pc.phase = .travel a) ∨ ∃ a, s.pc.phase = .begin a) : Waits s := by
  have apart : s.mp.mode ≠ .atRest := by simp [mode]
  unfold Waits State.microStep
  rcases phase with ⟨a, travel⟩ | ⟨a, begin_⟩
  · rw [travel]
    exact (State.stepTravel_eq_none_iff a).2 ⟨fun rest => absurd rest apart, fun _ => moving⟩
  · rw [begin_]
    exact State.stepBegin_eq_none_iff.2 ⟨fun rest => absurd rest apart, fun _ => moving⟩

/-- A part that waits goes on waiting while the shaft turns, also where the planner runs down from there. -/
theorem State.waits_turning_on (waits : Waits s) (phase : t.pc.phase = s.pc.phase) (due : t.pc.due = s.pc.due)
    (move : t.mp.move = s.mp.move) (turning : t.mp.shaft = .turning) (mode : t.mp.mode = s.mp.mode ∨ t.mp.mode = .runningDown)
    (shift : t.anyShift = s.anyShift) (trim : t.anyTrim = s.anyTrim) : Waits t := by
  have rests : t.mp.mode = .atRest → s.mp.mode = .atRest := fun e => mode.elim (fun h => h ▸ e) fun h => by simp [h] at e
  have travels : t.mp.mode = .travelling → s.mp.mode = .travelling :=
    fun e => mode.elim (fun h => h ▸ e) fun h => by simp [h] at e
  unfold Waits State.microStep at waits ⊢
  rw [phase, shift, trim]
  cases e : s.pc.phase with
  | rest => rfl
  | sew => rfl
  | take => simp [e] at waits
  | schedule => simp [e] at waits
  | choice a => simpa [e] using waits
  | trim a => simpa [e] using waits
  | travel a =>
    rw [e] at waits
    obtain ⟨-, moving⟩ := (State.stepTravel_eq_none_iff a).1 waits
    exact (State.stepTravel_eq_none_iff a).2 ⟨fun _ => turning, fun h => move ▸ moving (travels h)⟩
  | begin a =>
    rw [e] at waits
    obtain ⟨free, moving⟩ := State.stepBegin_eq_none_iff.1 waits
    exact State.stepBegin_eq_none_iff.2 ⟨fun h => ⟨due.trans (free (rests h)).1, turning⟩, fun h => move ▸ moving (travels h)⟩

/-! ## The move window (R47) -/

theorem State.angleInWindow_iff (s : State) (angle : Fin 360) : s.angleInWindow angle.val = true ↔ Inside s angle := by
  simp only [State.angleInWindow, Inside, Bool.or_eq_true, decide_eq_true_eq]
  omega

theorem operating_iff : s.operating = true ↔ Acts s := by
  simp [State.operating, Acts, and_assoc]

/-! ## SHAFT_ANGLE_CHANGE (R47) -/

section
variable {angle : Fin 360}

theorem exec_shaftAngleChange_idle (h : ¬ (Acts s ∧ angle ≠ s.sm.angle)) :
    exec (.shaftAngleChange angle) s = .next { s with sm := { s.sm with angle := angle } } := by
  refine congrArg Host.Outcome.next (if_neg fun both => h ?_)
  rw [Bool.and_eq_true, bne_iff_ne] at both
  exact ⟨operating_iff.1 both.1, both.2.symm⟩

/-- What a new angle makes the planner do, by whether the shaft was and is in the move window. -/
theorem exec_shaftAngleChange (acts : Acts s) (moves : angle ≠ s.sm.angle) :
    exec (.shaftAngleChange angle) s = .next (State.angleMoves (s.angleInWindow s.sm.angle.val)
      (s.angleInWindow angle.val) { s with sm := { s.sm with angle := angle } }).drive := by
  refine congrArg Host.Outcome.next (if_pos ?_)
  rw [Bool.and_eq_true, bne_iff_ne]
  exact ⟨operating_iff.2 acts, moves.symm⟩

section
variable (before after : Bool)

theorem State.angleMoves_running (mode : s.mp.mode = .running) :
    State.angleMoves before after { s with sm := { s.sm with angle := angle } } =
      if !before && after then (turned angle s).windowOpen
      else if before && !after then (turned angle s).windowClose else turned angle s := by
  have shaft : State.setShaft .turning { s with sm := { s.sm with angle := angle } } = turned angle s := rfl
  have running : (turned angle s).mp.mode = .running := mode
  simp only [State.angleMoves, shaft, running]

theorem State.angleMoves_travelling (mode : s.mp.mode = .travelling) :
    State.angleMoves before after { s with sm := { s.sm with angle := angle } } =
      if before && !after then (turned angle s).shaftOut else turned angle s := by
  have shaft : State.setShaft .turning { s with sm := { s.sm with angle := angle } } = turned angle s := rfl
  have travelling : (turned angle s).mp.mode = .travelling := mode
  simp only [State.angleMoves, shaft, travelling]

theorem State.angleMoves_other (mode : s.mp.mode = .atRest ∨ s.mp.mode = .runningDown) :
    State.angleMoves before after { s with sm := { s.sm with angle := angle } } = turned angle s := by
  have shaft : State.setShaft .turning { s with sm := { s.sm with angle := angle } } = turned angle s := rfl
  have other : (turned angle s).mp.mode = .atRest ∨ (turned angle s).mp.mode = .runningDown := mode
  rcases other with rest | down
  · simp only [State.angleMoves, shaft, rest]
  · simp only [State.angleMoves, shaft, down]

end

/-- The shaft enters the move window. -/
theorem entersWindow_iff : (!s.angleInWindow s.sm.angle.val && s.angleInWindow angle.val) = true ↔
    ¬ Inside s s.sm.angle ∧ Inside s angle := by
  rw [Bool.and_eq_true, Bool.not_eq_true', ← Bool.not_eq_true, State.angleInWindow_iff, State.angleInWindow_iff]

/-- The shaft leaves the move window. -/
theorem leavesWindow_iff : (s.angleInWindow s.sm.angle.val && !s.angleInWindow angle.val) = true ↔
    Inside s s.sm.angle ∧ ¬ Inside s angle := by
  rw [Bool.and_eq_true, Bool.not_eq_true', ← Bool.not_eq_true, State.angleInWindow_iff, State.angleInWindow_iff]

variable (acts : Acts s) (moves : angle ≠ s.sm.angle)
include acts moves

theorem exec_shaftAngleChange_opens (mode : s.mp.mode = .running) (opens : ¬ Inside s s.sm.angle ∧ Inside s angle) :
    exec (.shaftAngleChange angle) s = .next (turned angle s).windowOpen.drive := by
  rw [exec_shaftAngleChange acts moves, State.angleMoves_running _ _ mode, if_pos (entersWindow_iff.2 opens)]

theorem exec_shaftAngleChange_closes (mode : s.mp.mode = .running) (leaves : Inside s s.sm.angle ∧ ¬ Inside s angle) :
    exec (.shaftAngleChange angle) s = .next (turned angle s).windowClose.drive := by
  rw [exec_shaftAngleChange acts moves, State.angleMoves_running _ _ mode,
    if_neg (fun opens => leaves.2 (entersWindow_iff.1 opens).2), if_pos (leavesWindow_iff.2 leaves)]

theorem exec_shaftAngleChange_running (mode : s.mp.mode = .running) (opens : ¬ (¬ Inside s s.sm.angle ∧ Inside s angle))
    (leaves : ¬ (Inside s s.sm.angle ∧ ¬ Inside s angle)) :
    exec (.shaftAngleChange angle) s = .next (turned angle s).drive := by
  rw [exec_shaftAngleChange acts moves, State.angleMoves_running _ _ mode, if_neg (mt entersWindow_iff.1 opens),
    if_neg (mt leavesWindow_iff.1 leaves)]

theorem exec_shaftAngleChange_leaves (mode : s.mp.mode = .travelling)
    (leaves : Inside s s.sm.angle ∧ ¬ Inside s angle) :
    exec (.shaftAngleChange angle) s = .next (turned angle s).shaftOut.drive := by
  rw [exec_shaftAngleChange acts moves, State.angleMoves_travelling _ _ mode, if_pos (leavesWindow_iff.2 leaves)]

theorem exec_shaftAngleChange_travelling (mode : s.mp.mode = .travelling)
    (leaves : ¬ (Inside s s.sm.angle ∧ ¬ Inside s angle)) :
    exec (.shaftAngleChange angle) s = .next (turned angle s).drive := by
  rw [exec_shaftAngleChange acts moves, State.angleMoves_travelling _ _ mode, if_neg (mt leavesWindow_iff.1 leaves)]

theorem exec_shaftAngleChange_other (mode : s.mp.mode = .atRest ∨ s.mp.mode = .runningDown) :
    exec (.shaftAngleChange angle) s = .next (turned angle s).drive := by
  rw [exec_shaftAngleChange acts moves, State.angleMoves_other _ _ mode]

end

theorem State.immediateHalt_waits (work : AtWork s) (c : HaltCause) : (s.immediateHalt c).microStep = none := by
  rw [State.microStep, State.immediateHalt_pc (moving_of_atWork work)]

theorem State.immediateHalt_sm (work : AtWork s) (c : HaltCause) : (s.immediateHalt c).sm = s.sm := by
  rw [State.immediateHalt_shape s c (moving_of_atWork work)]

/-- A part that waited before the shaft turned on waits then. -/
theorem State.turned_waits (waits : Waits s) (angle : Fin 360) : Waits (turned angle s) :=
  State.waits_turning_on waits rfl rfl rfl rfl (.inl rfl) rfl rfl

/-- A window that opens on a move in progress makes that revolution's exchange alone. -/
theorem State.windowOpen_moving (moving : s.mp.move.isSome = true) : s.windowOpen = s.exchange true 0 none := if_pos moving

/-- A window that opens with nothing left to sew, or at the end of stopping, is the stop. -/
theorem State.windowOpen_stops (still : s.mp.move = none) (stops : s.mp.stopEnd = true ∨ s.mp.window = []) :
    s.windowOpen = ({ s with mp := { s.mp with mode := .runningDown, spindle := 0 } } : State).exchange true 0 none := by
  have stop : s.windowOpen = s.comeToStop := by
    unfold State.windowOpen
    rw [if_neg (by simp [still])]
    rcases stops with end_ | empty
    · exact if_pos end_
    · rw [empty]
      exact ite_self _
  refine (stop.trans ?_).trans (State.exchange_frame true 0 none s _).symm
  unfold State.comeToStop
  dsimp only
  rw [State.exchange_mp]

theorem State.windowClose_still (still : s.mp.move = none) : s.windowClose = s := if_neg (by simp [still])

/-- An immediate halt, once made, is where the part stays. -/
theorem State.immediateHalt_drive (work : AtWork s) (c : HaltCause) : (s.immediateHalt c).drive = s.immediateHalt c :=
  State.drive_waits (State.immediateHalt_waits work c)

/-- The exchange of a window that opens leaves a part that waits waiting. -/
theorem State.exchange_waits (waits : Waits s) (turning : s.mp.shaft = .turning) : Waits (s.exchange true 0 none) := by
  obtain ⟨shifts, trims⟩ := s.exchange_orders true 0 none
  have pc := s.exchange_pc true 0 none
  have mp := s.exchange_mp true 0 none
  exact State.waits_turning_on waits (by rw [pc]) (by rw [pc]) (by rw [mp]) (by rw [mp, turning]) (.inl (by rw [mp])) shifts
    trims

/-- Settles O45: a new angle of the shaft, by what the planner does and by whether the shaft enters or leaves the move
window. -/
theorem angleChangesWithoutATake : Obligations.AngleChangesWithoutATake := by
  intro s angle event leaves opens halts
  refine ⟨fun still => exec_shaftAngleChange_idle (fun ⟨acts, _⟩ => still acts), fun same => ?_,
    fun acts moves work mode leave moving => ?_, fun acts moves work mode leave => ?_,
    fun acts moves waits mode open_ moving => ?_, fun acts moves waits mode open_ still stops => ?_,
    fun acts moves waits mode apart stays => ?_, fun acts moves waits mode inside => ?_,
    fun acts moves waits mode => ?_⟩
  · subst same
    exact exec_shaftAngleChange_idle (fun ⟨_, moves⟩ => moves rfl)
  · have late : (turned angle s).windowClose = (turned angle s).immediateHalt .frameLate := if_pos moving
    refine ⟨_, (exec_shaftAngleChange_closes acts moves mode leave).trans ?_,
      State.immediateHalt_haltedAtOnce (s := turned angle s) work .frameLate, State.immediateHalt_sm (s := turned angle s) work _⟩
    rw [late, State.immediateHalt_drive (s := turned angle s) work]
  · refine ⟨_, (exec_shaftAngleChange_leaves acts moves mode leave).trans ?_,
      State.immediateHalt_haltedAtOnce (s := turned angle s) work .spindlePosition,
      State.immediateHalt_sm (s := turned angle s) work _⟩
    rw [State.shaftOut, State.immediateHalt_drive (s := turned angle s) work]
  · have waits' : Waits ((turned angle s).exchange true 0 none) := State.exchange_waits (State.turned_waits waits angle) rfl
    refine ⟨_, (exec_shaftAngleChange_opens acts moves mode open_).trans ?_, State.exchange_allUp true _⟩
    rw [State.windowOpen_moving (s := turned angle s) moving, State.drive_waits waits']
  · have down : Waits { s with sm := { s.sm with angle := angle }
                               mp := { s.mp with shaft := .turning, mode := .runningDown, spindle := 0 } } :=
      State.waits_turning_on waits rfl rfl rfl rfl (.inr rfl) rfl rfl
    refine ⟨_, (exec_shaftAngleChange_opens acts moves mode open_).trans ?_, State.exchange_allUp true _⟩
    rw [State.windowOpen_stops (s := turned angle s) still stops]
    exact congrArg Host.Outcome.next (State.drive_waits (State.exchange_waits down rfl))
  · refine Eq.trans ?_ (congrArg Host.Outcome.next (State.drive_waits (State.turned_waits waits angle)))
    by_cases leave : leaves
    · rw [← State.windowClose_still (s := turned angle s) (stays leave)]
      exact exec_shaftAngleChange_closes acts moves mode leave
    · exact exec_shaftAngleChange_running acts moves mode apart leave
  · rw [← State.drive_waits (State.turned_waits waits angle)]
    exact exec_shaftAngleChange_travelling acts moves mode inside
  · rw [← State.drive_waits (State.turned_waits waits angle)]
    exact exec_shaftAngleChange_other acts moves mode

end Sys2Proof.Machine
end

section
/-! PROOF. SPINDLE_AT_REST at the end of a run (R47, R51, R52, R66 to R69, R75, R94): the standstill the planner reports,
the halts and the trims that follow it. -/

open Sys2Proof.Claims

namespace Sys2Proof.Machine

variable {s t : State}

/-! ## The trim request (R94) -/

theorem State.requestTrim_sel (set : HeadSet) (s : State) (h : HeadId) : (s.requestTrim set).sel h =
    if inSet set h = true ∧ (s.head h).state ≠ .excluded then
      { s.sel h with trim := some ⟨.unsent, s.par.trimTimeout⟩ } else s.sel h := by
  have both := State.forHeads_at (p := inSet (headSetOf fun h => inSet set h && s.polled h))
    (f := fun h t => t.setSel h { t.sel h with trim := some { order := .unsent, timeout := t.par.trimTimeout } })
    (g := fun t h => (t.sel h, t.par)) (fun _ x => ({ x.1 with trim := some ⟨.unsent, x.2.trimTimeout⟩ }, x.2))
    (fun h t => Prod.ext (State.sel_setSel_self _ _ _) rfl)
    (fun h k t e => Prod.ext ((State.sel_setSel _ _ _ _).trans (if_neg e)) rfl) s h
  have named : inSet (headSetOf fun h => inSet set h && s.polled h) h = true ↔
      inSet set h = true ∧ (s.head h).state ≠ .excluded := by
    rw [inSet_headSetOf, Bool.and_eq_true, State.polled_iff]
  by_cases name : inSet set h = true ∧ (s.head h).state ≠ .excluded
  · exact (congrArg Prod.fst (both.trans (if_pos (named.2 name)))).trans (if_pos name).symm
  · exact (congrArg Prod.fst (both.trans (if_neg (mt named.1 name)))).trans (if_neg name).symm

theorem State.requestTrim_orders {set : HeadSet} {named : HeadId → Prop} (names : ∀ h, inSet set h = true ↔ named h)
    (s : State) : TrimOrders s (s.requestTrim set) named := by
  have shape := congrArg State.ts (s.requestTrim_shape set)
  have trimNamed : (s.requestTrim set).ts.trimNamed = set := rfl
  refine ⟨shape, fun h => trimNamed ▸ names h, fun h => ⟨fun name polled => ?_, fun apart => ?_⟩⟩
  · rw [State.requestTrim_sel, if_pos ⟨(names h).2 name, polled⟩]
  · rw [State.requestTrim_sel, if_neg fun ⟨name, polled⟩ => apart.elim (fun x => x ((names h).1 name)) polled]

theorem State.inSet_trimSet (s : State) (h : HeadId) : inSet s.trimSet h = true ↔ (s.head h).inTrim = true := by
  rw [State.trimSet, inSet_headSetOf]

theorem State.inSet_involved (s : State) (h : HeadId) :
    inSet s.involved h = true ↔ ∃ p, s.rt.pass = some p ∧ inSet p.involved h = true := by
  unfold State.involved
  cases s.rt.pass with
  | none => simp [inSet]
  | some p => simp

/-! ## Standstill (R46, R51) -/

/-- The state with the shaft at rest in the move window and the planner at rest. -/
def State.rests (s : State) : State := (s.setShaft .inWindow).toRest

/-- The trim that follows a standstill. -/
def State.trimming (s : State) (a : TrimAim) (set : HeadSet) : State :=
  (s.rests.goTo .change (.trim a)).requestTrim set

theorem State.trimming_trims (s : State) (a : TrimAim) {set : HeadSet} {named : HeadId → Prop}
    (names : ∀ h, inSet set h = true ↔ named h) : Trims s (s.trimming a set) a named := by
  obtain ⟨ts, trimNamed, sel⟩ := State.requestTrim_orders names (s.rests.goTo .change (.trim a))
  refine ⟨?_, ts, trimNamed, sel⟩
  rw [State.trimming, State.requestTrim_shape]
  rfl

/-- Where a head is there to trim, the part waits for its report. -/
theorem Trims.waits {a : TrimAim} {named : HeadId → Prop} (h : Trims s t a named)
    (polled : ∃ h, named h ∧ (s.head h).state ≠ .excluded) : Waits t := by
  obtain ⟨shape, -, -, orders⟩ := h
  obtain ⟨h, name, there⟩ := polled
  have trim : (t.sel h).trim.isSome = true := by
    rw [(orders h).1 name there]
    rfl
  have any : t.anyTrim = true := List.any_eq_true.2 ⟨h, mem_allHeads h, trim⟩
  have phase : t.pc.phase = .trim a := by
    rw [shape]
    rfl
  rw [Waits, State.microStep, phase]
  exact if_pos any

theorem State.stands_sewing (phase : s.pc.phase = .sew) (main : s.mp.passKind = .main) :
    s.stands = (.atStitch (s.activeNumber.getD 0) s.frontier, false) := by
  have apart : ¬ s.inRepairPass = true := by simp [State.inRepairPass, phase, main]
  unfold State.stands
  dsimp only
  rw [if_neg apart, phase]

/-- A halt from a standstill of the main pass stands at the frontier. -/
theorem State.enterHalted_stoodStill (phase : s.pc.phase = .sew) (main : s.mp.passKind = .main) (c : HaltCause)
    (e : Editor) : StoodStill s
      (({ s.rests with se := e } : State).enterHalted c ({ s.rests with se := e } : State).stands) c
      ({ s.rests with se := e } : State).frontier := by
  have stands : ({ s.rests with se := e } : State).stands =
      (.atStitch (s.activeNumber.getD 0) ({ s.rests with se := e } : State).frontier, false) :=
    State.stands_sewing phase main
  rw [stands]
  generalize hk : ({ s.rests with se := e } : State).frontier = k
  generalize hu : ({ s.rests with se := e } : State) = u
  have shape := u.enterHalted_shape c (.atStitch (s.activeNumber.getD 0) k, false)
  have pc := u.enterHalted_pc c (.atStitch (s.activeNumber.getD 0) k, false)
  have head := u.enterHalted_head c (.atStitch (s.activeNumber.getD 0) k, false)
  have raised := u.enterHalted_raises c (.atStitch (s.activeNumber.getD 0) k, false)
  have mp : (u.enterHalted c (.atStitch (s.activeNumber.getD 0) k, false)).mp = s.rests.mp := by rw [shape, ← hu]
  refine ⟨by rw [pc], by rw [pc], raised, by rw [shape, ← hu]; rfl, by rw [shape, ← hu]; rfl, by rw [shape, ← hu]; rfl,
    by rw [mp]; rfl, by rw [mp]; rfl, by rw [mp]; rfl, by rw [mp]; rfl, fun r fresh active => ?_, fun h => ?_⟩
  · have number : s.activeNumber.getD 0 = r.number := by rw [State.activeNumber, active]; rfl
    have fresh' : ¬ u.pc.point.isSome = true := by
      rw [← hu]
      simp [State.rests, State.setShaft, fresh]
    rw [pc, State.formContext_new fresh', number]
    exact ⟨rfl, rfl⟩
  · rw [head, ← hu]
    rfl

theorem State.enterHalted_waits (s : State) (c : HaltCause) (at_ : ResumePoint × Bool) : Waits (s.enterHalted c at_) := by
  rw [Waits, State.microStep, State.enterHalted_pc]

theorem State.standstillMarker_eq : s.standstillMarker = if s.mp.window = [] then s.mp.marker else none := by
  simp only [State.standstillMarker, List.isEmpty_iff]

/-! ## What the controller does at a standstill (R66 to R69, R75) -/

section
variable (main : s.mp.passKind = .main)
include main

theorem State.atStandstill_mainTrim (i : Nat) : s.rests.atStandstill (some (.trim i)) = s.trimming .midMain s.trimSet := by
  simp only [State.atStandstill, show s.rests.mp.passKind = .main from main]
  rfl

theorem State.atStandstill_mainEnd : s.rests.atStandstill (some .endOfPass) = s.trimming .endMain s.trimSet := by
  simp only [State.atStandstill, show s.rests.mp.passKind = .main from main]
  rfl

theorem State.atStandstill_stop {c : HaltCause} (phase : s.pc.phase = .sew) (stopping : s.pc.state = .stopping)
    (due : s.pc.due = some c) :
    Waits (s.rests.atStandstill none) ∧ StoodStill s (s.rests.atStandstill none) c s.frontier := by
  have halts : s.rests.atStandstill none = s.rests.haltDue s.rests.stands := by
    simp only [State.atStandstill, show s.rests.mp.passKind = .main from main]
    exact if_pos (beq_iff_eq.2 stopping)
  rw [halts, State.haltDue, show s.rests.pc.due = some c from due]
  exact ⟨State.enterHalted_waits _ _ _, State.enterHalted_stoodStill phase main c s.se⟩

/-- A PAUSE counts as sewn, and the controller halts there: for the design, or for the halt that is due. -/
theorem State.atStandstill_pause {c : IssueContext} {e : HaltCause} (phase : s.pc.phase = .sew)
    (open_ : s.se.context = some c) (passed : c.passedPauses = []) (i : Nat)
    (cause : s.pc.state ≠ .stopping ∧ e = .designPause ∨ s.pc.state = .stopping ∧ s.pc.due = some e) :
    Waits (s.rests.atStandstill (some (.pause i))) ∧
      StoodStill s (s.rests.atStandstill (some (.pause i))) e (max c.frontier (i + 1)) := by
  have sewn : s.rests.sewnThrough i =
      { s.rests with se := { s.se with context := some { c with frontier := max c.frontier (i + 1) } } } := by
    rw [State.sewnThrough_open (s := s.rests) open_, passed]
    rfl
  have halts : s.rests.atStandstill (some (.pause i)) = (s.rests.sewnThrough i).enterHalted
      (if s.pc.state == .stopping then (s.rests.sewnThrough i).pc.due.getD .stopRequest else .designPause)
      (s.rests.sewnThrough i).stands := by
    simp only [State.atStandstill, show s.rests.mp.passKind = .main from main]
    rfl
  have made : s.rests.atStandstill (some (.pause i)) = (s.rests.sewnThrough i).enterHalted e
      (s.rests.sewnThrough i).stands := by
    rw [halts, sewn]
    rcases cause with ⟨sewing, rfl⟩ | ⟨stopping, due⟩
    · rw [if_neg (mt beq_iff_eq.1 sewing)]
    · rw [if_pos (beq_iff_eq.2 stopping), show ({ s.rests with se := { s.se with
        context := some { c with frontier := max c.frontier (i + 1) } } } : State).pc.due = some e from due]
      rfl
  rw [made, sewn]
  exact ⟨State.enterHalted_waits _ _ _, State.enterHalted_stoodStill phase main e
    { s.se with context := some { c with frontier := max c.frontier (i + 1) } }⟩

end

section
variable (repair : s.mp.passKind = .repair)
include repair

theorem State.atStandstill_repairTrim (i : Nat) :
    s.rests.atStandstill (some (.trim i)) = s.trimming .midRepair s.trimSet := by
  simp only [State.atStandstill, show s.rests.mp.passKind = .repair from repair]
  rfl

theorem State.atStandstill_repairEnd : s.rests.atStandstill (some .endOfPass) = s.trimming .endRepair s.involved := by
  simp only [State.atStandstill, show s.rests.mp.passKind = .repair from repair]
  rfl

theorem State.atStandstill_repairStop (stopping : s.pc.state = .stopping) :
    s.rests.atStandstill none = s.trimming .stopRepair s.involved := by
  simp only [State.atStandstill, show s.rests.mp.passKind = .repair from repair]
  exact if_pos (beq_iff_eq.2 stopping)

end

/-! ## SPINDLE_AT_REST (R47, R51, R52) -/

theorem exec_spindleAtRest_inside (acts : Acts s) (inside : Inside s s.sm.angle) :
    exec .spindleAtRest s = .next (s.setShaft .inWindow).restsInside.drive := by
  show execSpindleAtRest s = _
  unfold execSpindleAtRest
  rw [whenOperating_of_acts acts, if_pos ((s.angleInWindow_iff _).2 inside)]

theorem exec_spindleAtRest_outside (acts : Acts s) (outside : ¬ Inside s s.sm.angle) :
    exec .spindleAtRest s = .next (s.setShaft .outOfWindow).restsOutside.drive := by
  show execSpindleAtRest s = _
  unfold execSpindleAtRest
  rw [whenOperating_of_acts acts, if_neg (mt (s.angleInWindow_iff _).1 outside)]

theorem State.restsInside_down (down : s.mp.mode = .runningDown) :
    (s.setShaft .inWindow).restsInside = s.rests.atStandstill s.standstillMarker := by
  simp only [State.restsInside, show (s.setShaft .inWindow).mp.mode = .runningDown from down]
  rfl

theorem State.restsInside_other (other : s.mp.mode ≠ .runningDown) : s.restsInside = s := by
  unfold State.restsInside
  split
  · exact absurd ‹_› other
  · rfl

theorem State.restsOutside_ran (ran : s.mp.mode = .running ∨ s.mp.mode = .runningDown) : s.restsOutside = s.shaftOut := by
  unfold State.restsOutside
  rcases ran with e | e <;> rw [e]

theorem State.restsOutside_other (running : s.mp.mode ≠ .running) (down : s.mp.mode ≠ .runningDown) :
    s.restsOutside = s := by
  unfold State.restsOutside
  split
  · exact absurd ‹_› running
  · exact absurd ‹_› down
  · rfl

/-- A planner at rest with the controller at rest, or a move of a travel or of a retraction that goes on: the part waits
wherever the shaft stands. -/
theorem State.noted_waits (h : s.pc.phase = .rest ∧ s.mp.mode = .atRest ∨
    s.mp.mode = .travelling ∧ s.mp.move.isSome = true ∧ ((∃ a, s.pc.phase = .travel a) ∨ ∃ a, s.pc.phase = .begin a))
    (c : Shaft) : Waits (s.setShaft c) := by
  rcases h with ⟨rest, -⟩ | ⟨mode, moving, phase⟩
  · rw [Waits, State.microStep, show (s.setShaft c).pc.phase = .rest from rest]
  · exact State.waits_moving (s := s.setShaft c) mode moving phase

/-- Settles O46: the shaft at rest, by whether it stands in the move window and by what the planner and the controller
do. -/
theorem spindleAtRestEndsTheRun : Obligations.SpindleAtRestEndsTheRun := by
  intro s acts inside event stood marker sewed involved trims
  have mark : s.standstillMarker = marker := State.standstillMarker_eq
  have trimmed {a : TrimAim} {set : HeadSet} {named : HeadId → Prop} (names : ∀ h, inSet set h = true ↔ named h)
      (at_ : event = .next (s.trimming a set).drive) : trims a named := by
    have made := s.trimming_trims a names
    exact ⟨_, made, at_, fun polled => at_.trans (congrArg Host.Outcome.next (State.drive_waits (Trims.waits made polled)))⟩
  refine ⟨fun notes => ⟨fun in_ => ?_, fun out => ?_⟩, fun out work ran => ?_, fun in_ mode phase => ?_,
    fun in_ mode main phase => ?_, fun in_ mode repair phase => ?_⟩
  · have waits : (s.setShaft .inWindow).drive = stood .inWindow := State.drive_waits (State.noted_waits notes .inWindow)
    have other : (s.setShaft .inWindow).restsInside = s.setShaft .inWindow := State.restsInside_other fun down => by
      simp [show s.mp.mode = .runningDown from down] at notes
    refine (exec_spindleAtRest_inside acts in_).trans ?_
    rw [other, waits]
  · have waits : (s.setShaft .outOfWindow).drive = stood .outOfWindow :=
      State.drive_waits (State.noted_waits notes .outOfWindow)
    have other : (s.setShaft .outOfWindow).restsOutside = s.setShaft .outOfWindow :=
      State.restsOutside_other (fun running => by simp [show s.mp.mode = .running from running] at notes)
        fun down => by simp [show s.mp.mode = .runningDown from down] at notes
    refine (exec_spindleAtRest_outside acts out).trans ?_
    rw [other, waits]
  · have shape := State.immediateHalt_haltedAtOnce (s := stood .outOfWindow) work .spindlePosition
    refine ⟨_, (exec_spindleAtRest_outside acts out).trans ?_, shape, State.immediateHalt_sm (s := stood .outOfWindow) work _⟩
    rw [State.restsOutside_ran (s := s.setShaft .outOfWindow) ran, State.shaftOut]
    exact congrArg Host.Outcome.next (State.immediateHalt_drive (s := stood .outOfWindow) work _)
  · rw [← State.drive_waits (State.waits_sewing (s := stood .inWindow) phase)]
    refine (exec_spindleAtRest_inside acts in_).trans ?_
    rw [State.restsInside_other (s := s.setShaft .inWindow) (by simp [State.setShaft, mode])]
    rfl
  · have ends : event = .next (s.rests.atStandstill marker).drive := by
      rw [← mark, ← State.restsInside_down mode]
      exact exec_spindleAtRest_inside acts in_
    refine ⟨fun c stopping due none_ => ?_, fun c i open_ pause passed => ⟨fun sewing => ?_, fun e stopping due => ?_⟩,
      fun end_ => ?_, fun i trim => ?_⟩
    · obtain ⟨waits, halted⟩ := State.atStandstill_stop main phase stopping due
      rw [none_, State.drive_waits waits] at ends
      exact ⟨_, ends, halted⟩
    · obtain ⟨waits, halted⟩ := State.atStandstill_pause main phase open_ passed i (.inl ⟨by simp [sewing], rfl⟩)
      rw [pause, State.drive_waits waits] at ends
      exact ⟨_, ends, halted⟩
    · obtain ⟨waits, halted⟩ := State.atStandstill_pause main phase open_ passed i (.inr ⟨stopping, due⟩)
      rw [pause, State.drive_waits waits] at ends
      exact ⟨_, ends, halted⟩
    · rw [end_, State.atStandstill_mainEnd main] at ends
      exact trimmed s.inSet_trimSet ends
    · rw [trim, State.atStandstill_mainTrim main] at ends
      exact trimmed s.inSet_trimSet ends
  · have ends : event = .next (s.rests.atStandstill marker).drive := by
      rw [← mark, ← State.restsInside_down mode]
      exact exec_spindleAtRest_inside acts in_
    refine ⟨fun i trim => ?_, fun end_ => ?_, fun none_ stopping => ?_⟩
    · rw [trim, State.atStandstill_repairTrim repair] at ends
      exact trimmed s.inSet_trimSet ends
    · rw [end_, State.atStandstill_repairEnd repair] at ends
      exact trimmed s.inSet_involved ends
    · rw [none_, State.atStandstill_repairStop repair stopping] at ends
      exact trimmed s.inSet_involved ends

end Sys2Proof.Machine
end

section
/-! PROOF. SPINDLE_AT_REST where a travel or a begin-pass request waits for the shaft (R46, R53, R54): the retraction, the
travel's first step, and the halt outside the move window. -/

open Sys2Proof.Claims

namespace Sys2Proof.Machine

variable {s t : State}

/-! ## The retraction (R54) -/

theorem State.retractionOf_eq {u v : Int} (listedX : units u s.par.axisScaleX ≤ 127)
    (listedY : units v s.par.axisScaleY ≤ 127) : s.retractionOf (u, v) = retraction s u v := by
  have timeX := tableTime_listed s.mp.tableX listedX
  have timeY := tableTime_listed s.mp.tableY listedY
  unfold State.retractionOf retraction
  rw [← timeX, ← timeY]
  rfl

theorem retraction_duration_pos {u v : Int} (time : RetractionTakesTime s u v) : (retraction s u v).duration ≠ 0 := by
  refine Nat.ne_of_gt ?_
  rcases time with ⟨owed, long⟩ | ⟨owed, long⟩
  · refine lt_max_of_lt_left ?_
    rw [if_neg (show (retraction s u v).pulsesX ≠ 0 from Int.natAbs_ne_zero.2 owed)]
    exact long
  · refine lt_max_of_lt_right ?_
    rw [if_neg (show (retraction s u v).pulsesY ≠ 0 from Int.natAbs_ne_zero.2 owed)]
    exact long

theorem State.startRetraction_nothing (owed : s.mp.unfinished = none) :
    s.startRetraction = { s with mp := { s.mp with mode := .travelling } } := by
  simp only [State.startRetraction, owed]

theorem State.startRetraction_takesTime {u v : Int} (owed : s.mp.unfinished = some (u, v))
    (listedX : units u s.par.axisScaleX ≤ 127) (listedY : units v s.par.axisScaleY ≤ 127)
    (time : RetractionTakesTime s u v) : s.startRetraction = { s with mp := { s.mp with
      mode := .travelling, move := some (retraction s u v), dirX := -u.sign, dirY := -v.sign } } := by
  have begins : ({ s with mp := { s.mp with mode := .travelling } } : State).retractionOf (u, v) = retraction s u v :=
    State.retractionOf_eq (s := { s with mp := { s.mp with mode := .travelling } }) listedX listedY
  unfold State.startRetraction
  dsimp only
  split
  case h_1 none_ => exact absurd (owed.symm.trans none_) (by simp)
  case h_2 p some_ =>
    obtain rfl : (u, v) = p := Option.some.inj (owed.symm.trans some_)
    rw [begins, if_neg (retraction_duration_pos time)]
    rfl

/-! ## The transitions of a request that waits for the shaft (R46, R53) -/

section
variable (mode : s.mp.mode = .atRest)
include mode

theorem State.microStep_outOfWindow (shaft : s.mp.shaft = .outOfWindow)
    (waiting : (∃ a, s.pc.phase = .travel a) ∨ (∃ a, s.pc.phase = .begin a) ∧ s.pc.due = none) :
    s.microStep = some s.shaftOut := by
  rcases waiting with ⟨a, phase⟩ | ⟨⟨a, phase⟩, due⟩
  · simp only [State.microStep, phase, State.stepTravel, mode, shaft]
  · simp only [State.microStep, phase, State.stepBegin, mode, shaft, due]
    rfl

theorem State.microStep_travelInWindow (shaft : s.mp.shaft = .inWindow) {a : Aim} (phase : s.pc.phase = .travel a) :
    s.microStep = some s.startRetraction := by
  simp only [State.microStep, phase, State.stepTravel, mode, shaft]

theorem State.microStep_beginInWindow (shaft : s.mp.shaft = .inWindow) {a : Aim} (phase : s.pc.phase = .begin a)
    (due : s.pc.due = none) :
    s.microStep = some (if s.mp.unfinished.isSome then s.startRetraction else s.beginTaken) := by
  simp only [State.microStep, phase, State.stepBegin, mode, shaft, due]
  rfl

/-- The pulses owed are taken back first, before a travel and before a begin-pass request alike. -/
theorem State.microStep_owes (shaft : s.mp.shaft = .inWindow) (owed : s.mp.unfinished.isSome = true)
    (waiting : (∃ a, s.pc.phase = .travel a) ∨ (∃ a, s.pc.phase = .begin a) ∧ s.pc.due = none) :
    s.microStep = some s.startRetraction := by
  rcases waiting with ⟨a, phase⟩ | ⟨⟨a, phase⟩, due⟩
  · exact State.microStep_travelInWindow mode shaft phase
  · rw [State.microStep_beginInWindow mode shaft phase due, if_pos owed]

end

/-! ## SPINDLE_AT_REST while a request waits (R46, R47, R53, R54) -/

section
variable (acts : Acts s) (mode : s.mp.mode = .atRest)
include acts mode

theorem exec_spindleAtRest_waiting_inside (inside : Inside s s.sm.angle) :
    exec .spindleAtRest s = .next (s.setShaft .inWindow).drive := by
  rw [exec_spindleAtRest_inside acts inside,
    State.restsInside_other (s := s.setShaft .inWindow) (by simp [State.setShaft, mode])]

theorem exec_spindleAtRest_waiting_outside (outside : ¬ Inside s s.sm.angle) :
    exec .spindleAtRest s = .next (s.setShaft .outOfWindow).drive := by
  rw [exec_spindleAtRest_outside acts outside, State.restsOutside_other (s := s.setShaft .outOfWindow)
    (by simp [State.setShaft, mode]) (by simp [State.setShaft, mode])]

end

/-- A travel whose steps wait begins the first of them once the shaft rests in the window. -/
theorem State.drive_firstStep (mode : s.mp.mode = .atRest) (still : s.mp.move = none) (par : s.par.Sound) {a : Aim}
    (phase : s.pc.phase = .travel a) (owed : s.mp.unfinished = none) {d : Pos} {rest : List Pos}
    (plan : s.se.plan = some (d :: rest)) (time : TakesTime s d.x d.y) : (s.setShaft .inWindow).drive = { s with
      se := { s.se with plan := some rest }
      mp := { s.mp with shaft := .inWindow, mode := .travelling, move := some (begun s .step d.x d.y)
                        dirX := d.x.sign, dirY := d.y.sign } } := by
  have first : (s.setShaft .inWindow).microStep =
      some { s with mp := { s.mp with shaft := .inWindow, mode := .travelling } } := by
    rw [State.microStep_travelInWindow (s := s.setShaft .inWindow) mode rfl phase,
      State.startRetraction_nothing (s := s.setShaft .inWindow) owed]
    rfl
  have next := State.microStep_step (s := { s with mp := { s.mp with shaft := .inWindow, mode := .travelling } })
    phase rfl still plan
  rw [State.startStep_takesTime (s := { s with mp := { s.mp with shaft := .inWindow, mode := .travelling } }) par time]
    at next
  exact State.drive_twice first next (State.waits_moving rfl rfl (.inl ⟨a, phase⟩))

/-- The pulses owed are taken back once the shaft rests in the window. -/
theorem State.drive_retraction (mode : s.mp.mode = .atRest)
    (waiting : (∃ a, s.pc.phase = .travel a) ∨ (∃ a, s.pc.phase = .begin a) ∧ s.pc.due = none) {u v : Int}
    (owed : s.mp.unfinished = some (u, v)) (listedX : units u s.par.axisScaleX ≤ 127)
    (listedY : units v s.par.axisScaleY ≤ 127) (time : RetractionTakesTime s u v) :
    (s.setShaft .inWindow).drive = { s with mp := { s.mp with
      shaft := .inWindow, mode := .travelling, dirX := -u.sign, dirY := -v.sign, move := some (retraction s u v) } } := by
  have first := State.microStep_owes (s := s.setShaft .inWindow) mode rfl
    (by simp [State.setShaft, owed]) waiting
  rw [State.startRetraction_takesTime (s := s.setShaft .inWindow) owed listedX listedY time] at first
  exact State.drive_once first (State.waits_moving rfl rfl (waiting.imp id And.left))

end Sys2Proof.Machine
end

section
/-! PROOF. A begin-pass request that is taken (R46, R77, R151, R153, R159): the new run, the sewing sweep, the window
filled, and SPINDLE_AT_REST where it, or a travel, waits for the shaft. -/

open Sys2Proof.Claims

namespace Sys2Proof.Machine

variable {s t : State}

/-! ## The issue context of a run (R23) -/

/-- A request to the editor keeps the kind of its issue context. -/
theorem State.issueFrom_kind (s : State) (r : SegRecord) (fuel : Nat) (c : IssueContext) :
    (s.issueFrom r fuel c).2.kind = c.kind := by
  induction fuel generalizing c with
  | zero => rfl
  | succ fuel ih =>
    cases w : c.waiting with
    | cons st rest => rw [State.issueFrom_waiting w]
    | nil =>
    cases h : c.held with
    | some m => rw [State.issueFrom_held w (by simp [h])]
    | none =>
    by_cases past : c.last < c.readIndex
    · rw [State.issueFrom_past w h past]
      split
      · exact ih _
      · rfl
    have within := Nat.not_lt.1 past
    cases k : (s.storedStitch r c.readIndex).kind with
    | trim =>
      rw [State.issueFrom_trim w h within k]
      split
      · exact ih _
      · rfl
    | pause =>
      rw [State.issueFrom_pause w h within k]
      split
      · rfl
      · exact ih _
    | jump =>
      rw [State.issueFrom_jump w h within k]
      exact ih _
    | normal =>
      rw [State.issueFrom_normal w h within k rfl rfl rfl]
      split
      · exact ih _
      · exact ih _

theorem State.issue_kind (s : State) : s.issue.2.se.context.map (·.kind) = s.se.context.map (·.kind) := by
  unfold State.issue
  split
  · rfl
  · rename_i c open_
    split
    · rfl
    · rename_i r _
      rw [open_]
      exact congrArg some (s.issueFrom_kind r _ c)

theorem State.fillWindow_kind (n : Nat) (s : State) :
    (State.fillWindow n s).se.context.map (·.kind) = s.se.context.map (·.kind) := by
  induction n generalizing s with
  | zero => rfl
  | succ n ih =>
    have kind := s.issue_kind
    unfold State.fillWindow
    split
    · rfl
    · split
      · rename_i e
        rwa [e] at kind
      · rename_i e
        rwa [e] at kind
      · rename_i e
        rw [e] at kind
        exact (ih _).trans kind

/-- In the main pass the window alone is filled. -/
theorem State.refill_main {c : IssueContext} (open_ : s.se.context = some c) (main : c.kind = .main) :
    s.refill = State.fillWindow (Config.windowSize + 1) s := by
  have kind := State.fillWindow_kind (Config.windowSize + 1) s
  rw [open_, Option.map_some, main] at kind
  unfold State.refill
  dsimp only
  split
  · rename_i d open'
    rw [open', Option.map_some, Option.some.injEq] at kind
    exact if_neg (by simp [kind])
  · rfl

/-- What a refill changes: the editor, the window, the marker, the repair records and the segments they pin. -/
theorem State.refill_shape (s : State) : s.refill = { s with
    se := s.refill.se
    mp := { s.mp with window := s.refill.mp.window, marker := s.refill.mp.marker }
    rt := { s.rt with records := s.refill.rt.records, retiredInPass := s.refill.rt.retiredInPass }
    ds := { s.ds with segs := s.refill.ds.segs, pool := s.refill.ds.pool, loadWant := s.refill.ds.loadWant } } := by
  have filled := State.fillWindow_shape (Config.windowSize + 1) s
  unfold State.refill
  dsimp only
  generalize State.fillWindow (Config.windowSize + 1) s = v at filled ⊢
  have stays : v = { s with
    se := v.se
    mp := { s.mp with window := v.mp.window, marker := v.mp.marker }
    rt := { s.rt with records := v.rt.records, retiredInPass := v.rt.retiredInPass }
    ds := { s.ds with segs := v.ds.segs, pool := v.ds.pool, loadWant := v.ds.loadWant } } := by
    rw [filled]
  split
  · split
    · rename_i c _ _
      have passed := State.passIndices_only c.segment (v.frontier - s.frontier) s.frontier v
      generalize State.passIndices c.segment (v.frontier - s.frontier) s.frontier v = u at passed ⊢
      rw [passed, filled]
    · exact stays
  · exact stays

/-! ## The sewing sweep (R153) -/

/-- A head's turn at the sewing sweep of segment g from an index. -/
def State.sweepHead (g start : Nat) (h : HeadId) (s : State) : State :=
  if s.absentee h && (s.openRecord h g).isNone then
    match s.openRequest h g start .carry with
    | some s => s
    | none => s.takeHold h (some start) .carry .repairFull
  else s

/-- The sweep has something to sew, and the head is one of the job. -/
def State.sweeps (s : State) (h : HeadId) : Bool :=
  decide (s.frontier < s.countOf (s.ds.served.getD 0)) && inSet s.jobHeads h

/-- The states between the heads' turns at the sewing sweep. -/
def State.sweeping (s : State) : Nat → State :=
  State.turns s.sweeps (State.sweepHead (s.ds.served.getD 0) s.frontier) s

theorem State.sewingSweep_eq (s : State) : s.sewingSweep = s.sweeping 16 := by
  refine Eq.trans ?_ (State.turns_all _ _ _).symm
  have sweep : s.sewingSweep = if s.frontier < s.countOf (s.ds.served.getD 0) then
      s.forHeads (fun h => inSet s.jobHeads h) (State.sweepHead (s.ds.served.getD 0) s.frontier) else s := rfl
  rw [sweep]
  by_cases sews : s.frontier < s.countOf (s.ds.served.getD 0)
  · have heads : s.sweeps = fun h => inSet s.jobHeads h := by
      funext h
      rw [State.sweeps, decide_eq_true sews, Bool.true_and]
    rw [if_pos sews, heads]
  · rw [if_neg sews]
    exact (State.forHeads_id fun h swept => by simp [State.sweeps, sews] at swept).symm

theorem State.absentee_iff (h : HeadId) : s.absentee h = true ↔
    (s.head h).state = .off ∨ (s.head h).state = .benched ∨ (s.head h).state = .rejoinWait := by
  simp [State.absentee, State.isOut, or_assoc]

theorem State.openRecord_isNone_iff (h : HeadId) (g : Nat) : (s.openRecord h g).isNone = true ↔
    ∀ r ∈ s.rt.records, ¬ (r.head = h ∧ r.segment = g ∧ r.state = .opened) := by
  simp [State.openRecord, and_assoc]

theorem State.lt_countOf_iff (g k : Nat) : k < s.countOf g ↔ ∃ q, s.findSeg g = some q ∧ k < q.count := by
  unfold State.countOf
  cases s.findSeg g <;> simp

/-- What the sweep of the first k heads leaves of the state it began in: the records, and the hold that a full Repair
Table makes. -/
structure SweptTo (s t : State) (k : Nat) : Prop where
  frame : t = { s with
    rt := t.rt
    ds := { s.ds with segs := t.ds.segs, pool := t.ds.pool, loadWant := t.ds.loadWant }
    mp := { s.mp with stopCeiling := t.mp.stopCeiling }
    pc := { s.pc with state := t.pc.state, due := t.pc.due, faulted := t.pc.faulted } }
  pass : t.rt.pass = s.rt.pass
  held : t.pc.state = .sewing ∧ t.pc.due = none ∨
    t.pc.state = .stopping ∧ t.pc.due = some .repairFull ∧ t.mp.stopCeiling = true
  fresh : ∀ h : HeadId, k ≤ h.val → t.pc.faulted[h] = none

/-- The hold that a full Repair Table makes on a head of the sweep. -/
def State.sweepHold (s : State) (h : HeadId) (start : Nat) : State := { s with
  mp := { s.mp with stopCeiling := true }
  pc := { s.pc with state := .stopping, due := some .repairFull
                    faulted := s.pc.faulted.set h (some ⟨some start, .carry⟩) } }

theorem SweptTo.takeHold {h : HeadId} (swept : SweptTo s t h.val) (start : Nat) :
    t.takeHold h (some start) .carry .repairFull = t.sweepHold h start := by
  have asked : t.askHalt .repairFull = { t with
      mp := { t.mp with stopCeiling := true }, pc := { t.pc with state := .stopping, due := some .repairFull } } := by
    rcases swept.held with ⟨sewing, -⟩ | ⟨stopping, due, ceiling⟩
    · simp only [State.askHalt, sewing]
      rfl
    · simp only [State.askHalt, stopping, due]
      rw [← ceiling, ← stopping]
      rfl
  have holds : t.takeHold h (some start) .carry .repairFull = (t.askHalt .repairFull).addFaulted h (some start) .carry := by
    rcases swept.held with ⟨sewing, -⟩ | ⟨stopping, -⟩
    · simp only [State.takeHold, sewing]
    · simp only [State.takeHold, stopping]
  have fresh := swept.fresh h le_rfl
  rw [holds, asked]
  simp only [State.addFaulted, fresh]
  rfl

/-- A head whose turn it is lacks a record, or its turn leaves the state as it is. -/
theorem State.sweepHead_eq (g start : Nat) (h : HeadId) (s : State) : State.sweepHead g start h s =
    if s.absentee h = true ∧ (s.openRecord h g).isNone = true then
      match s.openRequest h g start .carry with
      | some t => t
      | none => s.takeHold h (some start) .carry .repairFull
    else s := by
  simp only [State.sweepHead, Bool.and_eq_true]

theorem SweptTo.opened {u : State} {k : Nat} (swept : SweptTo s t k) (only : t.OnlyRecords u) : SweptTo s u (k + 1) := by
  obtain ⟨frame, pass, held, fresh⟩ := swept
  refine ⟨?_, ?_, ?_, fun h later => ?_⟩
  · rw [only, frame]
  · rw [only]
    exact pass
  · rw [only]
    exact held
  · rw [only]
    exact fresh h (Nat.le_of_succ_le later)

theorem SweptTo.holds {h : HeadId} (swept : SweptTo s t h.val) (start : Nat) :
    SweptTo s (t.sweepHold h start) (h.val + 1) := by
  obtain ⟨frame, pass, -, fresh⟩ := swept
  refine ⟨?_, pass, .inr ⟨rfl, rfl, rfl⟩, fun k later => ?_⟩
  · rw [State.sweepHold, frame]
  · have other : h.val ≠ k.val := by omega
    exact (Vector.getElem_set_ne h.isLt k.isLt other).trans (fresh k (by omega))

theorem State.sweeping_succ (s : State) (h : HeadId) : s.sweeping (h.val + 1) =
    if s.sweeps h = true then State.sweepHead (s.ds.served.getD 0) s.frontier h (s.sweeping h.val)
    else s.sweeping h.val :=
  State.turns_succ _ _ s h

/-- The sweep, head after head, leaves what the statements tell of. -/
theorem State.sweeping_sweptTo (sewing : s.pc.state = .sewing) (due : s.pc.due = none)
    (fresh : ∀ h : HeadId, s.pc.faulted[h] = none) {k : Nat} (heads : k ≤ 16) : SweptTo s (s.sweeping k) k := by
  induction k with
  | zero => exact ⟨rfl, rfl, .inl ⟨sewing, due⟩, fun h _ => fresh h⟩
  | succ k ih =>
    have before := ih (by omega)
    have stays : SweptTo s (s.sweeping k) (k + 1) := before.opened rfl
    rw [s.sweeping_succ ⟨k, heads⟩]
    split
    · rw [State.sweepHead_eq]
      split
      · split
        · rename_i u opened
          exact before.opened (State.openRequest_only opened)
        · rw [before.takeHold (h := ⟨k, heads⟩)]
          exact before.holds _
      · exact stays
    · exact stays

/-- The sweep, as the statements tell it. -/
theorem State.sweeping_swept (sewing : s.pc.state = .sewing) (due : s.pc.due = none)
    (fresh : ∀ h : HeadId, s.pc.faulted[h] = none) : Swept (s.ds.served.getD 0) s.frontier s.sweeping := by
  intro h y lacks
  have before : SweptTo s y h.val := State.sweeping_sweptTo sewing due fresh h.isLt.le
  have heads : y.jobHeads = s.jobHeads := by
    rw [before.frame]
    rfl
  have sews : s.sweeps h = true ↔ (∃ q, s.findSeg (s.ds.served.getD 0) = some q ∧ s.frontier < q.count) ∧
      inSet y.jobHeads h = true := by
    rw [State.sweeps, Bool.and_eq_true, decide_eq_true_eq, State.lt_countOf_iff, heads]
  have recordless := (y.absentee_iff h).and (y.openRecord_isNone_iff h (s.ds.served.getD 0))
  have turn (yes : lacks) : s.sweeping (h.val + 1) =
      match y.openRequest h (s.ds.served.getD 0) s.frontier .carry with
      | some t => t
      | none => y.sweepHold h s.frontier := by
    obtain ⟨more, member, absent⟩ := yes
    rw [State.sweeping_succ, if_pos (sews.2 ⟨more, member⟩), State.sweepHead_eq, if_pos (recordless.2 absent),
      before.takeHold]
  refine ⟨fun not_ => ?_, fun z yes opened => ?_, fun yes full => ?_⟩
  · rw [State.sweeping_succ, State.sweepHead_eq]
    split
    · rename_i sweeps
      obtain ⟨more, member⟩ := sews.1 sweeps
      exact if_neg fun absent => not_ ⟨more, member, recordless.1 absent⟩
    · rfl
  · rw [turn yes, opened]
  · rw [turn yes, full]
    rfl

/-! ## A begin-pass request is taken (R46) -/

/-- The new run of a pass, the planner at rest in the move window. -/
def State.runBegun (s : State) (kind : PassKind) : State :=
  { s.rests with mp := { s.rests.mp with passKind := kind } }.beginRun

theorem State.runBegun_shape (s : State) (kind : PassKind) : s.runBegun kind = { s with
    mp := { s.rests.mp with passKind := kind }
    hs := { s.hs with heads := (s.runBegun kind).hs.heads, current := none, previous := none, lastTake := none } } :=
  State.beginRun_shape _

theorem State.runBegun_hs (s : State) (kind : PassKind) : (s.runBegun kind).hs = { s.hs with
    heads := (s.runBegun kind).hs.heads, current := none, previous := none, lastTake := none } := by
  rw [State.runBegun_shape]

theorem State.runBegun_head (s : State) (kind : PassKind) (h : HeadId) : (s.runBegun kind).head h = { s.head h with
    taken := false, takenBefore := false, latch := false, latchBefore := false } :=
  State.beginRun_head _ h

/-- The planner with its window filled: it runs, or it reports standstill at once (R46). -/
def State.runsOrStands (w : State) : State :=
  if w.mp.window = [] then w.toRest.atStandstill w.mp.marker
  else { w with mp := { w.mp with mode := .running, spindle := w.par.sMin } }

/-- The main pass begun: the context of a resume is cleared (R77, R80). -/
def State.mainBegun (s : State) : State := (s.runBegun .main).clearContext.goTo .sewing .sew

def State.repairBegun (s : State) : State := (s.runBegun .repair).goTo .repair .sew

section
variable {c : IssueContext} (open_ : s.se.context = some c)
include open_

theorem State.beginTaken_main (main : c.kind = .main) :
    (s.setShaft .inWindow).beginTaken = s.mainBegun.sewingSweep.refill.runsOrStands := by
  have kind : s.se.context.elim .main (·.kind) = .main := by rw [open_, Option.elim_some, main]
  unfold State.beginTaken State.runsOrStands
  simp only [List.isEmpty_iff, show (s.setShaft .inWindow).se.context.elim .main (·.kind) = .main from kind]
  rfl

theorem State.beginTaken_repair (repair : c.kind = .repair) :
    (s.setShaft .inWindow).beginTaken = s.repairBegun.refill.runsOrStands := by
  have kind : s.se.context.elim .main (·.kind) = .repair := by rw [open_, Option.elim_some, repair]
  unfold State.beginTaken State.runsOrStands
  simp only [List.isEmpty_iff, show (s.setShaft .inWindow).se.context.elim .main (·.kind) = .repair from kind]
  rfl

end

theorem State.runsOrStands_runs (window : s.mp.window ≠ []) : s.runsOrStands =
    { s with mp := { s.mp with mode := .running, spindle := s.par.sMin } } := if_neg window

/-- With no stitch in the window standstill is reported from where the shaft rests. -/
theorem State.runsOrStands_stands (window : s.mp.window = []) (shaft : s.mp.shaft = .inWindow) :
    s.runsOrStands = s.rests.atStandstill s.mp.marker := by
  have rests : s.rests = s.toRest := by rw [State.rests, State.toRest, State.toRest, State.setShaft, ← shaft]
  rw [rests]
  exact if_pos window

theorem State.microStep_begins (mode : s.mp.mode = .atRest) {a : Aim} (phase : s.pc.phase = .begin a)
    (due : s.pc.due = none) (owed : s.mp.unfinished = none) :
    (s.setShaft .inWindow).microStep = some (s.setShaft .inWindow).beginTaken := by
  rw [State.microStep_beginInWindow (s := s.setShaft .inWindow) mode rfl phase due, if_neg]
  simp [State.setShaft, owed]

/-! ## The main pass begun -/

theorem State.mainBegun_noContext (s : State) : NoContext s.mainBegun.pc :=
  ⟨rfl, fun h => Vector.getElem_replicate h.isLt, rfl, rfl, rfl, rfl⟩

theorem State.mainBegun_hs (s : State) : s.mainBegun.hs = (s.runBegun .main).hs := by
  rw [State.mainBegun, State.goTo_hs, State.clearContext_hs]

theorem State.mainBegun_head (s : State) (h : HeadId) : s.mainBegun.head h = { s.head h with
    taken := false, takenBefore := false, latch := false, latchBefore := false } := by
  rw [State.head, State.mainBegun_hs]
  exact s.runBegun_head .main h

theorem State.mainBegun_eq (due : s.pc.due = none) : s.mainBegun = { s with
    mp := { s.rests.mp with passKind := .main }
    hs := s.mainBegun.hs
    pc := { s.mainBegun.pc with
      state := .sewing, cause := .none, phase := .sew, due := none, job := s.pc.job, repairPoint := s.pc.repairPoint
      runCause := s.pc.runCause, resumeCause := s.pc.resumeCause, resumePlan := s.pc.resumePlan } } := by
  unfold State.mainBegun
  rw [State.runBegun_shape, ← due]
  rfl

theorem State.rests_mp (mode : s.mp.mode = .atRest) : s.rests.mp = { s.mp with
    shaft := .inWindow, spindle := 0, window := [], marker := none, prevSpeed := none, stopCeiling := false
    stopEnd := false } := by
  simp only [State.rests, State.setShaft, State.toRest, mode]

theorem State.mainBegun_frontier (s : State) : s.mainBegun.frontier = s.frontier := by
  unfold State.mainBegun
  rw [State.runBegun_shape]
  rfl

/-- The main pass begun, swept and with its window filled. -/
def State.mainFilled (s : State) : State := State.fillWindow (Config.windowSize + 1) s.mainBegun.sewingSweep

/-- What stands once the main pass has begun: the sweep and the filled window keep the rest of it. -/
structure MainBegan (s w : State) : Prop where
  phase : w.pc.phase = .sew
  shaft : w.mp.shaft = .inWindow
  kind : w.mp.passKind = .main
  par : w.par = s.par
  inTrim : ∀ h : HeadId, (w.head h).inTrim = (s.head h).inTrim
  state : w.pc.state = s.mainBegun.sewingSweep.pc.state

theorem State.mainBegun_swept (due : s.pc.due = none) : SweptTo s.mainBegun s.mainBegun.sewingSweep 16 := by
  rw [State.sewingSweep_eq]
  refine State.sweeping_sweptTo rfl ?_ s.mainBegun_noContext.2.1 le_rfl
  rw [State.mainBegun_eq due]

theorem State.mainFilled_began (due : s.pc.due = none) : MainBegan s s.mainFilled := by
  have filled := State.fillWindow_shape (Config.windowSize + 1) s.mainBegun.sewingSweep
  have swept := (State.mainBegun_swept due).frame
  refine ⟨?_, ?_, ?_, ?_, fun h => ?_, ?_⟩
  all_goals rw [State.mainFilled, filled]
  · rw [swept, State.mainBegun_eq due]
  · rw [swept, State.mainBegun_eq due]
    rfl
  · rw [swept, State.mainBegun_eq due]
  · rw [swept, State.mainBegun_eq due]
  · have heads : s.mainBegun.sewingSweep.hs = s.mainBegun.hs := by rw [swept]
    have kept := congrArg HeadRecord.inTrim (s.mainBegun_head h)
    rw [State.head, heads]
    exact kept

/-- Filling the window once the main pass has begun asks the editor for the main pass alone. -/
theorem State.mainFilled_eq (due : s.pc.due = none) {c : IssueContext} (open_ : s.se.context = some c)
    (main : c.kind = .main) : s.mainBegun.sewingSweep.refill = s.mainFilled := by
  refine State.refill_main (c := c) ?_ main
  rw [(State.mainBegun_swept due).frame, State.mainBegun_eq due]
  exact open_

/-! ## The repair pass begun -/

theorem State.repairBegun_hs (s : State) : s.repairBegun.hs = (s.runBegun .repair).hs := by
  rw [State.repairBegun, State.goTo_hs]

theorem State.repairBegun_head (s : State) (h : HeadId) : s.repairBegun.head h = { s.head h with
    taken := false, takenBefore := false, latch := false, latchBefore := false } := by
  rw [State.head, State.repairBegun_hs]
  exact s.runBegun_head .repair h

theorem State.repairBegun_eq (s : State) : s.repairBegun = { s with
    mp := { s.rests.mp with passKind := .repair }
    hs := s.repairBegun.hs
    pc := { s.pc with state := .repair, cause := .none, phase := .sew } } := by
  unfold State.repairBegun
  rw [State.runBegun_shape]
  rfl

/-- What stands once a repair pass has begun and its window is filled. -/
structure RepairBegan (s w : State) : Prop where
  phase : w.pc.phase = .sew
  shaft : w.mp.shaft = .inWindow
  kind : w.mp.passKind = .repair
  par : w.par = s.par
  inTrim : ∀ h : HeadId, (w.head h).inTrim = (s.head h).inTrim
  pass : w.rt.pass = s.rt.pass

theorem State.repairFilled_began (s : State) : RepairBegan s s.repairBegun.refill := by
  have filled := s.repairBegun.refill_shape
  refine ⟨?_, ?_, ?_, ?_, fun h => ?_, ?_⟩
  · rw [filled, State.repairBegun_eq]
  · rw [filled, State.repairBegun_eq]
    rfl
  · rw [filled, State.repairBegun_eq]
  · rw [filled, State.repairBegun_eq]
  · have heads : s.repairBegun.refill.hs = s.repairBegun.hs := by rw [filled]
    have kept := congrArg HeadRecord.inTrim (s.repairBegun_head h)
    rw [State.head, heads]
    exact kept
  · rw [filled, State.repairBegun_eq]

/-! ## SPINDLE_AT_REST takes the request -/

/-- The transition that takes a begin-pass request, and what follows it. -/
theorem exec_spindleAtRest_begins (acts : Acts s) (mode : s.mp.mode = .atRest) (inside : Inside s s.sm.angle)
    {a : Aim} (phase : s.pc.phase = .begin a) (due : s.pc.due = none) (owed : s.mp.unfinished = none) {w : State}
    (taken : (s.setShaft .inWindow).beginTaken = w.runsOrStands) (sews : w.pc.phase = .sew)
    (shaft : w.mp.shaft = .inWindow) (par : w.par = s.par) :
    (w.mp.window ≠ [] → exec .spindleAtRest s =
      .next { w with mp := { w.mp with mode := .running, spindle := s.par.sMin } }) ∧
    (w.mp.window = [] → ∀ t, w.rests.atStandstill w.mp.marker = t →
      (Waits t → exec .spindleAtRest s = .next t) ∧
      ∀ v, t.microStep = some v → Waits v → exec .spindleAtRest s = .next v) := by
  have first := State.microStep_begins mode phase due owed
  rw [taken] at first
  rw [exec_spindleAtRest_waiting_inside acts mode inside]
  refine ⟨fun window => ?_, fun window t stands => ?_⟩
  · rw [State.runsOrStands_runs window] at first
    rw [← par, State.drive_once first (State.waits_sewing sews)]
  · rw [State.runsOrStands_stands window shaft, stands] at first
    exact ⟨fun waits => congrArg _ (State.drive_once first waits),
      fun v next waits => congrArg _ (State.drive_twice first next waits)⟩

/-- Settles O47: the shaft comes to rest while a travel or a begin-pass request waits for it. -/
theorem restBeginsTravelsAndPasses : Obligations.RestBeginsTravelsAndPasses := by
  intro s acts par mode still inside event travels begins rested freed running
  have atRest (in_ : inside) : event = .next (s.setShaft .inWindow).drive :=
    exec_spindleAtRest_waiting_inside acts mode in_
  refine ⟨fun in_ _ => atRest in_, fun out waiting work => ?_, fun d rest in_ ⟨a, phase⟩ owed plan time => ?_,
    fun u v in_ waiting owed listedX listedY time => ?_, fun c in_ ⟨⟨a, phase⟩, due⟩ owed open_ main => ?_,
    fun c in_ ⟨⟨a, phase⟩, due⟩ owed open_ repair => ?_⟩
  · have first := State.microStep_outOfWindow (s := s.setShaft .outOfWindow) mode rfl waiting
    refine ⟨_, (exec_spindleAtRest_waiting_outside acts mode out).trans (congrArg _
      (State.drive_once first (State.immediateHalt_waits (s := s.setShaft .outOfWindow) work _))), ?_, ?_⟩
    · exact State.immediateHalt_haltedAtOnce (s := s.setShaft .outOfWindow) work .spindlePosition
    · exact State.immediateHalt_sm (s := s.setShaft .outOfWindow) work _
  · rw [atRest in_, State.drive_firstStep mode still par phase owed plan time]
  · rw [atRest in_, State.drive_retraction mode waiting owed listedX listedY time]
  · have taken := State.beginTaken_main open_ main
    rw [State.mainFilled_eq due open_ main] at taken
    have began := State.mainFilled_began due
    obtain ⟨runs, stands⟩ := exec_spindleAtRest_begins acts mode in_ phase due owed taken began.phase began.shaft began.par
    have swept : s.mainBegun.sewingSweep = s.mainBegun.sweeping 16 := State.sewingSweep_eq _
    have filled := State.fillWindow_shape (Config.windowSize + 1) (s.mainBegun.sweeping 16)
    refine ⟨s.mainBegun.sweeping, s.mainFilled, ?_, s.mainBegun_noContext, ⟨?_, s.mainBegun_head⟩, ?_, ?_, ?_, runs,
      fun i f window pause sewing context passed => ?_, fun a window marker => ?_⟩
    · have shape := State.mainBegun_eq due
      rwa [State.rests_mp mode] at shape
    · have heads := State.runBegun_hs s .main
      rwa [← State.mainBegun_hs] at heads
    · have store : s.mainBegun.ds = s.ds := by rw [State.mainBegun_eq due]
      have turns := State.sweeping_swept (s := s.mainBegun) rfl (by rw [State.mainBegun_eq due]) s.mainBegun_noContext.2.1
      rwa [State.mainBegun_frontier, store] at turns
    · rw [State.mainFilled, swept]
      exact filled
    · rw [State.mainFilled, swept]
      exact State.fillWindow_filled _ _ (by simp only [Config.windowSize]; omega)
    · have onward : s.mainFilled.pc.state ≠ .stopping := by
        rw [began.state, swept, sewing]
        decide
      obtain ⟨waits, stood⟩ := State.atStandstill_pause began.kind began.phase context passed i (.inl ⟨onward, rfl⟩)
      exact ⟨_, (stands window _ (by rw [pause])).1 waits, stood⟩
    · have made : s.mainFilled.rests.atStandstill s.mainFilled.mp.marker = s.mainFilled.trimming a s.mainFilled.trimSet := by
        rcases marker with ⟨rfl, end_⟩ | ⟨rfl, i, trim⟩
        · rw [end_, State.atStandstill_mainEnd began.kind]
        · rw [trim, State.atStandstill_mainTrim began.kind]
      exact ⟨_, State.trimming_trims _ a fun h => by rw [State.inSet_trimSet, began.inTrim], stands window _ made⟩
  · have began := s.repairFilled_began
    obtain ⟨runs, stands⟩ := exec_spindleAtRest_begins acts mode in_ phase due owed (State.beginTaken_repair open_ repair)
      began.phase began.shaft began.par
    refine ⟨s.repairBegun, s.repairBegun.refill, ?_, ⟨?_, s.repairBegun_head⟩, State.refill_refilled _, runs,
      fun a window marker => ?_⟩
    · have shape := s.repairBegun_eq
      rwa [State.rests_mp mode] at shape
    · have heads := State.runBegun_hs s .repair
      rwa [← State.repairBegun_hs] at heads
    · rcases marker with ⟨rfl, end_⟩ | ⟨rfl, i, trim⟩
      · have named (h : HeadId) : inSet s.repairBegun.refill.involved h = true ↔
            ∃ p, s.rt.pass = some p ∧ inSet p.involved h = true := by
          rw [State.inSet_involved, began.pass]
        exact ⟨_, State.trimming_trims _ .endRepair named,
          stands window _ (by rw [end_, State.atStandstill_repairEnd began.kind])⟩
      · have named (h : HeadId) : inSet s.repairBegun.refill.trimSet h = true ↔ (s.head h).inTrim = true := by
          rw [State.inSet_trimSet, began.inTrim]
        exact ⟨_, State.trimming_trims _ .midRepair named,
          stands window _ (by rw [trim, State.atStandstill_repairTrim began.kind])⟩

end Sys2Proof.Machine
end

section
/-! PROOF. The records closed at a rejoin (R16, R149, R154): what the closing of one record leaves, the pins that follow,
and the heads of a take in turn. -/

open Sys2Proof.Claims

namespace Sys2Proof.Machine

variable {s t u : State}

/-! ## The pins that follow the records (R16, R149) -/

/-- The pins have followed the records up to a state of the same service, a SEWN segment that is not served standing only
while it is pinned. -/
structure Follows (s t : State) : Prop where
  sound : t.ds.Sound
  pinned : t.Pinned
  served : t.ds.served = s.ds.served
  absent : ∀ m, s.findSeg m = none → t.findSeg m = none
  segment : ∀ m q, s.findSeg m = some q →
    (∃ p, t.findSeg m = some { q with pins := p } ∧
      (q.state = .sewn → s.ds.served ≠ some m → 0 < q.pins → 0 < p)) ∨
    (t.findSeg m = none ∧ q.state = .sewn ∧ s.ds.served ≠ some m)

theorem Follows.refl (sound : s.ds.Sound) (pinned : s.Pinned) : Follows s s :=
  ⟨sound, pinned, rfl, fun _ => id, fun _ q there => .inl ⟨q.pins, there, fun _ _ => id⟩⟩

theorem Follows.trans (a : Follows s t) (b : Follows t u) : Follows s u := by
  refine ⟨b.sound, b.pinned, b.served.trans a.served, fun m none_ => b.absent m (a.absent m none_), fun m q there => ?_⟩
  rcases a.segment m q there with ⟨p, stands, pins⟩ | ⟨gone, sewn, unserved⟩
  · rcases b.segment m _ stands with ⟨p', stands', pins'⟩ | ⟨gone, sewn, unserved⟩
    · exact .inl ⟨p', stands', fun sewn unserved pin => pins' sewn (a.served ▸ unserved) (pins sewn unserved pin)⟩
    · exact .inr ⟨gone, sewn, a.served ▸ unserved⟩
  · exact .inr ⟨b.absent m gone, sewn, unserved⟩

/-- Changes apart from the Segment Table, the records staying pinned. -/
theorem Follows.of_ds (sound : s.ds.Sound) (pinned : t.Pinned) (ds : t.ds = s.ds) : Follows s t :=
  have find (m : Nat) : t.findSeg m = s.findSeg m := State.findSeg_congr (by rw [ds]) m
  ⟨ds ▸ sound, pinned, by rw [ds], fun m none_ => (find m).trans none_,
    fun m q there => .inl ⟨q.pins, (find m).trans there, fun _ _ => id⟩⟩

/-- A segment that no record names has no pin, so a SEWN one that was pinned is gone. -/
theorem Follows.pinsFollow (h : Follows s t) : PinsFollow s t := by
  refine ⟨h.pinned, fun m => ⟨h.absent m, fun q there => ⟨?_, fun sewn unserved pin unnamed => ?_⟩⟩⟩
  · rcases h.segment m q there with ⟨p, stands, -⟩ | gone
    · exact .inl ⟨p, stands⟩
    · exact .inr gone
  · rcases h.segment m q there with ⟨p, stands, pins⟩ | ⟨gone, -⟩
    · obtain ⟨mem, number⟩ := State.findSeg_mem stands
      obtain ⟨-, -, counts⟩ := h.pinned
      have count : p = (t.rt.records.filter (·.segment == q.number)).length := (counts _ mem).1
      have none_ : t.rt.records.filter (·.segment == q.number) = [] :=
        List.filter_eq_nil_iff.2 fun r there => by simpa [show q.number = m from number] using unnamed r there
      have pos := pins sewn unserved pin
      rw [count, none_] at pos
      exact absurd pos (by simp)
    · exact gone

/-- A release: one pin less, and the segment freed where that was the last of a SEWN one that is not served. -/
theorem State.release_findSeg (sound : s.ds.Sound) {n : Nat} {q : SegRecord} (there : s.findSeg n = some q) :
    (∀ m, m ≠ n → (s.release n).findSeg m = s.findSeg m) ∧
    ((s.release n).findSeg n = some { q with pins := q.pins - 1 } ∧
        ¬ (q.state = .sewn ∧ q.pins - 1 = 0 ∧ s.ds.served ≠ some n) ∨
      (s.release n).findSeg n = none ∧ q.state = .sewn ∧ s.ds.served ≠ some n) := by
  obtain ⟨mem, -⟩ := State.findSeg_mem there
  obtain ⟨-, -, -, pages⟩ := id sound
  have put : (s.putSeg { q with pins := q.pins - 1 }).ds.Sound := Store.Sound.put sound mem rfl rfl rfl rfl (pages q mem).2
  obtain ⟨own, others⟩ := State.findSeg_putSeg (r' := { q with pins := q.pins - 1 }) sound there rfl rfl rfl rfl
    (pages q mem).2
  have release : s.release n = (s.putSeg { q with pins := q.pins - 1 }).freeIfDone n := by
    simp only [State.release, there]
  rw [release]
  simp only [State.freeIfDone, own]
  split
  case isTrue done =>
    obtain ⟨gone, rest⟩ := State.findSeg_freeSeg put own
    exact ⟨fun m other => (rest m other).trans (others m other), .inr ⟨gone, done.1, done.2.2⟩⟩
  case isFalse open_ => exact ⟨others, .inl ⟨own, open_⟩⟩

theorem State.retire_follows (sound : s.ds.Sound) (pinned : s.Pinned) {r : RepairRecord} (mem : r ∈ s.rt.records) :
    Follows s (s.retire r) := by
  generalize hv : ({ s with rt := { s.rt with records := s.rt.records.filter (·.slot != r.slot) } } : State) = v
  have retire : s.retire r = v.release r.segment := by rw [← hv]; rfl
  have ds : v.ds = s.ds := by rw [← hv]
  have find (m : Nat) : v.findSeg m = s.findSeg m := State.findSeg_congr (by rw [ds]) m
  obtain ⟨-, named, -⟩ := id pinned
  obtain ⟨-, x, there, number⟩ := named r mem
  have present : s.findSeg r.segment = some x := (State.findSeg_eq_some sound).2 ⟨there, number⟩
  obtain ⟨-, -, -, -, -, -, sound'⟩ := v.release_keeps r.segment
  obtain ⟨others, own⟩ := State.release_findSeg (s := v) (ds ▸ sound) ((find _).trans present)
  refine ⟨?_, State.Pinned.retire pinned sound mem rfl rfl, ?_, fun m none_ => ?_, fun m q stands => ?_⟩
  · rw [retire]
    exact sound' (ds ▸ sound)
  · rw [State.retire_only]
  · have other : m ≠ r.segment := fun e => by simp [e, present] at none_
    rw [retire, others m other, find, none_]
  · rw [retire]
    by_cases e : m = r.segment
    · subst e
      obtain rfl : x = q := Option.some.inj (present.symm.trans stands)
      rw [ds] at own
      rcases own with ⟨stays, open_⟩ | gone
      · exact .inl ⟨_, stays, fun sewn unserved _ => Nat.pos_of_ne_zero fun none_ => open_ ⟨sewn, none_, unserved⟩⟩
      · exact .inr gone
    · exact .inl ⟨q.pins, by rw [others m e, find, stands], fun _ _ => id⟩

/-! ## One record closed (R154) -/

/-- A record closed below an index. -/
def RepairRecord.closedBelow (r : RepairRecord) (bound : Nat) : RepairRecord :=
  { r with last := some (bound - 1), state := .closed }

theorem State.closeBelow_closes {r : RepairRecord} {bound : Nat} (more : r.first < bound) :
    s.closeBelow r bound = s.putRecord (r.closedBelow bound) := if_pos more

theorem State.closeBelow_retires {r : RepairRecord} {bound : Nat} (empty : ¬ r.first < bound) :
    s.closeBelow r bound = s.retire r := if_neg empty

theorem State.closeBelow_shape (s : State) (r : RepairRecord) (bound : Nat) : s.closeBelow r bound = { s with
    rt := { s.rt with records := (s.closeBelow r bound).rt.records }
    ds := { s.ds with segs := (s.closeBelow r bound).ds.segs, pool := (s.closeBelow r bound).ds.pool
                      loadWant := (s.closeBelow r bound).ds.loadWant } } := by
  by_cases more : r.first < bound
  · rw [State.closeBelow_closes more]
    rfl
  · rw [State.closeBelow_retires more]
    unfold State.retire State.release
    split
    · rw [State.freeIfDone_shape]
      rfl
    · rfl

theorem State.openRecord_some {h : HeadId} {g : Nat} {r : RepairRecord} (found : s.openRecord h g = some r) :
    r ∈ s.rt.records ∧ r.head = h ∧ r.segment = g ∧ r.state = .opened := by
  have holds := List.find?_some found
  simp only [Bool.and_eq_true, beq_iff_eq, and_assoc] at holds
  exact ⟨List.mem_of_find?_eq_some found, holds⟩

section
variable (pinned : s.Pinned) {r : RepairRecord} (mem : r ∈ s.rt.records)
include pinned mem

theorem State.slot_eq_iff {q : RepairRecord} (there : q ∈ s.rt.records) : q.slot = r.slot ↔ q = r :=
  ⟨fun e => record_slot_inj pinned.1 there mem e, congrArg _⟩

theorem State.mem_closeBelow (bound : Nat) (x : RepairRecord) : x ∈ (s.closeBelow r bound).rt.records ↔
    x ∈ s.rt.records ∧ x ≠ r ∨ r.first < bound ∧ x = r.closedBelow bound := by
  by_cases more : r.first < bound
  · rw [State.closeBelow_closes more]
    have records : (s.putRecord (r.closedBelow bound)).rt.records =
        s.rt.records.map fun q => if q.slot = r.slot then r.closedBelow bound else q := rfl
    rw [records, List.mem_map]
    constructor
    · rintro ⟨q, there, rfl⟩
      split
      · exact .inr ⟨more, rfl⟩
      · rename_i other
        exact .inl ⟨there, mt (congrArg _) other⟩
    · rintro (⟨there, other⟩ | ⟨-, rfl⟩)
      · exact ⟨x, there, if_neg (mt (State.slot_eq_iff pinned mem there).1 other)⟩
      · exact ⟨r, mem, if_pos rfl⟩
  · rw [State.closeBelow_retires more, State.retire_records, List.mem_filter, bne_iff_ne]
    constructor
    · rintro ⟨there, other⟩
      exact .inl ⟨there, mt (congrArg _) other⟩
    · rintro (⟨there, other⟩ | ⟨less, -⟩)
      · exact ⟨there, mt (State.slot_eq_iff pinned mem there).1 other⟩
      · exact absurd less more

theorem State.closeBelow_follows (sound : s.ds.Sound) (bound : Nat) : Follows s (s.closeBelow r bound) := by
  by_cases more : r.first < bound
  · rw [State.closeBelow_closes more]
    exact Follows.of_ds sound (State.Pinned.putRecord pinned mem rfl rfl) rfl
  · rw [State.closeBelow_retires more]
    exact State.retire_follows sound pinned mem

/-- The closing of a record leaves the OPEN records of the other heads. -/
theorem State.openRecord_closeBelow {h : HeadId} (other : r.head ≠ h) (g bound : Nat) :
    (s.closeBelow r bound).openRecord h g = s.openRecord h g := by
  by_cases more : r.first < bound
  · rw [State.closeBelow_closes more]
    have map : (s.putRecord (r.closedBelow bound)).openRecord h g =
        (s.rt.records.map fun q => if q.slot = r.slot then r.closedBelow bound else q).find?
          fun q => q.head == h && q.segment == g && q.state == .opened := rfl
    rw [map, List.find?_map]
    have same : s.rt.records.find? ((fun q : RepairRecord => q.head == h && q.segment == g && q.state == .opened) ∘
        fun q => if q.slot = r.slot then r.closedBelow bound else q) = s.openRecord h g := by
      refine List.find?_congr fun q there => ?_
      by_cases e : q.slot = r.slot
      · obtain rfl := (State.slot_eq_iff pinned mem there).1 e
        have apart : (q.head == h) = false := beq_eq_false_iff_ne.2 other
        simp [RepairRecord.closedBelow, apart]
      · simp only [Function.comp_apply, if_neg e]
    rw [same]
    cases found : s.openRecord h g with
    | none => rfl
    | some q =>
      obtain ⟨there, head, -⟩ := State.openRecord_some found
      have apart : q.slot ≠ r.slot := fun e => other (((State.slot_eq_iff pinned mem there).1 e) ▸ head)
      exact congrArg some (if_neg apart)
  · rw [State.closeBelow_retires more]
    unfold State.openRecord
    rw [State.retire_records, List.find?_filter]
    refine List.find?_congr fun q there => ?_
    by_cases e : q.slot = r.slot
    · obtain rfl := (State.slot_eq_iff pinned mem there).1 e
      have apart : (q.head == h) = false := beq_eq_false_iff_ne.2 other
      simp [apart]
    · have stays : (q.slot != r.slot) = true := bne_iff_ne.2 e
      simp only [stays, true_and, Bool.decide_eq_true]

end

/-! ## The heads of a take in turn (R107, R154) -/

/-- A head's turn: its OPEN record in the segment is closed. -/
def State.rejoinTurn (g bound : Nat) (h : HeadId) (s : State) : State :=
  match s.openRecord h g with
  | some r => s.closeBelow r bound
  | none => s

/-- The record that a head which sews has open in the segment. -/
def Rejoining (s : State) (g : Nat) (down : HeadSet) (r : RepairRecord) : Prop :=
  inSet down r.head = true ∧ s.openRecord r.head g = some r

/-- What the turns of the first k heads leave of the records and of the store. -/
structure Rejoined (s t : State) (g bound : Nat) (down : HeadSet) (k : Nat) : Prop where
  follows : Follows s t
  later : ∀ h : HeadId, k ≤ h.val → t.openRecord h g = s.openRecord h g
  records : ∀ x, x ∈ t.rt.records ↔ (x ∈ s.rt.records ∧ ¬ (Rejoining s g down x ∧ x.head.val < k)) ∨
    ∃ r, Rejoining s g down r ∧ r.head.val < k ∧ r.first < bound ∧ x = r.closedBelow bound
  store : (∀ r, Rejoining s g down r → r.first < bound) → t.ds = s.ds

variable {g bound : Nat} {down : HeadSet}

/-- A head with nothing to close. -/
theorem Rejoined.idle {h : HeadId} (before : Rejoined s t g bound down h.val)
    (none_ : ∀ r, Rejoining s g down r → r.head ≠ h) : Rejoined s t g bound down (h.val + 1) := by
  have apart {r : RepairRecord} (rejoins : Rejoining s g down r) : r.head.val < h.val + 1 ↔ r.head.val < h.val := by
    have other : r.head.val ≠ h.val := fun e => none_ r rejoins (Fin.ext e)
    omega
  refine ⟨before.follows, fun k later => before.later k (by omega), fun x => ?_, before.store⟩
  rw [before.records x]
  refine or_congr (and_congr_right fun _ => not_congr (and_congr_right fun rejoins => (apart rejoins).symm)) ?_
  exact exists_congr fun r => and_congr_right fun rejoins => and_congr_left fun _ => (apart rejoins).symm

/-- A head whose record is closed. -/
theorem Rejoined.closes {h : HeadId} {r : RepairRecord} (before : Rejoined s t g bound down h.val)
    (sews : inSet down h = true) (open_ : t.openRecord h g = some r) :
    Rejoined s (t.closeBelow r bound) g bound down (h.val + 1) := by
  obtain ⟨mem, head, -, state⟩ := State.openRecord_some open_
  have opened : s.openRecord h g = some r := (before.later h le_rfl).symm.trans open_
  have rejoins : Rejoining s g down r := by
    subst head
    exact ⟨sews, opened⟩
  have pinned := before.follows.pinned
  refine ⟨before.follows.trans (State.closeBelow_follows pinned mem before.follows.sound bound), fun k later => ?_,
    fun x => ?_, fun all => ?_⟩
  · have other : r.head ≠ k := fun e => by
      rw [← e, head] at later
      omega
    rw [State.openRecord_closeBelow pinned mem other]
    exact before.later k (by omega)
  · rw [State.mem_closeBelow pinned mem, before.records x]
    have own {q : RepairRecord} (rejoins : Rejoining s g down q) (at_ : q.head.val < h.val + 1) :
        q.head.val < h.val ∨ q = r := by
      refine (Nat.lt_succ_iff_lt_or_eq.1 at_).imp_right fun e => ?_
      obtain ⟨-, open_⟩ := rejoins
      rw [Fin.ext e, opened] at open_
      exact (Option.some.inj open_).symm
    have turn : r.head.val < h.val + 1 := by
      rw [head]
      exact Nat.lt_succ_self _
    constructor
    · rintro (⟨⟨there, kept⟩ | ⟨q, rejoins, at_, more, rfl⟩, other⟩ | ⟨more, rfl⟩)
      · exact .inl ⟨there, fun ⟨rejoins, at_⟩ => (own rejoins at_).elim (fun less => kept ⟨rejoins, less⟩) other⟩
      · exact .inr ⟨q, rejoins, by omega, more, rfl⟩
      · exact .inr ⟨r, rejoins, turn, more, rfl⟩
    · rintro (⟨there, kept⟩ | ⟨q, rejoins, at_, more, rfl⟩)
      · exact .inl ⟨.inl ⟨there, fun ⟨rejoins, less⟩ => kept ⟨rejoins, by omega⟩⟩, fun e => kept (e ▸ ⟨rejoins, turn⟩)⟩
      · rcases own rejoins at_ with less | rfl
        · have closed : q.closedBelow bound ≠ r := fun e => by
            rw [← e] at state
            exact absurd state (by simp [RepairRecord.closedBelow])
          exact .inl ⟨.inr ⟨q, rejoins, less, more, rfl⟩, closed⟩
        · exact .inr ⟨more, rfl⟩
  · rw [State.closeBelow_closes (all r rejoins), State.putRecord_ds]
    exact before.store all

/-- The closing of the records of all heads that sew. -/
theorem State.closeAtRejoin_rejoined (sound : s.ds.Sound) (pinned : s.Pinned) :
    Rejoined s (s.closeAtRejoin g bound down) g bound down 16 := by
  have turns : s.closeAtRejoin g bound down = State.turns (inSet down) (State.rejoinTurn g bound) s 16 :=
    (State.turns_all _ _ _).symm
  have all (k : Nat) (few : k ≤ 16) :
      Rejoined s (State.turns (inSet down) (State.rejoinTurn g bound) s k) g bound down k := by
    induction k with
    | zero => exact ⟨Follows.refl sound pinned, fun _ _ => rfl, fun x => by simp [State.turns_zero], fun _ => rfl⟩
    | succ k ih =>
      have before := ih (by omega)
      rw [State.turns_succ (h := ⟨k, few⟩)]
      by_cases sews : inSet down ⟨k, few⟩ = true
      · rw [if_pos sews]
        unfold State.rejoinTurn
        split
        · rename_i r open_
          exact before.closes sews open_
        · rename_i none_
          refine Rejoined.idle (h := ⟨k, few⟩) before fun r rejoins head => ?_
          obtain ⟨-, open_⟩ := rejoins
          have closed : s.openRecord ⟨k, few⟩ g = none := (before.later ⟨k, few⟩ le_rfl).symm.trans none_
          rw [← head, open_] at closed
          exact absurd closed (by simp)
      · rw [if_neg sews]
        exact Rejoined.idle (h := ⟨k, few⟩) before fun r rejoins head => sews (head ▸ rejoins.1)
  rw [turns]
  exact all 16 le_rfl

/-- The closing of the records changes nothing but them and the segments they pin. -/
theorem State.closeAtRejoin_shape (s : State) (g bound : Nat) (down : HeadSet) :
    s.closeAtRejoin g bound down = { s with
      rt := { s.rt with records := (s.closeAtRejoin g bound down).rt.records }
      ds := { s.ds with segs := (s.closeAtRejoin g bound down).ds.segs, pool := (s.closeAtRejoin g bound down).ds.pool
                        loadWant := (s.closeAtRejoin g bound down).ds.loadWant } } := by
  refine State.forHeads_keep (P := fun u => u = { s with
    rt := { s.rt with records := u.rt.records }
    ds := { s.ds with segs := u.ds.segs, pool := u.ds.pool, loadWant := u.ds.loadWant } }) (fun h u _ hu => ?_) rfl
  dsimp only
  split
  · rename_i r _
    rw [State.closeBelow_shape, hu]
  · exact hu

end Sys2Proof.Machine
end

section
/-! PROOF. The planned speed of a take (R42, R44, R45) and the Head Supervisor's part of it (R106 to R110): the heads that
come back, the latch decision, the records closed, the exchange. -/

open Sys2Proof.Claims

namespace Sys2Proof.Machine

variable {s t : State}

/-! ## The planned speed (R42, R44, R45) -/

theorem State.yellow_iff (s : State) : s.yellow = true ↔
    ∃ h, (s.head h).state = .active ∧ (s.meter h).colour ≠ .green := by
  simp [State.yellow, mem_allHeads]

/-- The live ceiling is the least of the limits that stand, S_MIN at the lowest. -/
theorem State.liveCeiling_least {e : Int} (least : LeastOf e s.par.sMax
    ((s.mp.policyCeiling.toList.map Int.ofNat) ++
      (if ∃ h, (s.head h).state = .active ∧ (s.meter h).colour ≠ .green then [(s.par.yellowCap : Int)] else []) ++
      (if s.mp.stopCeiling then [(s.par.sMin : Int)] else []))) : (s.liveCeiling : Int) = max e s.par.sMin := by
  unfold LeastOf at least
  simp only [← State.yellow_iff] at least
  unfold State.liveCeiling
  dsimp only
  cases policy : s.mp.policyCeiling <;> cases yellow : s.yellow <;> cases ceiling : s.mp.stopCeiling <;>
    simp [policy, yellow, ceiling] at least ⊢ <;> omega

/-- The backward pass from a place in the window on. -/
def State.backwardFrom (s : State) (i : Nat) : Nat := backwardPass s.par.sMin s.par.accelDown (s.mp.window.drop i)

theorem State.backwardFrom_at {i : Nat} {w : Planned} (at_ : s.mp.window[i]? = some w) :
    s.backwardFrom i = min w.cap (s.backwardFrom (i + 1) + s.par.accelDown) := by
  obtain ⟨inside, rfl⟩ := List.getElem?_eq_some_iff.1 at_
  rw [State.backwardFrom, List.drop_eq_getElem_cons inside]
  rfl

theorem State.backwardFrom_end (s : State) : s.backwardFrom s.mp.window.length = s.par.sMin := by
  rw [State.backwardFrom, List.drop_length]
  rfl

theorem State.plannedSpeed_first (first : s.mp.prevSpeed = none) : s.plannedSpeed = s.par.sMin := by
  simp only [State.plannedSpeed, first]

theorem State.plannedSpeed_next {q : Nat} (before : s.mp.prevSpeed = some q) : s.plannedSpeed =
    min (min (s.backwardFrom 0) (q + s.par.accelUp)) (max s.liveCeiling (q - s.par.accelDown)) := by
  simp only [State.plannedSpeed, before]
  rfl

/-! ## The latch decision (R108, R109) -/

theorem State.fitNow_iff (s : State) (h : HeadId) : s.fitNow h = true ↔ Fit s h := by
  unfold State.fitNow State.currentFit Fit State.needle NeedleEntry.fit
  cases s.ts.working <;> cases (s.sel h).current <;> simp

theorem Issued.place_eq_some_iff {st : Issued} {i : Nat} : st.place = some i ↔ At st i := by
  unfold Issued.place At
  cases st.index <;> simp

theorem State.replayCovers_iff (s : State) (g : Nat) (st : Issued) (h : HeadId) : s.replayCovers g st h = false ↔
    ∀ k i, (s.head h).replay = some (g, k) → At st i → k ≤ i := by
  simp only [← Issued.place_eq_some_iff]
  unfold State.replayCovers
  cases (s.head h).replay with
  | none => simp
  | some x => cases st.place <;> simp [Prod.ext_iff]

theorem State.inRanges_iff (s : State) (st : Issued) (h : HeadId) : s.inRanges st h = true ↔
    ∃ i r, At st i ∧ r ∈ (s.head h).ranges ∧ r.1 ≤ i ∧ i ≤ r.2 := by
  simp only [← Issued.place_eq_some_iff]
  unfold State.inRanges
  cases st.place <;> simp

/-- A head is sent DOWN. -/
def Sews (s : State) (g : Nat) (st : Issued) (h : HeadId) : Prop :=
  (s.head h).state = .active ∧ Fit s h ∧ st.jump = false ∧
    (s.mp.passKind = .main → ∀ k i, (s.head h).replay = some (g, k) → At st i → k ≤ i) ∧
    (s.mp.passKind = .repair → ∃ i r, At st i ∧ r ∈ (s.head h).ranges ∧ r.1 ≤ i ∧ i ≤ r.2)

theorem State.latchDown_iff (s : State) (g : Nat) (st : Issued) (h : HeadId) :
    s.latchDown g st h = true ↔ Sews s g st h := by
  unfold State.latchDown Sews
  rw [← State.replayCovers_iff, ← State.inRanges_iff, ← State.fitNow_iff]
  cases s.mp.passKind <;> simp [and_assoc]

/-! ## The heads of a take (R106, R109, R110) -/

/-- A REJOIN_WAIT head that comes back at the take. -/
def ComesBack (s : State) (st : Issued) (h : HeadId) : Prop :=
  (s.head h).state = .rejoinWait ∧ s.pc.state = .sewing ∧ (s.mp.passKind = .main ∧ st.index.isSome = true) ∧ Fit s h

/-- The take has reached the index that a head's replay latch waits for. -/
def ReplayReached (s : State) (g : Nat) (st : Issued) (h : HeadId) : Prop :=
  (s.mp.passKind = .main ∧ st.index.isSome = true) ∧
    ∃ l k, st.lowest = some l ∧ (s.head h).replay = some (g, k) ∧ k ≤ l

theorem State.boundaryRejoins_shape (st : Issued) (s : State) : s.boundaryRejoins st =
    { s with hs := { s.hs with heads := (s.boundaryRejoins st).hs.heads } } := by
  unfold State.boundaryRejoins
  split
  · obtain ⟨heads, shape⟩ := State.forHeads_setHead_shape
      (fun h => (s.head h).state == .rejoinWait && s.fitNow h) (fun t h => { t.head h with state := .active }) s
    exact shape.trans (by rw [show (s.forHeads _ fun h t => t.setHeadState h .active) = _ from shape])
  · rfl

theorem State.boundaryRejoins_head (st : Issued) (s : State) (h : HeadId) :
    (ComesBack s st h → (s.boundaryRejoins st).head h = { s.head h with state := .active }) ∧
    (¬ ComesBack s st h → (s.boundaryRejoins st).head h = s.head h) := by
  have turns := State.forHeads_at (p := fun h => (s.head h).state == .rejoinWait && s.fitNow h)
    (f := fun h t => t.setHeadState h .active) (g := State.head) (fun _ r => { r with state := .active })
    (fun h t => State.head_setHead_self _ _ _) (fun h k t e => by rw [State.setHeadState, State.head_setHead, if_neg e]) s h
  have comes : ((s.head h).state == .rejoinWait && s.fitNow h) = true ↔ (s.head h).state = .rejoinWait ∧ Fit s h := by
    rw [Bool.and_eq_true, beq_iff_eq, State.fitNow_iff]
  unfold State.boundaryRejoins
  constructor
  · rintro ⟨waits, sewing, ⟨main, indexed⟩, fit⟩
    rw [if_pos ⟨sewing, main, indexed⟩, turns, if_pos (comes.2 ⟨waits, fit⟩)]
  · intro stays
    split
    · rename_i boundary
      obtain ⟨sewing, main, indexed⟩ := boundary
      rw [turns, if_neg]
      intro back
      obtain ⟨waits, fit⟩ := comes.1 back
      exact stays ⟨waits, sewing, ⟨main, indexed⟩, fit⟩
    · rfl

theorem State.clearReplays_shape (g l : Nat) (s : State) : s.clearReplays g l =
    { s with hs := { s.hs with heads := (s.clearReplays g l).hs.heads } } := by
  obtain ⟨heads, shape⟩ := State.forHeads_setHead_shape
    (fun h => (s.head h).replay.elim false fun x => x.1 == g && decide (x.2 ≤ l))
    (fun t h => { t.head h with replay := none }) s
  exact shape.trans (by rw [show s.clearReplays g l = _ from shape])

theorem State.clearReplays_head (g l : Nat) (s : State) (h : HeadId) : (s.clearReplays g l).head h =
    if (s.head h).replay.elim false fun x => x.1 == g && decide (x.2 ≤ l) then { s.head h with replay := none }
    else s.head h :=
  State.forHeads_at (g := State.head) (fun _ r => { r with replay := none }) (fun h t => State.head_setHead_self _ _ _)
    (fun h k t e => by rw [State.head_setHead, if_neg e]) s h

theorem State.noteTrimSet_shape (st : Issued) (down : HeadSet) (s : State) : s.noteTrimSet st down =
    { s with hs := { s.hs with heads := (s.noteTrimSet st down).hs.heads } } := by
  unfold State.noteTrimSet
  split
  · rfl
  · obtain ⟨heads, shape⟩ := State.forHeads_setHead_shape (fun _ => true)
      (fun t h => { t.head h with inTrim := inSet down h }) s
    exact shape.trans (by rw [shape])

theorem State.noteTrimSet_head (st : Issued) (down : HeadSet) (s : State) (h : HeadId) :
    (s.noteTrimSet st down).head h =
      { s.head h with inTrim := if st.jump then (s.head h).inTrim else inSet down h } := by
  unfold State.noteTrimSet
  split
  · rfl
  · exact (State.forHeads_at (g := State.head) (fun h r => { r with inTrim := inSet down h })
      (fun h t => State.head_setHead_self _ _ _) (fun h k t e => by rw [State.head_setHead, if_neg e]) s h).trans
        (if_pos rfl)

/-! ## The records closed at a take (R107, R109, R154) -/

/-- The replay latches that a take reaches are cleared, and the records of the heads that sew are closed. -/
def State.closesAt (g : Nat) (st : Issued) (down : HeadSet) (s : State) : State :=
  match s.mp.passKind, st.index, st.lowest with
  | .main, some _, some lowest => (s.clearReplays g lowest).closeAtRejoin g lowest down
  | _, _, _ => s

section
variable {g : Nat} {st : Issued} {down : HeadSet}

theorem State.closesAt_indexed (indexed : s.mp.passKind = .main ∧ st.index.isSome = true) {l : Nat}
    (lowest : st.lowest = some l) : s.closesAt g st down = (s.clearReplays g l).closeAtRejoin g l down := by
  obtain ⟨main, index⟩ := indexed
  obtain ⟨i, index⟩ := Option.isSome_iff_exists.1 index
  simp only [State.closesAt, main, index, lowest]

theorem State.closesAt_apart
    (apart : ¬ ((s.mp.passKind = .main ∧ st.index.isSome = true) ∧ st.lowest.isSome = true)) :
    s.closesAt g st down = s := by
  unfold State.closesAt
  split
  · rename_i main index lowest
    exact absurd ⟨⟨main, by rw [index]; rfl⟩, by rw [lowest]; rfl⟩ apart
  · rfl

theorem State.closesAt_shape (g : Nat) (st : Issued) (down : HeadSet) (s : State) : s.closesAt g st down = { s with
    hs := { s.hs with heads := (s.closesAt g st down).hs.heads }
    rt := { s.rt with records := (s.closesAt g st down).rt.records }
    ds := { s.ds with segs := (s.closesAt g st down).ds.segs, pool := (s.closesAt g st down).ds.pool
                      loadWant := (s.closesAt g st down).ds.loadWant } } := by
  unfold State.closesAt
  split
  · rw [State.closeAtRejoin_shape, State.clearReplays_shape]
  · rfl

theorem State.closesAt_head (g : Nat) (st : Issued) (down : HeadSet) (s : State) (h : HeadId) :
    (ReplayReached s g st h → (s.closesAt g st down).head h = { s.head h with replay := none }) ∧
    (¬ ReplayReached s g st h → (s.closesAt g st down).head h = s.head h) := by
  have closed (l : Nat) : ((s.clearReplays g l).closeAtRejoin g l down).head h = (s.clearReplays g l).head h :=
    State.head_congr (by rw [State.closeAtRejoin_shape]) h
  constructor
  · rintro ⟨indexed, l, k, lowest, replay, reached⟩
    rw [State.closesAt_indexed indexed lowest, closed, State.clearReplays_head, replay]
    exact if_pos (by simp [reached])
  · intro apart
    by_cases indexed : (s.mp.passKind = .main ∧ st.index.isSome = true) ∧ st.lowest.isSome = true
    · obtain ⟨indexed, lowest⟩ := indexed
      obtain ⟨l, lowest⟩ := Option.isSome_iff_exists.1 lowest
      rw [State.closesAt_indexed indexed lowest, closed, State.clearReplays_head, if_neg]
      cases replay : (s.head h).replay with
      | none => simp
      | some x =>
        obtain ⟨m, k⟩ := x
        simp only [Option.elim_some, Bool.and_eq_true, beq_iff_eq, decide_eq_true_eq]
        rintro ⟨rfl, reached⟩
        exact apart ⟨indexed, l, k, lowest, replay, reached⟩
    · rw [State.closesAt_apart indexed]

end

end Sys2Proof.Machine
end

section
/-! PROOF. SHAFT_ANGLE_CHANGE at a window open with a stitch to sew (R45, R48, R100, R106 to R110, R154). -/

open Sys2Proof.Claims

namespace Sys2Proof.Machine

variable {s t : State} {st : Issued}

/-! ## The Head Supervisor's part of a take (R106 to R110) -/

/-- The heads that sew a stitch. -/
def State.takers (st : Issued) (s : State) : HeadSet :=
  headSetOf ((s.boundaryRejoins st).latchDown (s.ds.served.getD 0) st)

/-- The state in which the exchange of a take is made. -/
def State.noted (st : Issued) (s : State) : State :=
  ((s.boundaryRejoins st).closesAt (s.ds.served.getD 0) st (s.takers st)).noteTrimSet st (s.takers st)

theorem State.noted_shape (st : Issued) (s : State) : s.noted st = { s with
    hs := { s.hs with heads := (s.noted st).hs.heads }
    rt := { s.rt with records := (s.noted st).rt.records }
    ds := { s.ds with segs := (s.noted st).ds.segs, pool := (s.noted st).ds.pool
                      loadWant := (s.noted st).ds.loadWant } } := by
  unfold State.noted
  rw [State.noteTrimSet_shape, State.closesAt_shape, State.boundaryRejoins_shape]

theorem State.superviseTake_eq (st : Issued) (s : State) : s.superviseTake st =
    ({ s.noted st with hs := { (s.noted st).hs with lastTake := st.place } } : State).exchange true (s.takers st)
      (some ⟨st, s.ds.served.getD 0, s.mp.passKind, false⟩) := by
  have kind : (s.noted st).mp.passKind = s.mp.passKind := by rw [State.noted_shape]
  rw [← kind]
  rfl

theorem State.superviseTake_shape (st : Issued) (s : State) : s.superviseTake st = { s with
    ts := { s.ts with heads := (s.superviseTake st).ts.heads }
    rt := { s.rt with records := (s.noted st).rt.records }
    hs := ⟨(s.superviseTake st).hs.heads, true, some ⟨st, s.ds.served.getD 0, s.mp.passKind, false⟩, s.hs.current, st.place⟩
    ds := { s.ds with segs := (s.noted st).ds.segs, pool := (s.noted st).ds.pool
                      loadWant := (s.noted st).ds.loadWant } } := by
  rw [State.superviseTake_eq, State.exchange_shape, State.noted_shape]

section
variable (st : Issued) (s : State) (h : HeadId)

theorem State.boundaryRejoins_state : (ComesBack s st h → ((s.boundaryRejoins st).head h).state = .active) ∧
    (¬ ComesBack s st h → ((s.boundaryRejoins st).head h).state = (s.head h).state) := by
  obtain ⟨comes, stays⟩ := State.boundaryRejoins_head st s h
  exact ⟨fun back => by rw [comes back], fun apart => by rw [stays apart]⟩

theorem State.boundaryRejoins_keeps : (s.boundaryRejoins st).head h =
    { s.head h with state := ((s.boundaryRejoins st).head h).state } := by
  obtain ⟨comes, stays⟩ := State.boundaryRejoins_head st s h
  by_cases back : ComesBack s st h
  · rw [comes back]
  · rw [stays back]

theorem State.closesAt_keeps (g : Nat) (down : HeadSet) : (s.closesAt g st down).head h =
    { s.head h with replay := ((s.closesAt g st down).head h).replay } := by
  obtain ⟨clears, stays⟩ := State.closesAt_head g st down s h
  by_cases reached : ReplayReached s g st h
  · rw [clears reached]
  · rw [stays reached]

theorem State.replayReached_boundaryRejoins (g : Nat) :
    ReplayReached (s.boundaryRejoins st) g st h ↔ ReplayReached s g st h := by
  have mp : (s.boundaryRejoins st).mp = s.mp := by rw [State.boundaryRejoins_shape]
  unfold ReplayReached
  rw [mp, State.boundaryRejoins_keeps]

/-- The heads that come back have become ACTIVE. -/
theorem State.noted_state : ((s.noted st).head h).state = ((s.boundaryRejoins st).head h).state := by
  rw [State.noted, State.noteTrimSet_head, State.closesAt_keeps]

theorem State.noted_replay :
    (ReplayReached s (s.ds.served.getD 0) st h → ((s.noted st).head h).replay = none) ∧
    (¬ ReplayReached s (s.ds.served.getD 0) st h → ((s.noted st).head h).replay = (s.head h).replay) := by
  obtain ⟨clears, stays⟩ := State.closesAt_head (s.ds.served.getD 0) st (s.takers st) (s.boundaryRejoins st) h
  rw [State.replayReached_boundaryRejoins] at clears stays
  rw [State.noted, State.noteTrimSet_head]
  refine ⟨fun reached => by rw [clears reached], fun apart => ?_⟩
  rw [stays apart, State.boundaryRejoins_keeps]

theorem State.noted_head : (s.noted st).head h = { s.head h with
    state := ((s.noted st).head h).state, replay := ((s.noted st).head h).replay
    inTrim := if st.jump then (s.head h).inTrim else inSet (s.takers st) h } := by
  rw [State.noted, State.noteTrimSet_head, State.closesAt_keeps, State.boundaryRejoins_keeps]

theorem State.inSet_takers : inSet (s.takers st) h = true ↔ ((s.noted st).head h).state = .active ∧ Fit s h ∧
    st.jump = false ∧
    (s.mp.passKind = .main → ∀ k i, (s.head h).replay = some (s.ds.served.getD 0, k) → At st i → k ≤ i) ∧
    (s.mp.passKind = .repair → ∃ i r, At st i ∧ r ∈ (s.head h).ranges ∧ r.1 ≤ i ∧ i ≤ r.2) := by
  have mp : (s.boundaryRejoins st).mp = s.mp := by rw [State.boundaryRejoins_shape]
  have fit : Fit (s.boundaryRejoins st) h ↔ Fit s h := by
    rw [State.boundaryRejoins_shape]
    exact Iff.rfl
  rw [State.takers, inSet_headSetOf, State.latchDown_iff, Sews, fit, mp, State.noted_state, State.boundaryRejoins_keeps]

/-! ## What a take leaves of a head (R100, R106, R108 to R110) -/

theorem State.noted_excluded_iff :
    ((s.noted st).head h).state = .excluded ↔ (s.head h).state = .excluded := by
  obtain ⟨comes, stays⟩ := State.boundaryRejoins_state st s h
  rw [State.noted_state]
  by_cases back : ComesBack s st h
  · rw [comes back, back.1]
    simp
  · rw [stays back]

theorem State.noted_sel : (s.noted st).sel h = s.sel h := by
  rw [State.noted_shape]
  rfl

theorem State.superviseTake_excluded (excluded : (s.head h).state = .excluded) :
    (s.superviseTake st).sel h = s.sel h ∧ (s.superviseTake st).head h = (s.noted st).head h := by
  obtain ⟨head, sel⟩ := State.exchange_excluded
    (s := { s.noted st with hs := { (s.noted st).hs with lastTake := st.place } }) true (s.takers st)
    (some ⟨st, s.ds.served.getD 0, s.mp.passKind, false⟩) ((s.noted_excluded_iff st h).2 excluded)
  rw [State.superviseTake_eq]
  exact ⟨sel.trans (s.noted_sel st h), head⟩

theorem State.superviseTake_polled (polled : (s.head h).state ≠ .excluded) :
    (s.superviseTake st).sel h = (s.sel h).exchanged ∧
      (s.superviseTake st).head h = ((s.noted st).head h).exchanged h (s.sel h) (inSet (s.takers st) h) := by
  obtain ⟨head, sel⟩ := State.exchange_polled
    (s := { s.noted st with hs := { (s.noted st).hs with lastTake := st.place } }) true (s.takers st)
    (some ⟨st, s.ds.served.getD 0, s.mp.passKind, false⟩) (mt (s.noted_excluded_iff st h).1 polled)
  have same : ({ s.noted st with hs := { (s.noted st).hs with lastTake := st.place } } : State).sel h = s.sel h :=
    s.noted_sel st h
  rw [same] at head sel
  rw [State.superviseTake_eq]
  exact ⟨sel, head⟩

/-- The exchange leaves the states and the replay latches of the heads. -/
theorem State.superviseTake_keeps : ((s.superviseTake st).head h).state = ((s.noted st).head h).state ∧
    ((s.superviseTake st).head h).replay = ((s.noted st).head h).replay := by
  by_cases excluded : (s.head h).state = .excluded
  · rw [(s.superviseTake_excluded st h excluded).2]
    exact ⟨rfl, rfl⟩
  · rw [(s.superviseTake_polled st h excluded).2]
    exact ⟨rfl, rfl⟩

/-- A head that sews is not EXCLUDED. -/
theorem State.takers_polled (sews : inSet (s.takers st) h = true) : (s.head h).state ≠ .excluded := by
  obtain ⟨active, -⟩ := (s.inSet_takers st h).1 sews
  refine mt (s.noted_excluded_iff st h).2 ?_
  rw [active]
  decide

theorem State.superviseTake_latch (polled : (s.head h).state ≠ .excluded) :
    ((s.superviseTake st).head h).latch = inSet (s.takers st) h := by
  rw [(s.superviseTake_polled st h polled).2]
  rfl

/-- What a take leaves of a head, in the statements' words. -/
def TakenAs (s t : State) (st : Issued) (h : HeadId) : Prop :=
  let sews := (t.head h).state = .active ∧ Fit s h ∧ st.jump = false ∧
    (s.mp.passKind = .main → ∀ k i, (s.head h).replay = some (s.ds.served.getD 0, k) → At st i → k ≤ i) ∧
    (s.mp.passKind = .repair → ∃ i r, At st i ∧ r ∈ (s.head h).ranges ∧ r.1 ≤ i ∧ i ≤ r.2)
  (ReplayReached s (s.ds.served.getD 0) st h → (t.head h).replay = none) ∧
  (¬ ReplayReached s (s.ds.served.getD 0) st h → (t.head h).replay = (s.head h).replay) ∧
  ((s.head h).state = .excluded → t.sel h = s.sel h ∧
    t.head h = { s.head h with inTrim := st.jump && (s.head h).inTrim, replay := (t.head h).replay }) ∧
  ((s.head h).state ≠ .excluded → OrdersGoOn (s.sel h) (t.sel h) ∧
    t.head h = { s.head h with
      state := (t.head h).state, awaiting := true, taken := false, takenBefore := (s.head h).taken
      latch := (t.head h).latch, latchBefore := (s.head h).latch, command := (t.head h).command
      inTrim := if st.jump then (s.head h).inTrim else (t.head h).latch, replay := (t.head h).replay } ∧
    Commanded (t.head h).command h (t.head h) (s.sel h) ∧ ((t.head h).latch = true ↔ sews) ∧
    (ComesBack s st h → (t.head h).state = .active) ∧ (¬ ComesBack s st h → (t.head h).state = (s.head h).state))

theorem State.superviseTake_takenAs : TakenAs s (s.superviseTake st) st h := by
  obtain ⟨clears, keeps⟩ := s.noted_replay st h
  obtain ⟨returns, stays⟩ := s.boundaryRejoins_state st h
  obtain ⟨state, replay⟩ := s.superviseTake_keeps st h
  rw [← replay] at clears keeps
  rw [← s.noted_state, ← state] at returns stays
  have noted := s.noted_head st h
  refine ⟨clears, keeps, fun excluded => ?_, fun polled => ?_⟩
  · obtain ⟨sel, head⟩ := s.superviseTake_excluded st h excluded
    have up : inSet (s.takers st) h = false := by
      rw [← Bool.not_eq_true]
      exact fun down => s.takers_polled st h down excluded
    have still : ((s.noted st).head h).state = (s.head h).state :=
      ((s.noted_excluded_iff st h).2 excluded).trans excluded.symm
    refine ⟨sel, ?_⟩
    rw [head, noted, up, still]
    cases st.jump <;> rfl
  · obtain ⟨sel, head⟩ := s.superviseTake_polled st h polled
    refine ⟨?_, ?_, ?_, ?_, returns, stays⟩
    · rw [sel]
      exact SelectorHead.exchanged_goesOn _
    · rw [head, noted]
      rfl
    · rw [head]
      exact HeadRecord.exchanged_commanded _ _ _ _
    · rw [state, s.superviseTake_latch st h polled]
      exact s.inSet_takers st h

end

/-! ## What a take leaves of the records (R107, R154) -/

theorem State.openRecord_congr (h : t.rt.records = s.rt.records) (g : HeadId) (n : Nat) :
    t.openRecord g n = s.openRecord g n := by
  unfold State.openRecord
  rw [h]

theorem State.openRecord_eq (s : State) (h : HeadId) (g : Nat) : s.openRecord h g =
    s.rt.records.find? (fun q => decide (q.head = h ∧ q.segment = g ∧ q.state = .opened)) := by
  unfold State.openRecord
  refine List.find?_congr fun q _ => ?_
  rw [Bool.eq_iff_iff, decide_eq_true_iff, Bool.and_eq_true, Bool.and_eq_true, beq_iff_eq, beq_iff_eq, beq_iff_eq, and_assoc]

theorem Rejoining.congr {g : Nat} {down : HeadSet} (h : t.rt.records = s.rt.records) (r : RepairRecord) :
    Rejoining t g down r ↔ Rejoining s g down r := by
  unfold Rejoining
  rw [State.openRecord_congr h]

/-- The statements' words for what follows of the pins are about the store and the records alone. -/
theorem PinsFollow.congr {v w : State} (h : PinsFollow v w) (before : s.ds = v.ds) (after : t.ds = w.ds)
    (records : t.rt.records = w.rt.records) : PinsFollow s t := by
  have find (m : Nat) : t.findSeg m = w.findSeg m := State.findSeg_congr (by rw [after]) m
  have find' (m : Nat) : s.findSeg m = v.findSeg m := State.findSeg_congr (by rw [before]) m
  unfold PinsFollow State.Pinned
  simp only [find, find', before, after, records]
  exact h

section
variable (st : Issued) (s : State)

theorem State.noted_apart
    (apart : ¬ ((s.mp.passKind = .main ∧ st.index.isSome = true) ∧ st.lowest.isSome = true)) :
    (s.noted st).rt = s.rt ∧ (s.noted st).ds = s.ds := by
  have kind : (s.boundaryRejoins st).mp.passKind = s.mp.passKind := by rw [State.boundaryRejoins_shape]
  have stays : s.noted st = (s.boundaryRejoins st).noteTrimSet st (s.takers st) := by
    rw [State.noted, State.closesAt_apart]
    rwa [kind]
  rw [stays, State.noteTrimSet_shape, State.boundaryRejoins_shape]
  exact ⟨rfl, rfl⟩

/-- The records, the pins and the store after the take of an indexed stitch of the main pass. -/
theorem State.noted_rejoined (sound : s.ds.Sound) (pinned : s.Pinned)
    (indexed : s.mp.passKind = .main ∧ st.index.isSome = true) {l : Nat} (lowest : st.lowest = some l) :
    (∀ x, x ∈ (s.noted st).rt.records ↔
      (x ∈ s.rt.records ∧ ¬ Rejoining s (s.ds.served.getD 0) (s.takers st) x) ∨
      ∃ r, Rejoining s (s.ds.served.getD 0) (s.takers st) r ∧ r.first < l ∧
        x = { r with last := some (l - 1), state := .closed }) ∧
    PinsFollow s (s.noted st) ∧
    ((∀ r, Rejoining s (s.ds.served.getD 0) (s.takers st) r → r.first < l) → (s.noted st).ds = s.ds) := by
  have kind : (s.boundaryRejoins st).mp.passKind = s.mp.passKind := by rw [State.boundaryRejoins_shape]
  generalize hv : (s.boundaryRejoins st).clearReplays (s.ds.served.getD 0) l = v
  have rt : v.rt = s.rt := by rw [← hv, State.clearReplays_shape, State.boundaryRejoins_shape]
  have ds : v.ds = s.ds := by rw [← hv, State.clearReplays_shape, State.boundaryRejoins_shape]
  have noted : s.noted st =
      (v.closeAtRejoin (s.ds.served.getD 0) l (s.takers st)).noteTrimSet st (s.takers st) := by
    rw [State.noted, State.closesAt_indexed (by rwa [kind]) lowest, hv]
  have pinned' : v.Pinned := by
    unfold State.Pinned
    rw [ds, rt]
    exact pinned
  obtain ⟨follows, -, records, store⟩ := State.closeAtRejoin_rejoined (g := s.ds.served.getD 0) (bound := l)
    (down := s.takers st) (s := v) (ds ▸ sound) pinned'
  have same (r : RepairRecord) := Rejoining.congr (g := s.ds.served.getD 0) (down := s.takers st)
    (congrArg Repairs.records rt) r
  have after : (s.noted st).rt = (v.closeAtRejoin (s.ds.served.getD 0) l (s.takers st)).rt ∧
      (s.noted st).ds = (v.closeAtRejoin (s.ds.served.getD 0) l (s.takers st)).ds := by
    rw [noted, State.noteTrimSet_shape]
    exact ⟨rfl, rfl⟩
  obtain ⟨rtAfter, dsAfter⟩ := after
  refine ⟨fun x => ?_, PinsFollow.congr follows.pinsFollow ds.symm dsAfter (by rw [rtAfter]), fun all => ?_⟩
  · have heads (r : RepairRecord) : r.head.val < 16 := r.head.isLt
    rw [rtAfter, records x, rt]
    simp only [same, heads, and_true, true_and]
    rfl
  · rw [dsAfter, store fun r rejoins => all r ((same r).1 rejoins), ds]

end

/-! ## The take of a stitch (R45, R48) -/

/-- The planner has planned the speed of the stitch it takes. -/
def State.planned (s : State) : State :=
  { s with mp := { s.mp with spindle := s.plannedSpeed, prevSpeed := some s.plannedSpeed } }

/-- The state in which a stitch has been taken. -/
def State.stitchTaken (st : Issued) (s : State) : State :=
  (s.planned.superviseTake st).beginMove (begun s .stitch st.dx st.dy)

theorem State.stitchTaken_shape (st : Issued) (s : State) : s.stitchTaken st = { s with
    mp := { s.mp with spindle := s.plannedSpeed, prevSpeed := some s.plannedSpeed
                      move := some (begun s .stitch st.dx st.dy), dirX := st.dx.sign, dirY := st.dy.sign }
    ts := { s.ts with heads := (s.planned.superviseTake st).ts.heads }
    rt := { s.rt with records := (s.planned.noted st).rt.records }
    hs := ⟨(s.planned.superviseTake st).hs.heads, true, some ⟨st, s.ds.served.getD 0, s.mp.passKind, false⟩, s.hs.current,
      st.place⟩
    ds := { s.ds with segs := (s.planned.noted st).ds.segs, pool := (s.planned.noted st).ds.pool
                      loadWant := (s.planned.noted st).ds.loadWant } } := by
  unfold State.stitchTaken
  rw [State.superviseTake_shape]
  rfl

theorem State.stitchTaken_head (st : Issued) (s : State) (h : HeadId) :
    (s.stitchTaken st).head h = (s.planned.superviseTake st).head h := rfl

theorem State.takeStitch_eq (listedX : st.dx.natAbs ≤ 127) (listedY : st.dy.natAbs ≤ 127) : s.takeStitch st =
    if (begun s .stitch st.dx st.dy).duration = 0 then
      (s.stitchTaken st).completeMove (begun s .stitch st.dx st.dy)
    else s.stitchTaken st := by
  have move : (s.planned.superviseTake st).moveOf .stitch st.dx st.dy = begun s .stitch st.dx st.dy := by
    rw [State.moveOf_eq_begun .stitch listedX listedY, State.superviseTake_shape]
    rfl
  have take : s.takeStitch st =
      if ((s.planned.superviseTake st).moveOf .stitch st.dx st.dy).duration = 0 then
        ((s.planned.superviseTake st).beginMove ((s.planned.superviseTake st).moveOf .stitch st.dx st.dy)).completeMove
          ((s.planned.superviseTake st).moveOf .stitch st.dx st.dy)
      else (s.planned.superviseTake st).beginMove ((s.planned.superviseTake st).moveOf .stitch st.dx st.dy) := rfl
  rw [take, move]
  rfl

theorem begun_duration_zero {dx dy : Int} (time : TakesNoTime s dx dy) (kind : MoveKind) :
    (begun s kind dx dy).duration = 0 := by
  obtain ⟨-, -, x, y⟩ := time
  have pulsesX : dx = 0 → (begun s kind dx dy).pulsesX = 0 := fun e => by simp [begun, e]
  have pulsesY : dy = 0 → (begun s kind dx dy).pulsesY = 0 := fun e => by simp [begun, e]
  have timeX : (if (begun s kind dx dy).pulsesX = 0 then 0 else (begun s kind dx dy).timeX) = 0 := by
    rcases x with e | e
    · exact if_pos (pulsesX e)
    · exact ite_eq_left_iff.2 fun _ => e
  have timeY : (if (begun s kind dx dy).pulsesY = 0 then 0 else (begun s kind dx dy).timeY) = 0 := by
    rcases y with e | e
    · exact if_pos (pulsesY e)
    · exact ite_eq_left_iff.2 fun _ => e
  rw [Move.duration, timeX, timeY]
  rfl

theorem State.windowOpen_takes (still : s.mp.move = none) (goes : s.mp.stopEnd = false) {cap : Nat} {rest : List Planned}
    (window : s.mp.window = ⟨st, cap⟩ :: rest) : s.windowOpen = s.takeStitch st := by
  unfold State.windowOpen
  rw [if_neg (by simp [still]), if_neg (by simp [goes]), window]

theorem exec_shaftAngleChange_takes (acts : Acts s) {angle : Fin 360} (mode : s.mp.mode = .running)
    (still : s.mp.move = none) (goes : s.mp.stopEnd = false) {cap : Nat} {rest : List Planned}
    (window : s.mp.window = ⟨st, cap⟩ :: rest) (outside : ¬ Inside s s.sm.angle) (inside : Inside s angle)
    (listedX : st.dx.natAbs ≤ 127) (listedY : st.dy.natAbs ≤ 127) : exec (.shaftAngleChange angle) s =
      .next (if (begun s .stitch st.dx st.dy).duration = 0 then
        ((turned angle s).stitchTaken st).completeMove (begun s .stitch st.dx st.dy)
      else (turned angle s).stitchTaken st).drive := by
  have moves : angle ≠ s.sm.angle := fun e => outside (e ▸ inside)
  rw [exec_shaftAngleChange_opens acts moves mode ⟨outside, inside⟩,
    State.windowOpen_takes (s := turned angle s) still goes window, State.takeStitch_eq listedX listedY]
  rfl

/-- Settles O44: the shaft enters the move window with a stitch to sew. -/
theorem windowOpenTakes : Obligations.WindowOpenTakes := by
  intro s angle st cap rest acts par mode phase still goes window outside inside listedX listedY g indexed
  have event := exec_shaftAngleChange_takes acts mode still goes window outside inside listedX listedY
  have shape := State.stitchTaken_shape st (turned angle s)
  have head := State.stitchTaken_head st (turned angle s)
  have sewn (h : HeadId) : TakenAs s ((turned angle s).stitchTaken st) st h :=
    (turned angle s).planned.superviseTake_takenAs st h
  generalize (turned angle s).stitchTaken st = t at event shape head sewn
  generalize hu : (turned angle s).planned = u at shape head
  have heads (h : HeadId) : u.head h = s.head h := by rw [← hu]; rfl
  have kind : u.mp.passKind = s.mp.passKind := by rw [← hu]; rfl
  have ds : u.ds = s.ds := by rw [← hu]; rfl
  have rt : u.rt = s.rt := by rw [← hu]; rfl
  have rtAfter : t.rt = (u.noted st).rt := by rw [shape, State.noted_shape, rt]; rfl
  have dsAfter : t.ds = (u.noted st).ds := by rw [shape, State.noted_shape, ds]; rfl
  refine ⟨t, s.plannedSpeed, s.liveCeiling, s.backwardFrom, fun time => ?_, fun time => ?_, ?_, ?_,
    fun j w at_ => State.backwardFrom_at at_, s.backwardFrom_end, fun e least => State.liveCeiling_least least,
    State.plannedSpeed_first, fun q before => State.plannedSpeed_next before, sewn, fun apart => ?_,
    fun l sound pinned indexed lowest => ?_⟩
  · have waits : Waits t := State.waits_sewing (by rw [shape]; exact phase)
    rw [event, if_neg (begun_duration_pos par time .stitch).ne', State.drive_waits waits]
  · have acts' : Acts t := by
      rw [shape]
      exact acts
    rw [event, if_pos (begun_duration_zero time .stitch)]
    exact (exec_moveCompletion_moving acts' (by rw [shape]; rfl)).symm
  · rw [shape]
    rfl
  · rw [shape]
    rfl
  · obtain ⟨rt', ds'⟩ := u.noted_apart st (by rwa [kind])
    exact ⟨rtAfter.trans (rt'.trans rt), dsAfter.trans (ds'.trans ds)⟩
  · obtain ⟨records, pins, store⟩ := u.noted_rejoined st (ds ▸ sound) (by rw [← hu]; exact pinned) (by rwa [kind]) lowest
    intro rejoins
    have same (r : RepairRecord) : Rejoining u (u.ds.served.getD 0) (u.takers st) r ↔ rejoins r := by
      rw [Rejoining, State.openRecord_eq, ds, rt]
      constructor
      · rintro ⟨down, open_⟩
        have polled := u.takers_polled st r.head down
        refine ⟨by rwa [heads] at polled, ?_, open_⟩
        rw [head, u.superviseTake_latch st r.head polled, down]
      · rintro ⟨polled, latch, open_⟩
        rw [head, u.superviseTake_latch st r.head (by rwa [heads])] at latch
        exact ⟨latch, open_⟩
    simp only [same, rt] at records store
    rw [rtAfter, dsAfter]
    exact ⟨records, PinsFollow.congr pins ds.symm dsAfter (by rw [rtAfter]), fun all => (store all).trans ds⟩

end Sys2Proof.Machine
end

section
/-! PROOF. The requests NEEDLE_QUERY and NEEDLE_SET (R84 to R87, R96, R97): the bytes of the needle report, the edit
staged or applied with the unthreaded-head sets that follow, and the withdrawal check. -/

open Sys2Proof.Claims

namespace Sys2Proof.Machine

variable {s t : State}

/-! ## The head and the needle a request names (R183) -/

theorem headOf_names {b : Byte} {h : HeadId} (names : Names b h) : headOf b = some h := by
  unfold Names at names
  unfold headOf
  rw [dif_pos (by omega)]
  exact congrArg some (Fin.ext (by simp [names]))

theorem headOf_outside {b : Byte} (out : b.toNat = 0 ∨ 16 < b.toNat) : headOf b = none :=
  dif_neg (by omega)

theorem needleOf_names {b : Byte} {n : NeedleId} (names : b.toNat = n.val + 1) : needleOf b = some n := by
  unfold needleOf
  rw [dif_pos (by omega)]
  exact congrArg some (Fin.ext (by simp [names]))

theorem needleOf_outside {b : Byte} (out : b.toNat = 0 ∨ 12 < b.toNat) : needleOf b = none :=
  dif_neg (by omega)

/-! ## NEEDLE_QUERY (R87) -/

theorem exec_needleQuery (acts : Acts s) {head needle : Byte} {h : HeadId} {n : NeedleId} (names : Names head h)
    (number : needle.toNat = n.val + 1) :
    exec (.needleQuery head needle) s = .next (done (s.needleReport h n) s) := by
  show execNeedleQuery head needle s = _
  unfold execNeedleQuery
  rw [whenOperating_of_acts acts, headOf_names names, needleOf_names number]
  rfl

theorem exec_needleQuery_outside (acts : Acts s) {head needle : Byte}
    (out : headOf head = none ∨ needleOf needle = none) :
    exec (.needleQuery head needle) s = .next (refused .badArgument s) := by
  show execNeedleQuery head needle s = _
  unfold execNeedleQuery
  rw [whenOperating_of_acts acts]
  rcases out with out | out
  · rw [out]
    rfl
  · rw [out]
    cases headOf head <;> rfl

/-- The fields of the needle report, each with its width (R87). -/
def State.needleReportFields (s : State) (h : HeadId) (n : NeedleId) : List (Nat × Int) :=
  let e := s.needle h n
  let code := e.staged.bind (·.code)
  let state := e.staged.bind (·.disabled)
  [(2, e.code), (1, boolCode e.disabled), (1, (boolCode code.isSome + 2 * boolCode state.isSome : Nat)),
   (2, (code.getD (Config.unstated .stagedCode h).toNat : Nat)),
   (1, ((state.map needleStateCode).getD (Config.unstated .stagedState h).toNat : Nat)),
   (1, needleNumber (s.sel h).current), (1, needleNumber ((s.sel h).shift.map (·.target)))]

theorem State.needleReport_eq (h : HeadId) (n : NeedleId) :
    s.needleReport h n = fieldBytes (s.needleReportFields h n) := by
  simp [State.needleReport, State.needleReportFields, fieldBytes, needleStateCode]

theorem boolCode_eq (b : Bool) : (boolCode b : Int) = if b then 1 else 0 := by cases b <;> rfl

/-- The widths of the fields of the needle report. -/
def needleReportWidths : List Nat := [2, 1, 1, 2, 1, 1, 1]

/-- The needle report carries each of its fields. -/
theorem State.carries_needleReport (h : HeadId) (n : NeedleId) (i : Nat) {o w : Nat} {v : Int}
    (field : (s.needleReportFields h n)[i]? = some (w, v))
    (ho : (needleReportWidths.take i).sum = o := by decide) : Carries (s.needleReport h n) o w v :=
  State.needleReport_eq h n ▸ carries_field (widths := needleReportWidths) rfl i field ho

/-- Settles O14: the needle report field by field, the staged edit absent, in part or whole, and the range refusal. -/
theorem needleQueryReports : Obligations.NeedleQueryReports := by
  intro head needle s acts
  refine ⟨fun h n names number => ?_, fun out => exec_needleQuery_outside acts ?_⟩
  · refine ⟨s.needleReport h n, exec_needleQuery acts names number,
      by rw [State.needleReport_eq, fieldBytes_length]; rfl,
      s.carries_needleReport h n 0 rfl, boolCode_eq _ ▸ s.carries_needleReport h n 1 rfl,
      fun (unstaged : (s.needle h n).staged = none) => s.carries_needleReport h n 2 ?_,
      fun x (staged : (s.needle h n).staged = some x) => ⟨s.carries_needleReport h n 2 ?_,
        fun c code => s.carries_needleReport h n 3 ?_, fun d state => s.carries_needleReport h n 4 ?_⟩,
      s.carries_needleReport h n 5 rfl, s.carries_needleReport h n 6 rfl⟩
    · simp [State.needleReportFields, unstaged, boolCode]
    · simp [State.needleReportFields, staged, boolCode]
    · simp [State.needleReportFields, staged, code]
    · simp [State.needleReportFields, staged, state, needleStateCode, boolCode]
  · rcases out with zero | high | zero | high
    · exact .inl (headOf_outside (.inl zero))
    · exact .inl (headOf_outside (.inr high))
    · exact .inr (needleOf_outside (.inl zero))
    · exact .inr (needleOf_outside (.inr high))

/-! ## The orders in flight -/

theorem State.anyShift_congr (same : ∀ g, (t.sel g).shift = (s.sel g).shift) : t.anyShift = s.anyShift := by
  simp [State.anyShift, same]

theorem State.anyTrim_congr (same : ∀ g, (t.sel g).trim = (s.sel g).trim) : t.anyTrim = s.anyTrim := by
  simp [State.anyTrim, same]

/-! ## The unthreaded-head sets that follow the Needle Map (R96, R97) -/

theorem headSet_ext {a b : HeadSet} (same : ∀ h, inSet a h = true ↔ inSet b h = true) : a = b :=
  BitVec.eq_of_getLsbD_eq fun i hi => Bool.eq_iff_iff.2 (same ⟨i, hi⟩)

/-- The set computed for a thread is the only one that holds just the unthreaded heads. -/
theorem unthreaded_iff (thread : Nat) (set : HeadSet) : Unthreaded s thread set ↔ set = s.unthreadedFor thread := by
  have spec := State.unthreadedFor_spec (s := s) thread
  exact ⟨fun is => headSet_ext fun h => (is h).trans (spec h).symm, fun is => is ▸ spec⟩

theorem Unthreaded.congr {thread : Nat} {set : HeadSet} (pc : t.pc = s.pc) (ts : t.ts = s.ts) :
    Unthreaded t thread set ↔ Unthreaded s thread set := by
  unfold Unthreaded State.jobHeads State.sel
  rw [pc, ts]

/-- A READY segment turns from threaded to unthreaded. -/
def State.missesThread (s : State) : Bool :=
  s.ds.segs.any fun r => r.state == .ready && r.unthreaded == 0 && s.unthreadedFor r.thread != 0

theorem State.missesThread_iff : s.missesThread = true ↔
    ∃ r ∈ s.ds.segs, r.state = .ready ∧ r.unthreaded = 0 ∧ s.unthreadedFor r.thread ≠ 0 := by
  simp [State.missesThread, and_assoc]

/-- A segment record with the unthreaded heads of the state. -/
def State.withUnthreaded (s : State) (r : SegRecord) : SegRecord :=
  if r.state = .ready then { r with unthreaded := s.unthreadedFor r.thread } else r

theorem State.computeUnthreaded_eq (s : State) : s.computeUnthreaded = { s with
    ds := { s.ds with segs := s.ds.segs.map s.withUnthreaded }
    rl := { s.rl with sticky := if s.missesThread then s.rl.sticky ||| 0x0008 else s.rl.sticky } } := by
  unfold State.computeUnthreaded State.missesThread
  dsimp only
  split <;> rfl

theorem State.computeUnthreaded_shape (s : State) : s.computeUnthreaded = { s with
    ds := { s.ds with segs := s.computeUnthreaded.ds.segs }
    rl := { s.rl with sticky := s.computeUnthreaded.rl.sticky } } := by
  rw [State.computeUnthreaded_eq]

theorem State.computeUnthreaded_setsFollow (s : State) : SetsFollow s s.computeUnthreaded := by
  have same {thread : Nat} {set : HeadSet} :
      Unthreaded s.computeUnthreaded thread set ↔ set = s.unthreadedFor thread := by
    rw [State.computeUnthreaded_shape]
    exact unthreaded_iff thread set
  refine ⟨?_, fun i r at_ => ⟨fun apart => ?_, fun ready => ?_⟩, fun ⟨r, mem, ready, empty, missing⟩ => ?_,
    fun threaded => ?_⟩
  · rw [State.computeUnthreaded_eq]
    exact List.length_map _
  · rw [State.computeUnthreaded_eq]
    simp [at_, State.withUnthreaded, apart]
  · refine ⟨_, ?_, same.2 rfl⟩
    rw [State.computeUnthreaded_eq]
    simp [at_, State.withUnthreaded, ready]
  · rw [State.computeUnthreaded_eq]
    exact if_pos (State.missesThread_iff.2 ⟨r, mem, ready, empty, fun none_ => missing (same.2 none_.symm)⟩)
  · rw [State.computeUnthreaded_eq]
    refine if_neg fun misses => ?_
    obtain ⟨r, mem, ready, empty, missing⟩ := State.missesThread_iff.1 misses
    exact missing (same.1 (threaded r mem ready empty)).symm

/-! ## One entry of the Needle Map written (R84, R85) -/

section
variable (s : State) (h : HeadId) (n : NeedleId) (e : NeedleEntry)

theorem State.setNeedle_needle : (s.setNeedle h n e).needle h n = e := by
  simp [State.needle, State.setNeedle]

/-- The other entries, and what the heads hold beside the map, stay. -/
theorem State.setNeedle_others (g : HeadId) : ((s.setNeedle h n e).sel g).current = (s.sel g).current ∧
    ((s.setNeedle h n e).sel g).shift = (s.sel g).shift ∧ ((s.setNeedle h n e).sel g).trim = (s.sel g).trim ∧
    ∀ m : NeedleId, (g ≠ h ∨ m ≠ n) → ((s.setNeedle h n e).sel g).needles[m] = (s.sel g).needles[m] := by
  unfold State.setNeedle
  rw [State.sel_setSel]
  by_cases own : g = h
  · subst own
    rw [if_pos rfl]
    refine ⟨rfl, rfl, rfl, fun m other => ?_⟩
    have apart : n.val ≠ m.val := fun same => other.elim (· rfl) (· (Fin.ext same.symm))
    simp [apart]
  · rw [if_neg own]
    exact ⟨rfl, rfl, rfl, fun _ _ => rfl⟩

/-- The state with one entry written and the unthreaded-head sets computed again (R85, R96). -/
def State.edited : State := (s.setNeedle h n e).computeUnthreaded

theorem State.edited_shape : s.edited h n e = { s with
    ts := { s.ts with heads := (s.edited h n e).ts.heads }, ds := { s.ds with segs := (s.edited h n e).ds.segs }
    rl := { s.rl with sticky := (s.edited h n e).rl.sticky } } := by
  unfold State.edited
  rw [State.computeUnthreaded_eq]
  rfl

theorem State.edited_sel (g : HeadId) : (s.edited h n e).sel g = (s.setNeedle h n e).sel g := by
  unfold State.edited
  rw [State.computeUnthreaded_shape]
  rfl

theorem State.edited_setsFollow : SetsFollow s (s.edited h n e) :=
  (s.setNeedle h n e).computeUnthreaded_setsFollow

/-- The answer is no part of what the sets are computed from. -/
theorem State.edited_done (p : List Byte) : ((s.setNeedle h n e).done p).computeUnthreaded = (s.edited h n e).done p := by
  unfold State.edited
  rw [State.computeUnthreaded_eq, State.computeUnthreaded_eq]
  rfl

/-- An edit of the map starts and ends no order, so a part that waits goes on waiting. -/
theorem State.edited_waits (waits : Waits s) (p : List Byte) : Waits ((s.edited h n e).done p) := by
  have orders (g : HeadId) : ((s.edited h n e).sel g).shift = (s.sel g).shift ∧
      ((s.edited h n e).sel g).trim = (s.sel g).trim := by
    obtain ⟨-, shift, trim, -⟩ := s.setNeedle_others h n e g
    rw [State.edited_sel]
    exact ⟨shift, trim⟩
  have pc : (s.edited h n e).pc = s.pc := by rw [State.edited_shape]
  exact State.waits_of waits (congrArg Pass.phase pc) (by rw [← pc]; rfl) (by rw [State.edited_shape]; rfl)
    (State.anyShift_congr fun g => (orders g).1) (State.anyTrim_congr fun g => (orders g).2)

end

/-! ## NEEDLE_SET (R85, R86) -/

/-- NEEDLE_SET out of form: neither a code nor a state, or a state that is none (R85). -/
theorem exec_needleSet_bad (acts : Acts s) {head needle given : Byte} {code : BitVec 16} {state : Byte}
    (bad : headOf head = none ∨ needleOf needle = none ∨ given.getLsbD 0 = false ∧ given.getLsbD 1 = false ∨
      given.getLsbD 1 = true ∧ 1 < state.toNat) :
    exec (.needleSet head needle given code state) s = .next (refused .badArgument s) := by
  show execNeedleSet head needle given code state s = _
  unfold execNeedleSet
  rw [whenOperating_of_acts acts]
  cases hh : headOf head with
  | none => rfl
  | some h =>
  cases hn : needleOf needle with
  | none => rfl
  | some n =>
    have form : ((!given.getLsbD 0 && !given.getLsbD 1) || (given.getLsbD 1 && decide (1 < state.toNat))) = true := by
      simpa [hh, hn] using bad
    dsimp only
    rw [State.unless_refused (why := .badArgument) (by simp only [firstReason_cons, form, if_true])]

/-- The edit a NEEDLE_SET carries is staged (R85). -/
theorem State.stages_iff {h : HeadId} {n : NeedleId} {edit : StagedEdit} : s.stages h n edit = true ↔
    ((s.sel h).current = some n ∧ (s.pc.state = .sewing ∨ s.pc.state = .repair ∨ s.pc.state = .stopping)) ∧
      edit.disabled ≠ some true := by
  have sews : s.pc.state.sews = true ↔ s.pc.state = .sewing ∨ s.pc.state = .repair ∨ s.pc.state = .stopping := by
    cases s.pc.state <;> simp [PassState.sews]
  simp only [State.stages, Bool.and_eq_true, beq_iff_eq, bne_iff_ne, sews]

theorem State.withdrawalIndex_eq (w : Working) : s.withdrawalIndex w =
    if s.pc.state = .sewing ∨ s.pc.state = .repair ∨ s.pc.state = .stopping then s.frontier else w.beginIndex := by
  unfold State.withdrawalIndex
  cases s.pc.state <;> simp [PassState.sews]

theorem State.withdraws_iff {h : HeadId} {n : NeedleId} {before : NeedleEntry} {w : Working} :
    s.withdraws h n before w = true ↔ (s.head h).state = .active ∧ (w.kind = .main ∨ inSet w.involved h = true) ∧
      (s.sel h).current = some n ∧ (before.disabled = false ∧ before.code = w.thread) ∧
      ¬ ((s.needle h n).disabled = false ∧ (s.needle h n).code = w.thread) := by
  cases disabled : (s.needle h n).disabled <;> simp [State.withdraws, NeedleEntry.fit, and_assoc, disabled]

section
variable {h : HeadId} {n : NeedleId} {before : NeedleEntry}

theorem State.withdrawalCheck_raises {w : Working} (working : s.ts.working = some w)
    (withdraws : s.withdraws h n before w = true) : s.withdrawalCheck h n before =
      s.resolveGroup h [⟨.needleWithdrawn, some w.segment, some (s.withdrawalIndex w), some n, some w.kind, none, none⟩] := by
  unfold State.withdrawalCheck
  simp only [working, withdraws, if_true]

theorem State.withdrawalCheck_passes (none_ : ∀ w, s.ts.working = some w → ¬ s.withdraws h n before w = true) :
    s.withdrawalCheck h n before = s := by
  unfold State.withdrawalCheck
  split
  · exact if_neg (none_ _ ‹_›)
  · rfl

/-- The withdrawal check after an edit, in the words of the state before it (R86). -/
theorem State.edited_withdraws_iff {e : NeedleEntry} {p : List Byte} {w : Working} :
    ((s.edited h n e).done p).withdraws h n before w = true ↔
      (s.head h).state = .active ∧ (w.kind = .main ∨ inSet w.involved h = true) ∧ (s.sel h).current = some n ∧
      (before.disabled = false ∧ before.code = w.thread) ∧ ¬ (e.disabled = false ∧ e.code = w.thread) := by
  have hs : ((s.edited h n e).done p).hs = s.hs := by rw [State.edited_shape]; rfl
  have current : (((s.edited h n e).done p).sel h).current = (s.sel h).current := by
    obtain ⟨current, -⟩ := s.setNeedle_others h n e h
    exact (congrArg SelectorHead.current (s.edited_sel h n e h)).trans current
  have needle : ((s.edited h n e).done p).needle h n = e :=
    (congrArg (·.needles[n]) (s.edited_sel h n e h)).trans (s.setNeedle_needle h n e)
  rw [State.withdraws_iff, State.head_congr hs, current, needle]

end

/-- NEEDLE_SET in form: the edit staged, or applied at once with the withdrawal check. -/
theorem exec_needleSet (acts : Acts s) {head needle given : Byte} {code : BitVec 16} {state : Byte} {h : HeadId}
    {n : NeedleId} (names : Names head h) (number : needle.toNat = n.val + 1)
    (form : ¬ (given.getLsbD 0 = false ∧ given.getLsbD 1 = false ∨ given.getLsbD 1 = true ∧ 1 < state.toNat)) :
    let edit := needleEdit given code state
    exec (.needleSet head needle given code state) s = .next (if s.stages h n edit then
        (s.setNeedle h n { s.needle h n with staged := some edit }).done (beBytes 1 1)
      else (((s.edited h n ((s.needle h n).edit edit)).done (beBytes 1 0)).withdrawalCheck h n (s.needle h n)).drive) := by
  have fine : ((!given.getLsbD 0 && !given.getLsbD 1) || (given.getLsbD 1 && decide (1 < state.toNat))) = false := by
    rw [← Bool.not_eq_true]
    simpa using form
  show execNeedleSet head needle given code state s = _
  unfold execNeedleSet
  rw [whenOperating_of_acts acts, headOf_names names, needleOf_names number]
  dsimp only
  rw [State.unless_carriedOut (by simp only [firstReason_cons, fine, Bool.false_eq_true, if_false, firstReason_nil]),
    State.edited_done]

/-- Settles O37: the refusals, the edit staged for a needle in use, and the edit applied with the sets that follow and
the withdrawal check. -/
theorem needleSetStagesOrApplies : Obligations.NeedleSetStagesOrApplies := by
  intro head needle given code state s acts
  dsimp only
  refine ⟨fun bad => exec_needleSet_bad acts ?_, fun h n good names number => ?_⟩
  · rcases bad with zero | high | zero | high | form
    · exact .inl (headOf_outside (.inl zero))
    · exact .inl (headOf_outside (.inr high))
    · exact .inr (.inl (needleOf_outside (.inl zero)))
    · exact .inr (.inl (needleOf_outside (.inr high)))
    · exact .inr (.inr form)
  have run := exec_needleSet (code := code) acts names number fun form => good (.inr (.inr (.inr (.inr form))))
  have stages := State.stages_iff (s := s) (h := h) (n := n) (edit := needleEdit given code state)
  refine ⟨fun inUse keeps => ?_, fun apart => ?_⟩
  · rw [run, if_pos (stages.2 ⟨inUse, keeps⟩)]
    exact ⟨_, _, rfl, beBytes_length 1 1, carries_beBytes 1 1, rfl, s.setNeedle_needle h n _, s.setNeedle_others h n _⟩
  · have applied : ¬ s.stages h n (needleEdit given code state) = true := fun staged => by
      obtain ⟨inUse, keeps⟩ := stages.1 staged
      exact apart.elim (· inUse) keeps
    rw [run, if_neg applied]
    set e := (s.needle h n).edit (needleEdit given code state)
    have working : ((s.edited h n e).done (beBytes 1 0)).ts.working = s.ts.working :=
      congrArg (·.ts.working) (s.edited_shape h n e)
    refine ⟨s.edited h n e, beBytes 1 0, beBytes_length 1 0, carries_beBytes 1 0, fun w withdrawn => ?_,
      fun kept waits => ?_, s.edited_shape h n e, ?_, fun g => ?_, s.edited_setsFollow h n e⟩
    · obtain ⟨atWork, withdraws⟩ := withdrawn
      rw [State.withdrawalCheck_raises (before := s.needle h n) (working.trans atWork) (State.edited_withdraws_iff.2 withdraws),
        State.withdrawalIndex_eq, s.edited_shape h n e]
      rfl
    · rw [State.withdrawalCheck_passes (before := s.needle h n) fun w atWork withdraws =>
          kept w ⟨working.symm.trans atWork, State.edited_withdraws_iff.1 withdraws⟩,
        State.drive_waits (s.edited_waits h n e waits _)]
      rfl
    · rw [s.edited_sel h n e h]
      exact s.setNeedle_needle h n e
    · rw [s.edited_sel h n e g]
      exact s.setNeedle_others h n e g

end Sys2Proof.Machine
end

section
/-! PROOF. The needle choice (R84, R88 to R91, R106): the staged edits applied, each covered head's turn, and the end of
the CHANGE at choice complete (R64, R69, R75). -/

open Sys2Proof.Claims

namespace Sys2Proof.Machine

variable {s t y : State}

/-! ## The staged edits (R88) -/

theorem State.anyStaged_iff : s.anyStaged = true ↔
    ∃ (h : HeadId) (n : NeedleId), (s.sel h).needles[n].staged.isSome = true := by
  simp [State.anyStaged, State.needle, mem_allHeads, allNeedles]

/-- The state with every staged edit in the place of its entry. -/
def State.withStagedEdits (s : State) : State :=
  s.forHeads (fun _ => true) fun h t => t.setSel h { t.sel h with needles := (t.sel h).needles.map NeedleEntry.applyStaged }

theorem State.applyStagedEdits_eq (s : State) : s.applyStagedEdits =
    if s.anyStaged then s.withStagedEdits.computeUnthreaded else s.withStagedEdits := rfl

theorem State.withStagedEdits_shape (s : State) :
    ∃ heads, s.withStagedEdits = { s with ts := { s.ts with heads := heads } } :=
  State.forHeads_keep (P := fun t => ∃ heads, t = { s with ts := { s.ts with heads := heads } })
    (fun h t _ ⟨heads, e⟩ => by
      rw [e]
      exact ⟨_, rfl⟩) ⟨s.ts.heads, rfl⟩

theorem State.withStagedEdits_sel (s : State) (h : HeadId) : s.withStagedEdits.sel h =
    { s.sel h with needles := (s.sel h).needles.map NeedleEntry.applyStaged } :=
  State.forHeads_at (g := State.sel) (fun _ x => { x with needles := x.needles.map NeedleEntry.applyStaged })
    (fun _ _ => State.sel_setSel_self _ _ _) (fun _ _ _ e => (State.sel_setSel _ _ _ _).trans (if_neg e)) s h

theorem NeedleEntry.applyStaged_eq (e : NeedleEntry) : e.applyStaged = match e.staged with
    | none => e
    | some y => ⟨y.code.getD e.code, y.disabled.getD e.disabled, none⟩ := by
  unfold NeedleEntry.applyStaged
  cases e.staged <;> rfl

/-! ## The working context of a choice (R86, R89) -/

/-- The state from which the covered heads choose: the staged edits applied, the working context set. -/
def State.choosesFrom (s : State) (w : Working) : State :=
  { s.applyStagedEdits with ts := { s.applyStagedEdits.ts with working := some w } }

section
variable (s : State) (w : Working)

theorem State.choosesFrom_shape : s.choosesFrom w = { s with
    ts := { heads := (s.choosesFrom w).ts.heads, working := some w, trimNamed := s.ts.trimNamed }
    ds := { s.ds with segs := (s.choosesFrom w).ds.segs }
    rl := { s.rl with sticky := (s.choosesFrom w).rl.sticky } } := by
  obtain ⟨heads, shape⟩ := s.withStagedEdits_shape
  unfold State.choosesFrom
  rw [State.applyStagedEdits_eq, shape]
  split
  · rw [State.computeUnthreaded_eq]
  · rfl

theorem State.choosesFrom_sel (h : HeadId) : (s.choosesFrom w).sel h =
    { s.sel h with needles := (s.sel h).needles.map NeedleEntry.applyStaged } := by
  have ts : s.applyStagedEdits.ts = s.withStagedEdits.ts := by
    rw [State.applyStagedEdits_eq]
    split
    · rw [State.computeUnthreaded_shape]
    · rfl
  calc (s.choosesFrom w).sel h = s.applyStagedEdits.sel h := rfl
    _ = s.withStagedEdits.sel h := State.sel_congr ts h
    _ = _ := s.withStagedEdits_sel h

theorem State.choosesFrom_unstaged (none_ : ¬ s.anyStaged = true) :
    (s.choosesFrom w).ds = s.ds ∧ (s.choosesFrom w).rl = s.rl := by
  obtain ⟨heads, shape⟩ := s.withStagedEdits_shape
  unfold State.choosesFrom
  rw [State.applyStagedEdits_eq, shape, if_neg none_]
  exact ⟨rfl, rfl⟩

theorem State.choosesFrom_setsFollow (some_ : s.anyStaged = true) : SetsFollow s (s.choosesFrom w) := by
  obtain ⟨heads, shape⟩ := s.withStagedEdits_shape
  unfold State.choosesFrom
  rw [State.applyStagedEdits_eq, shape, if_pos some_]
  exact State.computeUnthreaded_setsFollow { s with ts := { s.ts with heads := heads } }

end

/-! ## One head's choice (R89) -/

section
variable {h : HeadId} {thread beginIndex : Nat}

theorem State.currentFit_iff : y.currentFit h thread = true ↔ ∃ n, (y.sel h).current = some n ∧
    ((y.sel h).needles[n].disabled = false ∧ (y.sel h).needles[n].code = thread) := by
  unfold State.currentFit State.needle NeedleEntry.fit
  cases (y.sel h).current <;> simp

/-- The needle found for a thread is the lowest that is fit. -/
theorem State.fitNeedle_lowest {n : NeedleId}
    (fit : (y.sel h).needles[n].disabled = false ∧ (y.sel h).needles[n].code = thread)
    (first : ∀ m, m < n → ¬ ((y.sel h).needles[m].disabled = false ∧ (y.sel h).needles[m].code = thread)) :
    y.fitNeedle h thread = some n := by
  have fits (m : NeedleId) : ((y.sel h).needles[m]).fit thread = true ↔
      (y.sel h).needles[m].disabled = false ∧ (y.sel h).needles[m].code = thread := by
    simp [NeedleEntry.fit]
  refine List.find?_eq_some_iff_getElem.2 ⟨(fits n).2 fit, n.val, by simp [allNeedles], by simp [allNeedles], ?_⟩
  intro j below
  have apart := mt (fits ⟨j, below.trans n.isLt⟩).1 (first ⟨j, _⟩ below)
  simpa [allNeedles] using apart

theorem State.chooseNeedle_keeps (keeps : y.currentFit h thread = true) : y.chooseNeedle thread beginIndex h =
    if (y.head h).state = .rejoinWait then y.setHead h { y.head h with state := .active } else y := if_pos keeps

theorem State.chooseNeedle_shifts (apart : ¬ y.currentFit h thread = true) {n : NeedleId}
    (found : y.fitNeedle h thread = some n) : y.chooseNeedle thread beginIndex h =
      (y.setSel h { y.sel h with shift := some ⟨n, .unsent, y.par.shiftTimeout, false⟩ }).setHead h
        { y.head h with state := .shifting (decide ((y.head h).state = .rejoinWait)) } := by
  unfold State.chooseNeedle
  rw [if_neg apart, found]
  rfl

theorem State.chooseNeedle_faults (none_ : y.fitNeedle h thread = none) : y.chooseNeedle thread beginIndex h =
    y.resolveGroup h [⟨.noThread, none, some beginIndex, (y.sel h).current, none, none, none⟩] := by
  have apart : ¬ y.currentFit h thread = true := fun keeps => by
    obtain ⟨n, -, fit⟩ := State.currentFit_iff.1 keeps
    exact State.fitNeedle_eq_none.1 none_ n fit
  unfold State.chooseNeedle
  rw [if_neg apart, none_]

end

/-! ## The needle-choice request (R89) -/

/-- The heads a needle choice makes shift, rejoin or fault. -/
def State.chooses (s : State) (covered : HeadSet) (h : HeadId) : Bool :=
  inSet covered h && ((s.head h).state == .active || (s.head h).state == .rejoinWait)

theorem State.chooses_iff {covered : HeadSet} {h : HeadId} : s.chooses covered h = true ↔
    inSet covered h = true ∧ ((s.head h).state = .active ∨ (s.head h).state = .rejoinWait) := by
  simp [State.chooses]

/-- A needle choice is the one the statements tell of, head by head. -/
theorem State.needleChoice_chosen (s : State) (thread g : Nat) (kind : PassKind) (start : Nat)
    (involved covered : HeadSet) : Chosen s (s.needleChoice thread g kind start involved covered)
      ⟨thread, g, kind, start, involved⟩ fun h => inSet covered h = true := by
  let w : Working := ⟨thread, g, kind, start, involved⟩
  refine ⟨State.turns (s.chooses covered) (State.chooseNeedle thread start) (s.choosesFrom w), s.choosesFrom_shape w,
    fun h => ?_, fun unstaged => s.choosesFrom_unstaged w ?_, fun h n staged => s.choosesFrom_setsFollow w ?_,
    State.turns_all _ _ _, fun h => ?_⟩
  · rw [State.turns_zero, s.choosesFrom_sel w h]
    refine ⟨rfl, fun n => ?_⟩
    exact (Vector.getElem_map _ n.isLt).trans (NeedleEntry.applyStaged_eq _)
  · rw [State.anyStaged_iff]
    rintro ⟨h, n, staged⟩
    rw [unstaged h n] at staged
    cases staged
  · exact State.anyStaged_iff.2 ⟨h, n, staged⟩
  · have turn := State.turns_succ (s.chooses covered) (State.chooseNeedle thread start) (s.choosesFrom w) h
    dsimp only
    rw [turn]
    generalize State.turns (s.chooses covered) (State.chooseNeedle thread start) (s.choosesFrom w) h.val = y
    refine ⟨fun apart => if_neg (mt State.chooses_iff.1 apart), fun chooses keeps waits => ?_, fun chooses keeps active => ?_,
      fun n chooses apart fit first => ?_, fun chooses none_ => ?_⟩ <;>
      rw [if_pos (State.chooses_iff.2 chooses)]
    · rw [State.chooseNeedle_keeps (State.currentFit_iff.2 keeps), if_pos waits]
    · rw [State.chooseNeedle_keeps (State.currentFit_iff.2 keeps), if_neg active]
    · exact State.chooseNeedle_shifts (mt State.currentFit_iff.1 apart) (State.fitNeedle_lowest fit first)
    · exact State.chooseNeedle_faults (State.fitNeedle_eq_none.2 none_)

/-! ## Choice complete (R75, R90, R64, R69) -/

theorem State.anyShift_iff : s.anyShift = true ↔ ∃ h x, (s.sel h).shift = some x := by
  simp [State.anyShift, mem_allHeads, Option.isSome_iff_exists]

section
variable {a : Aim} (phase : s.pc.phase = .choice a)
include phase

theorem State.waits_choice (shifting : s.anyShift = true) : Waits s := by
  simp only [Waits, State.microStep, phase, shifting, if_true]

theorem State.microStep_choice (settled : ∀ h, (s.sel h).shift = none) : s.microStep = some (s.choiceComplete a) := by
  have still : ¬ s.anyShift = true := fun shifting => by
    obtain ⟨h, x, flight⟩ := State.anyShift_iff.1 shifting
    simp [settled] at flight
  simp only [State.microStep, phase]
  exact if_neg still

end

theorem State.choiceComplete_due {c : HaltCause} (due : s.pc.due = some c) (a : Aim) :
    s.choiceComplete a = s.enterHalted c s.stands := by
  unfold State.choiceComplete
  rw [if_pos (by simp [due]), State.haltDue, due]
  rfl

/-- The state with the travel to a place planned for an aim (R33, R53). -/
theorem State.startTravel_eq (a : Aim) (place : Pos) (s : State) : s.startTravel a place =
    { going s .travel (.travel a) with
      se := { s.se with plan := some (travelSteps (away s place) s.par.travelStep) } } := rfl

theorem State.choiceComplete_segmentStart (due : s.pc.due = none) {r : SegRecord} (active : s.activeSeg = some r)
    (sound : s.ds.Sound) : s.choiceComplete .segmentStart = s.startTravel .segmentStart r.start := by
  have number : s.activeNo = r.number := by rw [State.activeNo, State.activeNumber, active]; rfl
  have found : s.findSeg r.number = some r := (State.findSeg_eq_some sound).2 ⟨List.mem_of_find?_eq_some active, rfl⟩
  have place : s.placeOf s.activeNo 0 = r.start := by rw [State.placeOf, number, found]; rfl
  unfold State.choiceComplete
  rw [if_neg (by simp [due])]
  dsimp only
  rw [place]

theorem State.choiceComplete_repairPass (due : s.pc.due = none) {p : RepairPass} {r : SegRecord}
    (pass : s.rt.pass = some p) (found : s.findSeg p.segment = some r) :
    s.choiceComplete .repairPass = s.startTravel .repairPass (s.positionBefore r p.first) := by
  have place : s.placeOf p.segment p.first = s.positionBefore r p.first := by rw [State.placeOf, found]; rfl
  unfold State.choiceComplete
  rw [if_neg (by simp [due])]
  dsimp only
  rw [pass, Option.elim_some, place]

/-- Settles O33: the request head by head, and the CHANGE waiting, halted, or ended with the travel planned. -/
theorem needleChoicesSettleHeads : Obligations.NeedleChoicesSettleHeads := by
  refine ⟨fun s thread g start kind => s.needleChoice_chosen thread g kind start, fun s a phase => ?_⟩
  dsimp only
  refine ⟨fun shifting => State.waits_choice phase (State.anyShift_iff.2 shifting), fun c settled due => ?_,
    fun r settled due aim active sound => ?_, fun p r settled due aim pass found => ?_⟩
  · refine ⟨_, _, _, State.microStep_choice phase settled, s.stands_standsAt, ?_⟩
    rw [State.choiceComplete_due due]
    exact s.enterHalted_halts c _ _
  · subst aim
    rw [State.microStep_choice phase settled, State.choiceComplete_segmentStart due active sound, State.startTravel_eq]
  · subst aim
    rw [State.microStep_choice phase settled, State.choiceComplete_repairPass due pass found, State.startTravel_eq]

end Sys2Proof.Machine
end

section
/-! PROOF. SHIFT_TIMER_EXPIRY and TRIM_TIMER_EXPIRY (R92, R94, R134): the order that is over, its fault, and the part that
waits for other heads' orders. -/

open Sys2Proof.Claims

namespace Sys2Proof.Machine

variable {s t : State} {h : HeadId}

/-! ## A part that waits for other heads (R90, R94) -/

theorem State.anyTrim_iff : s.anyTrim = true ↔ ∃ h x, (s.sel h).trim = some x := by
  simp [State.anyTrim, mem_allHeads, Option.isSome_iff_exists]

/-- What becomes of one head's orders is nothing to a part that waits for other heads. -/
theorem WaitsForOthers.waits (others : WaitsForOthers s h) (pc : t.pc = s.pc) (mp : t.mp = s.mp)
    (sel : ∀ g, g ≠ h → t.sel g = s.sel g) : Waits t := by
  obtain ⟨waits, choice, trim⟩ := others
  unfold Waits State.microStep at waits ⊢
  rw [pc]
  cases phase : s.pc.phase with
  | rest => rfl
  | sew => rfl
  | take => simp [phase] at waits
  | schedule => simp [phase] at waits
  | choice a =>
    obtain ⟨g, x, other, flight⟩ := choice ⟨a, phase⟩
    exact if_pos (State.anyShift_iff.2 ⟨g, x, by rw [sel g other, flight]⟩)
  | trim a =>
    obtain ⟨g, x, other, flight⟩ := trim ⟨a, phase⟩
    exact if_pos (State.anyTrim_iff.2 ⟨g, x, by rw [sel g other, flight]⟩)
  | travel a =>
    simp only [phase, State.stepTravel_eq_none_iff] at waits ⊢
    rw [mp]
    exact waits
  | begin a =>
    simp only [phase, State.stepBegin_eq_none_iff] at waits ⊢
    rw [mp, pc]
    exact waits

/-! ## A group that the enable set discards (R134) -/

theorem State.resolveGroup_discarded {group : List FaultContext}
    (disabled : ∀ c ∈ group, kindInSet s.fr.enable c.kind = false) : s.resolveGroup h group = s := by
  have none_ : group.filter (fun c => s.takes c.kind) = [] :=
    List.filter_eq_nil_iff.2 fun c mem => by simp [State.takes, disabled c mem]
  unfold State.resolveGroup
  rw [none_]
  rfl

theorem State.resolveGroup_nil : s.resolveGroup h [] = s := State.resolveGroup_discarded nofun

/-! ## A shift that fails (R92) -/

theorem State.failShift_shape : s.failShift h = { s with
    hs := { s.hs with heads := (s.failShift h).hs.heads }, ts := { s.ts with heads := (s.failShift h).ts.heads } } := rfl

theorem State.failShift_sel (g : HeadId) : (s.failShift h).sel g =
    if g = h then { s.sel h with shift := none, current := none } else s.sel g :=
  State.sel_setSel s h g _

theorem State.failShift_head (g : HeadId) : (s.failShift h).head g =
    if g = h then { s.head h with state := beforeShift (s.head h).state } else s.head g :=
  State.head_setHead (s.setSel h _) h g _

/-! ## The timers (R92, R94) -/

theorem OrderPhase.timed_iff (o : OrderPhase) : o.timed = true ↔ o ≠ .unsent := by cases o <;> simp [OrderPhase.timed]

theorem exec_shiftTimerExpiry_idle (acts : Acts s) (unsent : ∀ x, (s.sel h).shift = some x → x.order = .unsent) :
    exec (.shiftTimerExpiry h) s = .next s := by
  show execShiftTimerExpiry h s = _
  unfold execShiftTimerExpiry
  rw [whenOperating_of_acts acts]
  cases shift : (s.sel h).shift with
  | none => rfl
  | some x => simp [unsent x shift, OrderPhase.timed]

theorem exec_shiftTimerExpiry (acts : Acts s) {x : Shift} (shift : (s.sel h).shift = some x) (sent : x.order ≠ .unsent) :
    exec (.shiftTimerExpiry h) s =
      .next ((s.failShift h).resolveGroup h [⟨.needleShiftFail, none, none, some x.target, none, none, none⟩]).drive := by
  show execShiftTimerExpiry h s = _
  unfold execShiftTimerExpiry
  rw [whenOperating_of_acts acts, shift]
  dsimp only
  rw [if_pos (x.order.timed_iff.2 sent)]
  rfl

theorem exec_trimTimerExpiry_idle (acts : Acts s) (unsent : ∀ x, (s.sel h).trim = some x → x.order = .unsent) :
    exec (.trimTimerExpiry h) s = .next s := by
  show execTrimTimerExpiry h s = _
  unfold execTrimTimerExpiry
  rw [whenOperating_of_acts acts]
  cases trim : (s.sel h).trim with
  | none => rfl
  | some x => simp [unsent x trim, OrderPhase.timed]

theorem exec_trimTimerExpiry (acts : Acts s) {x : Trim} (trim : (s.sel h).trim = some x) (sent : x.order ≠ .unsent) :
    exec (.trimTimerExpiry h) s =
      .next (((s.setSel h { s.sel h with trim := none }).resolveGroup h [s.trimContext h]).drive) := by
  have context : (s.setSel h { s.sel h with trim := none }).trimContext h = s.trimContext h := by
    unfold State.trimContext
    rw [State.sel_setSel_self]
    rfl
  show execTrimTimerExpiry h s = _
  unfold execTrimTimerExpiry
  rw [whenOperating_of_acts acts, trim]
  dsimp only
  rw [if_pos (x.order.timed_iff.2 sent), context]

/-- The context of TRIM_FAIL (R94): the working segment and pass, the last index sewn, the current needle. -/
theorem State.trimContext_eq : s.trimContext h = ⟨.trimFail, s.ts.working.map (·.segment),
    if s.ts.working.isSome = true ∧ 0 < s.frontier then some (s.frontier - 1) else none,
    (s.sel h).current, s.ts.working.map (·.kind), none, none⟩ := by
  have last : (s.ts.working.bind fun _ => s.lastSewn) =
      if s.ts.working.isSome = true ∧ 0 < s.frontier then some (s.frontier - 1) else none := by
    unfold State.lastSewn
    cases s.ts.working with
    | none => simp
    | some w => by_cases zero : s.frontier = 0 <;> simp [zero, Nat.pos_iff_ne_zero]
  unfold State.trimContext
  rw [last]

/-- Settles O53: an expired shift and an expired trim, each over with its fault, and a timer that does not run. -/
theorem timersEndOrders : Obligations.TimersEndOrders := by
  intro h s acts
  dsimp only
  refine ⟨exec_shiftTimerExpiry_idle acts, exec_trimTimerExpiry_idle acts, fun x shift sent => ?_, fun x trim sent => ?_⟩
  · have run := exec_shiftTimerExpiry acts shift sent
    have head : (s.failShift h).head h = { s.head h with state := beforeShift (s.head h).state } :=
      (State.failShift_head h).trans (if_pos rfl)
    have others (g : HeadId) (other : g ≠ h) : (s.failShift h).head g = s.head g ∧ (s.failShift h).sel g = s.sel g :=
      ⟨(State.failShift_head g).trans (if_neg other), (State.failShift_sel g).trans (if_neg other)⟩
    have calm (waits : WaitsForOthers s h) : Waits (s.failShift h) :=
      WaitsForOthers.waits waits rfl rfl fun g other => (others g other).2
    refine ⟨s.failShift h, State.failShift_shape, (State.failShift_sel h).trans (if_pos rfl), by rw [head],
      fun b shifting => ?_, fun apart => ?_, others, run, fun disabled waits => ?_⟩
    · rw [head, shifting, beforeShift_shifting]
    · rw [head, beforeShift_other apart]
    · rw [run, State.resolveGroup_discarded, State.drive_waits (calm waits)]
      exact List.forall_mem_singleton.2 disabled
  · have run := exec_trimTimerExpiry acts trim sent
    have others (g : HeadId) (other : g ≠ h) : (s.setSel h { s.sel h with trim := none }).sel g = s.sel g :=
      (State.sel_setSel _ _ _ _).trans (if_neg other)
    have calm (waits : WaitsForOthers s h) : Waits (s.setSel h { s.sel h with trim := none }) :=
      WaitsForOthers.waits waits rfl rfl others
    rw [State.trimContext_eq] at run
    refine ⟨s.setSel h { s.sel h with trim := none }, rfl, State.sel_setSel_self _ _ _,
      fun g other => ⟨rfl, others g other⟩, run, fun disabled waits => ?_⟩
    rw [run, State.resolveGroup_discarded, State.drive_waits (calm waits)]
    exact List.forall_mem_singleton.2 disabled

end Sys2Proof.Machine
end

section
/-! PROOF. The message of a report (R186), and what a report taken leaves of its head: the shift and the trim judged
(R92, R94), the meter (R102), the drive fault and the button (R102, R104). -/

open Sys2Proof.Claims

namespace Sys2Proof.Machine

variable {s t : State} {h : HeadId} {r : Report}

/-! ## The bytes of a report (R186) -/

theorem needleOf_iff {b : Byte} {n : Option NeedleId} : b.toNat = needleNumber n ↔ b.toNat ≤ 12 ∧ needleOf b = n := by
  cases n with
  | none =>
    refine ⟨fun zero => ⟨by rw [zero]; exact Nat.zero_le _, needleOf_outside (.inl zero)⟩, fun ⟨low, none_⟩ => ?_⟩
    by_contra positive
    simp only [needleOf, needleNumber] at none_ positive
    rw [dif_pos (by omega)] at none_
    cases none_
  | some m =>
    refine ⟨fun number => ⟨by rw [number]; exact m.isLt, needleOf_names number⟩, fun ⟨low, found⟩ => ?_⟩
    unfold needleOf at found
    split at found
    · rw [← Option.some.inj found]
      simp only [needleNumber]
      omega
    · cases found

theorem carries_iff {p : List Byte} {o w v : Nat} (within : o + w ≤ p.length) (narrow : v < 256 ^ w) :
    Carries p o w v ↔ ofBytes ((p.drop o).take w) = v := by
  unfold Carries
  have value : (v : Int) % 256 ^ w = v := Int.emod_eq_of_lt (by omega) (by exact_mod_cast narrow)
  rw [value]
  exact ⟨fun ⟨_, same⟩ => Int.ofNat.inj same, fun same => ⟨within, congrArg Int.ofNat same⟩⟩

theorem carries_congr {p : List Byte} {o w : Nat} {u v : Int} (same : u = v) : Carries p o w u ↔ Carries p o w v := by
  rw [same]

/-- Seven bytes spell a report of the head when the CRC, the head's number and the fields are right. -/
theorem spells_iff {hd f1 f0 flags nd c1 c0 : Byte} : Spells [hd, f1, f0, flags, nd, c1, c0] h r ↔
    withCrc [hd, f1, f0, flags, nd] = [hd, f1, f0, flags, nd, c1, c0] ∧ hd.toNat = headNumber h ∧
      ofBytes [f1, f0] = r.feed ∧ (flags.getLsbD 0 = r.bobbin ∧ flags.getLsbD 1 = r.button ∧
        flags.getLsbD 2 = r.trimDone ∧ flags.getLsbD 3 = r.driveFault) ∧
      nd.toNat = needleNumber r.needle ∧ r.feed ≤ 1023 := by
  have crc : [c1, c0] = beBytes 2 (crc16 [hd, f1, f0, flags, nd]).toNat ↔
      withCrc [hd, f1, f0, flags, nd] = [hd, f1, f0, flags, nd, c1, c0] :=
    ⟨fun same => by rw [withCrc, ← same]; rfl, fun same => (List.append_cancel_left same).symm⟩
  have head : Carries [hd, f1, f0, flags, nd, c1, c0] 0 1 (h.val + 1) ↔ hd.toNat = headNumber h :=
    (carries_iff (v := h.val + 1) (by simp) (by omega)).trans (by simp [ofBytes, headNumber])
  have feed (small : r.feed ≤ 1023) : Carries [hd, f1, f0, flags, nd, c1, c0] 1 2 r.feed ↔ ofBytes [f1, f0] = r.feed :=
    carries_iff (by simp) (by omega)
  have needle : Carries [hd, f1, f0, flags, nd, c1, c0] 4 1 (needleNumber r.needle) ↔ nd.toNat = needleNumber r.needle :=
    (carries_iff (by simp) (by unfold needleNumber; split <;> omega)).trans (by simp [ofBytes])
  unfold Spells
  rw [head]
  constructor
  · rintro ⟨-, check, number, fed, ⟨b, at_, bits⟩, position, small⟩
    obtain rfl := Option.some.inj at_
    exact ⟨crc.1 check, number, (feed small).1 fed, bits,
      needle.1 ((carries_congr (by cases r.needle <;> rfl)).1 position), small⟩
  · rintro ⟨check, number, fed, bits, position, small⟩
    exact ⟨rfl, crc.2 check, number, (feed small).2 fed, ⟨flags, rfl, bits⟩,
      (carries_congr (by cases r.needle <;> rfl)).1 (needle.2 position), small⟩

/-- A message is read as the report it spells. -/
theorem parseReport_iff {message : List Byte} : parseReport h message = some r ↔ Spells message h r := by
  match message with
  | [hd, f1, f0, flags, nd, c1, c0] =>
    rw [spells_iff, needleOf_iff]
    unfold parseReport
    dsimp only
    constructor
    · intro read
      split at read
      · rename_i form
        obtain ⟨crc, number, small, low⟩ := form
        obtain rfl := Option.some.inj read
        exact ⟨crc, number, rfl, ⟨rfl, rfl, rfl, rfl⟩, ⟨low, rfl⟩, small⟩
      · cases read
    · rintro ⟨crc, number, feed, ⟨bobbin, button, trimDone, driveFault⟩, ⟨low, needle⟩, small⟩
      rw [if_pos ⟨crc, number, feed ▸ small, low⟩, feed, bobbin, button, trimDone, driveFault, needle]
  | [] | [_] | [_, _] | [_, _, _] | [_, _, _, _] | [_, _, _, _, _] | [_, _, _, _, _, _] | _ :: _ :: _ :: _ :: _ :: _ :: _ :: _ :: _ =>
    simp [parseReport, Spells]

/-! ## What a report taken leaves of its head (R92, R94, R101, R104) -/

namespace Report

/-- A shift in flight once the report has been judged, with the state of its head (R92): judged, it is over where the
report names a needle, complete on its target and failed on another; one sent and not judged notes the needle. -/
def shiftJudged (r : Report) (x : SelectorHead) (st : HeadState) : SelectorHead × HeadState :=
  match x.shift, r.needle with
  | some f, some m =>
    match f.order with
    | .judged =>
      if m = f.target then ({ x with shift := none, current := some m }, match st with | .shifting _ => .active | st => st)
      else ({ x with shift := none, current := none }, beforeShift st)
    | .sent => ({ x with shift := some { f with named := true } }, st)
    | .unsent => (x, st)
  | _, _ => (x, st)

/-- A judged trim is over where the report says that it is done (R94). -/
def trimJudged (r : Report) (x : SelectorHead) : SelectorHead :=
  { x with trim := match x.trim with
    | some f => if f.order = .judged ∧ r.trimDone = true then none else some f
    | none => none }

/-- The thread-ready button brings an OFF head of mode AUTO to REJOIN_WAIT (R104). -/
def pressed (r : Report) (mode : RejoinMode) (st : HeadState) : HeadState :=
  if r.button = true ∧ st = .off ∧ mode = .auto then .rejoinWait else st

end Report

/-- The state once a report has been taken, its meter apart. -/
def State.reported (s : State) (h : HeadId) (r : Report) : State :=
  let x := r.shiftJudged (s.sel h) (s.head h).state
  (s.setSel h (r.trimJudged x.1)).setHead h (heard r { s.head h with state := r.pressed (s.head h).rejoin x.2 })

section
variable (s : State) (h : HeadId)

theorem State.setSel_same : s.setSel h (s.sel h) = s := by
  unfold State.setSel State.sel
  rw [show s.ts.heads.set h.val s.ts.heads[h] = s.ts.heads from Vector.set_getElem_self _]

theorem State.setHead_same : s.setHead h (s.head h) = s := by
  unfold State.setHead State.head
  rw [show s.hs.heads.set h.val s.hs.heads[h] = s.hs.heads from Vector.set_getElem_self _]

theorem State.setMeter_same : s.setMeter h (s.meter h) = s := by
  unfold State.setMeter State.meter
  rw [show s.tm.set h.val s.tm[h] = s.tm from Vector.set_getElem_self _]

theorem State.setSel_setSel (x y : SelectorHead) : (s.setSel h x).setSel h y = s.setSel h y := by
  unfold State.setSel
  dsimp only
  rw [Vector.set_set]

theorem State.setHead_setHead (x y : HeadRecord) : (s.setHead h x).setHead h y = s.setHead h y := by
  unfold State.setHead
  dsimp only
  rw [Vector.set_set]

end

/-- The heads' records and what the Thread Selector holds of them are apart. -/
theorem State.setHead_setSel (s : State) (h : HeadId) (x : HeadRecord) (y : SelectorHead) :
    (s.setHead h x).setSel h y = (s.setSel h y).setHead h x := rfl

theorem State.sel_setHead (s : State) (h g : HeadId) (x : HeadRecord) : (s.setHead h x).sel g = s.sel g := rfl

/-! ## The judging of a report, step by step (R92, R94, R102, R104) -/

section
variable (s : State) (h : HeadId) (r : Report)

theorem State.completeShift_eq (m : NeedleId) : s.completeShift h m =
    (s.setSel h { s.sel h with shift := none, current := some m }).setHead h
      { s.head h with state := match (s.head h).state with | .shifting _ => .active | st => st } := by
  have head : (s.setSel h { s.sel h with shift := none, current := some m }).head h = s.head h := rfl
  unfold State.completeShift
  dsimp only
  rw [head]
  cases state : (s.head h).state with
  | shifting b => rfl
  | _ =>
    dsimp only
    rw [← state]
    exact (State.setHead_same (s.setSel h { s.sel h with shift := none, current := some m }) h).symm

theorem State.judgeShift_fst : (s.judgeShift h r).1 =
    let x := r.shiftJudged (s.sel h) (s.head h).state
    (s.setSel h x.1).setHead h { s.head h with state := x.2 } := by
  have same : s = (s.setSel h (s.sel h)).setHead h (s.head h) := by rw [State.setSel_same, State.setHead_same]
  unfold State.judgeShift Report.shiftJudged
  cases shift : (s.sel h).shift with
  | none => exact same
  | some f =>
  cases needle : r.needle with
  | none => exact same
  | some m =>
  obtain ⟨target, order, timeout, named⟩ := f
  cases order with
  | unsent => exact same
  | sent => exact (State.setHead_same (s.setSel h _) h).symm
  | judged =>
    dsimp only
    split
    · exact s.completeShift_eq h m
    · rfl

theorem State.judgeTrim_eq : s.judgeTrim h r = s.setSel h (r.trimJudged (s.sel h)) := by
  unfold State.judgeTrim Report.trimJudged
  cases trim : (s.sel h).trim with
  | none =>
    dsimp only
    rw [← trim]
    exact (s.setSel_same h).symm
  | some f =>
    dsimp only
    split
    · rfl
    · rw [← trim]
      exact (s.setSel_same h).symm

theorem State.judgeButton_eq : s.judgeButton h r =
    s.setHead h { s.head h with state := r.pressed (s.head h).rejoin (s.head h).state } := by
  unfold State.judgeButton Report.pressed
  split
  · rfl
  · exact (s.setHead_same h).symm

/-- The Thread Selector's judging of a report taken (R92, R94). -/
def State.selectorJudged : State := ((s.setHead h ((s.head h).tookReport r)).judgeShift h r).1.judgeTrim h r

/-- The faults of the shift that a report taken judges (R92). -/
def State.shiftFaults : List FaultContext := ((s.setHead h ((s.head h).tookReport r)).judgeShift h r).2

/-- The fault of the drive that a report taken finds (R102). -/
def State.driveFaults : List FaultContext :=
  if r.driveFault && !(s.head h).driveSeen then [s.supervisorContext .headDrive] else []

theorem HeadRecord.tookReport_heard (x : HeadRecord) (st : HeadState) :
    { x.tookReport r with driveSeen := r.driveFault, state := st } = heard r { x with state := st } := by
  unfold HeadRecord.tookReport heard
  cases r.needle <;> rfl

theorem State.selectorJudged_eq : s.selectorJudged h r =
    let x := r.shiftJudged (s.sel h) (s.head h).state
    (s.setSel h (r.trimJudged x.1)).setHead h { (s.head h).tookReport r with state := x.2 } := by
  have sel : (s.setHead h ((s.head h).tookReport r)).sel h = s.sel h := rfl
  have state : ((s.head h).tookReport r).state = (s.head h).state := rfl
  unfold State.selectorJudged
  rw [State.judgeTrim_eq, State.judgeShift_fst, sel, State.head_setHead_self, state]
  generalize r.shiftJudged (s.sel h) (s.head h).state = x
  simp only [State.setHead_setSel, State.setSel_setSel, State.setHead_setHead, State.sel_setHead, State.sel_setSel_self]

theorem State.reported_eq : ((s.selectorJudged h r).judgeDrive h r).1.judgeButton h r = s.reported h r := by
  rw [State.judgeButton_eq, State.selectorJudged_eq]
  unfold State.judgeDrive State.reported
  generalize r.shiftJudged (s.sel h) (s.head h).state = x
  dsimp only
  rw [State.setHead_setHead, State.setHead_setHead, State.head_setHead_self, State.head_setHead_self,
    ← HeadRecord.tookReport_heard]
  rfl

end

/-! ## The meter and the drive (R101, R102) -/

theorem State.metered_iff {w : Taken} : s.metered h = some w ↔ Metered s h w := by
  unfold State.metered Metered
  cases s.hs.previous with
  | none => simp
  | some v =>
    simp only [Option.some.injEq, Bool.and_eq_true, beq_iff_eq, Option.ite_none_right_eq_some]
    constructor
    · rintro ⟨⟨⟨⟨⟨revolution, completed⟩, down⟩, taken⟩, active⟩, rfl⟩
      exact ⟨revolution, rfl, completed, down, taken, active⟩
    · rintro ⟨revolution, rfl, completed, down, taken, active⟩
      exact ⟨⟨⟨⟨⟨revolution, completed⟩, down⟩, taken⟩, active⟩, rfl⟩

theorem State.passSewn_iff : s.passSewn = true ↔ s.pc.phase = .sew ∨ s.pc.phase = .begin .onward ∨
    ∃ a, s.pc.phase = .trim a ∧ a ≠ .owed ∧ a ≠ .repairRun := by
  unfold State.passSewn
  cases s.pc.phase with
  | begin a => cases a <;> simp
  | trim a => cases a <;> simp
  | _ => simp

theorem State.supervisorContext_eq {k : FaultKind} {c : FaultContext} (context : SupervisorContext s k c) :
    s.supervisorContext k = c := by
  obtain ⟨sewn, apart⟩ := context
  unfold State.supervisorContext
  by_cases sews : s.passSewn = true
  · rw [if_pos sews, sewn (State.passSewn_iff.1 sews)]
  · rw [if_neg sews, apart (mt State.passSewn_iff.2 sews)]

/-- A metered report changes the head's meter alone. -/
theorem State.meterReport_eq (s : State) (h : HeadId) (r : Report) (w : Taken) :
    s.meterReport h r w = (s.setMeter h ((s.meterReport h r w).1.meter h), (s.meterReport h r w).2) :=
  Prod.ext (congrArg (s.setMeter h) (State.meter_setMeter_self _ _ _).symm) rfl

/-- The meter after a report, and the faults it finds: its own account where the report is metered (R102). -/
def State.reportMetered (s : State) (h : HeadId) (r : Report) : Meter × List FaultContext :=
  (s.metered h).elim (s.meter h, []) fun w =>
    (((s.reported h r).meterReport h r w).1.meter h, ((s.reported h r).meterReport h r w).2)

section
variable (s : State) (h : HeadId) (r : Report)

theorem State.metered_tookReport : (s.setHead h ((s.head h).tookReport r)).metered h = s.metered h := by
  unfold State.metered
  rw [State.head_setHead_self]
  rfl

theorem State.judgeDrive_faults : ((s.selectorJudged h r).judgeDrive h r).2 = s.driveFaults h r := by
  rw [State.selectorJudged_eq]
  unfold State.judgeDrive
  dsimp only
  rw [State.head_setHead_self]
  rfl

theorem State.judgeButton_setMeter (m : Meter) : (s.setMeter h m).judgeButton h r = (s.judgeButton h r).setMeter h m := by
  rw [State.judgeButton_eq, State.judgeButton_eq]
  rfl

/-- The judgings after the meter's are none of its business. -/
theorem State.judged_setMeter (m : Meter) :
    (((s.selectorJudged h r).setMeter h m).judgeDrive h r).1.judgeButton h r = (s.reported h r).setMeter h m := by
  rw [← State.reported_eq, ← State.judgeButton_setMeter]
  rfl

/-- The meter's account reads nothing that the judgings after it change. -/
theorem State.meterReport_reported (w : Taken) : (s.selectorJudged h r).meterReport h r w =
    ((s.selectorJudged h r).setMeter h (((s.reported h r).meterReport h r w).1.meter h),
      ((s.reported h r).meterReport h r w).2) := by
  rw [State.meterReport_eq, State.selectorJudged_eq]
  unfold State.reported
  rfl

/-- A report taken: its head's record, orders and meter, then its faults as one group (R102, R133). -/
theorem State.takeReport_eq : s.takeReport h r = ((s.reported h r).setMeter h (s.reportMetered h r).1).resolveGroup h
    (s.shiftFaults h r ++ (s.reportMetered h r).2 ++ s.driveFaults h r) := by
  have meter : (s.selectorJudged h r).meter h = s.meter h := by
    rw [State.selectorJudged_eq]
    rfl
  unfold State.takeReport State.reportMetered
  dsimp only
  rw [State.metered_tookReport, ← State.judgeDrive_faults, ← State.judged_setMeter]
  cases s.metered h with
  | none =>
    rw [Option.elim_none, ← meter, State.setMeter_same]
    rfl
  | some w =>
    rw [Option.elim_some]
    change ((((s.selectorJudged h r).meterReport h r w).1.judgeDrive h r).1.judgeButton h r).resolveGroup h
      (s.shiftFaults h r ++ ((s.selectorJudged h r).meterReport h r w).2 ++
        (((s.selectorJudged h r).meterReport h r w).1.judgeDrive h r).2) = _
    rw [State.meterReport_reported]
    rfl

end

/-! ## HEAD_REPORT (R102) -/

section
variable {message : List Byte}

theorem exec_headReport (acts : Acts s) (polled : (s.head h).state ≠ .excluded) (awaiting : (s.head h).awaiting = true)
    (spells : Spells message h r) : exec (.headReport h message) s = .next (s.takeReport h r).drive := by
  have awaits : s.awaits h = true := by rw [State.awaits, Bool.and_eq_true, State.polled_iff]; exact ⟨polled, awaiting⟩
  show execHeadReport h message s = _
  unfold execHeadReport
  rw [whenOperating_of_acts acts, if_pos awaits, parseReport_iff.2 spells]

/-- A message that is no report of the head, or is not awaited, is not taken. -/
theorem exec_headReport_idle (acts : Acts s) (idle : ¬ ((s.head h).state ≠ .excluded ∧ (s.head h).awaiting = true) ∨
    ∀ r, ¬ Spells message h r) : exec (.headReport h message) s = .next s := by
  have awaits : s.awaits h = true ↔ (s.head h).state ≠ .excluded ∧ (s.head h).awaiting = true := by
    rw [State.awaits, Bool.and_eq_true, State.polled_iff]
  show execHeadReport h message s = _
  unfold execHeadReport
  rw [whenOperating_of_acts acts]
  by_cases due : s.awaits h = true
  · rw [if_pos due]
    cases read : parseReport h message with
    | none => rfl
    | some r =>
      exact absurd idle (not_or.2 ⟨not_not.2 (awaits.1 due), fun none_ => none_ r (parseReport_iff.1 read)⟩)
  · rw [if_neg due]

end

/-! ## The shift a report judges (R92) -/

theorem Report.shiftJudged_keeps (x : SelectorHead) (st : HeadState) : (r.shiftJudged x st).1 =
    { x with shift := (r.shiftJudged x st).1.shift, current := (r.shiftJudged x st).1.current } := by
  unfold Report.shiftJudged
  cases x.shift with
  | none => rfl
  | some f =>
  cases r.needle with
  | none => rfl
  | some m =>
    dsimp only
    cases f.order with
    | judged => dsimp only; split <;> rfl
    | _ => rfl

section
variable {x : SelectorHead} {st : HeadState} {f : Shift} {m : NeedleId} (shift : x.shift = some f)
  (judged : f.order = .judged) (needle : r.needle = some m)
include shift judged needle

theorem Report.shiftJudged_target (onTarget : m = f.target) : r.shiftJudged x st =
    ({ x with shift := none, current := some m }, match st with | .shifting _ => .active | st => st) := by
  simp only [Report.shiftJudged, shift, needle, judged]
  exact if_pos onTarget

theorem Report.shiftJudged_other (off : m ≠ f.target) :
    r.shiftJudged x st = ({ x with shift := none, current := none }, beforeShift st) := by
  simp only [Report.shiftJudged, shift, needle, judged]
  exact if_neg off

end

/-- A shift that is not judged goes on, with the needle noted that a report names after the command (R93). -/
theorem Report.shiftJudged_goesOn {x : SelectorHead} {st : HeadState}
    (apart : ∀ f, x.shift = some f → f.order = .judged → r.needle = none) : r.shiftJudged x st =
      ({ x with shift := x.shift.map fun f => if f.order = .sent ∧ r.needle ≠ none then { f with named := true } else f },
        st) := by
  obtain ⟨current, needles, shift, trim⟩ := x
  unfold Report.shiftJudged
  cases shift with
  | none => rfl
  | some f =>
  obtain ⟨target, order, timeout, named⟩ := f
  cases needle : r.needle with
  | none => simp
  | some m =>
  cases order with
  | unsent => rfl
  | sent => simp
  | judged => exact absurd (needle.symm.trans (apart _ rfl rfl)) nofun

section
variable (s h) (r)

theorem State.reported_sel : (s.reported h r).sel h = r.trimJudged (r.shiftJudged (s.sel h) (s.head h).state).1 :=
  State.sel_setSel_self _ _ _

theorem State.reported_head : (s.reported h r).head h =
    heard r { s.head h with
      state := r.pressed (s.head h).rejoin (r.shiftJudged (s.sel h) (s.head h).state).2 } :=
  State.head_setHead_self _ _ _

theorem State.reported_others {g : HeadId} (other : g ≠ h) :
    (s.reported h r).head g = s.head g ∧ (s.reported h r).sel g = s.sel g :=
  ⟨(State.head_setHead _ _ _ _).trans (if_neg other), (State.sel_setSel s h g _).trans (if_neg other)⟩

end

/-! ## The faults of the shift (R92) -/

/-- Fitness reads the working thread, the current needle and the entries (R86). -/
theorem fit_congr {t : State} (working : t.ts.working = s.ts.working) (current : (t.sel h).current = (s.sel h).current)
    (needles : (t.sel h).needles = (s.sel h).needles) : Fit t h ↔ Fit s h := by
  unfold Fit
  rw [working, current, needles]

section
variable {f : Shift} {m : NeedleId} (shift : (s.sel h).shift = some f) (judged : f.order = .judged)
  (needle : r.needle = some m)
include shift judged needle

theorem State.shiftFaults_target (onTarget : m = f.target) : s.shiftFaults h r =
    if ((s.setHead h ((s.head h).tookReport r)).completeShift h m).fitNow h then []
    else [⟨.needleWithdrawn, none, none, some m, none, none, none⟩] := by
  unfold State.shiftFaults State.judgeShift
  simp only [State.sel_setHead, shift, needle, judged]
  rw [if_pos onTarget]
  rfl

theorem State.shiftFaults_other (off : m ≠ f.target) :
    s.shiftFaults h r = [⟨.needleShiftFail, none, none, some f.target, none, none, none⟩] := by
  unfold State.shiftFaults State.judgeShift
  simp only [State.sel_setHead, shift, needle, judged]
  rw [if_neg off]
  rfl

/-- The needle that completes the shift is judged against the working thread (R86, R92). -/
theorem State.completed_fit (onTarget : m = f.target) :
    ((s.setHead h ((s.head h).tookReport r)).completeShift h m).fitNow h = true ↔ Fit (s.reported h r) h := by
  have completed : ((s.setHead h ((s.head h).tookReport r)).completeShift h m).sel h =
      { s.sel h with shift := none, current := some m } := by
    rw [State.completeShift_eq]
    exact State.sel_setSel_self _ _ _
  have reported : (s.reported h r).sel h = r.trimJudged { s.sel h with shift := none, current := some m } := by
    rw [State.reported_sel, Report.shiftJudged_target shift judged needle onTarget]
  have working : ((s.setHead h ((s.head h).tookReport r)).completeShift h m).ts.working =
      (s.reported h r).ts.working := by
    rw [State.completeShift_eq]
    rfl
  rw [State.fitNow_iff]
  exact fit_congr working (by rw [completed, reported]; rfl) (by rw [completed, reported]; rfl)

end

theorem State.shiftFaults_goesOn
    (apart : ∀ f, (s.sel h).shift = some f → f.order = .judged → r.needle = none) : s.shiftFaults h r = [] := by
  unfold State.shiftFaults State.judgeShift
  rw [State.sel_setHead]
  cases shift : (s.sel h).shift with
  | none => rfl
  | some f =>
  cases needle : r.needle with
  | none => rfl
  | some m =>
    dsimp only
    cases order : f.order with
    | judged => exact absurd (needle.symm.trans (apart f shift order)) nofun
    | _ => rfl

/-! ## The meter and the drive of a report (R102) -/

theorem State.driveFaults_eq {drive : FaultContext} (context : SupervisorContext s .headDrive drive) :
    s.driveFaults h r = if r.driveFault = true ∧ (s.head h).driveSeen = false then [drive] else [] := by
  unfold State.driveFaults
  rw [State.supervisorContext_eq context]
  simp

theorem State.reportMetered_none (none_ : ∀ w, ¬ Metered s h w) : s.reportMetered h r = (s.meter h, []) := by
  unfold State.reportMetered
  rw [Option.eq_none_iff_forall_ne_some.2 fun w taken => none_ w (State.metered_iff.1 taken)]
  rfl

theorem State.reportMetered_some {w : Taken} (metered : Metered s h w) : (s.reported h r).meterReport h r w =
    ((s.reported h r).setMeter h (s.reportMetered h r).1, (s.reportMetered h r).2) := by
  have account : s.reportMetered h r =
      (((s.reported h r).meterReport h r w).1.meter h, ((s.reported h r).meterReport h r w).2) := by
    unfold State.reportMetered
    rw [State.metered_iff.2 metered]
    rfl
  rw [account]
  exact State.meterReport_eq _ _ _ _

/-- Settles O50: a message not taken, and a report taken, by what it does to the shift in flight (R92). -/
theorem headReportIsTaken : Obligations.HeadReportIsTaken := by
  intro h message s acts
  dsimp only
  refine ⟨exec_headReport_idle acts, fun r drive ⟨polled, awaiting⟩ spells context => ?_⟩
  have run := exec_headReport acts polled awaiting spells
  rw [State.takeReport_eq, State.driveFaults_eq context] at run
  have sel := s.reported_sel h r
  have head := s.reported_head h r
  refine ⟨s.reported h r, s.shiftFaults h r, (s.reportMetered h r).2, (s.reportMetered h r).1, run,
    fun none_ => by rw [State.reportMetered_none none_]; exact ⟨rfl, rfl⟩,
    fun w metered => State.reportMetered_some metered, rfl, fun g other => s.reported_others h r other, ?_, ?_,
    fun f m shift judged needle => ?_, fun apart => ?_, fun shifted metered driven others => ?_⟩
  · rw [head]
    rfl
  · rw [sel, r.shiftJudged_keeps]
    rfl
  · refine ⟨?_, fun onTarget => ?_, fun off => ?_⟩
    · by_cases onTarget : m = f.target
      · rw [sel, Report.shiftJudged_target shift judged needle onTarget]
        rfl
      · rw [sel, Report.shiftJudged_other shift judged needle onTarget]
        rfl
    · have fit := State.completed_fit shift judged needle onTarget
      rw [State.shiftFaults_target shift judged needle onTarget]
      refine ⟨?_, ?_, fun fits => if_pos (fit.2 fits), fun unfit => if_neg (mt fit.1 unfit)⟩
      · rw [sel, Report.shiftJudged_target shift judged needle onTarget]
        rfl
      · rw [head, Report.shiftJudged_target shift judged needle onTarget]
        rfl
    · refine ⟨?_, ?_, State.shiftFaults_other shift judged needle off⟩
      · rw [sel, Report.shiftJudged_other shift judged needle off]
        rfl
      · rw [head, Report.shiftJudged_other shift judged needle off]
        cases (s.head h).state with
        | shifting b => rw [beforeShift_shifting]; rfl
        | _ => rfl
  · have goesOn := Report.shiftJudged_goesOn (st := (s.head h).state) apart
    refine ⟨State.shiftFaults_goesOn apart, ?_, ?_, ?_⟩
    · rw [sel, goesOn]
      rfl
    · rw [head, goesOn]
      rfl
    · rw [sel, goesOn]
      rfl
  · rw [run, shifted, metered, driven]
    have calm : Waits ((s.reported h r).setMeter h (s.reportMetered h r).1) :=
      WaitsForOthers.waits others rfl rfl fun g other => (s.reported_others h r other).2
    rw [List.append_nil, List.append_nil, State.resolveGroup_nil, State.drive_waits calm]

end Sys2Proof.Machine
end

section
/-! PROOF. The requests about one head that leave the job alone (R105, R112, R113, R124): HEAD_QUERY with the bytes of the
head report, HEAD_CLEAR, HEAD_BOBBIN and HEAD_REJOIN. -/

open Sys2Proof.Claims

namespace Sys2Proof.Machine

variable {s : State} {head : Byte} {h : HeadId}

/-! ## HEAD_QUERY (R112) -/

theorem exec_headQuery (acts : Acts s) : exec (.headQuery head) s =
    .next ((headOf head).elim (refused .badArgument s) fun h => done (s.headReport h) s) := by
  show execHeadQuery head s = _
  unfold execHeadQuery
  rw [whenOperating_of_acts acts]
  cases headOf head <;> rfl

/-- The fields of a first-fault record, each with its width (R184). -/
def firstFaultFields (h : HeadId) (c : Option FaultContext) : List (Nat × Int) :=
  [(1, c.elim 0 (·.kind.code)), (2, (c.bind (·.segment)).getD (Config.unstated .faultSegment h).toNat),
   (2, (c.bind (·.index)).getD 65535), (1, needleNumber (c.bind (·.needle))), (1, passKindCode (c.bind (·.pass))),
   (2, (c.bind (·.expected)).getD (Config.unstated .faultExpected h).toNat),
   (2, (c.bind (·.measured)).getD (Config.unstated .faultMeasured h).toNat)]

/-- The fields of the head report before the first-fault record, each with its width (R184). -/
def State.headFields (s : State) (h : HeadId) : List (Nat × Int) :=
  let r := s.head h
  let m := s.meter h
  [(1, r.state.code), (1, r.rejoin.code), (1, boolCode r.replay.isSome),
   (2, r.replay.elim (Config.unstated .latchSegment h).toNat (·.1)), (2, r.replay.elim 65535 (·.2)),
   (1, r.silentRun), (1, s.headFlags h), (1, needleNumber (r.lastReport.bind (·.needle))),
   (1, needleNumber (s.sel h).current), (1, needleNumber ((s.sel h).shift.map (·.target))), (4, r.sewn),
   (4, r.sewnRepair), (1, m.breakRun), (2, m.loose), (2, m.tight), (1, m.colour.code), (3, m.bobbin),
   (1, m.bobbinAbsent), (1, m.storm), (2, m.stormLeak)]

/-- The fields of the head report, each with its width (R184). -/
def State.headReportFields (s : State) (h : HeadId) : List (Nat × Int) :=
  s.headFields h ++ firstFaultFields h (s.faultHead h).first ++
    ([(1, (s.faultHead h).latest.elim 0 (·.code)), (1, (s.faultHead h).count)] : List (Nat × Int))

theorem faultBytes_eq (c : Option FaultContext) : faultBytes h c = fieldBytes (firstFaultFields h c) := by
  simp [faultBytes, firstFaultFields, fieldBytes]

theorem State.headReport_eq : s.headReport h = fieldBytes (s.headReportFields h) := by
  unfold State.headReport State.headReportFields
  dsimp only
  rw [fieldBytes_append, fieldBytes_append, faultBytes_eq]
  simp only [State.headFields, fieldBytes, List.flatMap_cons, List.flatMap_nil, List.append_nil, List.append_assoc]

/-- The widths of the fields of the head report. -/
def headReportWidths : List Nat :=
  [1, 1, 1, 2, 2, 1, 1, 1, 1, 1, 4, 4, 1, 2, 2, 1, 3, 1, 1, 2, 1, 2, 2, 1, 1, 2, 2, 1, 1]

theorem State.headReportFields_widths : (s.headReportFields h).map (·.1) = headReportWidths := rfl

/-- The head report carries each of its fields. -/
theorem State.carries_headReport (i : Nat) {o w : Nat} {v : Int} (field : (s.headReportFields h)[i]? = some (w, v))
    (ho : (headReportWidths.take i).sum = o := by decide) : Carries (s.headReport h) o w v :=
  State.headReport_eq ▸ carries_field State.headReportFields_widths i field ho

/-- The flags of the head report where no report has been taken. -/
theorem State.headFlags_silent (silent : (s.head h).lastReport = none) : (s.headFlags h : Int) =
    (if (s.head h).driveSeen then 1 else 0) + (if (s.head h).inTrim then 2 else 0) +
    (if (s.meter h).lowArmed then 16 else 0) + (if (s.faultHead h).overflow then 32 else 0) := by
  unfold State.headFlags
  push_cast
  simp [boolCode_eq, silent]

/-- The flags of the head report after a report. -/
theorem State.headFlags_reported {l : Report} (reported : (s.head h).lastReport = some l) : (s.headFlags h : Int) =
    (if (s.head h).driveSeen then 1 else 0) + (if (s.head h).inTrim then 2 else 0) + (if l.bobbin then 4 else 0) +
    (if l.button then 8 else 0) + (if (s.meter h).lowArmed then 16 else 0) +
    (if (s.faultHead h).overflow then 32 else 0) + 64 := by
  unfold State.headFlags
  push_cast
  simp [boolCode_eq, reported]

/-- Settles O15: the head report field by field, with and without a replay latch, a last report and a first fault, and
the range refusal. -/
theorem headQueryReports : Obligations.HeadQueryReports := by
  intro head s acts
  rw [exec_headQuery acts]
  refine ⟨fun h names => ?_, fun out => by rw [headOf_outside out, Option.elim_none]⟩
  rw [headOf_names names, Option.elim_some]
  have field (i : Nat) {o w : Nat} {v u : Int} (at_ : (s.headReportFields h)[i]? = some (w, v)) (same : v = u)
      (ho : (headReportWidths.take i).sum = o := by decide) : Carries (s.headReport h) o w u :=
    same ▸ State.carries_headReport i at_ ho
  have length : (s.headReport h).length = 46 := by
    rw [State.headReport_eq, fieldBytes_length, State.headReportFields_widths]
    rfl
  refine ⟨s.headReport h, rfl, length, field 0 rfl rfl, field 1 rfl rfl,
    fun unlatched => ⟨field 2 rfl ?_, field 4 rfl ?_⟩,
    fun g k latched => ⟨field 2 rfl ?_, field 3 rfl ?_, field 4 rfl ?_⟩, field 5 rfl rfl,
    fun silent => ⟨field 6 rfl ?_, field 7 rfl ?_⟩, fun l reported => ⟨field 6 rfl ?_, field 7 rfl ?_⟩,
    field 8 rfl rfl, field 9 rfl rfl, field 10 rfl rfl, field 11 rfl rfl, field 12 rfl rfl, field 13 rfl rfl,
    field 14 rfl rfl, field 15 rfl rfl, field 16 rfl rfl, field 17 rfl rfl, field 18 rfl rfl, field 19 rfl rfl,
    fun calm => field 20 rfl ?_,
    fun c faulted => ⟨field 20 rfl ?_, fun g segment => field 21 rfl ?_, field 22 rfl ?_, field 23 rfl ?_,
      field 24 rfl ?_, fun e expected => field 25 rfl ?_, fun e measured => field 26 rfl ?_⟩,
    field 27 rfl rfl, field 28 rfl rfl⟩
  · simp [unlatched, boolCode]
  · simp [unlatched]
  · simp [latched, boolCode]
  · simp [latched]
  · simp [latched]
  · exact State.headFlags_silent silent
  · simp [silent, needleNumber]
  · exact State.headFlags_reported reported
  · simp [reported]
  · simp [calm]
  · simp [faulted]
  · simp [faulted, segment]
  · simp [faulted]
  · simp [faulted]
  · simp [faulted]
  · simp [faulted, expected]
  · simp [faulted, measured]

/-! ## HEAD_CLEAR and HEAD_BOBBIN (R113, R124) -/

/-- The state with the counters and the fault fields of a head cleared (R113). -/
def State.headCleared (s : State) (h : HeadId) : State :=
  (s.setHead h { s.head h with sewn := 0, sewnRepair := 0 }).setFaultHead h ⟨none, none, 0, false⟩

/-- The state with a new bobbin in a head (R124). -/
def State.bobbinSet (s : State) (h : HeadId) (length : Nat) : State :=
  s.setMeter h { s.meter h with bobbin := length, lowArmed := true, bobbinAbsent := 0 }

theorem exec_headClear (acts : Acts s) : exec (.headClear head) s =
    .next ((headOf head).elim (refused .badArgument s) fun h => done [] (s.headCleared h)) := by
  show execHeadClear head s = _
  unfold execHeadClear
  rw [whenOperating_of_acts acts]
  cases headOf head <;> rfl

theorem exec_headBobbin (acts : Acts s) (length : BitVec 24) : exec (.headBobbin head length) s =
    .next ((headOf head).elim (refused .badArgument s) fun h => done [] (s.bobbinSet h length.toNat)) := by
  show execHeadBobbin head length s = _
  unfold execHeadBobbin
  rw [whenOperating_of_acts acts]
  cases headOf head <;> rfl

theorem State.headCleared_head (g : HeadId) : (s.headCleared h).head g =
    if g = h then { s.head h with sewn := 0, sewnRepair := 0 } else s.head g :=
  s.head_setHead h g _

theorem State.headCleared_faultHead (g : HeadId) : (s.headCleared h).faultHead g =
    if g = h then ⟨none, none, 0, false⟩ else s.faultHead g :=
  State.faultHead_setFaultHead _ h g _

/-! ## HEAD_REJOIN (R105) -/

/-- The refusals of HEAD_REJOIN in their order. -/
def State.rejoinRefusals (s : State) (h : HeadId) : List (Bool × Reason) :=
  [(!s.jobOpen, .noJob), ((s.head h).state.busyToRejoin, .busy)]

theorem exec_headRejoin (acts : Acts s) : exec (.headRejoin head) s =
    .next ((headOf head).elim (refused .badArgument s) fun h =>
      s.unless (s.rejoinRefusals h) fun s => done [] (s.rejoinHead h)) := by
  show execHeadRejoin head s = _
  unfold execHeadRejoin
  rw [whenOperating_of_acts acts]
  cases headOf head <;> rfl

theorem HeadState.busyToRejoin_iff (st : HeadState) :
    st.busyToRejoin = true ↔ st = .excluded ∨ st = .active ∨ ∃ b, st = .shifting b := by
  cases st <;> simp [HeadState.busyToRejoin]

theorem HeadState.not_busyToRejoin (st : HeadState) :
    st.busyToRejoin = false ↔ st = .off ∨ st = .rejoinWait ∨ st = .benched := by
  cases st <;> simp [HeadState.busyToRejoin]

theorem State.rejoinHead_shape (s : State) (h : HeadId) : s.rejoinHead h =
    { s with hs := { s.hs with heads := (s.rejoinHead h).hs.heads }, tm := (s.rejoinHead h).tm } := by
  unfold State.rejoinHead
  cases (s.head h).state <;> rfl

/-- A head that may rejoin waits for it, with the storm of a BENCHED one cleared (R105, R128). -/
theorem State.rejoinHead_eq (may : (s.head h).state.busyToRejoin = false) : s.rejoinHead h =
    (s.setHead h { s.head h with state := .rejoinWait }).setMeter h
      (if (s.head h).state = .benched then { s.meter h with storm := 0, stormLeak := 0 } else s.meter h) := by
  have same (x : HeadRecord) : (s.setHead h x).setMeter h (s.meter h) = s.setHead h x :=
    (s.setHead h x).setMeter_same h
  unfold State.rejoinHead
  rcases (s.head h).state.not_busyToRejoin.1 may with off | waiting | benched
  · rw [off, if_neg nofun, same]
    rfl
  · rw [waiting, if_neg nofun, same]
    have there : s.head h = { s.head h with state := .rejoinWait } := by rw [← waiting]
    rw [← there]
    exact (s.setHead_same h).symm
  · rw [benched, if_pos rfl]
    rfl

/-- Settles O22: each request carried out on the head it names and on no other, and its refusals. -/
theorem headClearBobbinAndRejoin : Obligations.HeadClearBobbinAndRejoin := by
  refine ⟨fun head s acts => ?_, fun head length s acts => ?_, fun head s acts => ?_⟩
  · rw [exec_headClear acts]
    refine ⟨fun out => by rw [headOf_outside out, Option.elim_none], fun h names => ?_⟩
    rw [headOf_names names, Option.elim_some]
    exact ⟨s.headCleared h, rfl, rfl, (State.headCleared_head h).trans (if_pos rfl),
      (State.headCleared_faultHead h).trans (if_pos rfl), fun g other =>
        ⟨(State.headCleared_head g).trans (if_neg other), (State.headCleared_faultHead g).trans (if_neg other)⟩⟩
  · rw [exec_headBobbin acts]
    refine ⟨fun out => by rw [headOf_outside out, Option.elim_none], fun h names => ?_⟩
    rw [headOf_names names, Option.elim_some]
    exact ⟨s.bobbinSet h length.toNat, rfl, rfl, s.meter_setMeter_self h _,
      fun g other => (s.meter_setMeter h g _).trans (if_neg other)⟩
  · rw [exec_headRejoin acts]
    refine ⟨fun out => by rw [headOf_outside out, Option.elim_none], fun h names => ?_⟩
    rw [headOf_names names, Option.elim_some]
    refine ⟨fun idle => ?_, fun job busy => ?_, fun job may => ?_⟩
    · rw [State.unless_refused]
      simp [State.rejoinRefusals, State.jobOpen, idle]
    · rw [State.unless_refused]
      simp [State.rejoinRefusals, State.jobOpen, job, (HeadState.busyToRejoin_iff _).2 busy]
    · have free := (HeadState.not_busyToRejoin _).2 may
      have rejoins := State.rejoinHead_eq free
      refine ⟨s.rejoinHead h, ?_, s.rejoinHead_shape h, ?_, ?_, fun g other => ?_⟩
      · rw [State.unless_carriedOut]
        simp [State.rejoinRefusals, State.jobOpen, job, free]
      · rw [rejoins]
        exact s.head_setHead_self h _
      · rw [rejoins]
        exact State.meter_setMeter_self _ h _
      · rw [rejoins]
        exact ⟨(s.head_setHead h g _).trans (if_neg other), (State.meter_setMeter _ h g _).trans (if_neg other)⟩

end Sys2Proof.Machine
end

section
/-! PROOF. STANDSTILL_EXCHANGE (R100) and REPORT_DUE (R101): the exchange at standstill, the silence run of a report that
did not come, and the resolution of HEAD_SILENT by the defaults (R134 to R136, R140, R146). -/

open Sys2Proof.Claims

namespace Sys2Proof.Machine

variable {s t : State} {h : HeadId}

/-! ## STANDSTILL_EXCHANGE (R100) -/

theorem exec_standstillExchange (acts : Acts s) : exec .standstillExchange s =
    .next (if s.mp.mode = .running then s else s.exchange false 0 none) := by
  show execStandstillExchange s = _
  unfold execStandstillExchange
  rw [whenOperating_of_acts acts]

/-- Settles O49: nothing while RUNNING, and otherwise the exchange that latches no head. -/
theorem standstillExchangePolls : Obligations.StandstillExchangePolls := by
  intro s acts
  rw [exec_standstillExchange acts]
  exact ⟨fun running => by rw [if_pos running],
    fun apart => ⟨s.exchange false 0 none, by rw [if_neg apart], s.exchange_allUp false⟩⟩

/-! ## The due time with no report (R101) -/

/-- The silence run once one more report has not come (R101). -/
def HeadRecord.silence (r : HeadRecord) : Nat := min (r.silentRun + 1) 255

/-- A missed report raises HEAD_SILENT: the run is long enough, and has not raised it yet (R101). -/
def State.raisesSilent (s : State) (h : HeadId) : Bool :=
  decide (s.par.silentRun ≤ (s.head h).silence) && !(s.head h).silentRaised

/-- The state once an awaited report of a head has not come (R101). -/
def State.missed (s : State) (h : HeadId) : State :=
  let r := s.head h
  s.setHead h { r with awaiting := false, silentRun := r.silence, silentRaised := r.silentRaised || s.raisesSilent h }

theorem State.missReport_eq : s.missReport h =
    if s.raisesSilent h = true then (s.missed h).resolveGroup h [s.supervisorContext .headSilent] else s.missed h := rfl

theorem State.raisesSilent_iff : s.raisesSilent h = true ↔
    s.par.silentRun ≤ (s.head h).silence ∧ (s.head h).silentRaised = false := by
  simp [State.raisesSilent]

/-- A run that is long enough has raised HEAD_SILENT, by this report or by one before it. -/
theorem State.missed_head_self : (s.missed h).head h = { s.head h with
    awaiting := false, silentRun := (s.head h).silence
    silentRaised := (s.head h).silentRaised || decide (s.par.silentRun ≤ (s.head h).silence) } := by
  have raised : ((s.head h).silentRaised || s.raisesSilent h) =
      ((s.head h).silentRaised || decide (s.par.silentRun ≤ (s.head h).silence)) := by
    unfold State.raisesSilent
    cases (s.head h).silentRaised <;> simp
  rw [State.missed, State.head_setHead_self, raised]

theorem State.missed_others {g : HeadId} (other : g ≠ h) : (s.missed h).head g = s.head g :=
  (s.head_setHead h g _).trans (if_neg other)

theorem State.supervisorContext_kind (k : FaultKind) : (s.supervisorContext k).kind = k := by
  unfold State.supervisorContext
  split <;> rfl

/-- A controller at rest in the round makes no transition of its own. -/
theorem State.microStep_rest (rest : s.pc.phase = .rest) : s.microStep = none := by
  unfold State.microStep
  rw [rest]

theorem State.missed_waits (waits : Waits s) : Waits (s.missed h) := State.waits_of waits rfl rfl rfl rfl rfl

/-! ## REPORT_DUE (R101) -/

theorem State.awaits_iff : s.awaits h = true ↔ (s.head h).state ≠ .excluded ∧ (s.head h).awaiting = true := by
  rw [State.awaits, Bool.and_eq_true, State.polled_iff]

theorem exec_reportDue_idle (acts : Acts s) (idle : ¬ ((s.head h).state ≠ .excluded ∧ (s.head h).awaiting = true)) :
    exec (.reportDue h) s = .next s := by
  show execReportDue h s = _
  unfold execReportDue
  rw [whenOperating_of_acts acts, if_neg (mt State.awaits_iff.1 idle)]

theorem exec_reportDue (acts : Acts s) (awaited : (s.head h).state ≠ .excluded ∧ (s.head h).awaiting = true) :
    exec (.reportDue h) s = .next (s.missReport h).drive := by
  show execReportDue h s = _
  unfold execReportDue
  rw [whenOperating_of_acts acts, if_pos (State.awaits_iff.2 awaited)]

/-! ## One fault taken (R134 to R136, R139) -/

/-- A group of one fault whose kind is taken: its record, and the effects of its adjusted resolution. -/
theorem State.resolveGroup_single {c : FaultContext} (taken : s.takes c.kind = true) : s.resolveGroup h [c] =
    let d := s.completed c
    (s.setFaultHead h ((s.faultHead h).record (kindInSet s.fr.countSelect d.kind) d)).applyGroup h d
      (adjust d.kind (resolveFault s.fr.rules.toList h d s.mp.spindle (s.faultHead h).count)) := by
  have group : [c].filter (fun c => s.takes c.kind) = [c] := by simp [taken]
  unfold State.resolveGroup
  rw [group]
  rfl

theorem State.completed_idle {c : FaultContext} (idle : s.ts.working = none) : s.completed c = c := by
  unfold State.completed
  rw [idle]
  cases c.segment <;> rfl

/-- Rules that enable no action leave a fault to the built-in default (R136, R139). -/
theorem resolveFault_default {rules : List PolicyRule} (disabled : ∀ r ∈ rules, r = PolicyRule.disabled)
    (c : FaultContext) (speed count : Nat) : resolveFault rules h c speed count = c.kind.default := by
  have none_ {p : PolicyRule → Bool} (off : p PolicyRule.disabled = false) :
      (rules.filter fun r => r.applies h c speed count).find? p = none := by
    refine List.find?_eq_none.2 fun r there => ?_
    rw [disabled r (List.mem_of_mem_filter there), off]
    exact Bool.false_ne_true
  have search {α : Type} (pick : PolicyRule → Action α) (off : (pick PolicyRule.disabled).enabled = false) (d : α) :
      searchAction pick (rules.filter fun r => r.applies h c speed count) d = d := by
    rw [searchAction, none_ off]
  have cap : searchCap (rules.filter fun r => r.applies h c speed count) = none := by rw [searchCap, none_ rfl]
  unfold resolveFault
  dsimp only
  rw [cap, search _ rfl, search _ rfl, search _ rfl, search _ rfl]
  cases c.kind <;> rfl

/-- The adjusted default of HEAD_SILENT: severity MACHINE makes it a hold (R136, R140). -/
def machineHold : Resolution := ⟨.hold, 0, .operator, none, .machine, false⟩

/-- A hold that names no segment has nothing to account for and nothing to halt in STANDBY (R144). -/
theorem State.accountGroup_hold_standby {c : FaultContext} (segment : c.segment = none) (standby : s.pc.state = .standby)
    (wasIn : Bool) : s.accountGroup h c machineHold wasIn = s := by
  unfold State.accountGroup
  rw [segment]
  unfold State.takeHold
  dsimp only [machineHold]
  rw [standby]

/-- Such a hold on an ACTIVE head puts it out and raises FAULT (R104, R145). -/
theorem State.applyGroup_hold_standby {c : FaultContext} (segment : c.segment = none) (standby : s.pc.state = .standby)
    (active : (s.head h).state = .active) : s.applyGroup h c machineHold =
      (s.setHead h { s.head h with state := .off, rejoin := .operator }).raise .fault := by
  have out : s.putHeadOut h false .operator = s.setHead h { s.head h with state := .off, rejoin := .operator } := by
    unfold State.putHeadOut
    rw [active]
    rfl
  have effects : s.applyGroup h c machineHold = ((s.putHeadOut h false .operator).accountGroup h c machineHold
      (s.polled h && !s.isOut h)).raise .fault := rfl
  rw [effects, out]
  exact congrArg (State.raise .fault) (State.accountGroup_hold_standby (s := s.setHead h _) segment standby _)

/-- HEAD_SILENT with no pass being sewn. -/
def silentContext : FaultContext := ⟨.headSilent, none, none, none, none, none, none⟩

/-- The state once HEAD_SILENT has been recorded and has put its head out. -/
def State.silenced (s : State) (h : HeadId) : State :=
  ((s.setFaultHead h ((s.faultHead h).record (kindInSet s.fr.countSelect .headSilent) silentContext)).setHead h
    { s.head h with state := .off, rejoin := .operator }).raise .fault

theorem State.silenced_head (g : HeadId) : (s.silenced h).head g =
    if g = h then { s.head h with state := .off, rejoin := .operator } else s.head g :=
  State.head_setHead _ h g _

theorem State.silenced_faultHead (g : HeadId) : (s.silenced h).faultHead g =
    if g = h then (s.faultHead h).record (kindInSet s.fr.countSelect .headSilent) silentContext else s.faultHead g :=
  s.faultHead_setFaultHead h g _

/-- The four fault fields of a head after a fault (R146). -/
theorem FaultHead.record_eq (f : FaultHead) (counted : Bool) (c : FaultContext) : f.record counted c =
    { first := if f.first = none then some c else f.first, latest := some c.kind
      count := if counted = true ∧ f.count < 127 then f.count + 1 else f.count
      overflow := f.overflow || decide (counted = true ∧ 127 ≤ f.count) } := by
  unfold FaultHead.record
  cases f.first <;> cases counted <;> simp

/-- HEAD_SILENT taken with no rule to match, on an ACTIVE head in STANDBY: recorded, the head OFF in mode OPERATOR, FAULT
raised. -/
theorem State.resolveGroup_silent (taken : s.takes .headSilent = true) (idle : s.ts.working = none)
    (disabled : ∀ i : Fin 32, s.fr.rules[i] = PolicyRule.disabled) (standby : s.pc.state = .standby)
    (active : (s.head h).state = .active) : s.resolveGroup h [silentContext] = s.silenced h := by
  have rules : ∀ r ∈ s.fr.rules.toList, r = PolicyRule.disabled := fun r there => by
    obtain ⟨i, small, at_⟩ := Vector.getElem_of_mem (Vector.mem_toList_iff.1 there)
    exact at_ ▸ disabled ⟨i, small⟩
  have resolution : adjust silentContext.kind silentContext.kind.default = machineHold := by decide
  rw [State.resolveGroup_single taken, State.completed_idle idle]
  dsimp only
  rw [resolveFault_default rules, resolution]
  exact State.applyGroup_hold_standby rfl standby active

/-- Settles O52: nothing awaited, the silence run with no fault taken, the fault raised, and its resolution in STANDBY. -/
theorem reportDueRaisesSilence : Obligations.ReportDueRaisesSilence := by
  intro h s acts
  dsimp only
  have others (g : HeadId) (other : g ≠ h) :
      (s.missed h).head g = s.head g ∧ (s.missed h).faultHead g = s.faultHead g := ⟨State.missed_others other, rfl⟩
  refine ⟨exec_reportDue_idle acts, fun awaited waits calm => ?_, fun c awaited raises context => ?_,
    fun awaited raises enabled standby rest point idle active disabled => ?_⟩
  · have missed : s.missReport h = s.missed h := by
      rw [State.missReport_eq]
      refine ite_eq_right_iff.2 fun raises => State.resolveGroup_discarded (List.forall_mem_singleton.2 ?_)
      have off := calm.resolve_left (not_not.2 (State.raisesSilent_iff.1 raises))
      rw [State.supervisorContext_kind]
      exact Bool.eq_false_iff.2 off
    refine ⟨s.missed h, ?_, rfl, State.missed_head_self, others⟩
    rw [exec_reportDue acts awaited, missed, State.drive_waits (State.missed_waits waits)]
  · refine ⟨s.missed h, rfl, State.missed_head_self, others, ?_⟩
    rw [exec_reportDue acts awaited, State.missReport_eq, if_pos (State.raisesSilent_iff.2 raises),
      State.supervisorContext_eq context]
  · have context : s.supervisorContext .headSilent = silentContext := by
      unfold State.supervisorContext State.passSewn
      rw [rest]
      rfl
    have missedActive : ((s.missed h).head h).state = .active := by rw [State.missed_head_self]; exact active
    have resolved := State.resolveGroup_silent (s := s.missed h) enabled idle disabled standby missedActive
    rw [exec_reportDue acts awaited, State.missReport_eq, if_pos (State.raisesSilent_iff.2 raises), context, resolved,
      State.drive_waits (State.microStep_rest (s := (s.missed h).silenced h) rest)]
    refine ⟨(s.missed h).silenced h, rfl, rfl, ?_, fun g other => ?_, ?_⟩
    · rw [State.silenced_head, if_pos rfl, State.missed_head_self]
      rfl
    · rw [State.silenced_head, if_neg other, State.silenced_faultHead, if_neg other]
      exact others g other
    · rw [State.silenced_faultHead, if_pos rfl, FaultHead.record_eq]
      rfl

end Sys2Proof.Machine
end

section
/-! PROOF. Records retired (R16, R149, R164): what one retirement does to its segment, and the records of a list retired
one after the other. -/

open Sys2Proof.Claims

namespace Sys2Proof.Machine

variable {s : State} {r : RepairRecord}

/-! ## One record retired (R16, R149) -/

/-- A record in the place of its own, with other pins, is as sound as it was. -/
theorem State.putSeg_pins_sound (sound : s.ds.Sound) {q : SegRecord} (mem : q ∈ s.ds.segs) (p : Nat) :
    (s.putSeg { q with pins := p }).ds.Sound := by
  obtain ⟨-, -, -, pages⟩ := id sound
  exact Store.Sound.put sound mem rfl rfl rfl rfl (pages q mem).2

theorem State.findSeg_putSeg_pins (sound : s.ds.Sound) {n : Nat} {q : SegRecord} (there : s.findSeg n = some q) (p : Nat) :
    (s.putSeg { q with pins := p }).findSeg n = some { q with pins := p } := by
  obtain ⟨mem, -⟩ := State.findSeg_mem there
  obtain ⟨-, -, -, pages⟩ := id sound
  exact (State.findSeg_putSeg (r' := { q with pins := p }) sound there rfl rfl rfl rfl (pages q mem).2).1

/-- A release is one pin less, with the segment freed where that was the last of a SEWN one that is not served. -/
theorem State.release_eq (sound : s.ds.Sound) {n : Nat} {q : SegRecord} (there : s.findSeg n = some q) : s.release n =
    let t := s.putSeg { q with pins := q.pins - 1 }
    if q.state = .sewn ∧ q.pins - 1 = 0 ∧ s.ds.served ≠ some n then t.freeSeg { q with pins := q.pins - 1 } else t := by
  unfold State.release State.freeIfDone
  rw [there]
  dsimp only
  rw [State.findSeg_putSeg_pins sound there]
  rfl

theorem State.retire_sound (sound : s.ds.Sound) (r : RepairRecord) : (s.retire r).ds.Sound := by
  obtain ⟨-, -, -, -, -, -, kept⟩ :=
    State.release_keeps { s with rt := { s.rt with records := s.rt.records.filter (·.slot != r.slot) } } r.segment
  exact kept sound

/-- The records that stay when one leaves its slot. -/
theorem filter_slot_eq (l : List RepairRecord) (n : Nat) :
    l.filter (·.slot != n) = l.filter fun q => decide (q.slot ≠ n) :=
  List.filter_congr fun q _ => by rw [Bool.eq_iff_iff]; simp

theorem State.retire_shape (s : State) (r : RepairRecord) : s.retire r = { s with
    rt := { s.rt with records := s.rt.records.filter fun q => decide (q.slot ≠ r.slot) }
    ds := { s.ds with segs := (s.retire r).ds.segs, pool := (s.retire r).ds.pool
                      loadWant := (s.retire r).ds.loadWant } } := by
  rw [← filter_slot_eq]
  unfold State.retire State.release
  split
  · rw [State.freeIfDone_shape]
    rfl
  · rfl

/-- A record retired as the statements tell it. -/
theorem State.retire_retired (sound : s.ds.Sound) (r : RepairRecord) : Retired s (s.retire r) r := by
  generalize hv : ({ s with rt := { s.rt with records := s.rt.records.filter (·.slot != r.slot) } } : State) = v
  have retire : s.retire r = v.release r.segment := by rw [← hv]; rfl
  have ds : v.ds = s.ds := by rw [← hv]
  have same : v.pc = s.pc ∧ v.par = s.par := by rw [← hv]; exact ⟨rfl, rfl⟩
  have find (m : Nat) : v.findSeg m = s.findSeg m := State.findSeg_congr (by rw [ds]) m
  refine ⟨s.retire_shape r, fun m other => ?_, fun q there => ?_⟩
  · rw [retire, ← find]
    cases there : v.findSeg r.segment with
    | none => rw [State.release, there]
    | some q =>
      obtain ⟨others, -⟩ := State.release_findSeg (ds ▸ sound) there
      exact others m other
  · have found := (find _).trans there
    have vSound : v.ds.Sound := ds ▸ sound
    obtain ⟨mem, -⟩ := State.findSeg_mem found
    have put := State.putSeg_pins_sound vSound mem (q.pins - 1)
    have own := State.findSeg_putSeg_pins vSound found (q.pins - 1)
    rw [retire, State.release_eq vSound found]
    dsimp only
    rw [← ds]
    refine ⟨fun ⟨sewn, last, unserved⟩ => ?_, fun stays => ?_⟩
    · rw [if_pos ⟨sewn, by omega, unserved⟩]
      obtain ⟨gone, -⟩ := State.findSeg_freeSeg put own
      refine ⟨gone, .refl _, ?_⟩
      exact LoadWantFollows.of_evaluated (u := { v.putSeg { q with pins := q.pins - 1 } with ds :=
        { (v.putSeg { q with pins := q.pins - 1 }).ds with
          segs := (v.putSeg { q with pins := q.pins - 1 }).ds.segs.filter (·.slot != q.slot)
          pool := v.ds.pool ++ q.pages } }) rfl rfl rfl rfl rfl rfl
    · rw [if_neg fun ⟨sewn, last, unserved⟩ => stays ⟨sewn, by omega, unserved⟩]
      exact ⟨own, rfl, rfl⟩

/-! ## The records of a list retired (R163, R164) -/

theorem State.retireAll_cons (s : State) (r : RepairRecord) (l : List RepairRecord) :
    s.retireAll (r :: l) = (s.retire r).retireAll l := rfl

theorem State.retireAll_sound (sound : s.ds.Sound) (l : List RepairRecord) : (s.retireAll l).ds.Sound := by
  induction l generalizing s with
  | nil => exact sound
  | cons r l ih => exact ih (State.retire_sound sound r)

/-- Retirements change the records and the segments they pin alone. -/
theorem State.retireAll_shape (s : State) (l : List RepairRecord) : s.retireAll l = { s with
    rt := { s.rt with records := s.rt.records.filter fun q => decide (∀ x ∈ l, x.slot ≠ q.slot) }
    ds := { s.ds with segs := (s.retireAll l).ds.segs, pool := (s.retireAll l).ds.pool
                      loadWant := (s.retireAll l).ds.loadWant } } := by
  induction l generalizing s with
  | nil =>
    have all : (s.rt.records.filter fun q => decide (∀ x ∈ ([] : List RepairRecord), x.slot ≠ q.slot)) =
        s.rt.records := by simp
    rw [all]
    rfl
  | cons r l ih =>
    have records : (s.rt.records.filter fun q => decide (∀ x ∈ r :: l, x.slot ≠ q.slot)) =
        (s.rt.records.filter fun q => decide (q.slot ≠ r.slot)).filter fun q => decide (∀ x ∈ l, x.slot ≠ q.slot) := by
      rw [List.filter_filter]
      refine List.filter_congr fun q _ => ?_
      rw [← Bool.decide_and, decide_eq_decide, List.forall_mem_cons, and_comm]
      exact and_congr_right fun _ => ne_comm
    rw [State.retireAll_cons, records]
    generalize hu : (s.retire r).retireAll l = u
    have shape := ih (s.retire r)
    rw [hu, s.retire_shape r] at shape
    exact shape

/-- The records of a list retired as the statements tell it. -/
theorem State.retireAll_retired (sound : s.ds.Sound) (l : List RepairRecord) : RetiredAll s (s.retireAll l) l := by
  refine ⟨fun i => s.retireAll (l.take i), rfl, congrArg s.retireAll List.take_length, fun i r at_ => ?_⟩
  have next : s.retireAll (l.take (i + 1)) = (s.retireAll (l.take i)).retire r := by
    rw [List.take_add_one, at_, State.retireAll, List.foldl_append]
    rfl
  dsimp only
  rw [next]
  exact State.retire_retired (State.retireAll_sound sound _) r

/-- A segment that none of the records names is found as before. -/
theorem State.retireAll_unnamed (sound : s.ds.Sound) {l : List RepairRecord} {m : Nat} (unnamed : ∀ r ∈ l, r.segment ≠ m) :
    (s.retireAll l).findSeg m = s.findSeg m := by
  induction l generalizing s with
  | nil => rfl
  | cons r l ih =>
    obtain ⟨first, rest⟩ := List.forall_mem_cons.1 unnamed
    obtain ⟨-, others, -⟩ := State.retire_retired sound r
    rw [State.retireAll_cons, ih (State.retire_sound sound r) rest]
    exact others m first.symm

/-- The pins follow the retirements of records of the table. -/
theorem State.retireAll_follows (sound : s.ds.Sound) (pinned : s.Pinned) {l : List RepairRecord}
    (sub : l.Sublist s.rt.records) : Follows s (s.retireAll l) := by
  induction l generalizing s with
  | nil => exact Follows.refl sound pinned
  | cons r l ih =>
    obtain ⟨slots, -⟩ := id pinned
    obtain ⟨below, -⟩ := List.pairwise_cons.1 (slots.sublist (sub.map _))
    have follows := State.retire_follows sound pinned (sub.subset List.mem_cons_self)
    have apart : l.filter (·.slot != r.slot) = l := List.filter_eq_self.2 fun x there =>
      bne_iff_ne.2 (below x.slot (List.mem_map_of_mem there)).ne'
    have rest : l.Sublist (s.retire r).rt.records := by
      rw [State.retire_records, ← apart]
      exact ((List.sublist_cons_self r l).trans sub).filter _
    exact follows.trans (ih follows.sound follows.pinned rest)

/-- No record names a segment that has no pin (R149). -/
theorem State.unnamed_of_unpinned (pinned : s.Pinned) {m : Nat} {q : SegRecord} (there : s.findSeg m = some q)
    (unpinned : q.pins = 0) : ∀ r ∈ s.rt.records, r.segment ≠ m := by
  obtain ⟨mem, number⟩ := State.findSeg_mem there
  obtain ⟨-, -, counts⟩ := pinned
  have empty : s.rt.records.filter (·.segment == q.number) = [] :=
    List.length_eq_zero_iff.1 ((counts q mem).1.symm.trans unpinned)
  exact fun r listed named => List.filter_eq_nil_iff.1 empty r listed (beq_iff_eq.2 (named.trans number.symm))

/-- A segment once records of the table have been retired: its pins are the records that still name it, and a SEWN one
that is not served has been freed with its last. -/
theorem State.retireAll_segment (sound : s.ds.Sound) (pinned : s.Pinned) {l : List RepairRecord}
    (sub : l.Sublist s.rt.records) {m : Nat} {q : SegRecord} (there : s.findSeg m = some q) :
    let t := s.retireAll l
    let left := (t.rt.records.filter fun r => decide (r.segment = m)).length
    let freed := q.state = .sewn ∧ s.ds.served ≠ some m ∧ 0 < q.pins ∧ left = 0
    (freed → t.findSeg m = none) ∧ (¬ freed → t.findSeg m = some { q with pins := left }) := by
  intro t left freed
  have follows := State.retireAll_follows sound pinned sub
  have count (x : SegRecord) (found : t.findSeg m = some x) : x.pins = left := by
    obtain ⟨mem, number⟩ := State.findSeg_mem found
    obtain ⟨-, -, counts⟩ := follows.pinned
    rw [(counts x mem).1, number]
    exact congrArg List.length (List.filter_congr fun r _ => by rw [Bool.eq_iff_iff]; simp)
  rcases follows.segment m q there with ⟨p, stands, pins⟩ | ⟨gone, sewn, unserved⟩
  · have same : p = left := count _ stands
    refine ⟨fun ⟨sewn, unserved, pin, none_⟩ => ?_, fun _ => same ▸ stands⟩
    exact absurd (pins sewn unserved pin) (by omega)
  · refine ⟨fun _ => gone, fun open_ => absurd ?_ open_⟩
    have unnamed : left = 0 := by
      refine List.length_eq_zero_iff.2 (List.filter_eq_nil_iff.2 fun r mem named => ?_)
      obtain ⟨-, present, -⟩ := follows.pinned
      obtain ⟨-, x, there', number⟩ := present r mem
      exact State.number_ne_of_absent gone x there' (number.trans (of_decide_eq_true named))
    refine ⟨sewn, unserved, Nat.pos_of_ne_zero fun none_ => ?_, unnamed⟩
    have others : t.findSeg m = s.findSeg m := State.retireAll_unnamed sound fun r listed =>
      State.unnamed_of_unpinned pinned there none_ r (sub.subset listed)
    rw [gone, there] at others
    cases others

end Sys2Proof.Machine
end

section
/-! PROOF. HEAD_MODE (R111, R164): the refusals, a head included, and a head excluded with its records and their pins. -/

open Sys2Proof.Claims

namespace Sys2Proof.Machine

variable {s : State} {head mode : Byte} {h : HeadId}

/-! ## Sets of heads -/

theorem inSet_single (h g : HeadId) : inSet (single h) g = decide (g = h) := by
  have power : inSet (single h) g = (BitVec.twoPow 16 h.val).getLsbD g.val := rfl
  rw [power, BitVec.getLsbD_twoPow]
  simp [Fin.ext_iff, eq_comm]

theorem inSet_without (a : HeadSet) (h g : HeadId) : inSet (a &&& ~~~ (single h)) g = (inSet a g && decide (g ≠ h)) := by
  have flip : inSet (~~~ (single h)) g = !inSet (single h) g := by simp [inSet]
  have both : inSet (a &&& ~~~ (single h)) g = (inSet a g && inSet (~~~ (single h)) g) := BitVec.getLsbD_and
  rw [both, flip, inSet_single, decide_not]

/-- A head is alone in the job. -/
theorem eq_single_iff (a : HeadSet) (h : HeadId) : a = single h ↔ ∀ g, inSet a g = true ↔ g = h := by
  have one (g : HeadId) : inSet (single h) g = true ↔ g = h := by rw [inSet_single, decide_eq_true_iff]
  exact ⟨fun e g => e ▸ one g, fun alone => headSet_ext fun g => (alone g).trans (one g).symm⟩

/-! ## The job with other heads -/

theorem State.setJobHeads_jobHeads (job : s.pc.job.isSome = true) (x : HeadSet) : (s.setJobHeads x).jobHeads = x := by
  obtain ⟨j, open_⟩ := Option.isSome_iff_exists.1 job
  simp [State.jobHeads, State.setJobHeads, open_]

theorem State.loadWantNow_setJobHeads (s : State) (x : HeadSet) : (s.setJobHeads x).loadWantNow = s.loadWantNow := by
  have count : (s.setJobHeads x).segmentCount = s.segmentCount := by
    unfold State.segmentCount State.setJobHeads
    cases s.pc.job <;> rfl
  have ahead : (s.setJobHeads x).readyAhead = s.readyAhead := State.readyAhead_congr rfl rfl
  have wanted : (s.setJobHeads x).nextWanted = s.nextWanted := State.nextWanted_congr rfl rfl
  have open_ : (s.setJobHeads x).jobOpen = s.jobOpen := rfl
  unfold State.loadWantNow
  rw [count, ahead, wanted, open_]
  rfl

theorem State.evalLoad_setJobHeads (s : State) (x : HeadSet) : (s.setJobHeads x).evalLoad = s.evalLoad.setJobHeads x := by
  unfold State.evalLoad
  rw [State.loadWantNow_setJobHeads]
  rfl

/-- The Design Store frees a segment with no regard to the heads of the job. -/
theorem State.freeSeg_setJobHeads (s : State) (x : HeadSet) (r : SegRecord) :
    (s.setJobHeads x).freeSeg r = (s.freeSeg r).setJobHeads x :=
  State.evalLoad_setJobHeads { s with ds := { s.ds with
    segs := s.ds.segs.filter (·.slot != r.slot), pool := s.ds.pool ++ r.pages } } x

theorem State.freeIfDone_setJobHeads (s : State) (x : HeadSet) (n : Nat) :
    (s.setJobHeads x).freeIfDone n = (s.freeIfDone n).setJobHeads x := by
  have found : (s.setJobHeads x).findSeg n = s.findSeg n := rfl
  unfold State.freeIfDone
  rw [found]
  cases s.findSeg n with
  | none => rfl
  | some r =>
    dsimp only
    rw [State.freeSeg_setJobHeads, apply_ite (fun t : State => t.setJobHeads x)]
    rfl

theorem State.retire_setJobHeads (s : State) (x : HeadSet) (r : RepairRecord) :
    (s.setJobHeads x).retire r = (s.retire r).setJobHeads x := by
  generalize hv : ({ s with rt := { s.rt with records := s.rt.records.filter (·.slot != r.slot) } } : State) = v
  have before : s.retire r = v.release r.segment := by rw [← hv]; rfl
  have after : (s.setJobHeads x).retire r = (v.setJobHeads x).release r.segment := by rw [← hv]; rfl
  have found : (v.setJobHeads x).findSeg r.segment = v.findSeg r.segment := rfl
  rw [before, after]
  unfold State.release
  rw [found]
  cases v.findSeg r.segment with
  | none => rfl
  | some q => exact State.freeIfDone_setJobHeads (v.putSeg { q with pins := q.pins - 1 }) x r.segment

theorem State.retireAll_setJobHeads (s : State) (x : HeadSet) (l : List RepairRecord) :
    (s.setJobHeads x).retireAll l = (s.retireAll l).setJobHeads x := by
  induction l generalizing s with
  | nil => rfl
  | cons r l ih => rw [State.retireAll_cons, State.retire_setJobHeads, ih, ← State.retireAll_cons]

/-! ## The records of a head (R164) -/

/-- The records of a head. -/
def State.recordsOf (s : State) (h : HeadId) : List RepairRecord := s.rt.records.filter fun r => decide (r.head = h)

theorem State.recordsOf_sublist (s : State) (h : HeadId) : (s.recordsOf h).Sublist s.rt.records := List.filter_sublist

theorem State.retireHead_eq (s : State) (h : HeadId) : s.retireHead h = s.retireAll (s.recordsOf h) := by
  have same : s.rt.records.filter (·.head == h) = s.recordsOf h :=
    List.filter_congr fun q _ => by rw [Bool.eq_iff_iff]; simp
  rw [State.retireHead, same]

/-- The records that stay when those of a head are retired: no slot of theirs is the head's. -/
def State.recordsBut (s : State) (h : HeadId) : List RepairRecord :=
  s.rt.records.filter fun q => decide (∀ x ∈ s.rt.records, x.head = h → x.slot ≠ q.slot)

theorem State.recordsOf_stays (s : State) (h : HeadId) :
    (s.rt.records.filter fun q => decide (∀ x ∈ s.recordsOf h, x.slot ≠ q.slot)) = s.recordsBut h := by
  refine List.filter_congr fun q _ => decide_eq_decide.2 ?_
  simp [State.recordsOf]

/-! ## The unthreaded-head sets that follow the job (R96) -/

theorem State.computeUnthreaded_findSeg (s : State) (m : Nat) :
    s.computeUnthreaded.findSeg m = (s.findSeg m).map s.withUnthreaded := by
  have number (r : SegRecord) : (s.withUnthreaded r).number = r.number := by
    unfold State.withUnthreaded
    split <;> rfl
  rw [State.computeUnthreaded_eq]
  unfold State.findSeg
  rw [List.find?_map]
  refine congrArg _ (List.find?_congr fun r _ => ?_)
  rw [Function.comp_apply, number]

/-- The sets that have followed are those of the state after. -/
theorem SetsFollow.unthreaded {t : State} (follow : SetsFollow s t) :
    ∀ r ∈ t.ds.segs, r.state = .ready → Unthreaded t r.thread r.unthreaded := by
  obtain ⟨length, each, -⟩ := follow
  intro r mem ready
  obtain ⟨i, small, at_⟩ := List.mem_iff_getElem.1 mem
  have before : s.ds.segs[i]? = some (s.ds.segs[i]'(length ▸ small)) := List.getElem?_eq_getElem _
  have after : t.ds.segs[i]? = some r := at_ ▸ List.getElem?_eq_getElem small
  generalize s.ds.segs[i]'(length ▸ small) = q at before
  obtain ⟨apart, computed⟩ := each i q before
  by_cases was : q.state = .ready
  · obtain ⟨u, same, sets⟩ := computed was
    obtain rfl := Option.some.inj (after.symm.trans same)
    exact sets
  · obtain rfl := Option.some.inj (after.symm.trans (apart was))
    exact absurd ready was

/-- What follows reads the segments and the sticky causes of the state before alone. -/
theorem SetsFollow.of_eq {u t : State} (follow : SetsFollow u t) (segs : s.ds.segs = u.ds.segs)
    (sticky : s.rl.sticky = u.rl.sticky) : SetsFollow s t := by
  unfold SetsFollow at *
  rw [segs, sticky]
  exact follow

/-! ## HEAD_MODE (R111) -/

/-- The refusals of HEAD_MODE in their order. -/
def State.modeRefusals (s : State) (h : HeadId) (mode : Byte) : List (Bool × Reason) :=
  [(decide (1 < mode.toNat), .badArgument), (!s.jobOpen, .noJob),
   (s.pc.state != .standby && s.pc.state != .halted, .busy), (mode == 1 && s.jobHeads == single h, .badArgument)]

theorem exec_headMode (acts : Acts s) : exec (.headMode head mode) s =
    .next ((headOf head).elim (refused .badArgument s) fun h => s.unless (s.modeRefusals h mode) fun s =>
      if mode = 1 ∧ inSet s.jobHeads h then done [] (s.excludeHead h)
      else if mode = 0 ∧ ¬ inSet s.jobHeads h then done [] (s.includeHead h)
      else done [] s) := by
  show execHeadMode head mode s = _
  unfold execHeadMode
  rw [whenOperating_of_acts acts]
  cases headOf head <;> rfl

/-- The state with a head included, the sets of the READY segments apart (R111). -/
def State.included (s : State) (h : HeadId) : State :=
  (s.setJobHeads (s.jobHeads ||| single h)).setHead h { s.head h with
    state := if s.pc.state = .standby then .active else .rejoinWait
    silentRun := 0, silentRaised := false, driveSeen := false }

theorem State.includeHead_eq (s : State) (h : HeadId) : s.includeHead h = (s.included h).computeUnthreaded := rfl

/-- The state with a head excluded, the sets of the READY segments apart (R111, R164). -/
def State.excluded (s : State) (h : HeadId) : State :=
  let t := s.retireAll (s.recordsOf h)
  { t with
    pc := { s.pc with job := (s.setJobHeads (s.jobHeads &&& ~~~ (single h))).pc.job
                      faulted := s.pc.faulted.set h none, owedTrims := s.pc.owedTrims &&& ~~~ (single h) }
    hs := (s.setHead h { (s.head h).leaveJob with inTrim := false }).hs
    tm := (s.clearMeter h).tm }

theorem State.excludeHead_eq (s : State) (h : HeadId) : s.excludeHead h = (s.excluded h).computeUnthreaded := by
  have retired : (s.setJobHeads (s.jobHeads &&& ~~~ (single h))).retireHead h =
      (s.retireAll (s.recordsOf h)).setJobHeads (s.jobHeads &&& ~~~ (single h)) := by
    rw [State.retireHead_eq, ← State.retireAll_setJobHeads]
    rfl
  obtain ⟨rt, ds, shape⟩ : ∃ rt ds, s.retireAll (s.recordsOf h) = { s with rt := rt, ds := ds } :=
    ⟨_, _, s.retireAll_shape _⟩
  unfold State.excludeHead State.excluded
  rw [retired, shape]
  rfl

/-- A HEAD_MODE that no refusal stops (R111). -/
theorem exec_headMode_accepted (acts : Acts s) (names : Names head h) (low : mode.toNat ≤ 1)
    (state : s.pc.state = .standby ∨ s.pc.state = .halted)
    (others : ¬ (mode = 1 ∧ ∀ g, inSet s.jobHeads g = true ↔ g = h)) : exec (.headMode head mode) s =
      .next (if mode = 1 ∧ inSet s.jobHeads h then done [] (s.excludeHead h)
        else if mode = 0 ∧ ¬ inSet s.jobHeads h then done [] (s.includeHead h)
        else done [] s) := by
  rw [← eq_single_iff] at others
  have passed : firstReason (s.modeRefusals h mode) = none := by
    rw [firstReason_eq_none]
    rcases state with standby | halted
    · simpa [State.modeRefusals, State.jobOpen, low, standby] using others
    · simpa [State.modeRefusals, State.jobOpen, low, halted] using others
  rw [exec_headMode acts, headOf_names names, Option.elim_some, State.unless_carriedOut passed]

/-- A HEAD_MODE that a refusal stops (R111). -/
theorem exec_headMode_refused (acts : Acts s) (names : Names head h) {why : Reason}
    (first : firstReason (s.modeRefusals h mode) = some why) :
    exec (.headMode head mode) s = .next (refused why s) := by
  rw [exec_headMode acts, headOf_names names, Option.elim_some, State.unless_refused first]

/-! ## A head included (R111) -/

theorem State.jobHeads_congr {t : State} (pc : t.pc = s.pc) : t.jobHeads = s.jobHeads := by
  rw [State.jobHeads, pc]
  rfl

theorem State.computeUnthreaded_pc (s : State) : s.computeUnthreaded.pc = s.pc := by rw [State.computeUnthreaded_shape]

theorem State.computeUnthreaded_hs (s : State) : s.computeUnthreaded.hs = s.hs := by rw [State.computeUnthreaded_shape]

theorem State.computeUnthreaded_tm (s : State) : s.computeUnthreaded.tm = s.tm := by rw [State.computeUnthreaded_shape]

theorem State.computeUnthreaded_rt (s : State) : s.computeUnthreaded.rt = s.rt := by rw [State.computeUnthreaded_shape]

theorem State.includeHead_shape (s : State) (h : HeadId) : s.includeHead h = { s with
    pc := { s.pc with job := (s.includeHead h).pc.job }, hs := { s.hs with heads := (s.includeHead h).hs.heads }
    ds := { s.ds with segs := (s.includeHead h).ds.segs }
    rl := { s.rl with sticky := (s.includeHead h).rl.sticky } } := by
  rw [State.includeHead_eq, State.computeUnthreaded_eq]
  rfl

theorem State.includeHead_setsFollow (s : State) (h : HeadId) : SetsFollow s (s.includeHead h) :=
  SetsFollow.of_eq (s.included h).computeUnthreaded_setsFollow rfl rfl

theorem State.includeHead_jobHeads (job : s.pc.job.isSome = true) (h : HeadId) :
    (s.includeHead h).jobHeads = s.jobHeads ||| single h := by
  rw [State.includeHead_eq, State.jobHeads_congr (State.computeUnthreaded_pc _)]
  exact State.setJobHeads_jobHeads job _

theorem State.includeHead_job (job : s.pc.job.isSome = true) (h : HeadId) :
    (s.includeHead h).pc.job = s.pc.job.map fun j => { j with heads := (s.includeHead h).jobHeads } := by
  rw [State.includeHead_jobHeads job, State.includeHead_eq, State.computeUnthreaded_pc]
  rfl

theorem State.includeHead_head (s : State) (h g : HeadId) : (s.includeHead h).head g = if g = h then
    { s.head h with state := if s.pc.state = .standby then .active else .rejoinWait
                    silentRun := 0, silentRaised := false, driveSeen := false } else s.head g := by
  rw [State.includeHead_eq, State.head_congr (State.computeUnthreaded_hs _)]
  exact State.head_setHead _ h g _

/-! ## A head excluded (R111, R164) -/

/-- The retirements touch the records and their segments alone: the rest is the head's own. -/
theorem State.excluded_retired (s : State) (h : HeadId) :
    (s.excluded h).ds = (s.retireAll (s.recordsOf h)).ds ∧ (s.excluded h).rt = (s.retireAll (s.recordsOf h)).rt ∧
      (s.excluded h).rl = s.rl := by
  refine ⟨rfl, rfl, ?_⟩
  show (s.retireAll (s.recordsOf h)).rl = s.rl
  rw [State.retireAll_shape]

theorem State.excludeHead_shape (s : State) (h : HeadId) : s.excludeHead h = { s with
    pc := { s.pc with job := (s.excludeHead h).pc.job, faulted := (s.excludeHead h).pc.faulted
                      owedTrims := (s.excludeHead h).pc.owedTrims }
    hs := { s.hs with heads := (s.excludeHead h).hs.heads }, tm := (s.excludeHead h).tm
    rt := { s.rt with records := s.recordsBut h }
    ds := { s.ds with segs := (s.excludeHead h).ds.segs, pool := (s.excludeHead h).ds.pool
                      loadWant := (s.excludeHead h).ds.loadWant }
    rl := { s.rl with sticky := (s.excludeHead h).rl.sticky } } := by
  obtain ⟨segs, pool, load, shape⟩ : ∃ segs pool load, s.retireAll (s.recordsOf h) = { s with
      rt := { s.rt with records := s.recordsBut h }
      ds := { s.ds with segs := segs, pool := pool, loadWant := load } } :=
    ⟨_, _, _, s.recordsOf_stays h ▸ s.retireAll_shape _⟩
  rw [State.excludeHead_eq, State.computeUnthreaded_eq]
  unfold State.excluded
  rw [shape]
  rfl

theorem State.excludeHead_jobHeads (job : s.pc.job.isSome = true) (h : HeadId) :
    (s.excludeHead h).jobHeads = s.jobHeads &&& ~~~ (single h) := by
  rw [State.excludeHead_eq, State.jobHeads_congr (State.computeUnthreaded_pc _)]
  exact State.setJobHeads_jobHeads job _

theorem State.excludeHead_job (job : s.pc.job.isSome = true) (h : HeadId) :
    (s.excludeHead h).pc.job = s.pc.job.map fun j => { j with heads := (s.excludeHead h).jobHeads } := by
  rw [State.excludeHead_jobHeads job, State.excludeHead_eq, State.computeUnthreaded_pc]
  rfl

theorem State.excludeHead_head (s : State) (h g : HeadId) : (s.excludeHead h).head g = if g = h then
    { s.head h with state := .excluded, replay := none, awaiting := false, inTrim := false } else s.head g := by
  rw [State.excludeHead_eq, State.head_congr (State.computeUnthreaded_hs _)]
  exact State.head_setHead s h g _

theorem State.excludeHead_meter (s : State) (h g : HeadId) : (s.excludeHead h).meter g = if g = h then
    { s.meter h with breakRun := 0, loose := 0, tight := 0, bobbinAbsent := 0, colour := .green } else s.meter g := by
  rw [State.excludeHead_eq, State.meter_congr (State.computeUnthreaded_tm _)]
  exact State.meter_setMeter s h g _

theorem State.excludeHead_faulted (s : State) (h g : HeadId) :
    (s.excludeHead h).pc.faulted[g] = if g = h then none else s.pc.faulted[g] := by
  have faulted : (s.excludeHead h).pc.faulted = s.pc.faulted.set h none := by
    rw [State.excludeHead_eq, State.computeUnthreaded_pc]
    rfl
  rw [faulted]
  by_cases own : g = h
  · subst own
    simp
  · have apart : h.val ≠ g.val := fun same => own (Fin.ext same.symm)
    simp [own, apart]

theorem State.excludeHead_owedTrims (s : State) (h g : HeadId) :
    inSet (s.excludeHead h).pc.owedTrims g = (inSet s.pc.owedTrims g && decide (g ≠ h)) := by
  rw [State.excludeHead_eq, State.computeUnthreaded_pc]
  exact inSet_without _ h g

theorem State.excludeHead_setsFollow (s : State) (h : HeadId) :
    SetsFollow (s.retireAll (s.recordsOf h)) (s.excludeHead h) := by
  obtain ⟨ds, -, rl⟩ := s.excluded_retired h
  have follow := (s.excluded h).computeUnthreaded_setsFollow
  rw [← State.excludeHead_eq] at follow
  exact SetsFollow.of_eq follow (by rw [ds]) (by rw [rl, State.retireAll_shape])

theorem State.excludeHead_ds (s : State) (h : HeadId) :
    (s.excludeHead h).ds = { (s.retireAll (s.recordsOf h)).ds with segs := (s.excludeHead h).ds.segs } := by
  rw [State.excludeHead_eq, State.computeUnthreaded_shape]
  rfl

theorem State.excludeHead_rt (s : State) (h : HeadId) : (s.excludeHead h).rt = (s.retireAll (s.recordsOf h)).rt := by
  rw [State.excludeHead_eq, State.computeUnthreaded_rt]
  rfl

/-- A segment is found as the retirements leave it, with the sets that follow. -/
theorem State.excludeHead_findSeg (s : State) (h : HeadId) (m : Nat) : (s.excludeHead h).findSeg m =
    ((s.retireAll (s.recordsOf h)).findSeg m).map (s.excluded h).withUnthreaded := by
  rw [State.excludeHead_eq, State.computeUnthreaded_findSeg]
  rfl

/-- A READY segment keeps its record, the set of unthreaded heads apart: nothing pins it. -/
theorem State.excludeHead_ready (sound : s.ds.Sound) (pinned : s.Pinned) {m : Nat} {q : SegRecord}
    (there : s.findSeg m = some q) (ready : q.state = .ready) :
    ∃ u, (s.excludeHead h).findSeg m = some { q with unthreaded := u } := by
  obtain ⟨mem, -⟩ := State.findSeg_mem there
  obtain ⟨-, -, counts⟩ := id pinned
  have unpinned : q.pins = 0 := Nat.eq_zero_of_not_pos fun pin => by
    rcases (counts q mem).2 pin with active | sewn
    · simp [active] at ready
    · simp [sewn] at ready
  have unnamed : ∀ r ∈ s.recordsOf h, r.segment ≠ m := fun r listed =>
    State.unnamed_of_unpinned pinned there unpinned r ((s.recordsOf_sublist h).subset listed)
  rw [State.excludeHead_findSeg, State.retireAll_unnamed sound unnamed, there]
  exact ⟨_, congrArg some (if_pos ready)⟩

/-- Any other segment has the pins of the records that stay, and is freed where they were its last. -/
theorem State.excludeHead_segment (sound : s.ds.Sound) (pinned : s.Pinned) {m : Nat} {q : SegRecord}
    (there : s.findSeg m = some q) (apart : q.state ≠ .ready) :
    let t := s.excludeHead h
    let left := (t.rt.records.filter fun r => decide (r.segment = m)).length
    let freed := q.state = .sewn ∧ s.ds.served ≠ some m ∧ 0 < q.pins ∧ left = 0
    (freed → t.findSeg m = none) ∧ (¬ freed → t.findSeg m = some { q with pins := left }) := by
  obtain ⟨gone, stays⟩ := State.retireAll_segment sound pinned (s.recordsOf_sublist h) there
  dsimp only
  rw [State.excludeHead_findSeg, State.excludeHead_rt]
  refine ⟨fun freed => by rw [gone freed]; rfl, fun open_ => ?_⟩
  rw [stays open_]
  exact congrArg some (if_neg apart)

/-- Settles O38: the refusals in their order, a head that is as it is asked to be, a head included, and a head excluded. -/
theorem headModeIncludesExcludes : Obligations.HeadModeIncludesExcludes := by
  refine ⟨fun head mode s acts out => by rw [exec_headMode acts, headOf_outside out, Option.elim_none],
    fun head mode s acts h names => ?_⟩
  dsimp only
  refine ⟨fun high => exec_headMode_refused acts names ?_, fun low idle => exec_headMode_refused acts names ?_,
    fun low job standby halted => exec_headMode_refused acts names ?_,
    fun ⟨low, state⟩ out alone => exec_headMode_refused acts names ?_,
    fun ⟨low, state⟩ already others => ?_, fun ⟨low, state⟩ job in_ absent => ?_,
    fun ⟨low, state⟩ job out member others => ?_⟩
  · simp [State.modeRefusals, high]
  · simp [State.modeRefusals, low, State.jobOpen, idle]
  · simp [State.modeRefusals, low, State.jobOpen, job, standby, halted]
  · have last := (eq_single_iff _ _).2 alone
    rcases state with standby | halted
    · simp [State.modeRefusals, State.jobOpen, standby, out, last]
    · simp [State.modeRefusals, State.jobOpen, halted, out, last]
  · rw [exec_headMode_accepted acts names low state others, if_neg, if_neg]
    · exact fun ⟨in_, absent⟩ => absent (already.1 in_)
    · exact fun ⟨out, member⟩ => absurd (out.symm.trans (already.2 member)) (by decide)
  · subst in_
    refine ⟨s.includeHead h, ?_, s.includeHead_shape h, s.includeHead_setsFollow h, ?_,
      ⟨State.includeHead_job job h, fun g other => ?_, fun g other => ?_⟩,
      (s.includeHead_head h h).trans (if_pos rfl)⟩
    · rw [exec_headMode_accepted acts names low state (fun ⟨out, _⟩ => absurd out (by decide)),
        if_neg (fun ⟨out, _⟩ => absurd out (by decide)), if_pos ⟨rfl, absent⟩]
    · rw [State.includeHead_jobHeads job, inSet_or, inSet_single, decide_eq_true rfl, Bool.or_true]
    · refine ⟨(s.includeHead_head h g).trans (if_neg other), ?_⟩
      rw [s.includeHead_shape h]
      exact ⟨rfl, rfl, rfl⟩
    · rw [State.includeHead_jobHeads job, inSet_or, inSet_single, decide_eq_false other, Bool.or_false]
  · subst out
    have retired := State.excludeHead_setsFollow s h
    refine ⟨s.excludeHead h, ?_, s.excludeHead_shape h,
      ⟨s.retireAll (s.recordsOf h), fun sound => State.retireAll_retired sound _, s.excludeHead_ds h, ?_, retired⟩, ?_,
      ⟨State.excludeHead_job job h, fun g other => ?_, fun g other => ?_⟩, (s.excludeHead_head h h).trans (if_pos rfl),
      (s.excludeHead_meter h h).trans (if_pos rfl), (s.excludeHead_faulted h h).trans (if_pos rfl), ?_,
      SetsFollow.unthreaded retired, fun sound pinned => ?_, fun none_ => ?_⟩
    · rw [exec_headMode_accepted acts names low state (fun ⟨_, alone⟩ => others alone), if_pos ⟨rfl, member⟩]
    · rw [State.retireAll_shape]
    · rw [State.excludeHead_jobHeads job, inSet_without, decide_eq_false (not_not.2 rfl), Bool.and_false]
    · refine ⟨(s.excludeHead_head h g).trans (if_neg other), (s.excludeHead_meter h g).trans (if_neg other),
        (s.excludeHead_faulted h g).trans (if_neg other), ?_⟩
      rw [State.excludeHead_owedTrims, decide_eq_true other, Bool.and_true]
    · rw [State.excludeHead_jobHeads job, inSet_without, decide_eq_true other, Bool.and_true]
    · rw [State.excludeHead_owedTrims, decide_eq_false (not_not.2 rfl), Bool.and_false]
    · have kept := (Keeps.refl s).excludeHead h
      exact ⟨kept.pins sound pinned, kept.store sound, fun m q there =>
        ⟨State.excludeHead_ready sound pinned there, State.excludeHead_segment sound pinned there⟩⟩
    · have empty : s.recordsOf h = [] := List.filter_eq_nil_iff.2 fun r there => by simpa using none_ r there
      obtain ⟨length, -⟩ := retired
      have ds := s.excludeHead_ds h
      rw [empty] at length ds
      exact ⟨by rw [ds]; rfl, by rw [ds]; rfl, length⟩

end Sys2Proof.Machine
end

section
/-! PROOF. The Thread Meter's account of a metered report, step by step (R117 to R122, R126, R127), and the HEAD_REPORT
that brings it (R102). -/

open Sys2Proof.Claims

namespace Sys2Proof.Machine

/-! ## Steps 1 to 6: the consumption, the runs, the buckets and the colour (R118 to R121) -/

theorem starved_iff {e feed : Nat} : starved e feed = true ↔ 8 ≤ e ∧ 4 * feed < e := by
  rw [starved, Bool.and_eq_true, decide_eq_true_iff, decide_eq_true_iff]

theorem breakRunAfter_eq (run e feed : Nat) : breakRunAfter run e feed =
    if e < 8 then run else if 8 ≤ e ∧ 4 * feed < e then min (run + 1) 15 else 0 := by
  simp only [breakRunAfter, starved_iff]

/-- The natural subtraction of a bucket is the clamp of the difference (R120). -/
theorem bucketAfter_clamped (bucket added leak : Nat) :
    (bucketAfter bucket added leak : Int) = max 0 (min 4095 ((bucket : Int) + added - leak)) := by
  unfold bucketAfter
  omega

section
variable {p : Params} {m : Meter} {e feed : Nat} {bobbin : Bool}

theorem Params.meterUpdate_loose : ((p.meterUpdate m e feed bobbin).loose : Int) = max 0 (min 4095 ((m.loose : Int) +
    ((if e + e * p.tol / 64 < feed then feed - (e + e * p.tol / 64) else 0 : Nat) : Int) - p.leak)) := by
  have excess : feed - (e + p.tolerance e) = if e + e * p.tol / 64 < feed then feed - (e + e * p.tol / 64) else 0 := by
    unfold Params.tolerance
    split <;> omega
  rw [← excess]
  exact bucketAfter_clamped _ _ _

/-- A starved stitch adds nothing to the tight bucket (R120). -/
theorem Params.meterUpdate_tight : ((p.meterUpdate m e feed bobbin).tight : Int) = max 0 (min 4095 ((m.tight : Int) +
    ((if ¬ (8 ≤ e ∧ 4 * feed < e) ∧ feed + e * p.tol / 64 < e then e - e * p.tol / 64 - feed else 0 : Nat) : Int) -
      p.leak)) := by
  have lack : (if starved e feed then 0 else e - p.tolerance e - feed) =
      if ¬ (8 ≤ e ∧ 4 * feed < e) ∧ feed + e * p.tol / 64 < e then e - e * p.tol / 64 - feed else 0 := by
    unfold Params.tolerance
    by_cases starves : 8 ≤ e ∧ 4 * feed < e
    · rw [if_pos (starved_iff.2 starves), if_neg (fun ⟨fed, _⟩ => fed starves)]
    · rw [if_neg (mt starved_iff.1 starves)]
      by_cases lacks : feed + e * p.tol / 64 < e
      · rw [if_pos ⟨starves, lacks⟩]
      · rw [if_neg (fun ⟨_, lack⟩ => lacks lack)]
        omega
  rw [← lack]
  exact bucketAfter_clamped _ _ _

end

theorem Params.colourOf_red_iff {p : Params} {loose tight : Nat} :
    p.colourOf loose tight = .red ↔ p.redMark ≤ loose ∨ p.redMark ≤ tight := by
  unfold Params.colourOf
  split
  · next red => exact iff_of_true rfl red
  · next red => split <;> exact iff_of_false nofun red

theorem Params.colourOf_green_iff {p : Params} {loose tight : Nat} : p.colourOf loose tight = .green ↔
    loose < p.redMark ∧ tight < p.redMark ∧ loose < p.yellowMark ∧ tight < p.yellowMark := by
  unfold Params.colourOf
  split
  · exact iff_of_false nofun (by omega)
  · split
    · exact iff_of_false nofun (by omega)
    · exact iff_of_true rfl (by omega)

/-! ## Step 7: the faults found (R119, R121, R122, R126) -/

section
variable {p : Params} {before after : Meter} {e feed : Nat} {bobbin : Bool}

theorem Params.breakFound_iff :
    p.breakFound after e feed = true ↔ (8 ≤ e ∧ 4 * feed < e) ∧ p.breakRun ≤ after.breakRun := by
  rw [Params.breakFound, Bool.and_eq_true, starved_iff, decide_eq_true_iff]

theorem Params.meterFaults_eq : p.meterFaults before after e feed bobbin =
    (if p.redMark ≤ after.loose then [.tensionLoose] else []) ++
    (if p.redMark ≤ after.tight then [.tensionTight] else []) ++
    (if before.colour = .green ∧ after.colour = .yellow then [.tensionWarn] else []) ++
    (if (8 ≤ e ∧ 4 * feed < e) ∧ p.breakRun ≤ after.breakRun then [.upperBreak] else []) ++
    (if bobbin = false ∧ p.bobbinRun ≤ after.bobbinAbsent then [.bobbinOut] else []) := by
  simp only [Params.meterFaults, Params.breakFound_iff]

theorem Params.mem_meterFaults {k : FaultKind} : k ∈ p.meterFaults before after e feed bobbin ↔
    p.redMark ≤ after.loose ∧ k = .tensionLoose ∨ p.redMark ≤ after.tight ∧ k = .tensionTight ∨
    (before.colour = .green ∧ after.colour = .yellow) ∧ k = .tensionWarn ∨
    ((8 ≤ e ∧ 4 * feed < e) ∧ p.breakRun ≤ after.breakRun) ∧ k = .upperBreak ∨
    (bobbin = false ∧ p.bobbinRun ≤ after.bobbinAbsent) ∧ k = .bobbinOut := by
  simp only [Params.meterFaults_eq, List.mem_append, List.mem_ite_nil_right, List.mem_singleton, or_assoc]

theorem Params.tensionLoose_mem_meterFaults :
    FaultKind.tensionLoose ∈ p.meterFaults before after e feed bobbin ↔ p.redMark ≤ after.loose := by
  simp [Params.mem_meterFaults]

theorem Params.tensionTight_mem_meterFaults :
    FaultKind.tensionTight ∈ p.meterFaults before after e feed bobbin ↔ p.redMark ≤ after.tight := by
  simp [Params.mem_meterFaults]

theorem Params.upperBreak_mem_meterFaults : FaultKind.upperBreak ∈ p.meterFaults before after e feed bobbin ↔
    (8 ≤ e ∧ 4 * feed < e) ∧ p.breakRun ≤ after.breakRun := by
  simp [Params.mem_meterFaults]

theorem Params.bobbinOut_mem_meterFaults : FaultKind.bobbinOut ∈ p.meterFaults before after e feed bobbin ↔
    bobbin = false ∧ p.bobbinRun ≤ after.bobbinAbsent := by
  simp [Params.mem_meterFaults]

end

/-! ## The account of a report, by its steps (R117) -/

namespace State

variable (s : State) (h : HeadId) (r : Report) (w : Taken)

/-- The expected consumption at the stitch that the report answers (R118). -/
def expectedFeed : Nat := s.par.expected w.stitch.dx w.stitch.dy

/-- The meter after steps 3 to 6. -/
def meterUpdated : Meter := s.par.meterUpdate (s.meter h) (s.expectedFeed w) r.feed r.bobbin

/-- The faults of step 7. -/
def meterFound : List FaultKind :=
  s.par.meterFaults (s.meter h) (s.meterUpdated h r w) (s.expectedFeed w) r.feed r.bobbin

/-- UPPER_BREAK is found, and taken by the enable set (R127). -/
def breakCounted : Bool := decide (FaultKind.upperBreak ∈ s.meterFound h r w) && s.takes .upperBreak

/-- The meter after the resets and the storm addition of step 8. -/
def meterSettled : Meter :=
  s.par.meterResets (s.meterUpdated h r w) (s.meterFound h r w) (s.breakCounted h r w)

/-- The fault of the storm bucket in step 8 (R127). -/
def stormFound : List FaultKind :=
  if s.breakCounted h r w = true ∧ s.par.stormMark ≤ (s.meterSettled h r w).storm then [.breakStorm] else []

/-- The context of a fault of the meter (R129). -/
def meterContext (k : FaultKind) : FaultContext :=
  ⟨k, some w.segment, if w.stitch.index.isSome then w.stitch.index else w.stitch.anchor, (s.sel h).current, some w.kind,
    some (s.expectedFeed w), some r.feed⟩

/-- The faults of a metered report, in their order. -/
def meterRaised : List FaultContext := (s.meterFound h r w ++ s.stormFound h r w).map (s.meterContext h r w)

theorem meterReport_account : s.meterReport h r w = (s.setMeter h (s.meterSettled h r w), s.meterRaised h r w) := by
  have storm : (if (s.breakCounted h r w && decide (s.par.stormMark ≤ (s.meterSettled h r w).storm)) = true
      then s.meterFound h r w ++ [.breakStorm] else s.meterFound h r w) = s.meterFound h r w ++ s.stormFound h r w := by
    simp only [stormFound, Bool.and_eq_true, decide_eq_true_iff]
    split
    · rfl
    · exact (List.append_nil _).symm
  unfold meterRaised
  rw [← storm]
  rfl

theorem meterRaised_kinds : (s.meterRaised h r w).map (·.kind) = s.meterFound h r w ++ s.stormFound h r w := by
  unfold meterRaised
  rw [List.map_map]
  exact List.map_id _

variable {s h r w}

theorem breakCounted_iff : s.breakCounted h r w = true ↔
    (8 ≤ s.expectedFeed w ∧ 4 * r.feed < s.expectedFeed w) ∧ s.par.breakRun ≤ (s.meterUpdated h r w).breakRun ∧
      kindInSet s.fr.enable .upperBreak = true := by
  rw [breakCounted, Bool.and_eq_true, decide_eq_true_iff, meterFound, Params.upperBreak_mem_meterFaults, and_assoc]
  rfl

/-! ## Step 8: the resets and the storm bucket (R119, R122, R126, R127) -/

theorem meterSettled_loose : (s.meterSettled h r w).loose =
    if s.par.redMark ≤ (s.meterUpdated h r w).loose then 0 else (s.meterUpdated h r w).loose := by
  simp only [meterSettled, Params.meterResets, meterFound, Params.tensionLoose_mem_meterFaults]

theorem meterSettled_tight : (s.meterSettled h r w).tight =
    if s.par.redMark ≤ (s.meterUpdated h r w).tight then 0 else (s.meterUpdated h r w).tight := by
  simp only [meterSettled, Params.meterResets, meterFound, Params.tensionTight_mem_meterFaults]

theorem meterSettled_breakRun : (s.meterSettled h r w).breakRun =
    if (8 ≤ s.expectedFeed w ∧ 4 * r.feed < s.expectedFeed w) ∧ s.par.breakRun ≤ (s.meterUpdated h r w).breakRun then 0
    else (s.meterUpdated h r w).breakRun := by
  simp only [meterSettled, Params.meterResets, meterFound, Params.upperBreak_mem_meterFaults]

theorem meterSettled_bobbinAbsent : (s.meterSettled h r w).bobbinAbsent =
    if r.bobbin = false ∧ s.par.bobbinRun ≤ (s.meterUpdated h r w).bobbinAbsent then 0
    else (s.meterUpdated h r w).bobbinAbsent := by
  simp only [meterSettled, Params.meterResets, meterFound, Params.bobbinOut_mem_meterFaults]

theorem meterSettled_storm : (s.meterSettled h r w).storm =
    if s.breakCounted h r w = true then min ((s.meter h).storm + s.par.stormWeight) 255 else (s.meter h).storm := by
  have found : (FaultKind.upperBreak ∈ s.meterFound h r w ∧ s.breakCounted h r w = true) ↔ s.breakCounted h r w = true :=
    and_iff_right_of_imp fun counted => of_decide_eq_true (Bool.and_eq_true_iff.1 counted).1
  exact if_congr found rfl rfl

end State

/-! ## The report that brings the account (R94, R102) -/

section
variable {s : State} {h : HeadId} {r : Report} {w : Taken}

theorem Report.shiftJudged_none {x : SelectorHead} (none_ : x.shift = none) (st : HeadState) :
    r.shiftJudged x st = (x, st) := by
  simp only [Report.shiftJudged, none_]

/-- An ended trim is one that a filter drops (R94). -/
theorem Report.trimJudged_filter (x : SelectorHead) : r.trimJudged x =
    { x with trim := x.trim.filter fun f => !decide (f.order = .judged ∧ r.trimDone = true) } := by
  unfold Report.trimJudged
  cases x.trim with
  | none => rfl
  | some f =>
    by_cases ends : f.order = .judged ∧ r.trimDone = true
    · rw [Option.filter_some, decide_eq_true ends]
      exact congrArg (SelectorHead.mk _ _ _) (if_pos ends)
    · rw [Option.filter_some, decide_eq_false ends]
      exact congrArg (SelectorHead.mk _ _ _) (if_neg ends)

theorem Report.pressed_active (mode : RejoinMode) : r.pressed mode .active = .active :=
  if_neg fun ⟨_, off, _⟩ => nomatch off

/-- A report of an ACTIVE head with no shift in flight ends its judged trim and is heard. -/
theorem State.reported_noShift (noShift : (s.sel h).shift = none) (active : (s.head h).state = .active) :
    s.reported h r = (s.setSel h { s.sel h with
      trim := (s.sel h).trim.filter fun f => !decide (f.order = .judged ∧ r.trimDone = true) }).setHead h
        (heard r (s.head h)) := by
  unfold State.reported
  dsimp only
  rw [Report.shiftJudged_none noShift, Report.trimJudged_filter]
  dsimp only
  rw [active, Report.pressed_active, ← active]

/-- With no shift in flight the account is that of the state before the report. -/
theorem State.reportMetered_noShift (noShift : (s.sel h).shift = none) (metered : Metered s h w) :
    s.reportMetered h r = (s.meterSettled h r w, s.meterRaised h r w) := by
  have current : ((s.reported h r).sel h).current = (s.sel h).current := by
    rw [State.reported_sel, Report.shiftJudged_none noShift]
    rfl
  have context : (s.reported h r).meterContext h r w = s.meterContext h r w := by
    unfold State.meterContext
    rw [current]
    rfl
  have raised : (s.reported h r).meterRaised h r w = s.meterRaised h r w := by
    unfold State.meterRaised
    rw [context]
    rfl
  unfold State.reportMetered
  rw [State.metered_iff.2 metered, Option.elim_some, State.meterReport_account, State.meter_setMeter_self, raised]
  rfl

theorem active_of_metered (metered : Metered s h w) : (s.head h).state = .active := by
  obtain ⟨-, -, -, -, -, active⟩ := metered
  exact active

theorem exec_headReport_metered {message : List Byte} {drive : FaultContext} (acts : Acts s) (spells : Spells message h r)
    (awaiting : (s.head h).awaiting = true) (metered : Metered s h w)
    (context : SupervisorContext s .headDrive drive) (noShift : (s.sel h).shift = none) :
    exec (.headReport h message) s = .next ((((s.setSel h { s.sel h with
        trim := (s.sel h).trim.filter fun f => !decide (f.order = .judged ∧ r.trimDone = true) }).setHead h
          (heard r (s.head h))).setMeter h (s.meterSettled h r w)).resolveGroup h
      (s.meterRaised h r w ++ if r.driveFault = true ∧ (s.head h).driveSeen = false then [drive] else [])).drive := by
  have active := active_of_metered metered
  have polled : (s.head h).state ≠ .excluded := by rw [active]; nofun
  have noFault : s.shiftFaults h r = [] :=
    State.shiftFaults_goesOn fun f shift _ => absurd (shift.symm.trans noShift) nofun
  rw [exec_headReport acts polled awaiting spells, State.takeReport_eq, State.driveFaults_eq context, noFault,
    List.nil_append, State.reportMetered_noShift noShift metered, State.reported_noShift noShift active]

end

/-- Settles O51: the account by the steps of R117, then the report taken with no shift in flight. -/
theorem meteringAccounts : Obligations.MeteringAccounts := by
  intro s h r w dx dy e tol starves bucket old run absent storms ended
  have runs : (s.meterUpdated h r w).breakRun = run := breakRunAfter_eq _ _ _
  have counted : s.breakCounted h r w = true ↔ storms := by
    rw [State.breakCounted_iff, runs]
    rfl
  have storm : s.stormFound h r w =
      if storms ∧ s.par.stormMark ≤ (s.meterSettled h r w).storm then [.breakStorm] else [] :=
    if_congr (and_congr_left' counted) rfl rfl
  refine ⟨(s.meterUpdated h r w).loose, (s.meterUpdated h r w).tight, s.meterSettled h r w, s.meterRaised h r w,
    s.meterReport_account h r w, Params.meterUpdate_loose, Params.meterUpdate_tight, Params.colourOf_red_iff,
    Params.colourOf_green_iff, State.meterSettled_loose, State.meterSettled_tight, ?_, State.meterSettled_bobbinAbsent,
    rfl, rfl, rfl, fun c raised => ?_, ?_, ?_, fun message drive acts spells awaiting metered context noShift => ?_⟩
  · rw [State.meterSettled_breakRun, runs]
    rfl
  · obtain ⟨k, -, rfl⟩ := List.mem_map.1 raised
    exact ⟨rfl, rfl, rfl, rfl, rfl, rfl⟩
  · rw [State.meterRaised_kinds, storm, State.meterFound, Params.meterFaults_eq, runs]
    rfl
  · exact State.meterSettled_storm.trans (if_congr counted rfl rfl)
  · exact exec_headReport_metered acts spells awaiting metered context noShift

end Sys2Proof.Machine
end

section
/-! PROOF. The requests RULE_WRITE and RULE_READ (R137, R181, R183): the bytes of a rule and its flags, the rule stored for
one as sent, and the refusals of both. -/

open Sys2Proof.Claims

namespace Sys2Proof.Machine

variable {s : State} {number : Byte}

/-! ## Flags as bits (R183) -/

/-- Flags as a number, the first at bit 0. -/
def flagsNat (l : List Bool) : Nat := l.foldr Nat.bit 0

theorem testBit_flagsNat (l : List Bool) (k : Nat) : (flagsNat l).testBit k = l.getD k false := by
  induction l generalizing k with
  | nil => simp [flagsNat]
  | cons b l ih =>
    cases k with
    | zero => exact Nat.testBit_bit_zero b _
    | succ k => exact (Nat.testBit_bit_succ k b _).trans (ih k)

theorem flagsNat_cons (b : Bool) (l : List Bool) : flagsNat (b :: l) = boolCode b + 2 * flagsNat l := by
  cases b <;> simp [flagsNat, Nat.bit, boolCode, Nat.add_comm]

theorem flagsNat_nil : flagsNat [] = 0 := rfl

theorem actionFlags_eq (a b c d e : Bool) : actionFlags a b c d e = flagsNat [a, b, c, d, e] := by
  simp only [actionFlags, flagsNat_cons, flagsNat_nil]
  omega

theorem actionFlags_add (a b c d e f : Bool) :
    (actionFlags a b c d e : Int) + 32 * boolCode f = flagsNat [a, b, c, d, e, f] := by
  simp only [actionFlags, flagsNat_cons, flagsNat_nil]
  omega

/-- The low bits of a byte, taken apart and put together again. -/
theorem flagsNat_lowBits (b : Byte) (n : Nat) :
    flagsNat ((List.range n).map b.getLsbD) = b.toNat % 2 ^ n := by
  refine Nat.eq_of_testBit_eq fun k => ?_
  rw [testBit_flagsNat, Nat.testBit_mod_two_pow, BitVec.testBit_toNat]
  by_cases low : k < n
  · simp [List.getD, low]
  · simp [List.getD, low]

theorem and_lowBits_toNat {w : Nat} (b mask : BitVec w) (n : Nat) (low : mask.toNat = 2 ^ n - 1) :
    (b &&& mask).toNat = b.toNat % 2 ^ n := by
  rw [BitVec.toNat_and, low, Nat.and_two_pow_sub_one_eq_mod]

/-- A field of one byte stands in the payload as that byte. -/
theorem getElem?_of_carries {p : List Byte} {o v : Nat} (carries : Carries p o 1 v) :
    p[o]? = some (BitVec.ofNat 8 v) := by
  obtain ⟨inside, spells⟩ := carries
  have here : (p.drop o).take 1 = [p[o]] := by rw [List.drop_eq_getElem_cons (by omega)]; rfl
  have value : p[o].toNat = v % 256 := by
    rw [here] at spells
    simp only [ofBytes, List.foldl_cons, List.foldl_nil] at spells
    omega
  rw [List.getElem?_eq_getElem (by omega)]
  exact congrArg some (BitVec.eq_of_toNat_eq (by rw [value, BitVec.toNat_ofNat]))

theorem getLsbD_flagsNat {l : List Bool} (short : l.length ≤ 8) (k : Nat) :
    (BitVec.ofNat 8 (flagsNat l)).getLsbD k = l.getD k false := by
  rw [BitVec.getLsbD_ofNat, testBit_flagsNat]
  by_cases inside : k < 8
  · simp [inside]
  · simp [inside, List.getElem?_eq_none (show l.length ≤ k by omega)]

/-! ## A rule in its 23 bytes (R183) -/

namespace PolicyRule

/-- The flags of the pattern fields. -/
def patternFlags (r : PolicyRule) : List Bool := [r.byKind, r.byHead, r.byPass, r.byIndex, r.bySpeed, r.byFaults]

/-- A flag of each action field. -/
def actionFlagsOf (r : PolicyRule) (flag : {α : Type} → Action α → Bool) : List Bool :=
  [flag r.reaction, flag r.speedCap, flag r.backtrack, flag r.rejoin, flag r.severity]

theorem patternFlags_short (r : PolicyRule) : r.patternFlags.length ≤ 8 := Nat.le_of_ble_eq_true rfl

theorem actionFlagsOf_short (r : PolicyRule) (flag : {α : Type} → Action α → Bool) :
    (r.actionFlagsOf flag).length ≤ 8 := Nat.le_of_ble_eq_true rfl

/-- The fields of a rule on the link, each with its width (R183). -/
def fields (r : PolicyRule) (n : Nat) : List (Nat × Int) :=
  [(1, n), (1, flagsNat r.patternFlags), (1, flagsNat (r.actionFlagsOf (·.enabled))),
   (1, flagsNat (r.actionFlagsOf (·.useDefault))), (2, r.kinds.toNat), (2, r.heads.toNat), (1, boolCode r.invert),
   (1, passKindCode r.passKind), (2, r.indexMin), (2, r.indexMax), (2, r.minSpeed), (1, r.minFaults),
   (1, r.reaction.value.code), (2, r.speedCap.value), (1, r.backtrack.value), (1, r.rejoin.value.code),
   (1, r.severity.value.code)]

/-- The widths of the fields of a rule. -/
def fieldWidths : List Nat := [1, 1, 1, 1, 2, 2, 1, 1, 2, 2, 2, 1, 1, 2, 1, 1, 1]

theorem report_eq (r : PolicyRule) (n : Nat) : r.report n = fieldBytes (r.fields n) := by
  simp only [report, actionFlags_add]
  simp only [actionFlags_eq, fields, patternFlags, actionFlagsOf, fieldBytes,
    List.flatMap_cons, List.flatMap_nil, List.append_nil, List.append_assoc]

theorem report_length (r : PolicyRule) (n : Nat) : (r.report n).length = 23 := by
  rw [report_eq, fieldBytes_length]
  rfl

/-- The bytes of a rule carry each of its fields. -/
theorem carries_report (r : PolicyRule) (n i : Nat) {o w : Nat} {v u : Int} (field : (r.fields n)[i]? = some (w, v))
    (same : v = u) (ho : (fieldWidths.take i).sum = o := by decide) : Carries (r.report n) o w u :=
  same ▸ r.report_eq n ▸ carries_field (widths := fieldWidths) rfl i field ho

/-- A byte of flags stands in the bytes of a rule. -/
theorem report_flags (r : PolicyRule) (n i : Nat) {o : Nat} {l : List Bool}
    (field : (r.fields n)[i]? = some (1, (flagsNat l : Int))) (ho : (fieldWidths.take i).sum = o := by decide) :
    (r.report n)[o]? = some (BitVec.ofNat 8 (flagsNat l)) :=
  getElem?_of_carries (r.carries_report n i field rfl ho)

end PolicyRule

theorem Reaction.code_eq (r : Reaction) :
    (r.code : Int) = match r with | .continue_ => 0 | .headOff => 1 | .hold => 2 := by cases r <;> rfl

theorem RejoinMode.code_eq (m : RejoinMode) : (m.code : Int) = match m with | .auto => 0 | .operator => 1 := by
  cases m <;> rfl

theorem Severity.code_eq (v : Severity) :
    (v.code : Int) = match v with | .notice => 0 | .head => 1 | .machine => 2 := by cases v <;> rfl

theorem passKindCode_eq (p : Option PassKind) :
    (passKindCode p : Int) = match p with | none => 0 | some .main => 1 | some .repair => 2 := by
  rcases p with - | - | - <;> rfl

/-! ## The rule stored for one as sent (R137) -/

section
variable {α : Type} {o : Option α} {code : α → Nat} {v n : Nat}

/-- A byte names a value of an enumeration exactly when it is one of its codes. -/
theorem isSome_of_codes (codes : o.map code = if v ≤ n then some v else none) : o.isSome = decide (v ≤ n) := by
  rw [← Option.isSome_map (f := code), codes]
  by_cases listed : v ≤ n <;> simp [listed]

theorem code_of_codes (codes : o.map code = if v ≤ n then some v else none) (listed : v ≤ n) (d : α) :
    code (o.getD d) = v := by
  rw [if_pos listed] at codes
  obtain ⟨x, rfl, at_⟩ := Option.map_eq_some_iff.1 codes
  exact at_

end

theorem reactionOf_codes (b : Byte) : (reactionOf b).map (·.code) = if b.toNat ≤ 2 then some b.toNat else none := by
  unfold reactionOf
  split <;> simp_all [Reaction.code]
  omega

theorem severityOf_codes (b : Byte) : (severityOf b).map (·.code) = if b.toNat ≤ 2 then some b.toNat else none := by
  unfold severityOf
  split <;> simp_all [Severity.code]
  omega

theorem rejoinOf_codes (b : Byte) : (rejoinOf b).map (·.code) = if b.toNat ≤ 1 then some b.toNat else none := by
  unfold rejoinOf
  split <;> simp_all [RejoinMode.code]
  omega

theorem passKindOf_codes (b : Byte) : (passKindOf b).map passKindCode = if b.toNat ≤ 2 then some b.toNat else none := by
  unfold passKindOf
  split <;> simp_all [passKindCode]
  omega

theorem rawEnumsListed_iff (r : RawRule) : rawEnumsListed r = true ↔
    r.reaction.toNat ≤ 2 ∧ r.rejoin.toNat ≤ 1 ∧ r.severity.toNat ≤ 2 ∧ r.passKind.toNat ≤ 2 ∧
      (r.patternEnables.getLsbD 2 = true → 1 ≤ r.passKind.toNat) := by
  have zero : r.passKind = 0 ↔ r.passKind.toNat = 0 := BitVec.toNat_inj.symm
  simp only [rawEnumsListed, isSome_of_codes (reactionOf_codes r.reaction), isSome_of_codes (rejoinOf_codes r.rejoin),
    isSome_of_codes (severityOf_codes r.severity), isSome_of_codes (passKindOf_codes r.passKind), Bool.and_eq_true,
    decide_eq_true_eq, Bool.not_eq_true', Bool.and_eq_false_imp, beq_eq_false_iff_ne, ne_eq, zero, and_assoc,
    Nat.one_le_iff_ne_zero]

theorem ruleInForm_iff (r : RawRule) : RuleInForm r ↔ rawEnumsListed r = true ∧
    (r.patternEnables.getLsbD 3 = true → r.indexMin.toNat ≤ r.indexMax.toNat) ∧ r.minFaults.toNat ≤ 127 := by
  rw [rawEnumsListed_iff]
  simp only [RuleInForm, and_assoc]

/-- A rule as sent is refused exactly when it is out of form (R137). -/
theorem rawBad_iff (r : RawRule) : rawBad r = true ↔ ¬ RuleInForm r := by
  rw [ruleInForm_iff, not_and_or, not_and_or, Classical.not_imp, not_le, not_le]
  simp only [rawBad, Bool.or_eq_true, Bool.not_eq_true', Bool.not_eq_true, Bool.and_eq_true, decide_eq_true_eq,
    or_assoc]

theorem rawClamps_iff (r : RawRule) : rawClamps r = true ↔
    1200 < r.speedCap.toNat ∨ 1200 < r.minSpeed.toNat ∨ 63 < r.backtrack.toNat := by
  simp [rawClamps, or_assoc]

/-- The fields a rule carries once it has been sent in form and stored (R137, R183). -/
def storedFields (r : RawRule) (n : Nat) : List (Nat × Int) :=
  [(1, n), (1, (r.patternEnables &&& 0x3F).toNat), (1, (r.actionEnables &&& 0x1F).toNat),
   (1, (r.useDefaults &&& 0x1F).toNat), (2, (r.kinds &&& 0x1FFF).toNat), (2, r.heads.toNat),
   (1, if r.invert = 0 then 0 else 1), (1, r.passKind.toNat), (2, r.indexMin.toNat), (2, r.indexMax.toNat),
   (2, min r.minSpeed.toNat 1200), (1, r.minFaults.toNat), (1, r.reaction.toNat), (2, min r.speedCap.toNat 1200),
   (1, min r.backtrack.toNat 63), (1, r.rejoin.toNat), (1, r.severity.toNat)]

theorem storedRule_fields {r : RawRule} (form : RuleInForm r) (n : Nat) :
    (storedRule r).fields n = storedFields r n := by
  obtain ⟨reaction, rejoin, severity, pass, -, -, -⟩ := form
  have pattern : flagsNat (storedRule r).patternFlags = (r.patternEnables &&& 0x3F).toNat :=
    (flagsNat_lowBits r.patternEnables 6).trans (and_lowBits_toNat _ _ 6 rfl).symm
  have enables : flagsNat ((storedRule r).actionFlagsOf (·.enabled)) = (r.actionEnables &&& 0x1F).toNat :=
    (flagsNat_lowBits r.actionEnables 5).trans (and_lowBits_toNat _ _ 5 rfl).symm
  have defaults : flagsNat ((storedRule r).actionFlagsOf (·.useDefault)) = (r.useDefaults &&& 0x1F).toNat :=
    (flagsNat_lowBits r.useDefaults 5).trans (and_lowBits_toNat _ _ 5 rfl).symm
  have invert : (boolCode (storedRule r).invert : Int) = if r.invert = 0 then 0 else 1 := by
    by_cases off : r.invert = 0 <;> simp [storedRule, boolCode, off]
  have passCode : passKindCode (storedRule r).passKind = r.passKind.toNat :=
    code_of_codes (passKindOf_codes _) pass _
  have reactionCode : (storedRule r).reaction.value.code = r.reaction.toNat :=
    code_of_codes (reactionOf_codes _) reaction _
  have rejoinCode : (storedRule r).rejoin.value.code = r.rejoin.toNat := code_of_codes (rejoinOf_codes _) rejoin _
  have severityCode : (storedRule r).severity.value.code = r.severity.toNat :=
    code_of_codes (severityOf_codes _) severity _
  have speed : ((storedRule r).minSpeed : Int) = min (r.minSpeed.toNat : Int) 1200 := Nat.cast_min _ _
  have cap : ((storedRule r).speedCap.value : Int) = min (r.speedCap.toNat : Int) 1200 := Nat.cast_min _ _
  have backtrack : ((storedRule r).backtrack.value : Int) = min (r.backtrack.toNat : Int) 63 := Nat.cast_min _ _
  unfold PolicyRule.fields storedFields
  rw [pattern, enables, defaults, invert, speed, cap, backtrack, passCode, reactionCode, rejoinCode, severityCode]
  rfl

/-! ## RULE_READ (R137) -/

theorem exec_ruleRead (acts : Acts s) (inside : number.toNat ≤ 31) :
    exec (.ruleRead number) s = .next (done ((s.rule number.toNat).report number.toNat) s) := by
  show execRuleRead number s = _
  unfold execRuleRead
  rw [whenOperating_of_acts acts, State.unless_carriedOut]
  · rfl
  · simp [firstReason, inside]

theorem exec_ruleRead_outside (acts : Acts s) (outside : 31 < number.toNat) :
    exec (.ruleRead number) s = .next (refused .badArgument s) := by
  show execRuleRead number s = _
  unfold execRuleRead
  rw [whenOperating_of_acts acts, State.unless_refused]
  simp [firstReason, outside]

theorem State.rule_eq {i : Fin 32} {n : Nat} (at_ : n = i.val) : s.rule n = s.fr.rules[i] := by
  simp [State.rule, List.getD, at_]

/-! ## RULE_WRITE (R137) -/

/-- The state with a rule stored, and the answer to its write. -/
def State.ruleStored (s : State) (n : Nat) (rule : PolicyRule) (clamped : Bool) : State :=
  (s.setRule n rule).stored clamped

theorem State.ruleStored_shape (n : Nat) (rule : PolicyRule) (clamped : Bool) :
    s.ruleStored n rule clamped = { s with
      rl := (s.ruleStored n rule clamped).rl
      fr := { s.fr with rules := (s.ruleStored n rule clamped).fr.rules } } := rfl

theorem State.ruleStored_acts (acts : Acts s) (n : Nat) (rule : PolicyRule) (clamped : Bool) :
    Acts (s.ruleStored n rule clamped) := acts

theorem State.ruleStored_answered (n : Nat) (rule : PolicyRule) (clamped : Bool) :
    Answered (s.ruleStored n rule clamped) (if clamped then .clamped else .done) [] := rfl

theorem State.ruleStored_others {n : Nat} (rule : PolicyRule) (clamped : Bool) (m : Fin 32) (other : m.val ≠ n) :
    (s.ruleStored n rule clamped).fr.rules[m] = s.fr.rules[m] :=
  Vector.getElem_set!_ne m.isLt other.symm

theorem State.ruleStored_rule {n : Nat} (inside : n ≤ 31) (rule : PolicyRule) (clamped : Bool) :
    (s.ruleStored n rule clamped).rule n = rule :=
  (State.rule_eq (i := ⟨n, by omega⟩) rfl).trans (Vector.getElem_set!_self (by omega))

theorem exec_ruleWrite (acts : Acts s) (inside : number.toNat ≤ 31) {rule : Option RawRule}
    (form : rule.elim false rawBad = false) : exec (.ruleWrite number rule) s =
      .next (s.ruleStored number.toNat (rule.elim PolicyRule.disabled storedRule) (rule.elim false rawClamps)) := by
  show execRuleWrite number rule s = _
  unfold execRuleWrite
  rw [whenOperating_of_acts acts, State.unless_carriedOut]
  · rfl
  · simp [firstReason, inside, form]

theorem exec_ruleWrite_refused (acts : Acts s) {rule : Option RawRule}
    (wrong : 31 < number.toNat ∨ ∃ r, rule = some r ∧ ¬ RuleInForm r) :
    exec (.ruleWrite number rule) s = .next (refused .badArgument s) := by
  have bad : (decide (31 < number.toNat) || rule.elim false rawBad) = true := by
    rcases wrong with outside | ⟨r, rfl, misformed⟩
    · simp [outside]
    · simp [(rawBad_iff r).2 misformed]
  show execRuleWrite number rule s = _
  unfold execRuleWrite
  rw [whenOperating_of_acts acts, State.unless_refused]
  simp [firstReason, bad]

/-- A rule is read back as it was written. -/
theorem exec_ruleRead_ruleStored (acts : Acts s) (inside : number.toNat ≤ 31) (rule : PolicyRule) (clamped : Bool) :
    exec (.ruleRead number) (s.ruleStored number.toNat rule clamped) =
      .next (done (rule.report number.toNat) (s.ruleStored number.toNat rule clamped)) := by
  rw [exec_ruleRead (State.ruleStored_acts acts _ _ _) inside, State.ruleStored_rule inside]

/-- Settles O17: the rule read back field by field, the form of one byte, the refusals, and RULE_READ of any rule. -/
theorem rulesAreWritten : Obligations.RulesAreWritten := by
  refine ⟨fun number r s acts inside form => ?_, fun number s acts => ⟨fun inside => ?_, fun rule wrong => ?_,
    fun outside => exec_ruleRead_outside acts outside⟩, fun number i s acts at_ => ?_⟩
  · have good : rawBad r = false := Bool.eq_false_iff.2 fun bad => (rawBad_iff r).1 bad form
    have field (k : Nat) {o w : Nat} {v : Int} (here : (storedFields r number.toNat)[k]? = some (w, v))
        (ho : (PolicyRule.fieldWidths.take k).sum = o := by decide) :
        Carries ((storedRule r).report number.toNat) o w v :=
      (storedRule r).carries_report _ k ((congrArg (·[k]?) (storedRule_fields form _)).trans here) rfl ho
    refine ⟨s.ruleStored number.toNat (storedRule r) (rawClamps r), (storedRule r).report number.toNat,
      exec_ruleWrite acts inside good, State.ruleStored_shape _ _ _, ?_, State.ruleStored_others _ _,
      exec_ruleRead_ruleStored acts inside _ _, PolicyRule.report_length _ _, field 0 rfl, field 1 rfl, field 2 rfl,
      field 3 rfl, field 4 rfl, field 5 rfl, field 6 rfl, field 7 rfl, field 8 rfl, field 9 rfl, field 10 rfl,
      field 11 rfl, field 12 rfl, field 13 rfl, field 14 rfl, field 15 rfl, field 16 rfl⟩
    simp only [← rawClamps_iff]
    exact State.ruleStored_answered _ _ _
  · exact ⟨s.ruleStored number.toNat PolicyRule.disabled false, PolicyRule.disabled.report number.toNat,
      exec_ruleWrite acts inside rfl, State.ruleStored_answered _ _ _, State.ruleStored_shape _ _ _,
      State.ruleStored_others _ _, exec_ruleRead_ruleStored acts inside _ _,
      PolicyRule.carries_report _ _ 1 rfl rfl, PolicyRule.carries_report _ _ 2 rfl rfl⟩
  · exact exec_ruleWrite_refused acts wrong
  · have inside : number.toNat ≤ 31 := by omega
    intro r
    have read : exec (.ruleRead number) s = .next (done (r.report number.toNat) s) := by
      rw [exec_ruleRead acts inside, State.rule_eq at_]
    have field (k : Nat) {o w : Nat} {v u : Int} (here : (r.fields number.toNat)[k]? = some (w, v)) (same : v = u)
        (ho : (PolicyRule.fieldWidths.take k).sum = o := by decide) : Carries (r.report number.toNat) o w u :=
      r.carries_report _ k here same ho
    exact ⟨r.report number.toNat, BitVec.ofNat 8 (flagsNat r.patternFlags),
      BitVec.ofNat 8 (flagsNat (r.actionFlagsOf (·.enabled))),
      BitVec.ofNat 8 (flagsNat (r.actionFlagsOf (·.useDefault))), read, r.report_length _, field 0 rfl rfl,
      r.report_flags _ 1 rfl, r.report_flags _ 2 rfl, r.report_flags _ 3 rfl,
      getLsbD_flagsNat r.patternFlags_short, getLsbD_flagsNat (r.actionFlagsOf_short _),
      getLsbD_flagsNat (r.actionFlagsOf_short _), field 4 rfl rfl, field 5 rfl rfl,
      field 6 rfl (boolCode_eq _), field 7 rfl (passKindCode_eq _), field 8 rfl rfl, field 9 rfl rfl, field 10 rfl rfl,
      field 11 rfl rfl, field 12 rfl (Reaction.code_eq _), field 13 rfl rfl, field 14 rfl rfl,
      field 15 rfl (RejoinMode.code_eq _), field 16 rfl (Severity.code_eq _)⟩

end Sys2Proof.Machine
end

section
/-! PROOF. The resolution of a fault and of a group (R136 to R141): the search of the Fault Policy Table, the adjustments,
the combination, and the record against the head (R146). -/

open Sys2Proof.Claims

namespace Sys2Proof.Machine

variable {s : State} {h : HeadId}

/-! ## The search of the Fault Policy Table (R138, R139) -/

theorem PolicyRule.applies_iff (r : PolicyRule) (h : HeadId) (c : FaultContext) (speed count : Nat) :
    r.applies h c speed count = true ↔ RuleMatches r h c speed count := by
  have field (on test : Bool) : (!on || test) = true ↔ (on = true → test = true) := by cases on <;> simp
  have head : (inSet r.heads h != r.invert) = true ↔ (inSet r.heads h = true ↔ r.invert = false) := by
    cases inSet r.heads h <;> cases r.invert <;> decide
  have pass : (c.pass.isSome && c.pass == r.passKind) = true ↔ ∃ p, c.pass = some p ∧ r.passKind = some p := by
    cases c.pass with
    | none => simp
    | some p => simp [eq_comm (a := some p)]
  have index : (c.index.elim false fun i => decide (r.indexMin ≤ i) && decide (i ≤ r.indexMax)) = true ↔
      ∃ i, c.index = some i ∧ r.indexMin ≤ i ∧ i ≤ r.indexMax := by
    cases c.index <;> simp
  simp only [PolicyRule.applies, RuleMatches, Bool.and_eq_true, field, head, pass, index, decide_eq_true_eq, and_assoc]

/-- The first rule in number order that passes a test and enables an action decides it, and otherwise the default. -/
theorem decided_search {α β : Type} (rules : Vector PolicyRule 32) {test : PolicyRule → Bool}
    {matching : PolicyRule → Prop} (tests : ∀ r, test r = true ↔ matching r) (pick : PolicyRule → Action α)
    (value : α → β) (dflt : β) : Decided rules matching pick value dflt
      (((rules.toList.filter test).find? fun r => (pick r).enabled).elim dflt
        fun r => if (pick r).useDefault then dflt else value (pick r).value) := by
  have decides (r : PolicyRule) :
      decide (test r = true ∧ (pick r).enabled = true) = true ↔ matching r ∧ (pick r).enabled = true := by
    rw [decide_eq_true_iff, tests]
  rw [List.find?_filter]
  refine ⟨fun i here first => ?_, fun none_ => ?_⟩
  · have found : rules.toList.find? (fun r => decide (test r = true ∧ (pick r).enabled = true)) = some rules[i] := by
      refine List.find?_eq_some_iff_getElem.2 ⟨(decides _).2 here, i, by simp, by simp, fun j before => ?_⟩
      have not_yet := first ⟨j, by omega⟩ before
      rw [Bool.not_eq_true', ← Bool.not_eq_true, decides, Vector.getElem_toList]
      exact not_yet
    rw [found]
    rfl
  · rw [List.find?_eq_none.2]
    · rfl
    · intro r there
      obtain ⟨i, small, rfl⟩ := Vector.getElem_of_mem (Vector.mem_toList_iff.1 there)
      exact mt (decides _).1 (none_ ⟨i, small⟩)

theorem searchAction_eq {α : Type} (pick : PolicyRule → Action α) (l : List PolicyRule) (dflt : α) :
    searchAction pick l dflt = (l.find? fun r => (pick r).enabled).elim dflt
      fun r => if (pick r).useDefault then dflt else id (pick r).value := by
  unfold searchAction
  cases l.find? _ <;> rfl

theorem searchCap_eq (l : List PolicyRule) : searchCap l = (l.find? fun r => r.speedCap.enabled).elim none
    fun r => if r.speedCap.useDefault then none else some r.speedCap.value := by
  unfold searchCap
  cases l.find? _ <;> rfl

/-! ## The adjustments (R140) -/

/-- The reaction that a disabling kind leaves: it never continues. -/
def FaultKind.kept (k : FaultKind) (x : Reaction) : Reaction :=
  if x = .continue_ ∧ k ∈ [FaultKind.needleShiftFail, .noThread, .needleWithdrawn, .headSilent, .headDrive] then .headOff
  else x

theorem FaultKind.disabling_iff (k : FaultKind) : k.disabling = true ↔
    k ∈ [FaultKind.needleShiftFail, .noThread, .needleWithdrawn, .headSilent, .headDrive] := by
  cases k <;> decide

theorem adjust_eq (k : FaultKind) (r : Resolution) (unbenched : r.bench = false) : adjust k r = { r with
    reaction := if r.severity = .machine then .hold else k.kept r.reaction
    bench := decide (k = .breakStorm ∧ k.kept r.reaction = .headOff) } := by
  have first : (if k.disabling = true ∧ r.reaction = .continue_ then { r with reaction := .headOff } else r) =
      { r with reaction := k.kept r.reaction } := by
    unfold FaultKind.kept
    simp only [FaultKind.disabling_iff, and_comm (a := r.reaction = .continue_)]
    split <;> rfl
  unfold adjust
  dsimp only
  rw [first]
  dsimp only
  by_cases benched : k = .breakStorm ∧ k.kept r.reaction = .headOff
  · rw [if_pos benched, decide_eq_true benched]
    dsimp only
    split <;> rfl
  · rw [if_neg benched, decide_eq_false benched, unbenched]
    dsimp only
    split <;> rfl

/-- The adjusted resolution of one taken fault. -/
def State.resolution (s : State) (h : HeadId) (c : FaultContext) : Resolution :=
  adjust c.kind (resolveFault s.fr.rules.toList h c s.mp.spindle (s.faultHead h).count)

theorem FaultKind.default_eq (k : FaultKind) : k.default =
    ⟨(defaults k).1, (defaults k).2.1, (defaults k).2.2.1, none, (defaults k).2.2.2, false⟩ := by
  cases k <;> rfl

theorem State.resolution_resolved (c : FaultContext) : Resolved s h c (s.resolution h c) := by
  have matching (r : PolicyRule) := r.applies_iff h c s.mp.spindle (s.faultHead h).count
  have search {α : Type} (pick : PolicyRule → Action α) (dflt : α) := decided_search s.fr.rules matching pick id dflt
  have cap := decided_search s.fr.rules matching (·.speedCap) some none
  simp only [← searchAction_eq] at search
  rw [← searchCap_eq] at cap
  unfold State.resolution
  rw [adjust_eq _ _ rfl]
  unfold resolveFault
  rw [FaultKind.default_eq]
  exact ⟨_, search _ _, search _ _, search _ _, cap, search _ _, rfl, rfl⟩

/-! ## The combination (R141) -/

theorem exists_mem_snoc {α : Type} {l : List α} {b : α} {p : α → Prop} :
    (∃ q ∈ l ++ [b], p q) ↔ (∃ q ∈ l, p q) ∨ p b := by
  simp only [List.mem_append, List.mem_singleton, or_and_right, exists_or, exists_eq_left]

/-- A value of a resolution is the strongest of a list's, by its code. -/
def Strongest {α : Type} (pick : Resolution → α) (code : α → Nat) (qs : List Resolution) (v : α) : Prop :=
  (∃ q ∈ qs, pick q = v) ∧ ∀ q ∈ qs, code (pick q) ≤ code v

theorem Strongest.append {α : Type} {pick : Resolution → α} {code : α → Nat} {qs : List Resolution} {v : α}
    (strongest : Strongest pick code qs v) (b : Resolution) :
    Strongest pick code (qs ++ [b]) (if code v < code (pick b) then pick b else v) := by
  obtain ⟨⟨q, mem, rfl⟩, above⟩ := strongest
  split
  · next stronger =>
    exact ⟨⟨b, by simp, rfl⟩, List.forall_mem_append.2
      ⟨fun x there => (above x there).trans stronger.le, List.forall_mem_singleton.2 le_rfl⟩⟩
  · next weaker =>
    exact ⟨⟨q, List.mem_append_left _ mem, rfl⟩,
      List.forall_mem_append.2 ⟨above, List.forall_mem_singleton.2 (not_lt.1 weaker)⟩⟩

/-- A cap is the lowest of those of a list, none where no resolution has one. -/
def LowestCap (qs : List Resolution) (cap : Option Nat) : Prop :=
  (cap = none ↔ ∀ q ∈ qs, q.cap = none) ∧
  ∀ v, cap = some v → (∃ q ∈ qs, q.cap = some v) ∧ ∀ q ∈ qs, ∀ w, q.cap = some w → v ≤ w

theorem LowestCap.append {qs : List Resolution} {cap : Option Nat} (lowest : LowestCap qs cap) (b : Resolution) :
    LowestCap (qs ++ [b]) (lowestCap cap b.cap) := by
  obtain ⟨absent, least⟩ := lowest
  unfold LowestCap
  simp only [List.forall_mem_append, List.forall_mem_singleton, exists_mem_snoc]
  cases present : b.cap with
  | none =>
    have same : lowestCap cap none = cap := by cases cap <;> rfl
    rw [same]
    exact ⟨absent.trans (and_iff_left rfl).symm,
      fun v at_ => ⟨.inl (least v at_).1, (least v at_).2, fun w => nofun⟩⟩
  | some y =>
    cases cap with
    | none =>
      refine ⟨by simp [lowestCap], fun v at_ => ⟨.inr at_, fun q mem w have_ => ?_, fun w at_' => ?_⟩⟩
      · rw [absent.1 rfl q mem] at have_
        exact nomatch have_
      · rw [← Option.some.inj at_, Option.some.inj at_']
    | some x =>
      obtain ⟨there, below⟩ := least x rfl
      refine ⟨by simp [lowestCap], fun v at_ => ?_⟩
      have value : v = min x y := (Option.some.inj at_).symm
      refine ⟨?_, fun q mem w have_ => ?_, fun w at_' => ?_⟩
      · rcases min_choice x y with e | e
        · exact .inl (by rwa [value, e])
        · exact .inr (by rw [value, e])
      · exact value ▸ (min_le_left _ _).trans (below q mem w have_)
      · exact value ▸ Option.some.inj at_' ▸ min_le_right _ _

theorem combined_singleton (r : Resolution) : Combined [r] r := by
  simp only [Combined, List.mem_singleton, exists_eq_left, forall_eq, le_refl, and_self, true_and, and_true]
  exact fun v at_ => ⟨at_, fun w at_' => (Option.some.inj (at_.symm.trans at_')).le⟩

theorem combined_append {qs : List Resolution} {a : Resolution} (combined : Combined qs a) (b : Resolution) :
    Combined (qs ++ [b]) (a.combine b) := by
  obtain ⟨reaction, backtrack, rejoin, cap, severity, bench⟩ := combined
  have most : max a.backtrack b.backtrack = if a.backtrack < b.backtrack then b.backtrack else a.backtrack := by
    split <;> omega
  refine ⟨Strongest.append (pick := (·.reaction)) reaction b, ?_, ?_, LowestCap.append cap b,
    Strongest.append (pick := (·.severity)) severity b, ?_⟩
  · show Strongest (·.backtrack) id (qs ++ [b]) (max a.backtrack b.backtrack)
    rw [most]
    exact Strongest.append (code := id) backtrack b
  · rw [exists_mem_snoc, ← rejoin]
    cases rejoins : a.rejoin <;> simp [Resolution.combine, rejoins]
  · rw [exists_mem_snoc, ← bench]
    exact Bool.or_eq_true_iff

theorem combined_foldl {qs : List Resolution} {a : Resolution} (combined : Combined qs a) (l : List Resolution) :
    Combined (qs ++ l) (l.foldl Resolution.combine a) := by
  induction l generalizing qs a with
  | nil => simpa using combined
  | cons b l ih => simpa using ih (combined_append combined b)

/-! ## The record against the head (R146) -/

/-- What the Fault Resolver holds of a head once taken faults have been recorded. -/
def Resolver.recorded (z : Resolver) (l : List FaultContext) (f : FaultHead) : FaultHead :=
  l.foldl (fun f c => f.record (kindInSet z.countSelect c.kind) c) f

section
variable (z : Resolver) (f : FaultHead) (c : FaultContext) (l : List FaultContext)

theorem Resolver.recorded_cons :
    z.recorded (c :: l) f = z.recorded l (f.record (kindInSet z.countSelect c.kind) c) := rfl

theorem Resolver.recorded_first : (z.recorded l f).first = if f.first = none then l.head? else f.first := by
  induction l generalizing f with
  | nil => cases first : f.first <;> simp [Resolver.recorded, first]
  | cons c l ih =>
    rw [z.recorded_cons, ih, FaultHead.record_eq]
    cases f.first <;> simp

theorem Resolver.recorded_latest {x : FaultContext} (last : l.getLast? = some x) :
    (z.recorded l f).latest = some x.kind := by
  obtain ⟨ys, rfl⟩ := List.getLast?_eq_some_iff.1 last
  simp only [Resolver.recorded, List.foldl_append]
  rfl

/-- The count saturates at 127, and a fault counted there sets the overflow flag. -/
theorem Resolver.recorded_count (sound : f.count ≤ 127 ∧ (f.overflow = true → f.count = 127)) :
    (z.recorded l f).count = min (f.count + (l.filter fun x => kindInSet z.countSelect x.kind).length) 127 ∧
    ((z.recorded l f).overflow = true ↔
      f.overflow = true ∨ 127 < f.count + (l.filter fun x => kindInSet z.countSelect x.kind).length) := by
  induction l generalizing f with
  | nil =>
    refine ⟨(Nat.min_eq_left sound.1).symm, (or_iff_left ?_).symm⟩
    exact not_lt.2 sound.1
  | cons c l ih =>
    obtain ⟨count, overflow⟩ := ih _ (FaultHead.record_sound (kindInSet z.countSelect c.kind) f c sound)
    rw [z.recorded_cons, count, overflow, FaultHead.record_eq]
    cases counted : kindInSet z.countSelect c.kind with
    | false => simp [counted]
    | true =>
      obtain ⟨small, -⟩ := sound
      simp only [List.filter_cons, counted, if_true, List.length_cons, true_and, Bool.or_eq_true, decide_eq_true_eq]
      refine ⟨?_, ?_⟩
      · split <;> omega
      · rw [or_assoc]
        refine or_congr_right ?_
        split <;> omega

end

end Sys2Proof.Machine
end

section
/-! PROOF. A group of faults taken (R133 to R146, R160): the head put out, the halt asked for, the faulted set, the effects
of each reaction, and the group as a whole. -/

open Sys2Proof.Claims

namespace Sys2Proof.Machine

variable {s : State} {h : HeadId} {c : FaultContext} {r : Resolution}

/-! ## The head put out (R93, R104) -/

theorem putOut_eq (bench : Bool) (found : HeadState) : putOut bench found =
    if found = .excluded ∨ found = .benched then found else if bench then .benched else .off := by
  cases found <;> simp [putOut]

theorem rejoinAfter_eq (found : HeadState) (mode resolved : RejoinMode) : rejoinAfter found mode resolved =
    if found = .excluded ∨ (found = .off ∨ found = .benched) ∧ resolved = .auto then mode else resolved := by
  cases found <;> cases resolved <;> simp [rejoinAfter]

/-- The state with the shift of a SHIFTING head abandoned (R93). -/
def State.shiftLeft (s : State) (h : HeadId) : State :=
  match (s.head h).state with
  | .shifting _ => s.abandonShift h
  | _ => s

theorem State.shiftLeft_shifting {b : Bool} (shifting : (s.head h).state = .shifting b) :
    s.shiftLeft h = s.abandonShift h := by
  unfold State.shiftLeft
  rw [shifting]

theorem State.shiftLeft_other (still : ∀ b, (s.head h).state ≠ .shifting b) : s.shiftLeft h = s := by
  unfold State.shiftLeft
  split
  · next b shifting => exact absurd shifting (still b)
  · rfl

theorem State.shiftLeft_cases (s : State) (h : HeadId) : s.shiftLeft h = s.abandonShift h ∨ s.shiftLeft h = s := by
  unfold State.shiftLeft
  split
  · exact .inl rfl
  · exact .inr rfl

theorem State.shiftLeft_shape : s.shiftLeft h = { s with
    hs := { s.hs with heads := (s.shiftLeft h).hs.heads }, ts := { s.ts with heads := (s.shiftLeft h).ts.heads } } := by
  rcases s.shiftLeft_cases h with e | e <;> rw [e]
  exact s.abandonShift_shape h

theorem State.abandonShift_others {g : HeadId} (other : g ≠ h) :
    (s.abandonShift h).head g = s.head g ∧ (s.abandonShift h).sel g = s.sel g := by
  refine ⟨?_, (s.abandonShift_sel h g).trans (if_neg fun both => other both.1)⟩
  unfold State.abandonShift
  split
  · rfl
  · dsimp only
    split
    · rfl
    · rw [State.head_congr (State.setSel_hs _ _ _), State.head_setHead, if_neg other]

theorem State.shiftLeft_others {g : HeadId} (other : g ≠ h) :
    (s.shiftLeft h).head g = s.head g ∧ (s.shiftLeft h).sel g = s.sel g := by
  rcases s.shiftLeft_cases h with e | e <;> rw [e]
  · exact State.abandonShift_others other
  · exact ⟨rfl, rfl⟩

theorem State.shiftLeft_head (s : State) (h : HeadId) : (s.shiftLeft h).head h =
    { s.head h with selectNeedle := ((s.shiftLeft h).head h).selectNeedle } := by
  rcases s.shiftLeft_cases h with e | e <;> rw [e]
  exact s.abandonShift_head h h

theorem State.putHeadOut_eq (h : HeadId) (bench : Bool) (mode : RejoinMode) (s : State) : s.putHeadOut h bench mode =
    (s.shiftLeft h).setHead h { (s.shiftLeft h).head h with
      state := putOut bench (s.head h).state
      rejoin := rejoinAfter (s.head h).state ((s.shiftLeft h).head h).rejoin mode } := rfl

theorem State.putHeadOut_putOut (h : HeadId) (r : Resolution) (s : State) :
    PutOut s (s.putHeadOut h r.bench r.rejoin) h r := by
  have sel (g : HeadId) : (s.putHeadOut h r.bench r.rejoin).sel g = (s.shiftLeft h).sel g := rfl
  have own : (s.putHeadOut h r.bench r.rejoin).head h = { (s.shiftLeft h).head h with
      state := putOut r.bench (s.head h).state
      rejoin := rejoinAfter (s.head h).state ((s.shiftLeft h).head h).rejoin r.rejoin } := by
    rw [State.putHeadOut_eq, State.head_setHead_self]
  refine ⟨?_, fun g other => ⟨?_, (sel g).trans (State.shiftLeft_others other).2⟩, ?_, fun still => ⟨?_, ?_⟩,
    fun b x shifting inFlight => ?_⟩
  · rw [State.putHeadOut_eq, State.shiftLeft_shape]
    rfl
  · rw [State.putHeadOut_eq, State.head_setHead, if_neg other]
    exact (State.shiftLeft_others other).1
  · rw [own, ← putOut_eq, ← rejoinAfter_eq, s.shiftLeft_head h]
  · rw [sel, State.shiftLeft_other still]
  · rw [own, State.shiftLeft_other still]
  · rw [sel, State.shiftLeft_shifting shifting, State.abandonShift_sel, if_pos ⟨rfl, by rw [inFlight]; nofun⟩]

/-! ## The faulted set (R77, R78) -/

theorem State.addFaulted_entered (h : HeadId) (target : Option Nat) (cause : RepairCause) (s : State) :
    Entered s (s.addFaulted h target cause) h target cause := by
  refine ⟨_, rfl, fun fresh => ?_, fun old present => ⟨fun lesser => ?_, fun kept => ?_⟩⟩
  · rw [fresh]
  · obtain ⟨m, rfl, less⟩ := lesser
    rw [present]
    dsimp only
    cases held : old.target with
    | none => rfl
    | some k => exact if_pos (less k held)
  · rw [present]
    cases target with
    | none => rfl
    | some m =>
      dsimp only
      cases held : old.target with
      | none => exact absurd ⟨m, rfl, fun k at_ => nomatch held.symm.trans at_⟩ kept
      | some k =>
        refine if_neg fun less => kept ⟨m, rfl, fun j at_ => ?_⟩
        rwa [← Option.some.inj (held.symm.trans at_)]

theorem State.faultAtResume_stitch {m k : Nat} (point : s.pc.point = some (.atStitch m k)) (cause : RepairCause) :
    s.faultAtResume h cause = s.addFaulted h (some k) cause := by
  unfold State.faultAtResume
  rw [point]

theorem State.faultAtResume_elsewhere (elsewhere : ∀ m k, s.pc.point ≠ some (.atStitch m k)) (cause : RepairCause) :
    s.faultAtResume h cause = s := by
  unfold State.faultAtResume
  split
  · next m k point => exact absurd point (elsewhere m k)
  · rfl

/-! ## The halt asked for (R74, R75, R144) -/

theorem mergeDue_eq (due : Option HaltCause) (cause : HaltCause) : (due = none → mergeDue due cause = cause) ∧
    ∀ c, due = some c →
      let replaces := cause = .repairFull ∧ (c = .stopRequest ∨ c = .faultHold)
      (replaces → mergeDue due cause = cause) ∧ (¬ replaces → mergeDue due cause = c) := by
  refine ⟨fun fresh => by rw [fresh]; rfl, fun c standing => ?_⟩
  subst standing
  exact ⟨fun replaces => (if_pos replaces).trans replaces.1.symm, fun keeps => if_neg keeps⟩

theorem State.askHalt_asked (cause : HaltCause) (s : State) : AskedToHalt s (s.askHalt cause) cause := by
  have merged := mergeDue_eq s.pc.due cause
  refine ⟨fun sewn => ?_, fun slowing => ?_, fun halted => ?_⟩
  · rcases sewn with e | e <;> simp only [State.askHalt, e] <;> rfl
  · refine ⟨mergeDue s.pc.due cause, ?_, merged⟩
    rcases slowing with e | e | e <;> simp only [State.askHalt, e]
  · simp only [State.askHalt, halted]

theorem State.takeHold_held (h : HeadId) (target : Option Nat) (record : RepairCause) (cause : HaltCause) (s : State) :
    Held s (s.takeHold h target record cause) h target record cause := by
  refine ⟨fun away => ?_, fun here => ⟨s.askHalt cause, s.askHalt_asked cause, ?_⟩⟩
  · rcases away with e | e | e <;> simp only [State.takeHold, e]
  · have holds : s.takeHold h target record cause = (s.askHalt cause).addFaulted h target record := by
      unfold State.takeHold
      split
      · next e => exact absurd (.inl e) here
      · next e => exact absurd (.inr (.inl e)) here
      · next e => exact absurd (.inr (.inr e)) here
      · rfl
    rw [holds]
    exact State.addFaulted_entered _ _ _ _

/-! ## The target of a hold (R78, R144) -/

theorem State.holdTarget_congr {t : State} (same : t.pc = s.pc) (back : Nat) : t.holdTarget c back = s.holdTarget c back := by
  unfold State.holdTarget State.towardStitch
  rw [same]

theorem State.holdTarget_other (other : c.pass ≠ some .main) (back : Nat) : s.holdTarget c back = none := if_pos other

/-- A place of the round on the way to the next stretch, of a given aim. -/
def Phase.LeadsTo (p : Phase) (a : Aim) : Prop := p = .choice a ∨ p = .travel a ∨ p = .begin a

theorem State.towardStitch_start (leads : s.pc.phase.LeadsTo .segmentStart) : s.towardStitch = some 0 := by
  rcases leads with e | e | e <;> simp only [State.towardStitch, e]

theorem State.towardStitch_resume (leads : s.pc.phase.LeadsTo .resume) {g k : Nat}
    (point : s.pc.point = some (.atStitch g k)) : s.towardStitch = some k := by
  rcases leads with e | e | e <;> simp only [State.towardStitch, e, point]

theorem State.towardStitch_none (start : ¬ s.pc.phase.LeadsTo .segmentStart)
    (resume : ¬ (s.pc.phase.LeadsTo .resume ∧ ∃ g k, s.pc.point = some (.atStitch g k))) : s.towardStitch = none := by
  have resumed (leads : s.pc.phase.LeadsTo .resume) :
      (match s.pc.point with
        | some (.atStitch _ k) => some k
        | _ => none) = none := by
    split
    · next g k point => exact absurd ⟨leads, g, k, point⟩ resume
    · rfl
  unfold State.towardStitch
  dsimp only
  split
  · next e => exact absurd (.inl e) start
  · next e => exact absurd (.inr (.inl e)) start
  · next e => exact absurd (.inr (.inr e)) start
  · next e => exact resumed (.inl e)
  · next e => exact resumed (.inr (.inl e))
  · next e => exact resumed (.inr (.inr e))
  · rfl

/-- The main pass is sewn, slows down, stands halted at a stitch, or changes at a mid-segment TRIM (R78). -/
def State.SewnHere (s : State) : Prop :=
  s.pc.state = .sewing ∨ s.pc.state = .stopping ∨
    s.pc.state = .halted ∧ (∃ g k, s.pc.point = some (.atStitch g k)) ∨
    s.pc.state = .change ∧ (s.pc.phase = .trim .midMain ∨ s.pc.phase = .begin .onward)

theorem State.holdTarget_sewn (main : c.pass = some .main) (sewn : s.SewnHere) (back : Nat) :
    s.holdTarget c back = c.index.map (· - back) := by
  have pass : ¬ c.pass ≠ some .main := not_not.2 main
  rcases sewn with e | e | ⟨e, g, k, point⟩ | ⟨e, phase | phase⟩
  · simp only [State.holdTarget, if_neg pass, e]
  · simp only [State.holdTarget, if_neg pass, e]
  · simp only [State.holdTarget, if_neg pass, e, point]
  · simp only [State.holdTarget, if_neg pass, e, phase]
  · simp only [State.holdTarget, if_neg pass, e, phase]

/-- On the way to a stitch the target is the index that the way leads to. -/
theorem State.holdTarget_toward (main : c.pass = some .main) (back : Nat)
    (state : s.pc.state = .change ∨ s.pc.state = .travel) {a : Aim} (leads : s.pc.phase.LeadsTo a) (aim : a ≠ .onward) :
    s.holdTarget c back = s.towardStitch := by
  have pass : ¬ c.pass ≠ some .main := not_not.2 main
  rcases state with e | e
  · simp only [State.holdTarget, if_neg pass, e]
    split
    · next trim => rcases leads with p | p | p <;> exact nomatch trim.symm.trans p
    · next onward =>
      rcases leads with p | p | p
      · exact nomatch onward.symm.trans p
      · exact nomatch onward.symm.trans p
      · exact absurd (Phase.begin.inj (p.symm.trans onward)) aim
    · rfl
  · simp only [State.holdTarget, if_neg pass, e]

theorem State.holdTarget_none (sewn : ¬ s.SewnHere) (toward : s.pc.state = .change ∨ s.pc.state = .travel →
    s.towardStitch = none) (back : Nat) : s.holdTarget c back = none := by
  unfold State.holdTarget
  dsimp only
  split
  · rfl
  · split
    · next e => exact absurd (.inl e) sewn
    · next e => exact absurd (.inr (.inl e)) sewn
    · next e =>
      split
      · next g k point => exact absurd (.inr (.inr (.inl ⟨e, g, k, point⟩))) sewn
      · rfl
    · next e =>
      split
      · next phase => exact absurd (.inr (.inr (.inr ⟨e, .inl phase⟩))) sewn
      · next phase => exact absurd (.inr (.inr (.inr ⟨e, .inr phase⟩))) sewn
      · exact toward (.inl e)
    · next e => exact toward (.inr e)
    · rfl

theorem State.holdTarget_spec (s : State) (c : FaultContext) (back : Nat) : HoldTarget s c back (s.holdTarget c back) := by
  refine ⟨fun main sewn => State.holdTarget_sewn main sewn back, fun main ⟨state, leads⟩ => ?_,
    fun g k main ⟨state, leads⟩ point => ?_, fun nowhere => ?_⟩
  · exact (State.holdTarget_toward main back state leads nofun).trans (State.towardStitch_start leads)
  · exact (State.holdTarget_toward main back state leads nofun).trans (State.towardStitch_resume leads point)
  · by_cases main : c.pass = some .main
    · refine State.holdTarget_none (fun sewn => nowhere ⟨main, .inl sewn⟩) (fun state => ?_) back
      exact State.towardStitch_none (fun leads => nowhere ⟨main, .inr (.inl ⟨state, leads⟩)⟩)
        fun ⟨leads, point⟩ => nowhere ⟨main, .inr (.inr ⟨⟨state, leads⟩, point⟩)⟩
    · exact State.holdTarget_other main back

/-! ## The account of a group, reaction by reaction (R142 to R144, R160) -/

/-- The first index of the record that a head put out in the main pass asks for (R143). -/
def State.recordFrom (s : State) (h : HeadId) (d : Nat) : Nat :=
  match (s.pc.faulted[h]).bind (·.target) with
  | some k => min k d
  | none => d

theorem State.recordFrom_congr {t : State} (same : t.pc = s.pc) (d : Nat) : t.recordFrom h d = s.recordFrom h d := by
  unfold State.recordFrom
  rw [same]

theorem State.recordFrom_eq (d : Nat) : (s.faultedTarget h).elim d (min d) = s.recordFrom h d := by
  unfold State.faultedTarget State.recordFrom
  cases (s.pc.faulted[h]).bind (·.target) with
  | none => rfl
  | some k => exact min_comm _ _

section
variable {g d : Nat} (wasIn : Bool)

theorem State.accountGroup_continue (reaction : r.reaction = .continue_) : s.accountGroup h c r wasIn = s := by
  unfold State.accountGroup
  simp only [reaction]

theorem State.accountGroup_off_main (reaction : r.reaction = .headOff) (segment : c.segment = some g)
    (index : c.index = some d) (main : c.pass = some .main) : s.accountGroup h c r wasIn =
      (s.openRequest h g (s.recordFrom h (d - r.backtrack)) (.fault c.kind)).getD
        (s.takeHold h (some (s.recordFrom h (d - r.backtrack))) (.fault c.kind) .repairFull) := by
  have pass : c.pass ≠ some .repair := by rw [main]; nofun
  unfold State.accountGroup
  simp only [reaction, segment, index, if_neg pass, State.recordFrom_eq]
  cases s.openRequest h g (s.recordFrom h (d - r.backtrack)) (.fault c.kind) <;> rfl

theorem State.accountGroup_off_repair (reaction : r.reaction = .headOff) (segment : c.segment = some g)
    (index : c.index = some d) (repair : c.pass = some .repair) : s.accountGroup h c r wasIn =
      (s.truncate h (d - r.backtrack)).faultAtResume h (.fault c.kind) := by
  unfold State.accountGroup
  simp only [reaction, segment, index, if_pos repair]

theorem State.accountGroup_off_unplaced (reaction : r.reaction = .headOff)
    (unplaced : c.segment = none ∨ c.index = none) : s.accountGroup h c r wasIn =
      if s.pc.point.isSome ∧ wasIn then s.addFaulted h (s.holdTarget c r.backtrack) (.fault c.kind) else s := by
  unfold State.accountGroup
  simp only [reaction]
  split
  · next segment index =>
    rcases unplaced with e | e
    · exact nomatch segment.symm.trans e
    · exact nomatch index.symm.trans e
  · rfl

theorem State.accountGroup_hold_repair (reaction : r.reaction = .hold) (segment : c.segment = some g)
    (index : c.index = some d) (repair : c.pass = some .repair) : s.accountGroup h c r wasIn =
      (s.truncate h (d - r.backtrack)).takeHold h (s.holdTarget c r.backtrack) (.fault c.kind) .faultHold := by
  unfold State.accountGroup
  simp only [reaction, segment, index, if_pos repair]

theorem State.accountGroup_hold_other (reaction : r.reaction = .hold)
    (other : (c.segment = none ∨ c.index = none) ∨ c.pass ≠ some .repair) : s.accountGroup h c r wasIn =
      s.takeHold h (s.holdTarget c r.backtrack) (.fault c.kind) .faultHold := by
  unfold State.accountGroup
  simp only [reaction]
  split
  · next segment index =>
    refine if_neg fun repair => ?_
    rcases other with (e | e) | e
    · exact nomatch segment.symm.trans e
    · exact nomatch index.symm.trans e
    · exact e repair
  · rfl

/-- A hold is taken after the records of its head have been cut short, where a repair pass has them (R144, R160). -/
theorem State.accountGroup_hold (reaction : r.reaction = .hold) : ∃ v : State,
    (∀ g d, c.segment = some g ∧ c.index = some d → c.pass = some .repair → v = s.truncate h (d - r.backtrack)) ∧
    ((c.segment = none ∨ c.index = none) ∨ c.pass ≠ some .repair → v = s) ∧
    s.accountGroup h c r wasIn = v.takeHold h (s.holdTarget c r.backtrack) (.fault c.kind) .faultHold := by
  by_cases other : (c.segment = none ∨ c.index = none) ∨ c.pass ≠ some .repair
  · refine ⟨s, fun g d ⟨segment, index⟩ repair => ?_, fun _ => rfl, State.accountGroup_hold_other wasIn reaction other⟩
    rcases other with (e | e) | e
    · exact nomatch segment.symm.trans e
    · exact nomatch index.symm.trans e
    · exact absurd repair e
  · obtain ⟨placed, repair⟩ := not_or.1 other
    obtain ⟨segment, index⟩ := not_or.1 placed
    obtain ⟨g, segment⟩ := Option.ne_none_iff_exists'.1 segment
    obtain ⟨d, index⟩ := Option.ne_none_iff_exists'.1 index
    refine ⟨s.truncate h (d - r.backtrack), fun _ e ⟨_, at_⟩ _ => ?_, fun is => absurd is other,
      State.accountGroup_hold_repair wasIn reaction segment index (not_not.1 repair)⟩
    rw [Option.some.inj (index.symm.trans at_)]

end

/-! ## The effects of a group (R145) -/

/-- The policy ceiling under a SPEED_CAP, or as it was (R42). -/
def Resolution.ceiling (r : Resolution) (present : Option Nat) : Option Nat :=
  match r.cap, present with
  | none, p => p
  | some a, none => some a
  | some a, some p => some (min p a)

theorem Resolution.lowerPolicy_cap (r : Resolution) (v : State) : (r.cap.elim v fun cap => v.lowerPolicy cap) =
    { v with mp := { v.mp with policyCeiling := r.ceiling v.mp.policyCeiling } } := by
  unfold Resolution.ceiling State.lowerPolicy
  cases r.cap with
  | none => rfl
  | some a =>
    cases v.mp.policyCeiling with
    | none => rfl
    | some p => simp only [Option.elim_some, min_comm a p]

/-- What a resolution does to the Motion Planner and to the Request Link: a SPEED_CAP lowers the policy ceiling, a
severity above NOTICE raises FAULT. -/
def Resolution.effect (r : Resolution) (v : State) : State := { v with
  mp := { v.mp with policyCeiling := r.ceiling v.mp.policyCeiling }
  rl := { v.rl with sticky := v.rl.sticky ||| (if r.severity = .notice then 0 else 0x0004) } }

theorem Resolution.effect_eq (r : Resolution) (v : State) : r.effect v =
    (let u := r.cap.elim v fun cap => v.lowerPolicy cap
     if r.severity = .notice then u else u.raise .fault) := by
  have zero (x : BitVec 16) : x ||| 0 = x := BitVec.or_zero
  unfold Resolution.effect
  rw [r.lowerPolicy_cap]
  split
  · simp only [zero]
  · rfl

theorem State.wasIn_iff : (s.polled h && !s.isOut h) = true ↔
    (s.head h).state ≠ .excluded ∧ (s.head h).state ≠ .off ∧ (s.head h).state ≠ .benched := by
  simp [State.polled, State.isOut]

theorem State.applyGroup_continue (reaction : r.reaction = .continue_) : s.applyGroup h c r = r.effect s := by
  rw [Resolution.effect_eq]
  unfold State.applyGroup
  simp only [if_pos reaction, State.accountGroup_continue _ reaction]

theorem State.applyGroup_out (reaction : r.reaction ≠ .continue_) : s.applyGroup h c r =
    r.effect ((s.putHeadOut h r.bench r.rejoin).accountGroup h c r (s.polled h && !s.isOut h)) := by
  rw [Resolution.effect_eq]
  unfold State.applyGroup
  simp only [if_neg reaction]

/-! ## A group taken (R133, R134) -/

/-- The faults of a group that are taken, their contexts completed (R133, R134). -/
def State.taken (s : State) (group : List FaultContext) : List FaultContext :=
  (group.filter fun c => s.takes c.kind).map s.completed

/-- The combined resolution of the faults taken. -/
def State.combined (s : State) (h : HeadId) (c : FaultContext) (more : List FaultContext) : Resolution :=
  (more.map (s.resolution h)).foldl Resolution.combine (s.resolution h c)

theorem State.resolveGroup_untaken {group : List FaultContext} (untaken : s.taken group = []) :
    s.resolveGroup h group = s := by
  unfold State.resolveGroup
  rw [show (group.filter fun c => s.takes c.kind).map s.completed = [] from untaken]

theorem State.resolveGroup_taken {group more : List FaultContext} (taken : s.taken group = c :: more) :
    s.resolveGroup h group =
      (s.setFaultHead h (s.fr.recorded (c :: more) (s.faultHead h))).applyGroup h c (s.combined h c more) := by
  unfold State.resolveGroup
  rw [show (group.filter fun c => s.takes c.kind).map s.completed = c :: more from taken]
  rfl

theorem State.combined_combined (s : State) (h : HeadId) (c : FaultContext) (more : List FaultContext) :
    Combined ((c :: more).map (s.resolution h)) (s.combined h c more) :=
  combined_foldl (combined_singleton _) (more.map (s.resolution h))

theorem State.truncate_pc (h : HeadId) (d : Nat) (s : State) : (s.truncate h d).pc = s.pc := (State.truncate_only h d s).pc

/-- Settles O57: the group untaken, or resolved fault by fault, combined and recorded, and each reaction's effects. -/
theorem faultsAreResolved : Obligations.FaultsAreResolved := by
  intro s h group completed taken
  have all : taken = s.taken group := rfl
  refine ⟨fun untaken => State.resolveGroup_untaken untaken, fun c more first => ?_⟩
  have resolves := State.resolveGroup_taken (h := h) (all.symm.trans first)
  clear_value taken
  subst first
  refine ⟨(c :: more).map (s.resolution h), s.combined h c more, s.fr.recorded (c :: more) (s.faultHead h),
    List.length_map _, fun i x q here resolution => ?_, s.combined_combined h c more,
    ⟨s.fr.recorded_first _ _, fun x => s.fr.recorded_latest _ _, fun sound => s.fr.recorded_count _ _ (sound h)⟩, ?_⟩
  · rw [List.getElem?_map, here] at resolution
    exact Option.some.inj resolution ▸ State.resolution_resolved x
  generalize s.combined h c more = r at resolves ⊢
  generalize s.fr.recorded (c :: more) (s.faultHead h) = f at resolves ⊢
  intro u t effect cause placed unplaced
  have puts := State.putHeadOut_putOut h r u
  have pc : (u.putHeadOut h r.bench r.rejoin).pc = s.pc := by
    rw [puts.1]
    rfl
  refine ⟨fun continues => resolves.trans (State.applyGroup_continue continues), fun goes => ?_⟩
  have account := resolves.trans (State.applyGroup_out goes)
  generalize u.putHeadOut h r.bench r.rejoin = out at puts pc account
  refine ⟨out, puts, fun g d off ⟨segment, index⟩ main => ?_, fun g d off ⟨segment, index⟩ repair => ?_,
    fun off bare => ?_, fun hold => ?_⟩
  · rw [State.accountGroup_off_main _ off segment index main, State.recordFrom_congr pc] at account
    have request {o : Option State}
        (answer : out.openRequest h g (s.recordFrom h (d - r.backtrack)) (.fault c.kind) = o) :
        t = r.effect (o.getD (out.takeHold h (some (s.recordFrom h (d - r.backtrack))) (.fault c.kind) .repairFull)) :=
      answer ▸ account
    exact ⟨fun v made => request made, fun full => ⟨_, State.takeHold_held _ _ _ _ out, request full⟩⟩
  · rw [State.accountGroup_off_repair _ off segment index repair] at account
    have point : (out.truncate h (d - r.backtrack)).pc.point = s.pc.point := by rw [State.truncate_pc, pc]
    refine ⟨fun m k stitch => ⟨_, State.addFaulted_entered _ _ _ _, ?_⟩, fun elsewhere => ?_⟩
    · rw [State.faultAtResume_stitch (point.trans stitch)] at account
      exact account
    · rw [State.faultAtResume_elsewhere fun m k => point ▸ elsewhere m k] at account
      exact account
  · rw [State.accountGroup_off_unplaced _ off bare, pc, State.holdTarget_congr pc] at account
    refine ⟨fun goesOut => ⟨_, _, s.holdTarget_spec c r.backtrack, State.addFaulted_entered _ _ _ _, ?_⟩,
      fun stays => ?_⟩
    · exact account.trans (congrArg r.effect (if_pos ⟨goesOut.1, State.wasIn_iff.2 goesOut.2⟩))
    · exact account.trans (congrArg r.effect (if_neg fun both => stays ⟨both.1, State.wasIn_iff.1 both.2⟩))
  · obtain ⟨v, cut, whole, held⟩ := State.accountGroup_hold (s := out) (h := h) (c := c) (u.polled h && !u.isOut h) hold
    rw [held, State.holdTarget_congr pc] at account
    exact ⟨v, _, _, s.holdTarget_spec c r.backtrack, cut, whole, State.takeHold_held _ _ _ _ v, account⟩

end Sys2Proof.Machine
end

section
/-! PROOF. REPAIR_LIST (R162): the records in ascending order of their keys, and the repair reports of one page. -/

open Sys2Proof.Claims

namespace Sys2Proof.Machine

variable {s : State} {r : RepairRecord}

/-! ## The order of the keys (R162) -/

theorem keyBefore_iff (a b : Nat × Nat × Nat) : keyBefore a b = true ↔
    a.1 < b.1 ∨ a.1 = b.1 ∧ (a.2.1 < b.2.1 ∨ a.2.1 = b.2.1 ∧ a.2.2 < b.2.2) := by
  simp [keyBefore]

/-- A record may stand before another in a list: its key does not lie after the other's. -/
abbrev RepairRecord.upTo (a b : RepairRecord) : Prop := ¬ keyBefore b.key a.key = true

theorem RepairRecord.upTo_total (a b : RepairRecord) : a.upTo b ∨ b.upTo a := by
  simp only [RepairRecord.upTo, keyBefore_iff]
  omega

theorem RepairRecord.upTo_trans {a b c : RepairRecord} (ab : a.upTo b) (bc : b.upTo c) : a.upTo c := by
  simp only [RepairRecord.upTo, keyBefore_iff] at *
  omega

theorem insertByKey_eq (r : RepairRecord) (l : List RepairRecord) :
    insertByKey r l = l.orderedInsert RepairRecord.upTo r := by
  induction l with
  | nil => rfl
  | cons q l ih => rw [insertByKey, List.orderedInsert_cons, ih, ite_not]

/-- The records are listed by an insertion sort on their keys. -/
theorem State.sortedRecords_eq (s : State) : s.sortedRecords = s.rt.records.insertionSort RepairRecord.upTo :=
  congrFun (congrFun (congrArg List.foldr (funext fun r => funext fun l => insertByKey_eq r l)) []) _

theorem State.sortedRecords_perm (s : State) : s.sortedRecords.Perm s.rt.records :=
  s.sortedRecords_eq ▸ List.perm_insertionSort _ _

theorem State.sortedRecords_ascend (s : State) : s.sortedRecords.Pairwise RepairRecord.upTo := by
  have : Std.Total RepairRecord.upTo := ⟨RepairRecord.upTo_total⟩
  have : IsTrans RepairRecord RepairRecord.upTo := ⟨fun _ _ _ => RepairRecord.upTo_trans⟩
  exact s.sortedRecords_eq ▸ List.pairwise_insertionSort _ _

/-! ## The bytes of a page (R184) -/

/-- A part of a payload carries its fields where it stands in the whole. -/
theorem carries_within {p : List Byte} {o w : Nat} {v : Int} (carries : Carries p o w v) (a b : List Byte) :
    Carries (a ++ p ++ b) (a.length + o) w v := by
  obtain ⟨inside, value⟩ := carries
  refine ⟨by simp only [List.length_append]; omega, ?_⟩
  rw [List.append_assoc, ← List.drop_drop, List.drop_left, List.drop_append_of_le_length (by omega),
    List.take_append_of_le_length (by rw [List.length_drop]; omega)]
  exact value

/-- The fields of the repair report, each with its width (R184). -/
def RepairRecord.reportFields (r : RepairRecord) : List (Nat × Int) :=
  [(1, r.slot), (1, headNumber r.head), (2, r.segment), (2, r.first), (2, r.last.getD 65535), (2, r.thread),
   (1, r.cause.code), (1, r.state.code), (2, r.through.getD 32767)]

theorem RepairRecord.report_eq (r : RepairRecord) : r.report = fieldBytes r.reportFields := by
  simp [RepairRecord.report, RepairRecord.reportFields, fieldBytes]

/-- The widths of the fields of the repair report. -/
def repairReportWidths : List Nat := [1, 1, 2, 2, 2, 2, 1, 1, 2]

theorem RepairRecord.report_length (r : RepairRecord) : r.report.length = 14 := by
  rw [r.report_eq, fieldBytes_length]
  exact (show repairReportWidths.sum = 14 from rfl)

/-- The repair report carries each of its fields. -/
theorem RepairRecord.carries_report (r : RepairRecord) (i : Nat) {o w : Nat} {v : Int}
    (field : r.reportFields[i]? = some (w, v)) (ho : (repairReportWidths.take i).sum = o := by decide) :
    Carries r.report o w v :=
  r.report_eq ▸ carries_field (widths := repairReportWidths) rfl i field ho

theorem repairReports_length (l : List RepairRecord) : (l.flatMap RepairRecord.report).length = 14 * l.length := by
  rw [List.length_flatMap, List.map_congr_left fun r _ => r.report_length]
  simp [Nat.mul_comm]

/-- The payload of REPAIR_LIST: how many records, whether more follow, and their reports. -/
def listPage (listed : List RepairRecord) (more : Bool) : List Byte :=
  beBytes 1 listed.length ++ beBytes 1 (boolCode more) ++ listed.flatMap RepairRecord.report

theorem listPage_length (listed : List RepairRecord) (more : Bool) :
    (listPage listed more).length = 2 + 14 * listed.length := by
  simp only [listPage, List.length_append, beBytes_length, repairReports_length]

theorem listPage_carries_count (listed : List RepairRecord) (more : Bool) :
    Carries (listPage listed more) 0 1 listed.length := by
  have at_ := carries_within (carries_beBytes 1 (listed.length : Int)) []
    (beBytes 1 (boolCode more) ++ listed.flatMap RepairRecord.report)
  rwa [List.nil_append, ← List.append_assoc] at at_

theorem listPage_carries_more (listed : List RepairRecord) (more : Bool) :
    Carries (listPage listed more) 1 1 (boolCode more) := by
  have at_ := carries_within (carries_beBytes 1 (boolCode more : Int)) (beBytes 1 listed.length)
    (listed.flatMap RepairRecord.report)
  rwa [beBytes_length] at at_

/-- The page carries the report of each record it lists, 14 bytes each after the first two. -/
theorem listPage_carries_report {listed : List RepairRecord} (more : Bool) {i o w : Nat} {v : Int}
    (at_ : listed[i]? = some r) (carries : Carries r.report o w v) :
    Carries (listPage listed more) (2 + 14 * i + o) w v := by
  obtain ⟨inside, here⟩ := List.getElem?_eq_some_iff.1 at_
  have parts : listPage listed more =
      (beBytes 1 listed.length ++ beBytes 1 (boolCode more) ++ (listed.take i).flatMap RepairRecord.report) ++
        r.report ++ (listed.drop (i + 1)).flatMap RepairRecord.report := by
    have parted : listed.flatMap RepairRecord.report = (listed.take i).flatMap RepairRecord.report ++
        (r.report ++ (listed.drop (i + 1)).flatMap RepairRecord.report) := by
      conv_lhs => rw [← List.take_append_drop i listed, List.drop_eq_getElem_cons inside, here]
      rw [List.flatMap_append, List.flatMap_cons]
    simp only [listPage, parted, List.append_assoc]
  have before : (beBytes 1 listed.length ++ beBytes 1 (boolCode more) ++
      (listed.take i).flatMap RepairRecord.report).length = 2 + 14 * i := by
    simp only [List.length_append, beBytes_length, repairReports_length, List.length_take, Nat.min_eq_left inside.le]
  rw [parts, ← before]
  exact carries_within carries _ _

/-! ## REPAIR_LIST (R162) -/

/-- The cursor of a REPAIR_LIST: the key after which records are listed, if there is one. -/
def listCursor (present : Byte) (segment : BitVec 16) (head : Byte) (first : BitVec 16) : Option (Nat × Nat × Nat) :=
  if present = 0 then none else some (segment.toNat, head.toNat, first.toNat)

theorem exec_repairList (acts : Acts s) (present : Byte) (segment : BitVec 16) (head : Byte) (first : BitVec 16) :
    exec (.repairList present segment head first) s =
      let after := s.recordsAfter (listCursor present segment head first)
      .next (done (listPage (after.take 8) (decide (8 < after.length))) s) := by
  show execRepairList present segment head first s = _
  unfold execRepairList
  rw [whenOperating_of_acts acts]
  rfl

/-- The key of a record lies after the cursor. -/
theorem afterCursor_iff (present : Byte) (segment : BitVec 16) (head : Byte) (first : BitVec 16) (r : RepairRecord) :
    ((listCursor present segment head first).elim true fun c => keyBefore c r.key) = true ↔
      present = 0 ∨ segment.toNat < r.segment ∨ segment.toNat = r.segment ∧
        (head.toNat < r.head.val + 1 ∨ head.toNat = r.head.val + 1 ∧ first.toNat < r.first) := by
  by_cases absent : present = 0
  · simp [listCursor, absent]
  · rw [listCursor, if_neg absent, Option.elim_some, keyBefore_iff, or_iff_right absent]
    rfl

/-- Settles O16: the page is the first eight of the sorted records after the cursor, each report in its place. -/
theorem repairListPages : Obligations.RepairListPages := by
  intro present segment head first s acts after before
  have listedAfter (r : RepairRecord) := afterCursor_iff present segment head first r
  rw [exec_repairList acts]
  generalize hl : s.recordsAfter (listCursor present segment head first) = l
  have perm : l.Perm (s.rt.records.filter fun r => decide (after r)) := by
    rw [← hl]
    refine (s.sortedRecords_perm.filter _).trans (.of_eq (List.filter_congr fun r _ => ?_))
    rw [Bool.eq_iff_iff, decide_eq_true_iff]
    exact listedAfter r
  have ascend : l.Pairwise RepairRecord.upTo := hl ▸ s.sortedRecords_ascend.filter _
  have whole := List.take_append_drop 8 l
  refine ⟨listPage (l.take 8) (decide (8 < l.length)), l.take 8, l.drop 8, rfl, fun r => ?_, ?_, ?_,
    List.length_take_le 8 l, fun more => ?_, listPage_length _ _, listPage_carries_count _ _, ?_, fun i r at_ => ?_⟩
  · rw [whole, perm.mem_iff, List.mem_filter, decide_eq_true_iff]
  · rw [whole, perm.length_eq]
  · rw [whole]
    refine ascend.imp fun {a b} stands earlier => stands ((keyBefore_iff _ _).2 ?_)
    simp only [before, Fin.lt_def, Fin.ext_iff] at earlier
    simpa [RepairRecord.key, headNumber] using earlier
  · have long := List.length_pos_iff.2 more
    rw [List.length_drop] at long
    rw [List.length_take]
    omega
  · have flag : (boolCode (decide (8 < l.length)) : Int) = if l.drop 8 = [] then 0 else 1 := by
      by_cases more : 8 < l.length <;> simp [boolCode, List.drop_eq_nil_iff, more, Nat.not_le.2, Nat.not_lt.1]
    exact flag ▸ listPage_carries_more _ _
  · have field (j o : Nat) {w : Nat} {v : Int} (this : r.reportFields[j]? = some (w, v))
        (ho : (repairReportWidths.take j).sum = o := by decide) :=
      listPage_carries_report (decide (8 < l.length)) at_ (r.carries_report j this ho)
    exact ⟨field 0 0 rfl, field 1 1 rfl, field 2 2 rfl, field 3 4 rfl, field 4 6 rfl, field 5 8 rfl, field 6 10 rfl,
      field 7 11 rfl, field 8 12 rfl⟩

end Sys2Proof.Machine
end

section
/-! PROOF. REPAIR_CANCEL (R163): the refusals in their order, one record retired by its slot, and the records of a head
retired one after the other. -/

open Sys2Proof.Claims

namespace Sys2Proof.Machine

variable {s : State} {r : RepairRecord} {by_ which : Byte} {h : HeadId}

/-- A record may be cancelled: it is CLOSED, or OPEN on an ACTIVE head. -/
theorem State.cancellable_iff (s : State) (r : RepairRecord) : s.cancellable r = true ↔
    r.state = .closed ∨ r.state = .opened ∧ (s.head r.head).state = .active := by
  unfold State.cancellable
  cases r.state <;> simp

/-! ## The request and its refusals (R163) -/

theorem exec_repairCancel (acts : Acts s) : exec (.repairCancel by_ which) s =
    .next (s.unless [(!s.jobOpen, .noJob)] fun s =>
      if by_ = 0 then
        if which.toNat < Config.repairSlots then s.cancelSlot which.toNat else s.refuse .badArgument
      else if by_ = 1 then (headOf which).elim (s.refuse .badArgument) s.cancelHead
      else s.refuse .badArgument) := by
  show execRepairCancel by_ which s = _
  unfold execRepairCancel
  rw [whenOperating_of_acts acts]
  cases headOf which <;> rfl

theorem exec_repairCancel_idle (acts : Acts s) (idle : s.pc.state = .idle) :
    exec (.repairCancel by_ which) s = .next (refused .noJob s) := by
  rw [exec_repairCancel acts, State.unless_refused]
  simp [State.jobOpen, idle]

/-- The request while a job is open. -/
theorem exec_repairCancel_open (acts : Acts s) (job : s.pc.state ≠ .idle) : exec (.repairCancel by_ which) s =
    .next (if by_ = 0 then
        if which.toNat < 128 then s.cancelSlot which.toNat else refused .badArgument s
      else if by_ = 1 then (headOf which).elim (refused .badArgument s) s.cancelHead
      else refused .badArgument s) := by
  have carriedOut : firstReason [(!s.jobOpen, .noJob)] = none := by simp [State.jobOpen_iff.2 job]
  rw [exec_repairCancel acts, State.unless_carriedOut carriedOut]
  rfl

theorem exec_repairCancel_slot (acts : Acts s) (job : s.pc.state ≠ .idle) (low : which.toNat < 128) :
    exec (.repairCancel 0 which) s = .next (s.cancelSlot which.toNat) := by
  rw [exec_repairCancel_open acts job, if_pos rfl, if_pos low]

theorem exec_repairCancel_head (acts : Acts s) (job : s.pc.state ≠ .idle) :
    exec (.repairCancel 1 which) s = .next ((headOf which).elim (refused .badArgument s) s.cancelHead) := by
  rw [exec_repairCancel_open acts job, if_neg (by decide), if_pos rfl]

theorem exec_repairCancel_outside (acts : Acts s) (job : s.pc.state ≠ .idle)
    (outside : by_ = 0 ∧ 128 ≤ which.toNat ∨ 1 < by_.toNat) :
    exec (.repairCancel by_ which) s = .next (refused .badArgument s) := by
  rw [exec_repairCancel_open acts job]
  rcases outside with ⟨rfl, high⟩ | high
  · rw [if_pos rfl, if_neg (Nat.not_lt.2 high)]
  · have apart : by_ ≠ 0 ∧ by_ ≠ 1 := by
      constructor <;> rintro rfl <;> exact absurd high (by decide)
    rw [if_neg apart.1, if_neg apart.2]

/-! ## By slot (R163) -/

theorem State.cancelSlot_absent {n : Nat} (free : ∀ r ∈ s.rt.records, r.slot ≠ n) :
    s.cancelSlot n = refused .notFound s := by
  have absent : s.rt.records.find? (·.slot == n) = none :=
    List.find?_eq_none.2 fun r there => by simpa using free r there
  unfold State.cancelSlot
  rw [absent]
  exact State.unless_refused rfl _

theorem State.cancelSlot_busy {n : Nat} (there : s.rt.records.find? (·.slot == n) = some r)
    (busy : s.cancellable r = false) : s.cancelSlot n = refused .busy s := by
  unfold State.cancelSlot
  rw [there]
  exact State.unless_refused (by simp [busy]) _

theorem State.cancelSlot_retires {n : Nat} (there : s.rt.records.find? (·.slot == n) = some r)
    (may : s.cancellable r = true) : s.cancelSlot n = done (beBytes 1 1) (s.retire r) := by
  unfold State.cancelSlot
  rw [there]
  exact State.unless_carriedOut (by simp [may]) _

/-! ## By head (R163) -/

/-- The records of a head that a REPAIR_CANCEL retires. -/
def State.cancelledOf (s : State) (h : HeadId) : List RepairRecord :=
  s.rt.records.filter fun r =>
    decide (r.head = h ∧ (r.state = .closed ∨ r.state = .opened ∧ (s.head r.head).state = .active))

theorem State.mem_cancelledOf : r ∈ s.cancelledOf h ↔ r ∈ s.rt.records ∧ r.head = h ∧
    (r.state = .closed ∨ r.state = .opened ∧ (s.head r.head).state = .active) := by
  rw [State.cancelledOf, List.mem_filter, decide_eq_true_iff]

theorem State.cancelledOf_eq (s : State) (h : HeadId) :
    (s.rt.records.filter (·.head == h)).filter s.cancellable = s.cancelledOf h := by
  rw [List.filter_filter]
  refine List.filter_congr fun r _ => ?_
  rw [Bool.eq_iff_iff, Bool.and_eq_true, State.cancellable_iff, beq_iff_eq, decide_eq_true_iff, and_comm]

theorem State.cancelHead_busy (busy : ∃ r ∈ s.rt.records, r.head = h ∧ r.state = .active) :
    s.cancelHead h = refused .busy s := by
  obtain ⟨r, there, own, active⟩ := busy
  have found : (s.rt.records.filter (·.head == h)).any (·.state == .active) = true :=
    List.any_eq_true.2 ⟨r, List.mem_filter.2 ⟨there, by simp [own]⟩, by simp [active]⟩
  have stopped : firstReason [((s.rt.records.filter (·.head == h)).any (·.state == .active), Reason.busy)] =
      some .busy := by rw [firstReason_cons, if_pos found]
  unfold State.cancelHead
  exact State.unless_refused stopped _

theorem State.cancelHead_retires (calm : ∀ r ∈ s.rt.records, r.head = h → r.state ≠ .active) :
    s.cancelHead h = done (beBytes 1 (s.cancelledOf h).length) (s.retireAll (s.cancelledOf h)) := by
  have none_ : (s.rt.records.filter (·.head == h)).any (·.state == .active) = false :=
    List.any_eq_false.2 fun r mine => by
      obtain ⟨there, own⟩ := List.mem_filter.1 mine
      simpa using calm r there (beq_iff_eq.1 own)
  have passed : firstReason [((s.rt.records.filter (·.head == h)).any (·.state == .active), Reason.busy)] = none := by
    simp [none_]
  unfold State.cancelHead
  dsimp only
  rw [State.unless_carriedOut passed, State.cancelledOf_eq]

/-- Settles O39: the refusals, the record of a slot retired, and the records of a head retired in turn. -/
theorem repairCancels : Obligations.RepairCancels := by
  intro by_ which s acts request may
  refine ⟨exec_repairCancel_idle acts, fun job slot high => ?_, fun job slot low free => ?_,
    fun r job slot low sound there => ⟨fun not_ => ?_, fun yes => ?_⟩, fun job high => ?_, fun job head out => ?_,
    fun h job head names => ?_⟩
  · exact exec_repairCancel_outside acts job (.inl ⟨slot, high⟩)
  · subst slot
    exact (exec_repairCancel_slot acts job low).trans (congrArg _ (State.cancelSlot_absent free))
  · subst slot
    have busy := Bool.eq_false_iff.2 (mt (s.cancellable_iff r).1 not_)
    exact (exec_repairCancel_slot acts job low).trans (congrArg _ (State.cancelSlot_busy there busy))
  · subst slot
    exact ⟨s.retire r, beBytes 1 1, (exec_repairCancel_slot acts job low).trans
      (congrArg _ (State.cancelSlot_retires there ((s.cancellable_iff r).2 yes))), beBytes_length 1 1,
      carries_beBytes 1 1, State.retire_retired sound r⟩
  · exact exec_repairCancel_outside acts job (.inr high)
  · subst head
    exact (exec_repairCancel_head acts job).trans (by rw [headOf_outside out, Option.elim_none])
  · subst head
    have byHead : request = .next (s.cancelHead h) :=
      (exec_repairCancel_head acts job).trans (by rw [headOf_names names, Option.elim_some])
    intro stays
    refine ⟨fun busy => byHead.trans (congrArg _ (State.cancelHead_busy busy)), fun calm => ?_⟩
    have kept : (s.rt.records.filter fun q => decide (∀ x ∈ s.cancelledOf h, x.slot ≠ q.slot)) =
        s.rt.records.filter stays := List.filter_congr fun q _ => decide_eq_decide.2 <| by
      simp only [State.mem_cancelledOf, and_imp, may]
    exact ⟨s.retireAll (s.cancelledOf h), _, byHead.trans (congrArg _ (State.cancelHead_retires calm)),
      beBytes_length 1 _, carries_beBytes 1 _, kept ▸ s.retireAll_shape _,
      fun sound => State.retireAll_retired sound _,
      fun sound pinned => (State.retireAll_follows sound pinned List.filter_sublist).pinsFollow⟩

end Sys2Proof.Machine
end

section
/-! PROOF. The open request (R148 to R151): a record made in the lowest free slot, the table full, and the records
merged into one. Before it, the Repair Table after a record is put in its place or retired. -/

open Sys2Proof.Claims

namespace Sys2Proof.Machine

variable {s t : State} {h : HeadId} {g f : Nat} {cause : RepairCause}

/-! ## The Repair Table after one change (R149) -/

/-- A record put in the place of the one of its slot. -/
theorem State.mem_putRecord {q r x : RepairRecord} (there : q ∈ s.rt.records) (slot : q.slot = r.slot) :
    x ∈ (s.putRecord r).rt.records ↔ x = r ∨ x ∈ s.rt.records ∧ x.slot ≠ r.slot := by
  unfold State.putRecord
  simp only [List.mem_map]
  constructor
  · rintro ⟨y, mem, rfl⟩
    by_cases own : y.slot = r.slot
    · exact .inl (if_pos own)
    · rw [if_neg own]
      exact .inr ⟨mem, own⟩
  · rintro (rfl | ⟨mem, other⟩)
    · exact ⟨q, there, if_pos slot⟩
    · exact ⟨x, mem, if_neg other⟩

theorem State.putRecord_follows (sound : s.ds.Sound) (pinned : s.Pinned) {q r : RepairRecord} (there : q ∈ s.rt.records)
    (slot : q.slot = r.slot) (segment : q.segment = r.segment) : Follows s (s.putRecord r) :=
  .of_ds sound (pinned.putRecord there slot segment) rfl

theorem State.mem_retire {r x : RepairRecord} :
    x ∈ (s.retire r).rt.records ↔ x ∈ s.rt.records ∧ x.slot ≠ r.slot := by
  rw [State.retire_records, List.mem_filter, bne_iff_ne]

theorem State.mem_retireAll {l : List RepairRecord} {x : RepairRecord} :
    x ∈ (s.retireAll l).rt.records ↔ x ∈ s.rt.records ∧ ∀ y ∈ l, y.slot ≠ x.slot := by
  rw [State.retireAll_shape, List.mem_filter, decide_eq_true_iff]

/-! ## A record that joins the table with its pin (R148, R149) -/

/-- The state with a record in the table and its segment pinned. -/
def State.recordJoined (s : State) (r : RepairRecord) : State :=
  ({ s with rt := { s.rt with records := insertRecord r s.rt.records } }).pin r.segment

theorem State.recordJoined_eq {r : RepairRecord} {q : SegRecord} (there : s.findSeg r.segment = some q) :
    s.recordJoined r = { s.putSeg { q with pins := q.pins + 1 } with
      rt := { s.rt with records := insertRecord r s.rt.records } } := by
  have found : ({ s with rt := { s.rt with records := insertRecord r s.rt.records } } : State).findSeg r.segment =
      some q := there
  rw [State.recordJoined, State.pin, found]
  rfl

theorem State.recordJoined_findSeg (sound : s.ds.Sound) {r : RepairRecord} {q : SegRecord}
    (there : s.findSeg r.segment = some q) :
    (s.recordJoined r).findSeg r.segment = some { q with pins := q.pins + 1 } ∧
      ∀ m, m ≠ r.segment → (s.recordJoined r).findSeg m = s.findSeg m := by
  obtain ⟨mem, -⟩ := State.findSeg_mem there
  obtain ⟨-, -, -, pages⟩ := id sound
  rw [State.recordJoined_eq there]
  exact State.findSeg_putSeg (r' := { q with pins := q.pins + 1 }) sound there rfl rfl rfl rfl (pages q mem).2

theorem State.recordJoined_follows (sound : s.ds.Sound) (pinned : s.Pinned) {r : RepairRecord} {q : SegRecord}
    (there : s.findSeg r.segment = some q) (sewn : q.state = .active ∨ q.state = .sewn) (low : r.slot < 128)
    (free : ∀ x ∈ s.rt.records, x.slot ≠ r.slot) : Follows s (s.recordJoined r) := by
  obtain ⟨own, others⟩ := State.recordJoined_findSeg sound there
  obtain ⟨mem, -⟩ := State.findSeg_mem there
  have recordable : s.recordable r.segment = true := by simp [State.recordable, there, sewn]
  have served : (s.recordJoined r).ds.served = s.ds.served := by rw [State.recordJoined_eq there]; rfl
  have stays : (s.recordJoined r).ds.Sound := by
    rw [State.recordJoined_eq there]
    exact State.putSeg_pins_sound sound mem _
  refine ⟨stays, pinned.create sound low free recordable, served, fun m none_ => ?_, fun m x stands => .inl ?_⟩
  · have other : m ≠ r.segment := fun e => by simp [e, there] at none_
    rw [others m other, none_]
  · by_cases e : m = r.segment
    · subst e
      obtain rfl := Option.some.inj (there.symm.trans stands)
      exact ⟨_, own, fun _ _ _ => Nat.succ_pos _⟩
    · exact ⟨x.pins, (others m e).trans stands, fun _ _ => id⟩

/-! ## A record made (R149, R151) -/

/-- The lowest free slot of a table whose slots rise. -/
theorem lowestFreeSlot_eq {l : List RepairRecord} (rises : (l.map (·.slot)).Pairwise (· < ·)) {k : Nat}
    (free : ∀ r ∈ l, r.slot ≠ k) (below : ∀ j, j < k → ∃ r ∈ l, r.slot = j) : lowestFreeSlot (l.map (·.slot)) 0 = k := by
  obtain ⟨unheld, -, held⟩ := lowestFreeSlot_spec rises (a := 0) fun _ _ => Nat.zero_le _
  rcases lt_trichotomy (lowestFreeSlot (l.map (·.slot)) 0) k with lower | same | higher
  · exact absurd (List.mem_map.2 (below _ lower)) unheld
  · exact same
  · obtain ⟨r, mem, slot⟩ := List.mem_map.1 (held k (Nat.zero_le _) higher)
    exact absurd slot (free r mem)

theorem State.createRecord_full (pinned : s.Pinned) (full : ∀ k, k < 128 → ∃ r ∈ s.rt.records, r.slot = k) :
    s.createRecord h g f cause = none := by
  obtain ⟨rises, -⟩ := id pinned
  obtain ⟨unheld, -⟩ := lowestFreeSlot_spec rises (a := 0) fun _ _ => Nat.zero_le _
  exact if_neg fun low => unheld (List.mem_map.2 (full _ low))

/-- A record made in a slot has joined the table, OPEN from its first index. -/
theorem State.createRecord_made (pinned : s.Pinned) {q : SegRecord} (there : s.findSeg g = some q) {k : Nat}
    (low : k < 128) (free : ∀ r ∈ s.rt.records, r.slot ≠ k) (below : ∀ j, j < k → ∃ r ∈ s.rt.records, r.slot = j) :
    s.createRecord h g f cause = some (s.recordJoined ⟨k, h, g, f, none, q.thread, cause, .opened, none⟩) := by
  obtain ⟨rises, -⟩ := id pinned
  unfold State.createRecord
  rw [lowestFreeSlot_eq rises free below, there]
  exact if_pos low

/-! ## The records merged (R150) -/

theorem mergedBy_iff (r : RepairRecord) : mergedBy h g f r = true ↔ r.head = h ∧ r.segment = g ∧
    (r.state = .opened ∨ r.state = .closed ∧ ∃ l, r.last = some l ∧ f ≤ l + 1) := by
  rw [mergedBy, Bool.and_eq_true, Bool.and_eq_true, beq_iff_eq, beq_iff_eq, and_assoc]
  refine and_congr_right fun _ => and_congr_right fun _ => ?_
  cases r.state with
  | opened => simp
  | closed => cases r.last <;> simp
  | active => simp

/-- The records that an open request merges. -/
def State.mergedRecords (s : State) (h : HeadId) (g f : Nat) : List RepairRecord := s.rt.records.filter (mergedBy h g f)

theorem State.mem_mergedRecords {r : RepairRecord} : r ∈ s.mergedRecords h g f ↔ r ∈ s.rt.records ∧ r.head = h ∧
    r.segment = g ∧ (r.state = .opened ∨ r.state = .closed ∧ ∃ l, r.last = some l ∧ f ≤ l + 1) := by
  rw [State.mergedRecords, List.mem_filter, mergedBy_iff]

theorem leastFirst_isSome {l : List RepairRecord} {r : RepairRecord} (mem : r ∈ l) :
    ∃ least, leastFirst l = some least := by
  cases l with
  | nil => cases mem
  | cons c l =>
    unfold leastFirst
    split
    · exact ⟨_, rfl⟩
    · split <;> exact ⟨_, rfl⟩

theorem leastFirst_le {l : List RepairRecord} {least : RepairRecord} (found : leastFirst l = some least) :
    ∀ r ∈ l, least.first ≤ r.first := by
  induction l generalizing least with
  | nil => cases found
  | cons c l ih =>
    intro r mem
    rw [leastFirst] at found
    cases rest : leastFirst l with
    | none =>
      have alone : r = c := (List.mem_cons.1 mem).resolve_right fun mem => by
        obtain ⟨_, some_⟩ := leastFirst_isSome mem
        exact nomatch rest.symm.trans some_
      simp only [rest, Option.some.injEq] at found
      rw [alone, found]
    | some q =>
      simp only [rest] at found
      have low := ih rest
      rcases List.mem_cons.1 mem with rfl | mem
      · split at found <;> cases found <;> omega
      · have := low r mem
        split at found <;> cases found <;> omega

/-- The record that a merge keeps: the OPEN one, or the one with the least first index. -/
def keptRecord (merged : List RepairRecord) (least : RepairRecord) : RepairRecord :=
  (merged.find? (·.state == .opened)).getD least

theorem keptRecord_spec {merged : List RepairRecord} {least : RepairRecord} (mem : least ∈ merged) :
    keptRecord merged least ∈ merged ∧ ((keptRecord merged least).state = .opened ∨
      keptRecord merged least = least ∧ ∀ r ∈ merged, r.state ≠ .opened) := by
  unfold keptRecord
  cases found : merged.find? (·.state == .opened) with
  | none => exact ⟨mem, .inr ⟨rfl, fun r there => by simpa using List.find?_eq_none.1 found r there⟩⟩
  | some r => exact ⟨List.mem_of_find?_eq_some found, .inl (beq_iff_eq.1 (List.find?_some found :))⟩

/-- The record kept as a merge leaves it: OPEN from the least of all first indices, with the cause of the least. -/
def mergeInto (f : Nat) (cause : RepairCause) (least kept : RepairRecord) : RepairRecord := { kept with
  first := min f least.first, last := none, cause := if f < least.first then cause else least.cause
  state := .opened, through := none }

/-- The state after a merge: one record kept, the others retired. -/
def State.mergedTo (s : State) (merged : List RepairRecord) (kept now : RepairRecord) : State :=
  (s.putRecord now).retireAll (merged.filter (·.slot != kept.slot))

theorem State.openAt_creates (alone : s.mergedRecords h g f = []) :
    s.openAt h g f cause = s.createRecord h g f cause := by
  unfold State.openAt
  rw [show s.rt.records.filter (mergedBy h g f) = [] from alone]
  rfl

theorem State.openAt_merges {least kept : RepairRecord} (found : leastFirst (s.mergedRecords h g f) = some least)
    (keeps : keptRecord (s.mergedRecords h g f) least = kept) : s.openAt h g f cause =
      some (s.mergedTo (s.mergedRecords h g f) kept (mergeInto f cause least kept)) := by
  subst keeps
  unfold State.openAt
  rw [show s.rt.records.filter (mergedBy h g f) = s.mergedRecords h g f from rfl]
  dsimp only
  rw [found]
  rfl

theorem State.mergedTo_shape (s : State) (merged : List RepairRecord) (kept now : RepairRecord) :
    s.mergedTo merged kept now = { s with
      rt := { s.rt with records := (s.mergedTo merged kept now).rt.records }
      ds := { s.ds with segs := (s.mergedTo merged kept now).ds.segs, pool := (s.mergedTo merged kept now).ds.pool
                        loadWant := (s.mergedTo merged kept now).ds.loadWant } } := by
  unfold State.mergedTo
  generalize hv : (s.putRecord now).retireAll _ = v
  have shape := (s.putRecord now).retireAll_shape (merged.filter (·.slot != kept.slot))
  rw [hv] at shape
  rw [shape]
  rfl

section
variable {kept now : RepairRecord}

/-- A merge leaves the kept record and those it did not merge. -/
theorem State.mem_mergedTo (pinned : s.Pinned) (mem : kept ∈ s.mergedRecords h g f) (slot : now.slot = kept.slot)
    (x : RepairRecord) : x ∈ (s.mergedTo (s.mergedRecords h g f) kept now).rt.records ↔
      x = now ∨ x ∈ s.rt.records ∧ x ∉ s.mergedRecords h g f := by
  have listed : (s.mergedRecords h g f).Sublist s.rt.records := List.filter_sublist
  obtain ⟨rises, -⟩ := id pinned
  rw [State.mergedTo, State.mem_retireAll, State.mem_putRecord (listed.subset mem) slot.symm]
  simp only [List.mem_filter, bne_iff_ne, and_imp, slot]
  constructor
  · rintro ⟨rfl | ⟨there, other⟩, apart⟩
    · exact .inl rfl
    · exact .inr ⟨there, fun merged => apart x merged other rfl⟩
  · rintro (rfl | ⟨there, unmerged⟩)
    · exact ⟨.inl rfl, fun (y : RepairRecord) _ other => slot ▸ other⟩
    · have apart (y : RepairRecord) (merged : y ∈ s.mergedRecords h g f) : y.slot ≠ x.slot := fun same =>
        unmerged (record_slot_inj rises (listed.subset merged) there same ▸ merged)
      exact ⟨.inr ⟨there, (apart kept mem).symm⟩, fun y merged _ => apart y merged⟩

/-- A record put in its place leaves the records of other slots. -/
theorem State.putRecord_others (s : State) (r : RepairRecord) :
    (s.putRecord r).rt.records.filter (·.slot != r.slot) = s.rt.records.filter (·.slot != r.slot) := by
  have stays : ((fun x : RepairRecord => x.slot != r.slot) ∘ fun x => if x.slot = r.slot then r else x) =
      fun x => x.slot != r.slot := by
    funext x
    by_cases own : x.slot = r.slot <;> simp [own]
  unfold State.putRecord
  rw [List.filter_map, stays]
  refine (List.map_congr_left fun x mem => ?_).trans (List.map_id _)
  exact if_neg (bne_iff_ne.1 (List.mem_filter.1 mem).2)

theorem State.mergedTo_follows (sound : s.ds.Sound) (pinned : s.Pinned) (mem : kept ∈ s.mergedRecords h g f)
    (slot : now.slot = kept.slot) (segment : now.segment = kept.segment) :
    Follows s (s.mergedTo (s.mergedRecords h g f) kept now) := by
  have listed : (s.mergedRecords h g f).Sublist s.rt.records := List.filter_sublist
  have put := State.putRecord_follows sound pinned (listed.subset mem) slot.symm segment.symm
  have others := s.putRecord_others now
  rw [slot] at others
  have rest := listed.filter fun x : RepairRecord => x.slot != kept.slot
  rw [← others] at rest
  exact put.trans (State.retireAll_follows put.sound put.pinned (rest.trans List.filter_sublist))

end

/-! ## The open request (R150) -/

theorem State.openRequest_inside {q : SegRecord} (there : s.findSeg g = some q)
    (sewn : q.state = .active ∨ q.state = .sewn) (inside : f < q.count) :
    s.openRequest h g f cause = s.openAt h g f cause := by
  have recordable : s.recordable g = true := by simp [State.recordable, there, sewn]
  have first : s.firstIndex g f = f := by
    rw [State.firstIndex, there, Option.elim_some]
    omega
  rw [State.openRequest, if_pos recordable, first]

/-- A request from past the last stitch is one from that stitch. -/
theorem State.openRequest_past {q : SegRecord} (there : s.findSeg g = some q) (past : q.count ≤ f) :
    s.openRequest h g f cause = s.openRequest h g (q.count - 1) cause := by
  have first : s.firstIndex g f = s.firstIndex g (q.count - 1) := by
    simp only [State.firstIndex, there, Option.elim_some]
    omega
  rw [State.openRequest, State.openRequest, first]

/-- Settles O59: a request from past the end, the table full, a record made, and records merged. -/
theorem recordsAreOpened : Obligations.RecordsAreOpened := by
  intro s h g f cause q sound pinned there sewn request merges
  have merged (r : RepairRecord) : r ∈ s.mergedRecords h g f ↔ merges r := State.mem_mergedRecords
  have creates (inside : f < q.count) (alone : ∀ r, ¬ merges r) : request = s.createRecord h g f cause :=
    (State.openRequest_inside there sewn inside).trans
      (State.openAt_creates (List.eq_nil_iff_forall_not_mem.2 fun r mem => alone r ((merged r).1 mem)))
  refine ⟨State.openRequest_past there, fun inside alone full => ?_, fun k inside alone low free below => ?_,
    fun least inside mem minimal => ?_⟩
  · exact (creates inside alone).trans (State.createRecord_full pinned full)
  · intro made
    obtain ⟨own, -⟩ := State.recordJoined_findSeg sound (r := made) there
    refine ⟨s.recordJoined made, (creates inside alone).trans (State.createRecord_made pinned there low free below), ?_,
      fun r => ?_, own, (State.recordJoined_follows sound pinned there sewn low free).pinsFollow⟩
    · rw [State.recordJoined_eq (r := made) there]
      rfl
    · rw [State.recordJoined_eq (r := made) there, (insertRecord_perm made s.rt.records).mem_iff, List.mem_cons]
  · obtain ⟨first, found⟩ := leastFirst_isSome ((merged least).2 mem)
    have memFirst := leastFirst_mem found
    have same : first.first = least.first :=
      Nat.le_antisymm (leastFirst_le found least ((merged least).2 mem)) (minimal first ((merged first).1 memFirst))
    obtain ⟨memKept, which⟩ := keptRecord_spec memFirst
    generalize keeps : keptRecord (s.mergedRecords h g f) first = kept at memKept which
    have follows := State.mergedTo_follows (now := mergeInto f cause first kept) sound pinned memKept rfl rfl
    have records := State.mem_mergedTo (now := mergeInto f cause first kept) pinned memKept rfl
    have causes : (mergeInto f cause first kept).cause = if f < least.first then cause else first.cause := by
      rw [← same]
      rfl
    obtain ⟨-, -, named, -⟩ := (merged kept).1 memKept
    refine ⟨_, kept, mergeInto f cause first kept,
      (State.openRequest_inside there sewn inside).trans (State.openAt_merges found keeps), (merged kept).1 memKept,
      which.imp_right fun ⟨isLeast, unopened⟩ => ⟨isLeast ▸ same, fun r mem => unopened r ((merged r).2 mem)⟩, ?_,
      fun below => ?_, fun above => ⟨first, (merged first).1 memFirst, same, ?_⟩, s.mergedTo_shape _ _ _, fun r => ?_,
      ?_, follows.pinsFollow⟩
    · rw [← same]
      rfl
    · rw [causes, if_pos below]
    · rw [causes, if_neg (Nat.not_lt.2 above)]
    · rw [records, merged]
    · obtain ⟨-, present, -⟩ := follows.pinned
      obtain ⟨-, x, listed, number⟩ := present _ ((records _).2 (.inl rfl))
      exact Option.isSome_iff_ne_none.2 fun gone => State.number_ne_of_absent gone x listed (number.trans named)

end Sys2Proof.Machine
end

section
/-! PROOF. The records a repair pass may take (R156, R157), the segment a schedule request answers, and the forming of
the pass (R158). -/

open Sys2Proof.Claims

namespace Sys2Proof.Machine

variable {s t : State} {p : RepairPoint} {g : Nat} {r : RepairRecord}

/-! ## Eligibility and selection (R156, R157) -/

theorem State.eligible_iff (s : State) (r : RepairRecord) : s.eligible r = true ↔ Eligible s r := by
  have fit : (s.fitNeedle r.head r.thread).isSome = true ↔ ∃ n : NeedleId,
      (s.sel r.head).needles[n].disabled = false ∧ (s.sel r.head).needles[n].code = r.thread := by
    rw [Option.isSome_iff_ne_none, ne_eq, State.fitNeedle_eq_none, not_forall_not]
  rw [State.eligible, Bool.and_eq_true, Bool.and_eq_true, Bool.or_eq_true, fit, beq_iff_eq, beq_iff_eq, beq_iff_eq,
    and_assoc]
  rfl

theorem State.selected_segmentEnd_iff : s.selected .segmentEnd r = true ↔
    (∃ j, s.pc.job = some j ∧ j.repairWhen = .segmentEnd) ∧ (∃ m, s.ds.mark = some m ∧ r.segment ≤ m) ∧
      r.thread = s.ds.markThread := by
  unfold State.selected
  cases s.pc.job <;> cases s.ds.mark <;> simp [and_assoc]

theorem State.selected_jobEnd_iff : s.selected .jobEnd r = true ↔
    ∃ j, s.pc.job = some j ∧ j.repairWhen ≠ .onRequest := by
  unfold State.selected
  cases s.pc.job <;> simp

/-- The model's eligibility and selection are the statements'. -/
theorem State.selected_iff (there : r ∈ s.rt.records) :
    (s.eligible r = true ∧ s.selected p r = true) ↔ Selected s p r := by
  have word : Selected s p r ↔ Eligible s r ∧ s.selected p r = true := by
    refine (and_iff_right there).trans (and_congr_right fun _ => ?_)
    cases p with
    | segmentEnd => simp [State.selected_segmentEnd_iff]
    | jobEnd => simp [State.selected_jobEnd_iff]
    | forced => exact iff_of_true ⟨nofun, nofun⟩ rfl
    | run => exact iff_of_true ⟨nofun, nofun⟩ rfl
  rw [word, State.eligible_iff]

/-! ## The schedule request (R157) -/

/-- The least value of a list, taken from none on, is the minimum of the list. -/
theorem foldl_least_eq (f : RepairRecord → Nat) (l : List RepairRecord) :
    l.foldl (fun acc r => some (acc.elim (f r) (min (f r)))) none = (l.map f).min? := by
  cases l with
  | nil => rfl
  | cons r l =>
    rw [List.map_cons, List.min?_cons', List.foldl_map]
    exact List.foldl_hom some fun x y => congrArg some (min_comm _ _)

/-- The records a schedule request chooses from: selected ones above the round mark. -/
def State.schedulable (s : State) (p : RepairPoint) : List RepairRecord := s.rt.records.filter fun r =>
  s.eligible r && s.selected p r && s.rt.roundMark.elim true fun m => decide (m < r.segment)

theorem State.mem_schedulable : r ∈ s.schedulable p ↔
    Selected s p r ∧ ∀ m, s.rt.roundMark = some m → m < r.segment := by
  have above : (s.rt.roundMark.elim true fun m => decide (m < r.segment)) = true ↔
      ∀ m, s.rt.roundMark = some m → m < r.segment := by cases s.rt.roundMark <;> simp
  rw [State.schedulable, List.mem_filter, Bool.and_eq_true, Bool.and_eq_true, above, ← and_assoc]
  refine and_congr_left fun _ => ⟨fun ⟨there, chosen⟩ => (State.selected_iff there).1 chosen, fun chosen => ?_⟩
  exact ⟨chosen.1, (State.selected_iff chosen.1).2 chosen⟩

theorem State.scheduled_eq (s : State) (p : RepairPoint) :
    s.scheduled p = ((s.schedulable p).map (·.segment)).min? := foldl_least_eq _ _

theorem State.scheduled_none : s.scheduled p = none ↔
    ∀ r, Selected s p r → ¬ ∀ m, s.rt.roundMark = some m → m < r.segment := by
  rw [State.scheduled_eq, List.min?_eq_none_iff, List.map_eq_nil_iff, List.eq_nil_iff_forall_not_mem]
  simp only [State.mem_schedulable, not_and]

theorem State.scheduled_named : s.scheduled p = some g ↔ Named s p g := by
  rw [State.scheduled_eq, List.min?_eq_some_iff, List.mem_map, List.forall_mem_map]
  simp only [State.mem_schedulable, and_imp, and_assoc]
  rfl

/-! ## The forming of a repair pass (R158) -/

/-- A record is taken into the repair pass of a segment. -/
def State.passTakes (s : State) (p : RepairPoint) (g : Nat) (r : RepairRecord) : Bool :=
  r.segment == g && s.eligible r && s.selected p r

theorem State.passTakes_iff (there : r ∈ s.rt.records) : s.passTakes p g r = true ↔ Selected s p r ∧ r.segment = g := by
  rw [State.passTakes, Bool.and_assoc, Bool.and_eq_true, beq_iff_eq, Bool.and_eq_true, State.selected_iff there,
    and_comm]

/-- A record as the forming of a pass leaves it. -/
def RepairRecord.activated (r : RepairRecord) : RepairRecord :=
  { r with state := .active, through := some ((r.first : Int) - 1) }

/-- The range and the heads of the records of a pass. -/
def passOf (g : Nat) (mine : List RepairRecord) : RepairPass :=
  ⟨g, mine.foldl (fun a r => min a r.first) (mine.head?.elim 0 (·.first)),
    mine.foldl (fun a r => max a (r.last.getD 0)) 0, headSetOf fun h => mine.any (·.head == h)⟩

theorem State.formPass_eq (s : State) (p : RepairPoint) (g : Nat) : s.formPass p g = { s with rt :=
    ⟨s.rt.records.map fun r => if s.passTakes p g r then r.activated else r, some g, false,
      some (passOf g (s.rt.records.filter (s.passTakes p g)))⟩ } := rfl

section
variable {mine : List RepairRecord} (some_ : r ∈ mine)
include some_

/-- The pass begins at the least first index. -/
theorem passOf_first : (∃ x ∈ mine, x.first = (passOf g mine).first) ∧ ∀ x ∈ mine, (passOf g mine).first ≤ x.first := by
  have least : (mine.map (·.first)).min? = some (passOf g mine).first := by
    cases mine with
    | nil => cases some_
    | cons c l =>
      rw [List.map_cons, List.min?_cons', List.foldl_map, passOf, List.foldl_cons, List.head?_cons, Option.elim_some,
        min_self]
  rw [List.min?_eq_some_iff, List.mem_map, List.forall_mem_map] at least
  exact least

/-- The pass ends at the greatest last index. -/
theorem passOf_last : (∃ x ∈ mine, x.last.getD 0 = (passOf g mine).last) ∧
    ∀ x ∈ mine, x.last.getD 0 ≤ (passOf g mine).last := by
  have greatest : (mine.map (·.last.getD 0)).max? = some (passOf g mine).last := by
    cases mine with
    | nil => cases some_
    | cons c l =>
      rw [List.map_cons, List.max?_cons', List.foldl_map, ← Nat.zero_max (c.last.getD 0)]
      rfl
  rw [List.max?_eq_some_iff, List.mem_map, List.forall_mem_map] at greatest
  exact greatest

end

theorem passOf_involved (mine : List RepairRecord) (h : HeadId) :
    inSet (passOf g mine).involved h = true ↔ ∃ x ∈ mine, x.head = h := by
  rw [passOf, inSet_headSetOf]
  simp

/-- The forming of a pass as the statements tell it. -/
theorem State.formPass_formed (some_ : ∃ r, Selected s p r ∧ r.segment = g) :
    ∃ pass, Formed s (s.formPass p g) p g pass := by
  have mem (x : RepairRecord) : x ∈ s.rt.records.filter (s.passTakes p g) ↔ Selected s p x ∧ x.segment = g := by
    rw [List.mem_filter]
    refine ⟨fun ⟨there, taken⟩ => (State.passTakes_iff there).1 taken, fun mine => ?_⟩
    exact ⟨mine.1.1, (State.passTakes_iff mine.1.1).2 mine⟩
  obtain ⟨r, mine⟩ := some_
  have ⟨first, firsts⟩ := passOf_first (g := g) ((mem r).2 mine)
  have ⟨last, lasts⟩ := passOf_last (g := g) ((mem r).2 mine)
  have heads := passOf_involved (g := g) (s.rt.records.filter (s.passTakes p g))
  simp only [mem] at first firsts last lasts heads
  refine ⟨passOf g (s.rt.records.filter (s.passTakes p g)), rfl, List.length_map _, fun i x at_ => ?_, rfl, first,
    firsts, last, lasts, heads⟩
  have there := List.mem_of_getElem? at_
  have after : (s.formPass p g).rt.records[i]? = some (if s.passTakes p g x then x.activated else x) := by
    rw [State.formPass_eq, List.getElem?_map, at_]
    rfl
  refine ⟨fun taken => ?_, fun left => ?_⟩
  · rw [after, if_pos ((State.passTakes_iff there).2 taken)]
    rfl
  · rw [after, if_neg (mt (State.passTakes_iff there).1 left)]

end Sys2Proof.Machine
end

section
/-! PROOF. The repair pass under way (R159 to R161): records that advance or are cut short in turn, and the end of the
pass. -/

open Sys2Proof.Claims

namespace Sys2Proof.Machine

variable {s t : State} {h : HeadId} {r : RepairRecord}

/-! ## Records renewed or retired in turn -/

/-- A record's turn in a repair pass: it is replaced by a renewed one, or retired, which the pass notes. -/
def State.renew (become : RepairRecord → Option RepairRecord) (s : State) (r : RepairRecord) : State :=
  match become r with
  | some x => s.putRecord x
  | none => { s.retire r with rt := { (s.retire r).rt with retiredInPass := true } }

section
variable {become : RepairRecord → Option RepairRecord}

theorem State.renew_renewed {x : RepairRecord} (renewed : become r = some x) : s.renew become r = s.putRecord x := by
  rw [State.renew, renewed]

theorem State.renew_retired (gone : become r = none) : s.renew become r =
    { s.retire r with rt := { (s.retire r).rt with retiredInPass := true } } := by
  rw [State.renew, gone]

variable (keeps : ∀ r x, become r = some x → x.slot = r.slot ∧ x.segment = r.segment)
include keeps

/-- What one record's turn does. -/
theorem State.renew_turn (sound : s.ds.Sound) (pinned : s.Pinned) (there : r ∈ s.rt.records) :
    Follows s (s.renew become r) ∧
    ((s.renew become r).rt.retiredInPass = true ↔ s.rt.retiredInPass = true ∨ become r = none) ∧
    ∀ x, x ∈ (s.renew become r).rt.records ↔ (x ∈ s.rt.records ∧ x.slot ≠ r.slot) ∨ become r = some x := by
  cases turn : become r with
  | some x =>
    obtain ⟨slot, segment⟩ := keeps r x turn
    rw [State.renew_renewed turn]
    refine ⟨State.putRecord_follows sound pinned there slot.symm segment.symm, by simp [State.putRecord], fun y => ?_⟩
    rw [State.mem_putRecord there slot.symm, slot, or_comm, Option.some.injEq, eq_comm (a := x)]
  | none =>
    rw [State.renew_retired turn]
    have retired := State.retire_follows sound pinned there
    refine ⟨retired.trans (.of_ds retired.sound retired.pinned rfl), by simp, fun y => ?_⟩
    exact State.mem_retire.trans (by simp)

/-- The turns of records of the table: each is replaced or retired, the others stay, and the pins follow. -/
theorem State.renew_turns (sound : s.ds.Sound) (pinned : s.Pinned) {l : List RepairRecord}
    (differ : l.Pairwise (·.slot ≠ ·.slot)) (listed : ∀ r ∈ l, r ∈ s.rt.records) :
    let t := l.foldl (State.renew become) s
    Follows s t ∧ (t.rt.retiredInPass = true ↔ s.rt.retiredInPass = true ∨ ∃ r ∈ l, become r = none) ∧
    ∀ x, x ∈ t.rt.records ↔ (x ∈ s.rt.records ∧ x ∉ l) ∨ ∃ r ∈ l, become r = some x := by
  induction l generalizing s with
  | nil => exact ⟨Follows.refl sound pinned, by simp, by simp⟩
  | cons r l ih =>
    obtain ⟨apart, differ⟩ := List.pairwise_cons.1 differ
    obtain ⟨there, listed⟩ := List.forall_mem_cons.1 listed
    obtain ⟨slots, -⟩ := id pinned
    obtain ⟨first, noted, records⟩ := State.renew_turn keeps sound pinned there
    obtain ⟨rest, noted', records'⟩ := ih first.sound first.pinned differ fun y mem =>
      (records y).2 (.inl ⟨listed y mem, (apart y mem).symm⟩)
    refine ⟨first.trans rest, ?_, fun x => ?_⟩
    · rw [List.foldl_cons, noted', noted, List.exists_mem_cons_iff, or_assoc]
    · have left : x ∈ s.rt.records → (x.slot ≠ r.slot ↔ x ≠ r) := fun mem =>
        not_congr ⟨record_slot_inj slots mem there, congrArg _⟩
      have fresh : become r = some x → x ∉ l := fun renewed mem => apart x mem (keeps r x renewed).1.symm
      rw [List.foldl_cons, records', records, List.exists_mem_cons_iff, List.mem_cons, not_or]
      constructor
      · rintro (⟨⟨old, other⟩ | renewed, unlisted⟩ | later)
        · exact .inl ⟨old, (left old).1 other, unlisted⟩
        · exact .inr (.inl renewed)
        · exact .inr (.inr later)
      · rintro (⟨old, other, unlisted⟩ | renewed | later)
        · exact .inl ⟨.inl ⟨old, (left old).2 other⟩, unlisted⟩
        · exact .inl ⟨.inr renewed, fresh renewed⟩
        · exact .inr later

end

/-- The records of a sound table that pass a test have their turns. -/
theorem State.renew_filtered {become : RepairRecord → Option RepairRecord}
    (keeps : ∀ r x, become r = some x → x.slot = r.slot ∧ x.segment = r.segment) (sound : s.ds.Sound)
    (pinned : s.Pinned) {test : RepairRecord → Bool} {hit : RepairRecord → Prop}
    (tests : ∀ r, hit r ↔ r ∈ s.rt.records ∧ test r = true) :
    let t := (s.rt.records.filter test).foldl (State.renew become) s
    PinsFollow s t ∧ (t.rt.retiredInPass = true ↔ s.rt.retiredInPass = true ∨ ∃ r, hit r ∧ become r = none) ∧
    ∀ x, x ∈ t.rt.records ↔ (x ∈ s.rt.records ∧ ¬ hit x) ∨ ∃ r, hit r ∧ become r = some x := by
  have mem (r : RepairRecord) : r ∈ s.rt.records.filter test ↔ hit r := List.mem_filter.trans (tests r).symm
  obtain ⟨slots, -⟩ := id pinned
  have differ : (s.rt.records.filter test).Pairwise (·.slot ≠ ·.slot) :=
    (List.pairwise_map.1 (slots.sublist (List.filter_sublist.map _))).imp fun lower => lower.ne
  obtain ⟨follows, noted, records⟩ := State.renew_turns keeps sound pinned differ fun r here =>
    (List.mem_filter.1 here).1
  simp only [mem] at noted records
  exact ⟨follows.pinsFollow, noted, records⟩

/-! ## An index done (R159) -/

/-- A record whose next index is done: it advances over it, or is retired at its last. -/
def RepairRecord.advanced (i : Nat) (r : RepairRecord) : Option RepairRecord :=
  if r.last = some i then none else some { r with through := some (i : Int) }

theorem State.advanceRecords_eq (s : State) (h : HeadId) (i : Nat) : s.advanceRecords h i =
    (s.rt.records.filter fun r => r.head == h && r.state == .active && r.through == some ((i : Int) - 1)).foldl
      (State.renew (RepairRecord.advanced i)) s := by
  unfold State.advanceRecords
  congr 1
  funext t r
  by_cases last : r.last = some i <;> simp [State.renew, RepairRecord.advanced, last]

theorem RepairRecord.advanced_eq_none {i : Nat} : r.advanced i = none ↔ r.last = some i := by
  simp [RepairRecord.advanced]

theorem RepairRecord.advanced_eq_some {i : Nat} {x : RepairRecord} :
    r.advanced i = some x ↔ r.last ≠ some i ∧ x = { r with through := some (i : Int) } := by
  simp [RepairRecord.advanced, eq_comm]

/-! ## Records cut short by a fault (R160) -/

/-- An ACTIVE record cut short: back to CLOSED from index d at the least, or retired where nothing is left. -/
def RepairRecord.truncated (d : Nat) (r : RepairRecord) : Option RepairRecord :=
  if max r.first d ≤ r.last.getD (max r.first d) then
    some { r with first := max r.first d, state := .closed, through := none }
  else none

theorem State.truncate_eq (s : State) (h : HeadId) (d : Nat) : s.truncate h d =
    (s.rt.records.filter fun r => r.head == h && r.state == .active).foldl (State.renew (RepairRecord.truncated d)) s := by
  unfold State.truncate
  congr 1
  funext t r
  by_cases left : max r.first d ≤ r.last.getD (max r.first d) <;> simp [State.renew, RepairRecord.truncated, left]

theorem RepairRecord.truncated_eq_none {d l : Nat} (last : r.last = some l) :
    r.truncated d = none ↔ l < max r.first d := by
  rw [RepairRecord.truncated, last, Option.getD_some, ← Nat.not_le]
  exact ⟨fun gone left => Option.some_ne_none _ ((if_pos left).symm.trans gone), fun none_ => if_neg none_⟩

theorem RepairRecord.truncated_eq_some {d l : Nat} {x : RepairRecord} (last : r.last = some l) :
    r.truncated d = some x ↔
      max r.first d ≤ l ∧ x = { r with first := max r.first d, state := .closed, through := none } := by
  rw [RepairRecord.truncated, last, Option.getD_some, Option.ite_none_right_eq_some, Option.some.injEq, eq_comm (b := x)]

/-! ## The end of a repair pass (R161) -/

theorem State.endRepairPass_eq (s : State) : s.endRepairPass = { s with
    rt := { s.rt with records := s.rt.records.map RepairRecord.settled, retiredInPass := false, pass := none }
    hs := { s.hs with heads := s.endRepairPass.hs.heads }
    rl := { s.rl with sticky := s.rl.sticky |||
      (if s.rt.retiredInPass = true ∧ s.rt.records ≠ [] then 0x0010 else 0) } } := by
  obtain ⟨heads, shape⟩ :=
    State.forHeads_setHead_shape (fun _ => true) (fun t h => { t.head h with ranges := [] }) s.settleRecords
  have announces : (s.rt.retiredInPass && !s.rt.records.isEmpty) = true ↔
      s.rt.retiredInPass = true ∧ s.rt.records ≠ [] := by simp
  have quiet : s.rl.sticky ||| 0 = s.rl.sticky := BitVec.or_zero
  unfold State.endRepairPass
  dsimp only
  rw [shape]
  simp only [announces]
  split
  · rfl
  · rw [quiet]
    rfl

theorem RepairRecord.settled_of_inactive (inactive : r.state ≠ .active) : r.settled = r := if_neg inactive

theorem RepairRecord.settled_of_active {k : Int} (active : r.state = .active) (through : r.through = some k) :
    r.settled = { r with state := .closed, through := none
                         first := if r.first ≤ k then (k + 1).toNat else r.first } := by
  rw [RepairRecord.settled, if_pos active, through]
  rfl

/-- Settles O60: eligibility, the schedule, the forming, the advance, the truncation and the end of a repair pass. -/
theorem repairPassesSettle : Obligations.RepairPassesSettle := by
  intro s sound pinned ready when_ selected chosen above moved
  have choice (p : RepairPoint) (r : RepairRecord) : chosen p r ↔ Selected s p r := by
    refine and_congr_right fun _ => and_congr_right fun _ => ?_
    cases p with
    | segmentEnd => simp [selected, when_]
    | jobEnd =>
      have either (w : RepairWhen) : w = .segmentEnd ∨ w = .jobEnd ↔ w ≠ .onRequest := by cases w <;> simp
      simp only [selected, when_, Option.map_eq_some_iff, ← exists_or, ← and_or_left, either]
      exact ⟨fun job => ⟨nofun, fun _ => job⟩, fun both => both.2 trivial⟩
    | forced => exact iff_of_true trivial ⟨nofun, nofun⟩
    | run => exact iff_of_true trivial ⟨nofun, nofun⟩
  refine ⟨s.eligible_iff, fun p => ⟨?_, fun g => ?_⟩, fun p g some_ => ?_, fun h i => ?_, fun h d => ?_, ?_⟩
  · simp only [choice]
    exact State.scheduled_none
  · simp only [choice]
    exact State.scheduled_named
  · simp only [choice] at some_ ⊢
    obtain ⟨pass, shape, length, records, segment, first, firsts, last, lasts, heads⟩ := State.formPass_formed some_
    exact ⟨pass, shape, length, fun i r at_ => (records i r at_).symm, segment, ⟨first, firsts⟩, ⟨last, lasts⟩, heads⟩
  · intro next t
    have keeps (r x : RepairRecord) (turn : r.advanced i = some x) : x.slot = r.slot ∧ x.segment = r.segment := by
      obtain ⟨-, rfl⟩ := RepairRecord.advanced_eq_some.1 turn
      exact ⟨rfl, rfl⟩
    obtain ⟨follow, noted, records⟩ := State.renew_filtered keeps sound pinned (hit := next) (test := fun r =>
      r.head == h && r.state == .active && r.through == some ((i : Int) - 1)) fun r => by simp [next, and_assoc]
    rw [← State.advanceRecords_eq] at follow noted records
    simp only [RepairRecord.advanced_eq_none] at noted
    simp only [RepairRecord.advanced_eq_some] at records
    exact ⟨⟨State.advanceRecords_only h i s, follow⟩, noted, records⟩
  · intro hit t ends
    have keeps (r x : RepairRecord) (turn : r.truncated d = some x) : x.slot = r.slot ∧ x.segment = r.segment := by
      obtain ⟨-, same⟩ := Option.ite_none_right_eq_some.1 turn
      obtain rfl := Option.some.inj same
      exact ⟨rfl, rfl⟩
    obtain ⟨follow, noted, records⟩ := State.renew_filtered keeps sound pinned (hit := hit)
      (test := fun r => r.head == h && r.state == .active) fun r => by simp [hit]
    rw [← State.truncate_eq] at follow noted records
    refine ⟨⟨State.truncate_only h d s, follow⟩, noted.trans (or_congr_right (exists_congr fun r => ?_)),
      fun x => (records x).trans (or_congr_right (exists_congr fun r => ?_))⟩
    · refine ⟨fun ⟨here, gone⟩ => ?_, fun ⟨l, here, last, less⟩ => ⟨here, (RepairRecord.truncated_eq_none last).2 less⟩⟩
      obtain ⟨l, last⟩ := Option.isSome_iff_exists.1 (ends r here)
      exact ⟨l, here, last, (RepairRecord.truncated_eq_none last).1 gone⟩
    · refine ⟨fun ⟨here, turn⟩ => ?_, fun ⟨l, here, last, stays⟩ =>
        ⟨here, (RepairRecord.truncated_eq_some last).2 stays⟩⟩
      obtain ⟨l, last⟩ := Option.isSome_iff_exists.1 (ends r here)
      exact ⟨l, here, last, (RepairRecord.truncated_eq_some last).1 turn⟩
  · have records : s.endRepairPass.rt.records = s.rt.records.map RepairRecord.settled := by rw [State.endRepairPass_eq]
    refine ⟨?_, s.endRepairPass_head, ?_, ?_, fun i r at_ => ?_⟩
    · rw [s.endRepairPass_eq]
    · rw [s.endRepairPass_eq]
    · rw [records, List.length_map]
    · rw [records, List.getElem?_map, at_, Option.map_some]
      exact ⟨fun inactive => congrArg some (RepairRecord.settled_of_inactive inactive),
        fun k active through => congrArg some (RepairRecord.settled_of_active active through)⟩

end Sys2Proof.Machine
end

section
/-! PROOF. The warm and the cold starts as the statements tell them (R59, R83, R99, R115, R131, R165, R167, R168, R170):
each block's share of a warm start, the end of service in it, and LOAD_WANT after it. -/

open Sys2Proof.Claims

namespace Sys2Proof.Machine

variable {s t v : State}

/-! ## The Pass Controller's share (R83) -/

theorem State.warmPass_closed (idle : s.pc.state = .idle) (c : HaltCause) : s.warmPass c = s :=
  if_neg (mt State.jobOpen_iff.1 (not_not_intro idle))

/-- With a job open, the controller is left as an entry to HALTED from where the start finds it leaves it. -/
theorem State.warmPass_opened (busy : s.pc.state ≠ .idle) (c : HaltCause) :
    s.warmPass c = { s with pc := (s.noteStop.enterHalted c s.stands).pc } := by
  rw [State.enterHalted_pc, State.warmPass, if_pos (State.jobOpen_iff.2 busy), State.formContext_pc]
  rfl

/-- A warm start changes nothing before the other blocks' shares but the controller's record. -/
theorem State.warmPass_shape (s : State) (c : HaltCause) : s.warmPass c = { s with pc := (s.warmPass c).pc } := by
  by_cases idle : s.pc.state = .idle
  · rw [State.warmPass_closed idle]
  · rw [State.warmPass_opened idle]

theorem State.warmPass_idle_iff (s : State) (c : HaltCause) : (s.warmPass c).pc.state = .idle ↔ s.pc.state = .idle := by
  by_cases idle : s.pc.state = .idle
  · rw [State.warmPass_closed idle]
  · rw [State.warmPass_opened idle, State.enterHalted_pc]
    exact iff_of_false nofun idle

/-- The resume context as an entry to HALTED from where the controller stands leaves it is kept or formed. -/
theorem Kept.of_enterHalted (pc : t.pc = (s.noteStop.enterHalted c s.stands).pc) : Kept s t := by
  obtain ⟨shape, held, fresh, -⟩ := s.noteStop.enterHalted_halts c s.stands.1 s.stands.2
  have frame := congrArg State.pc shape
  rw [← pc] at held fresh frame
  refine ⟨fun p point => ?_, fun none_ => ?_, by rw [frame]; rfl, ?_, fun h => ?_⟩
  · obtain ⟨samePoint, trimmed, faulted⟩ := held (Option.isSome_iff_exists.2 ⟨p, point⟩)
    exact ⟨samePoint.trans point, trimmed, faulted⟩
  · have notHeld : ¬ s.noteStop.pc.point.isSome = true := Option.not_isSome_iff_eq_none.2 none_
    obtain ⟨point, trimmed, atStitch, elsewhere⟩ := fresh notHeld
    exact ⟨s.stands.1, point, trimmed ▸ s.stands_standsAt, atStitch, elsewhere⟩
  · have moving : t.pc.wasMoving = s.noteStop.pc.wasMoving := by rw [frame]
    rw [moving]
    exact s.noteStop_wasMoving
  · have owed : t.pc.owedTrims = s.noteStop.pc.owedTrims := by rw [frame]
    rw [owed]
    exact s.noteStop_owedTrims h

/-! ## The heads' share (R99, R115, R131) -/

/-- A meter with its runs, buckets and colour cleared, its other counts kept (R131). -/
def Meter.cleared (m : Meter) : Meter :=
  { m with breakRun := 0, loose := 0, tight := 0, bobbinAbsent := 0, colour := .green }

/-- One head's share of a warm start. -/
def State.warmHead (h : HeadId) (s : State) : State :=
  ((s.setSel h (s.sel h).warm).setHead h (s.head h).warm).clearMeter h

theorem State.warmHead_head (h g : HeadId) (s : State) :
    (s.warmHead h).head g = if g = h then (s.head h).warm else s.head g :=
  State.head_setHead _ _ _ _

theorem State.warmHead_sel (h g : HeadId) (s : State) :
    (s.warmHead h).sel g = if g = h then (s.sel h).warm else s.sel g :=
  State.sel_setSel _ _ _ _

theorem State.warmHead_meter (h g : HeadId) (s : State) :
    (s.warmHead h).meter g = if g = h then (s.meter h).cleared else s.meter g :=
  State.meter_setMeter _ _ _ _

/-- The heads' turns, and what the link as a whole forgets. -/
theorem State.warmHeads_eq (s : State) : s.warmHeads = { s.forHeads (fun _ => true) State.warmHead with
    ts := { (s.forHeads (fun _ => true) State.warmHead).ts with working := none, trimNamed := 0 }
    hs := { (s.forHeads (fun _ => true) State.warmHead).hs with
      revolution := false, current := none, previous := none, lastTake := none } } := rfl

/-- All that the heads' share changes. -/
theorem State.warmHeads_shape (s : State) : s.warmHeads = { s with
    ts := { heads := s.warmHeads.ts.heads, working := none, trimNamed := 0 }
    hs := { heads := s.warmHeads.hs.heads, revolution := false, current := none, previous := none, lastTake := none }
    tm := s.warmHeads.tm } := by
  have turns : s.forHeads (fun _ => true) State.warmHead = { s with
      ts := { s.ts with heads := (s.forHeads (fun _ => true) State.warmHead).ts.heads }
      hs := { s.hs with heads := (s.forHeads (fun _ => true) State.warmHead).hs.heads }
      tm := (s.forHeads (fun _ => true) State.warmHead).tm } :=
    State.forHeads_keep (P := fun u => u = { s with
      ts := { s.ts with heads := u.ts.heads }, hs := { s.hs with heads := u.hs.heads }, tm := u.tm })
      (fun h u _ same => by rw [same]; rfl) rfl
  rw [State.warmHeads_eq]
  generalize s.forHeads (fun _ => true) State.warmHead = u at turns
  rw [turns]

theorem State.warmHeads_head (s : State) (h : HeadId) : s.warmHeads.head h = (s.head h).warm :=
  State.forHeads_at (p := fun _ => true) (f := State.warmHead) (g := State.head) (fun _ r => r.warm)
    (fun h t => (t.warmHead_head h h).trans (if_pos rfl)) (fun h k t e => (t.warmHead_head h k).trans (if_neg e)) s h

theorem State.warmHeads_sel (s : State) (h : HeadId) : s.warmHeads.sel h = (s.sel h).warm :=
  State.forHeads_at (p := fun _ => true) (f := State.warmHead) (g := State.sel) (fun _ x => x.warm)
    (fun h t => (t.warmHead_sel h h).trans (if_pos rfl)) (fun h k t e => (t.warmHead_sel h k).trans (if_neg e)) s h

theorem State.warmHeads_meter (s : State) (h : HeadId) : s.warmHeads.meter h = (s.meter h).cleared :=
  State.forHeads_at (p := fun _ => true) (f := State.warmHead) (g := State.meter) (fun _ m => m.cleared)
    (fun h t => (t.warmHead_meter h h).trans (if_pos rfl)) (fun h k t e => (t.warmHead_meter h k).trans (if_neg e)) s h

theorem SelectorHead.warm_eq (x : SelectorHead) : x.warm =
    { x with current := if x.shift = none then x.current else none, shift := none, trim := none } := by
  unfold SelectorHead.warm
  cases x.shift <;> rfl

/-! ## The Repair Table's share (R165) -/

/-- A settled record goes on at the first stitch that is not repaired. -/
theorem RepairRecord.settled_active {r : RepairRecord} (active : r.state = .active) : r.settled =
    { r with state := .closed, through := none
             first := match r.through with
               | some p => max r.first (p + 1).toNat
               | none => r.first } := by
  cases through : r.through with
  | none =>
    have ahead : ¬ (r.first : Int) ≤ -1 := by omega
    rw [RepairRecord.settled, if_pos active, through, Option.getD_none, if_neg ahead]
  | some p =>
    have onward : (if r.first ≤ p then (p + 1).toNat else r.first) = max r.first (p + 1).toNat := by split <;> omega
    rw [RepairRecord.settled_of_active active through, onward]

/-! ## The end of service and LOAD_WANT (R14, R19, R22) -/

/-- A second evaluation of LOAD_WANT finds what the first made. -/
theorem State.evalLoad_evalLoad (s : State) : s.evalLoad.evalLoad = s.evalLoad := by
  have ahead : s.evalLoad.readyAhead = s.readyAhead := State.readyAhead_congr rfl rfl
  have wanted : s.evalLoad.nextWanted = s.nextWanted := State.nextWanted_congr rfl rfl
  have again : s.evalLoad.loadWantNow = if s.jobOpen then
      if s.readyAhead < s.par.loadLow ∧ 0 < s.ds.pool.length ∧ s.nextWanted < s.segmentCount then true
      else if s.par.loadHigh ≤ s.readyAhead ∨ s.ds.pool.length = 0 ∨ s.segmentCount ≤ s.nextWanted then false
      else s.loadWantNow
    else false := by
    rw [State.loadWantNow, ahead, wanted]
    rfl
  have same : s.evalLoad.loadWantNow = s.loadWantNow := by
    rw [again, State.loadWantNow]
    split_ifs <;> rfl
  rw [State.evalLoad, same]
  rfl

/-- The end of service frees the segment served where it is SEWN and no record pins it, and no other: the Design Store
alone decides. -/
theorem State.endService_cases (s : State) :
    (∀ v : State, v.ds = s.ds → v.endService = { v with ds := { s.ds with served := none } }) ∨
    ∃ g q, s.ds.served = some g ∧ s.findSeg g = some q ∧ q.state = .sewn ∧ q.pins = 0 ∧
      ∀ v : State, v.ds = s.ds → v.endService = ({ v with ds := { s.ds with served := none } } : State).freeSeg q := by
  have find (v : State) (ds : v.ds = s.ds) (n : Nat) : v.findSeg n = s.findSeg n := State.findSeg_congr (by rw [ds]) n
  cases served : s.ds.served with
  | none =>
    refine .inl fun v ds => ?_
    rw [State.endService_unserved (ds ▸ served), ← served, ← ds]
  | some g =>
    by_cases last : ∃ q, s.findSeg g = some q ∧ q.state = .sewn ∧ q.pins = 0
    · obtain ⟨q, found, sewn, pins⟩ := last
      refine .inr ⟨g, q, rfl, found, sewn, pins, fun v ds => ?_⟩
      rw [State.endService_frees (ds ▸ served) ((find v ds g).trans found) sewn pins, ds]
    · refine .inl fun v ds => ?_
      rw [State.endService_keeps (ds ▸ served) (fun q found gone => last ⟨q, (find v ds g).symm.trans found, gone⟩), ds]

/-- Two states with one Design Store end service alike, but for LOAD_WANT. -/
theorem State.endService_ds_congr (ds : v.ds = s.ds) :
    v.endService.ds = { s.endService.ds with loadWant := v.endService.ds.loadWant } := by
  rcases s.endService_cases with keeps | ⟨g, q, -, -, -, -, frees⟩
  · rw [keeps v ds, keeps s rfl]
  · rw [frees v ds, frees s rfl]
    rfl

/-- LOAD_WANT evaluated after the end of service is made of the value it had before. -/
theorem State.endService_evalLoad (s : State) : s.endService.evalLoad =
    ({ s with ds := { s.ds with
      segs := s.endService.ds.segs, pool := s.endService.ds.pool, served := none } } : State).evalLoad := by
  rcases s.endService_cases with keeps | ⟨g, q, -, -, -, -, frees⟩
  · rw [keeps s rfl]
  · rw [frees s rfl]
    exact State.evalLoad_evalLoad _

theorem LoadWantFollows.of_evalLoad {u : State} (ds : t.ds = u.evalLoad.ds) (pc : t.pc = u.pc) (par : t.par = u.par) :
    LoadWantFollows u.ds.loadWant t :=
  LoadWantFollows.of_evaluated (by rw [ds]; rfl) (by rw [ds]; rfl) (by rw [ds]; rfl) pc par (by rw [ds]; rfl)

theorem LoadWantFollows.of_endService (ds : t.ds = v.endService.evalLoad.ds) (pc : t.pc = v.pc) (par : t.par = v.par) :
    LoadWantFollows v.ds.loadWant t := by
  have evaluated := ds.trans (congrArg State.ds v.endService_evalLoad)
  exact (LoadWantFollows.of_evalLoad evaluated pc par :)

/-- The end of service leaves every segment but the one served, which goes where it is SEWN and no record pins it. -/
theorem State.endService_segs (sound : s.ds.Sound) :
    (∀ q ∈ s.endService.ds.segs, q ∈ s.ds.segs) ∧
    ∀ q ∈ s.ds.segs, q ∈ s.endService.ds.segs ∨ q.state = .sewn ∧ q.pins = 0 ∧ s.ds.served = some q.number := by
  rcases s.endService_cases with keeps | ⟨g, r, served, found, sewn, pins, frees⟩
  · rw [keeps s rfl]
    exact ⟨fun q there => there, fun q there => .inl there⟩
  · obtain ⟨there, number⟩ := State.findSeg_mem found
    have left (q : SegRecord) : q ∈ s.endService.ds.segs ↔ q ∈ s.ds.segs ∧ q ≠ r := by
      rw [frees s rfl]
      exact State.mem_freeSeg (s := { s with ds := { s.ds with served := none } }) sound there
    refine ⟨fun q stays => ((left q).1 stays).1, fun q before => ?_⟩
    by_cases same : q = r
    · exact .inr (same ▸ ⟨sewn, pins, number ▸ served⟩)
    · exact .inl ((left q).2 ⟨before, same⟩)

/-! ## The warm start (R168 to R171) -/

/-- The cause with which a warm start leaves an open job HALTED (R83). -/
def warmCause (reset : Bool) : HaltCause := if reset then .reset else .powerLoss

/-- The Motion Planner's record after a warm start (R59). -/
theorem State.warmPlanner_eq (s : State) (reset : Bool) : s.warmPlanner reset = { s with
    se := { s.se with plan := none }
    mp := { s.mp with
      shaft := .turning, mode := .atRest, spindle := 0, window := [], marker := none, prevSpeed := none
      policyCeiling := none, stopCeiling := false, stopEnd := false, move := none
      referenced := reset && s.mp.referenced, unfinished := if reset then s.unfinishedAfterStop else none } } := rfl

/-- The announcement raises START, and HALTED where a job is open (R171, R179). -/
theorem State.announce_eq (s : State) : s.announce = { s with rl := { s.rl with
    slot := .noResponse, sticky := s.rl.sticky ||| (if s.pc.state = .idle then 0x0040 else 0x0042) } } := by
  unfold State.announce
  by_cases idle : s.pc.state = .idle
  · rw [if_neg (mt State.jobOpen_iff.1 (not_not_intro idle)), if_pos idle]
    rfl
  · have both : s.rl.sticky ||| 0x0002 ||| 0x0040 = s.rl.sticky ||| 0x0042 := BitVec.or_assoc ..
    rw [if_pos (State.jobOpen_iff.2 idle), if_neg idle, ← both]
    rfl

/-- The state in which a warm start ends service: every block has its share but the Design Store. -/
def State.warmed (reset : Bool) (s : State) : State :=
  let s := ((s.warmPass (warmCause reset)).warmPlanner reset).warmHeads.endIssue.settleRecords
  { s with rt := { s.rt with roundMark := none } }

/-- Then service ends, LOAD_WANT is evaluated, and the start is announced. -/
theorem State.warmStart_eq (reset : Bool) (s : State) : s.warmStart reset =
    let v := (s.warmed reset).endService.evalLoad
    ({ v with sm := { v.sm with
      powered := true, retention := false, startKind := if reset then .warmReset else .warmPower
      warned := false, resetWaits := false } } : State).announce := rfl

theorem State.warmed_shape (reset : Bool) (s : State) : s.warmed reset = { s with
    se := ⟨none, none⟩
    mp := (s.warmPlanner reset).mp
    pc := (s.warmPass (warmCause reset)).pc
    ts := { heads := (s.warmed reset).ts.heads, working := none, trimNamed := 0 }
    hs := { heads := (s.warmed reset).hs.heads, revolution := false, current := none, previous := none
            lastTake := none }
    tm := (s.warmed reset).tm
    rt := { records := s.rt.records.map RepairRecord.settled, roundMark := none, retiredInPass := false
            pass := none } } := by
  have pass := s.warmPass_shape (warmCause reset)
  unfold State.warmed
  generalize s.warmPass (warmCause reset) = u at pass
  have heads := (u.warmPlanner reset).warmHeads_shape
  generalize (u.warmPlanner reset).warmHeads = w at heads
  rw [heads, pass]
  rfl

/-- All that a warm start changes. -/
theorem State.warmStart_shape (reset : Bool) (s : State) : s.warmStart reset = { s.warmed reset with
    rl := { s.rl with
      slot := .noResponse, sticky := s.rl.sticky ||| (if s.pc.state = .idle then 0x0040 else 0x0042) }
    ds := (s.warmed reset).endService.evalLoad.ds
    sm := { s.sm with
      powered := true, retention := false, startKind := if reset then .warmReset else .warmPower
      warned := false, resetWaits := false } } := by
  have idle := s.warmPass_idle_iff (warmCause reset)
  have shape := s.warmed_shape reset
  have pc := congrArg State.pc shape
  have rl := congrArg State.rl shape
  have sm := congrArg State.sm shape
  rw [State.warmStart_eq, State.announce_eq]
  generalize s.warmed reset = u at pc rl sm
  rw [State.endService_shape]
  simp only [State.evalLoad, rl, pc, sm, idle]

theorem State.warmStart_head (reset : Bool) (s : State) (h : HeadId) :
    (s.warmStart reset).head h = (s.head h).warm := by
  have hs : (s.warmPass (warmCause reset)).hs = s.hs := by rw [State.warmPass_shape]
  rw [State.head_congr (congrArg State.hs (s.warmStart_shape reset)), ← State.head_congr hs]
  exact State.warmHeads_head ((s.warmPass (warmCause reset)).warmPlanner reset) h

theorem State.warmStart_sel (reset : Bool) (s : State) (h : HeadId) : (s.warmStart reset).sel h = (s.sel h).warm := by
  have ts : (s.warmPass (warmCause reset)).ts = s.ts := by rw [State.warmPass_shape]
  rw [State.sel_congr (congrArg State.ts (s.warmStart_shape reset)), ← State.sel_congr ts]
  exact State.warmHeads_sel ((s.warmPass (warmCause reset)).warmPlanner reset) h

theorem State.warmStart_meter (reset : Bool) (s : State) (h : HeadId) :
    (s.warmStart reset).meter h = (s.meter h).cleared := by
  have tm : (s.warmPass (warmCause reset)).tm = s.tm := by rw [State.warmPass_shape]
  rw [State.meter_congr (congrArg State.tm (s.warmStart_shape reset)), ← State.meter_congr tm]
  exact State.warmHeads_meter ((s.warmPass (warmCause reset)).warmPlanner reset) h

/-- The Design Store of a warm start: service ended, and LOAD_WANT evaluated (R14, R19, R22). -/
theorem State.warmStart_store (sound : s.ds.Sound) (reset : Bool) :
    (∃ u, ServiceEnds s u ∧
      (s.warmStart reset).ds = { u.ds with loadWant := (s.warmStart reset).ds.loadWant }) ∧
    (∀ q ∈ (s.warmStart reset).ds.segs, q ∈ s.ds.segs) ∧
    (∀ q ∈ s.ds.segs, q ∈ (s.warmStart reset).ds.segs ∨
      q.state = .sewn ∧ q.pins = 0 ∧ s.ds.served = some q.number) ∧
    LoadWantFollows s.ds.loadWant (s.warmStart reset) := by
  have shape := s.warmStart_shape reset
  have before : (s.warmed reset).ds = s.ds := by rw [State.warmed_shape]
  have ends : (s.warmed reset).endService.ds =
      { s.endService.ds with loadWant := (s.warmed reset).endService.ds.loadWant } := State.endService_ds_congr before
  have ds : (s.warmStart reset).ds = { s.endService.ds with loadWant := (s.warmStart reset).ds.loadWant } := by
    rw [shape]
    dsimp only [State.evalLoad]
    rw [ends]
  have segs : (s.warmStart reset).ds.segs = s.endService.ds.segs := by rw [ds]
  rw [segs]
  obtain ⟨fewer, left⟩ := State.endService_segs sound
  refine ⟨⟨s.endService, ServiceEnds.of_endService rfl rfl rfl ?_ ?_, ds⟩, fewer, left, before ▸ ?_⟩
  · rw [State.endService_shape]
  · rw [State.endService_shape]
  · exact LoadWantFollows.of_endService (by rw [shape]) (by rw [shape]) (by rw [shape])

/-- A warm start leaves what the statements tell, whatever the inputs and the supply were. -/
theorem State.warmStart_warmFrom (sound : s.ds.Sound) (reset : Bool) : WarmFrom s (s.warmStart reset) reset := by
  have shape := s.warmStart_shape reset
  have warmed := s.warmed_shape reset
  have records : (s.warmStart reset).rt =
      { records := s.rt.records.map RepairRecord.settled, roundMark := none, retiredInPass := false
        pass := none } := by
    rw [shape, warmed]
  have pc : (s.warmStart reset).pc = (s.warmPass (warmCause reset)).pc := by rw [shape, warmed]
  obtain ⟨service, fewer, left, wants⟩ := State.warmStart_store sound reset
  refine ⟨by rw [shape, warmed], by rw [shape, warmed], by rw [shape, warmed], by rw [shape], by rw [shape, warmed],
    fun idle => ?_, fun busy => ?_, by rw [shape, warmed]; rfl, ?_, ?_,
    by rw [shape, warmed], by rw [shape, warmed], fun h => ?_, by rw [records], by rw [records, List.length_map],
    fun i r at_ => ?_, service, fewer, left, wants⟩
  · rw [pc, State.warmPass_closed idle]
  · rw [State.warmPass_opened busy] at pc
    refine ⟨Kept.of_enterHalted pc, ?_⟩
    rw [pc, State.enterHalted_pc, State.formContext_shape]
    rfl
  · rintro rfl
    rw [shape, warmed]
    rfl
  · rintro rfl
    rw [shape, warmed]
    exact s.unfinishedAfterStop_owes
  · rw [State.warmStart_head, State.warmStart_sel, State.warmStart_meter, SelectorHead.warm_eq]
    refine ⟨rfl, rfl, fun out => ?_, fun back => ?_, beforeShift_other, rfl⟩
    · exact (congrArg beforeShift out).trans (beforeShift_shifting false)
    · exact (congrArg beforeShift back).trans (beforeShift_shifting true)
  · rw [records, List.getElem?_map, at_, Option.map_some]
    exact ⟨fun inactive => congrArg some (RepairRecord.settled_of_inactive inactive),
      fun active => congrArg some (RepairRecord.settled_active active)⟩

/-- A warm start from any supply and inputs: what it leaves of them, and of the other blocks. -/
theorem State.warmStart_from (sound : s.ds.Sound) (reset : Bool) (sm : Supply) :
    WarmFrom s (({ s with sm := sm } : State).warmStart reset) reset ∧
    (({ s with sm := sm } : State).warmStart reset).sm = { sm with
      powered := true, retention := false, warned := false, resetWaits := false
      startKind := if reset then .warmReset else .warmPower } :=
  ⟨State.warmStart_warmFrom (s := { s with sm := sm }) sound reset, by rw [State.warmStart_shape]⟩

/-! ## The commands that make a start (R167, R168, R170) -/

theorem exec_reset_warm (acts : Acts s) (released : s.sm.retention = false) :
    exec .reset s = .next (s.warmStart true) := by
  show execReset s = _
  rw [execReset, whenOperating_of_acts acts, if_neg (ne_true_of_eq_false released)]

theorem exec_resetLineRelease_warm (powered : s.sm.powered = true) (held : s.sm.resetLine = true)
    (released : s.sm.retention = false) : exec .resetLineRelease s =
      .next (({ s with sm := { s.sm with resetLine := false } } : State).warmStart true) :=
  congrArg Host.Outcome.next
    ((if_pos held).trans ((if_pos powered).trans (if_neg (ne_true_of_eq_false released))))

theorem exec_warningClear (powered : s.sm.powered = true) (warning : s.sm.warningInput = true) :
    exec .warningClear s =
      let v : State := { s with sm := { s.sm with warningInput := false } }
      .next (if s.sm.retention then v.warmStart false else v.coldStart) :=
  congrArg _ (if_pos (by rw [powered, warning]; rfl))

theorem exec_powerReturn (backup : Bool) (s : State) : exec (.powerReturn backup) s =
    let v : State := { s with sm := { s.sm with powered := true, warningInput := false, backupInput := backup } }
    .next (if s.sm.retention && backup then v.warmStart false else v.coldStart) := rfl

/-- Settles O40: the four commands that make a warm start, and what it leaves. -/
theorem warmStarts : Obligations.WarmStarts := by
  intro s sound start
  refine ⟨fun acts released => ?_, fun powered held released => ?_, fun powered warning retention => ?_,
    fun retention => ?_⟩
  · exact ⟨_, exec_reset_warm acts released, State.warmStart_from sound true s.sm⟩
  · exact ⟨_, exec_resetLineRelease_warm powered held released, State.warmStart_from sound true _⟩
  · exact ⟨_, (exec_warningClear powered warning).trans (congrArg _ (if_pos retention)),
      State.warmStart_from sound false _⟩
  · exact ⟨_, (exec_powerReturn true s).trans (congrArg _ (if_pos (by rw [retention]; rfl))),
      State.warmStart_from sound false _⟩

/-- Settles O41: the two commands that make a cold start, and the part after it. -/
theorem coldStarts : Obligations.ColdStarts := by
  intro s start
  refine ⟨fun powered warning released => ?_, fun backup without => ?_⟩
  · have cold : ¬ s.sm.retention = true := ne_true_of_eq_false released
    exact (exec_warningClear powered warning).trans (congrArg Host.Outcome.next (if_neg cold))
  · have cold : ¬ (s.sm.retention && backup) = true := mt Bool.and_eq_true_iff.1 without
    exact (exec_powerReturn backup s).trans (congrArg Host.Outcome.next (if_neg cold))

end Sys2Proof.Machine
end

section
/-! PROOF. The step of a part with no command waiting (R48, R172, R173), every command's completion, and TRANSACTION
(R172, R173, R179): the frame of a response, the bytes shifted out, and the slot. -/

open Sys2Proof.Claims

namespace Sys2Proof.Machine

variable {s : State}

/-! ## Every command, and the step with no command waiting -/

/-- Settles O3: the queue is one of the things that every command keeps. -/
theorem everyCommandCompletes : Obligations.EveryCommandCompletes := fun i s =>
  let ⟨t, next, keeps⟩ := exec_completes i s
  ⟨t, next, keeps.queue⟩

theorem step_request {i : Instr} (empty : s.pending = []) (acts : Acts s) (slot : s.rl.slot = .pending (.request i)) :
    step s = exec i s := by
  simp only [step, empty, slot, if_pos (operating_of_acts acts)]

theorem step_malformed (empty : s.pending = []) (acts : Acts s) (slot : s.rl.slot = .pending .malformed) :
    step s = .next (withResponse .badRequest .none [] s) := by
  simp only [step, empty, slot, State.handleMalformed, if_pos (operating_of_acts acts)]
  rfl

/-- With nothing to handle, one µs passes for the move in progress, if there is one. -/
theorem step_elapses (empty : s.pending = []) (acts : Acts s) (slot : ∀ h, s.rl.slot ≠ .pending h) :
    step s = .next { s with mp := { s.mp with move := s.mp.move.map Move.tick } } := by
  have elapse : s.elapse = { s with mp := { s.mp with move := s.mp.move.map Move.tick } } :=
    if_pos (operating_of_acts acts)
  rw [← elapse]
  simp only [step, empty]
  split
  · exact absurd ‹_› (slot _)
  · exact absurd ‹_› (slot _)
  · rfl

/-- Settles O2: the request, the malformed frame, and the µs that passes. -/
theorem stepWithoutCommand : Obligations.StepWithoutCommand := by
  intro s empty acts
  refine ⟨fun i => step_request empty acts, step_malformed empty acts, fun slot => ⟨fun m moving => ?_, fun still => ?_⟩⟩
  · rw [step_elapses empty acts slot, moving]
    rfl
  · rw [step_elapses empty acts slot, still, Option.map_none, ← still]

/-! ## The frame of a response (R181) -/

theorem beBytes_one (v : Nat) : beBytes 1 v = [BitVec.ofNat 8 v] := by
  rw [beBytes_succ, BitVec.ofInt_natCast]
  rfl

/-- The frame R181 gives a response is the one the part sends. -/
theorem Response.frame_of_frames {r : Response} {frame : List Byte} (frames : Frames r frame) : frame = r.frame := by
  obtain ⟨front, rfl, length, result, reason, size, payload⟩ := frames
  match front, length with
  | a :: b :: c :: rest, _ =>
    obtain rfl : a = _ := Option.some.inj (getElem?_of_carries result)
    obtain rfl : b = _ := Option.some.inj (getElem?_of_carries reason)
    obtain rfl : c = _ := Option.some.inj (getElem?_of_carries size)
    obtain rfl : rest = r.payload := payload
    simp only [Response.frame, withCrc, beBytes_one, List.cons_append, List.nil_append]

theorem shiftOut_length (frame : List Byte) (n : Nat) : (shiftOut frame n).length = n := by
  simp only [shiftOut, List.length_append, List.length_map, List.length_take, List.length_replicate]
  omega

/-- Each byte clocked is one of the frame, or filler past its end. -/
theorem shiftOut_getElem? (frame : List Byte) {n k : Nat} (clocked : k < n) :
    (shiftOut frame n)[k]? = some frame[k]? := by
  have width : ((frame.take n).map some).length = min n frame.length := by rw [List.length_map, List.length_take]
  by_cases inside : k < frame.length
  · rw [shiftOut, List.getElem?_append_left (by omega), List.getElem?_map, List.getElem?_take_of_lt clocked,
      List.getElem?_eq_getElem inside]
    rfl
  · rw [shiftOut, List.getElem?_append_right (by omega), List.getElem?_replicate_of_lt (by omega),
      List.getElem?_eq_none (by omega)]

/-! ## TRANSACTION (R172, R173, R179) -/

theorem exec_transaction_ready {r : Response} (acts : Acts s) (rx : List Byte) (slot : s.rl.slot = .ready r) :
    exec (.transaction rx) s = .next (s.takeTransaction r.frame rx) := by
  obtain ⟨powered, line, waits⟩ := acts
  show execTransaction rx s = _
  simp [execTransaction, powered, line, waits, slot]

theorem exec_transaction_noResponse (acts : Acts s) (rx : List Byte) (slot : s.rl.slot = .noResponse) :
    exec (.transaction rx) s = .next (s.takeTransaction noResponseFrame rx) := by
  obtain ⟨powered, line, waits⟩ := acts
  show execTransaction rx s = _
  simp [execTransaction, powered, line, waits, slot]

theorem exec_transaction_busy {h : Handling} (powered : s.sm.powered = true) (line : s.sm.resetLine = false)
    (rx : List Byte) (slot : s.rl.slot = .pending h) :
    exec (.transaction rx) s = .next (s.shifted (shiftOut linkBusyFrame rx.length)) := by
  show execTransaction rx s = _
  simp [execTransaction, powered, line, slot]

theorem exec_transaction_held (held : s.sm.powered = false ∨ s.sm.resetLine = true) (rx : List Byte) :
    exec (.transaction rx) s = .next (s.discardTransaction rx) := by
  have idle : (s.sm.powered && !s.sm.resetLine) = false := by
    rcases held with powered | line
    · rw [powered, Bool.false_and]
    · rw [line, Bool.not_true, Bool.and_false]
  exact congrArg _ (if_neg (ne_true_of_eq_false idle))

theorem exec_transaction_waits (waits : s.sm.resetWaits = true) (rx : List Byte) (slot : ∀ h, s.rl.slot ≠ .pending h) :
    exec (.transaction rx) s = .next (s.discardTransaction rx) := by
  show execTransaction rx s = _
  cases here : s.rl.slot with
  | pending h => exact absurd here (slot h)
  | ready r => simp [execTransaction, here, waits]
  | noResponse => simp [execTransaction, here, waits]

/-- Settles O10: the exchange from a READY or NO_RESPONSE slot, the answer of a PENDING one, and the filler. -/
theorem transactionExchanges : Obligations.TransactionExchanges := by
  intro rx s
  have clocks (frame : List Byte) : (shiftOut frame rx.length).length = rx.length ∧
      ∀ k, k < rx.length → (shiftOut frame rx.length)[k]? = some frame[k]? :=
    ⟨shiftOut_length frame _, fun _ clocked => shiftOut_getElem? frame clocked⟩
  refine ⟨fun acts frame sent => ?_, fun powered line h frame slot frames => ?_, fun filler => ?_⟩
  · have takes : exec (.transaction rx) s = .next (s.takeTransaction frame rx) := by
      rcases sent with ⟨r, slot, frames⟩ | ⟨slot, frames⟩
      · rw [exec_transaction_ready acts rx slot, Response.frame_of_frames frames]
      · rw [exec_transaction_noResponse acts rx slot, Response.frame_of_frames frames]
        rfl
    refine ⟨shiftOut frame rx.length, takes.trans ?_, clocks frame⟩
    unfold State.takeTransaction handlingOf
    cases frameRequest rx <;> rfl
  · rw [exec_transaction_busy powered line rx slot, Response.frame_of_frames frames]
    exact ⟨_, rfl, clocks linkBusyFrame⟩
  · rcases filler with powered | line | ⟨waits, slot⟩
    · exact exec_transaction_held (.inl powered) rx
    · exact exec_transaction_held (.inr line) rx
    · exact exec_transaction_waits waits rx slot

end Sys2Proof.Machine
end

section
/-! PROOF. The frames of requests (R173, R181, R183): the frame written for a request is read as that request, and a frame
that fails a check carries none. -/

open Sys2Proof.Claims

namespace Sys2Proof.Machine

/-! ## The checks of a frame (R173) -/

/-- A frame that is long enough, with a length byte within 200 and the CRC of its bytes, carries the request of its kind
and payload. -/
theorem frameRequest_checked {kind length : Byte} {rest : List Byte} (short : length.toNat ≤ 200)
    (whole : length.toNat + 2 ≤ rest.length)
    (crc : (rest.drop length.toNat).take 2 =
      beBytes 2 (crc16 (kind :: length :: rest.take length.toNat)).toNat) :
    frameRequest (kind :: length :: rest) = requestOf kind.toNat (rest.take length.toNat) :=
  if_pos ⟨short, whole, crc⟩

/-- What a frame is read as has passed every check, and is the request of its kind and payload. -/
theorem frameRequest_eq_some {kind length : Byte} {rest : List Byte} {i : Instr}
    (read : frameRequest (kind :: length :: rest) = some i) :
    length.toNat ≤ 200 ∧ length.toNat + 2 ≤ rest.length ∧
      (rest.drop length.toNat).take 2 = beBytes 2 (crc16 (kind :: length :: rest.take length.toNat)).toNat ∧
      requestOf kind.toNat (rest.take length.toNat) = some i := by
  unfold frameRequest at read
  dsimp only at read
  split at read
  · rename_i checks
    obtain ⟨short, whole, crc⟩ := checks
    exact ⟨short, whole, crc, read⟩
  · cases read

/-- The frame of a kind and a payload that fits carries their request, whatever bytes come after. -/
theorem frameRequest_withCrc {k : Nat} {payload : List Byte} (kind : k < 256) (short : payload.length ≤ 200)
    (filler : List Byte) :
    frameRequest (withCrc (BitVec.ofNat 8 k :: BitVec.ofNat 8 payload.length :: payload) ++ filler) =
      requestOf k payload := by
  have kindByte : (BitVec.ofNat 8 k).toNat = k := by rw [BitVec.toNat_ofNat]; omega
  have lengthByte : (BitVec.ofNat 8 payload.length).toNat = payload.length := by rw [BitVec.toNat_ofNat]; omega
  set crc := beBytes 2 (crc16 (BitVec.ofNat 8 k :: BitVec.ofNat 8 payload.length :: payload)).toNat with hcrc
  have frame : withCrc (BitVec.ofNat 8 k :: BitVec.ofNat 8 payload.length :: payload) ++ filler =
      BitVec.ofNat 8 k :: BitVec.ofNat 8 payload.length :: (payload ++ (crc ++ filler)) := by
    rw [withCrc, ← hcrc, List.append_assoc]
    rfl
  have crcLength : crc.length = 2 := beBytes_length 2 _
  have taken : (payload ++ (crc ++ filler)).take payload.length = payload := List.take_left
  have left : (payload ++ (crc ++ filler)).drop payload.length = crc ++ filler := List.drop_left
  rw [frame, frameRequest_checked, kindByte, lengthByte, taken]
  · omega
  · rw [lengthByte, List.length_append, List.length_append]
    omega
  · rw [lengthByte, left, taken, List.take_left' crcLength]

/-! ## The frames of requests, read (R181, R183) -/

open Sys2Proof.Laws in
/-- What is written for a command of any kind is read as that command. -/
theorem frameDecodes (i : Instr) : FrameDecodes.Statement i := by
  cases i with
  | transaction => exact FrameDecodes.transaction _
  | jobOpen => exact FrameDecodes.jobOpen _ _ _ _ _
  | jobClose => exact FrameDecodes.jobClose
  | start => exact FrameDecodes.start
  | stop => exact FrameDecodes.stop
  | resume => exact FrameDecodes.resume
  | repairRun => exact FrameDecodes.repairRun
  | frameSet => exact FrameDecodes.frameSet _ _
  | segOpen => exact FrameDecodes.segOpen _ _ _ _ _ _
  | segWrite => exact FrameDecodes.segWrite _ _ _
  | segClose => exact FrameDecodes.segClose _ _ _
  | segDiscard => exact FrameDecodes.segDiscard _
  | segQuery => exact FrameDecodes.segQuery _
  | segLocate => exact FrameDecodes.segLocate _ _
  | needleSet => exact FrameDecodes.needleSet _ _ _ _ _
  | needleQuery => exact FrameDecodes.needleQuery _ _
  | headMode => exact FrameDecodes.headMode _ _
  | headRejoin => exact FrameDecodes.headRejoin _
  | headQuery => exact FrameDecodes.headQuery _
  | headClear => exact FrameDecodes.headClear _
  | headBobbin => exact FrameDecodes.headBobbin _ _
  | repairList => exact FrameDecodes.repairList _ _ _ _
  | repairCancel => exact FrameDecodes.repairCancel _ _
  | ruleWrite => exact FrameDecodes.ruleWrite _ _
  | ruleRead => exact FrameDecodes.ruleRead _
  | tableWrite => exact FrameDecodes.tableWrite _ _ _ _
  | configWrite => exact FrameDecodes.configWrite _ _
  | configRead => exact FrameDecodes.configRead _
  | status => exact FrameDecodes.status
  | attentionRead => exact FrameDecodes.attentionRead
  | nop => exact FrameDecodes.nop
  | reset => exact FrameDecodes.reset
  | estopAssert => exact FrameDecodes.estopAssert
  | estopRelease => exact FrameDecodes.estopRelease
  | powerFailWarning => exact FrameDecodes.powerFailWarning _
  | warningClear => exact FrameDecodes.warningClear
  | powerReturn => exact FrameDecodes.powerReturn _
  | resetLineAssert => exact FrameDecodes.resetLineAssert
  | resetLineRelease => exact FrameDecodes.resetLineRelease
  | shaftAngleChange => exact FrameDecodes.shaftAngleChange _
  | spindleAtRest => exact FrameDecodes.spindleAtRest
  | moveCompletion => exact FrameDecodes.moveCompletion
  | standstillExchange => exact FrameDecodes.standstillExchange
  | headReport => exact FrameDecodes.headReport _ _
  | reportDue => exact FrameDecodes.reportDue _
  | shiftTimerExpiry => exact FrameDecodes.shiftTimerExpiry _
  | trimTimerExpiry => exact FrameDecodes.trimTimerExpiry _
  | mainSupplyFailure => exact FrameDecodes.mainSupplyFailure
  | backupFailure => exact FrameDecodes.backupFailure

/-- Settles O8: the kind and the payload written for a request are read as that request, and its frame passes every
check. -/
theorem framesReadAsWritten : Obligations.FramesReadAsWritten := by
  intro i frame filler formed written
  obtain ⟨⟨kind, payload⟩, carried, rfl⟩ := Option.map_eq_some_iff.1 written
  obtain ⟨read, kindFits, short⟩ := frameDecodes i formed _ carried
  exact (frameRequest_withCrc (kindFits.trans_lt (by decide)) short filler).trans read

/-! ## The lengths that suit a kind (R173, R183, R185) -/

theorem triples_length {l : List Byte} {ts : List RawStitch} (read : triples l = some ts) :
    l.length = 3 * ts.length := by
  induction l using triples.induct generalizing ts with
  | case1 =>
    obtain rfl := Option.some.inj read
    rfl
  | case2 dx dy kind rest ih =>
    obtain ⟨us, some_, rfl⟩ := Option.map_eq_some_iff.1 read
    rw [List.length_cons, List.length_cons, List.length_cons, List.length_cons, ih some_]
    omega
  | case3 l empty few => simp [triples] at read

theorem entries16_length {l : List Byte} {es : List (BitVec 16)} (read : entries16 l = some es) :
    l.length = 2 * es.length := by
  induction l using entries16.induct generalizing es with
  | case1 =>
    obtain rfl := Option.some.inj read
    rfl
  | case2 a b rest ih =>
    obtain ⟨us, some_, rfl⟩ := Option.map_eq_some_iff.1 read
    rw [List.length_cons, List.length_cons, List.length_cons, ih some_]
    omega
  | case3 l empty few => simp [entries16] at read

theorem segWriteOf_length {number offset : BitVec 16} {n : Byte} {rest : List Byte} {i : Instr}
    (read : segWriteOf number offset n rest = some i) :
    1 ≤ n.toNat ∧ n.toNat ≤ 64 ∧ rest.length = 3 * n.toNat := by
  unfold segWriteOf at read
  split at read
  · rename_i ts stitches
    split at read
    · rename_i fits
      obtain ⟨count, low, high⟩ := fits
      exact ⟨low, high, count ▸ triples_length stitches⟩
    · cases read
  · cases read

theorem tableWriteOf_length {axis first count : Byte} {rest : List Byte} {i : Instr}
    (read : tableWriteOf axis first count rest = some i) : rest.length = 64 := by
  unfold tableWriteOf at read
  split at read
  · rename_i es entries
    split at read
    · rename_i all
      rw [entries16_length entries, all]
    · cases read
  · cases read

theorem configWriteOf_length {ident : Byte} {value : List Byte} {i : Instr}
    (read : configWriteOf ident value = some i) : value.length = configWidth ident := by
  unfold configWriteOf at read
  split at read
  · split at read
    · exact Eq.symm ‹_›
    · cases read
  · split at read
    · exact Eq.symm ‹_›
    · cases read
  · cases read

theorem ruleOf_length {l : List Byte} {r : RawRule} (read : ruleOf l = some r) : l.length = 22 := by
  unfold ruleOf at read
  split at read
  · rfl
  · cases read

/-! ## The lengths that suit a kind: the kinds of one length -/

/-- A reading finds nothing in bytes of any length but one. -/
def AsksFor (n : Nat) (f : List Byte → Option Instr) : Prop := ∀ l, l.length ≠ n → f l = none

theorem AsksFor.zero {f : List Byte → Option Instr} (more : ∀ b l, f (b :: l) = none) : AsksFor 0 f := by
  intro l other
  cases l with
  | nil => exact absurd rfl other
  | cons b l => exact more b l

theorem AsksFor.succ {n : Nat} {f : List Byte → Option Instr} (few : f [] = none)
    (rest : ∀ b, AsksFor n fun l => f (b :: l)) : AsksFor (n + 1) f := by
  intro l other
  cases l with
  | nil => exact few
  | cons b l => exact rest b l fun same => other (congrArg (· + 1) same)

/-- The kinds whose payload has one length, with that length (R183). -/
def fixedLengths : List (Nat × Nat) :=
  [(1, 8), (2, 0), (3, 0), (4, 0), (5, 0), (6, 0), (7, 4), (8, 11), (10, 10), (11, 2), (12, 2), (13, 4), (14, 6), (15, 2),
   (16, 2), (17, 1), (18, 1), (19, 1), (20, 4), (21, 6), (22, 2), (24, 1), (27, 1), (28, 0), (29, 0), (30, 0), (31, 0)]

/-- The other kinds are SEG_WRITE, RULE_WRITE, TABLE_WRITE and CONFIG_WRITE. -/
theorem fixedLengths_or {kind : Nat} (low : 1 ≤ kind) (high : kind ≤ 31) :
    (∃ n, (kind, n) ∈ fixedLengths) ∨ kind = 9 ∨ kind = 23 ∨ kind = 25 ∨ kind = 26 := by
  interval_cases kind <;> simp [fixedLengths]

theorem suits_fixed (payload : List Byte) : ∀ x ∈ fixedLengths, Suits x.1 payload ↔ payload.length = x.2 := by
  simp [fixedLengths, Suits]

/-- Byte by byte: a kind of one length is read at that length alone. -/
theorem requestOf_asksFor : ∀ x ∈ fixedLengths, AsksFor x.2 (requestOf x.1) := by
  intro x listed
  fin_cases listed
  all_goals
    repeat refine .succ rfl fun _ => ?_
    exact .zero fun _ _ => rfl

/-! ## The lengths that suit a kind: every kind -/

theorem requestOf_outside {kind : Nat} (outside : kind = 0 ∨ 31 < kind) (payload : List Byte) :
    requestOf kind payload = none := by
  rcases outside with rfl | above
  · rfl
  · obtain ⟨k, rfl⟩ := Nat.exists_eq_add_of_le' (Nat.succ_le_of_lt above)
    rfl

theorem requestOf_segWrite {payload : List Byte} {i : Instr} (read : requestOf 9 payload = some i) :
    ∃ n, payload[4]? = some n ∧ 1 ≤ n.toNat ∧ n.toNat ≤ 64 ∧ payload.length = 5 + 3 * n.toNat := by
  match payload with
  | n1 :: n0 :: o1 :: o0 :: n :: rest =>
    obtain ⟨low, high, length⟩ := segWriteOf_length (read : segWriteOf _ _ n rest = some i)
    exact ⟨n, rfl, low, high, by simp only [List.length_cons, length]; omega⟩
  | [] | [_] | [_, _] | [_, _, _] | [_, _, _, _] => cases read

theorem requestOf_ruleWrite {payload : List Byte} {i : Instr} (read : requestOf 23 payload = some i) :
    payload.length = 1 ∨ payload.length = 23 := by
  match payload with
  | [] => cases read
  | [_] => exact .inl rfl
  | n :: b :: rest =>
    obtain ⟨r, rule, -⟩ := Option.map_eq_some_iff.1
      (read : (ruleOf (b :: rest)).map (fun r => .ruleWrite n (some r)) = some i)
    exact .inr (congrArg (· + 1) (ruleOf_length rule))

theorem requestOf_tableWrite {payload : List Byte} {i : Instr} (read : requestOf 25 payload = some i) :
    payload.length = 67 := by
  match payload with
  | a :: f :: c :: rest =>
    exact congrArg (· + 3) (tableWriteOf_length (read : tableWriteOf a f c rest = some i))
  | [] | [_] | [_, _] => cases read

theorem requestOf_configWrite {payload : List Byte} {i : Instr} (read : requestOf 26 payload = some i) :
    payload.length = if payload.head? = some 31 then 4 else 3 := by
  match payload with
  | ident :: value =>
    have length := configWriteOf_length (read : configWriteOf ident value = some i)
    have width : configWidth ident = if ident = 31 then 3 else 2 := rfl
    rw [List.length_cons, length, List.head?_cons, width]
    by_cases mark : ident = 31
    · rw [if_pos mark, if_pos (congrArg some mark)]
    · rw [if_neg mark, if_neg fun head => mark (Option.some.inj head)]
  | [] => cases read

/-- The payload of a request has a length that suits its kind. -/
theorem requestOf_suits {kind : Nat} {payload : List Byte} {i : Instr} (low : 1 ≤ kind) (high : kind ≤ 31)
    (read : requestOf kind payload = some i) : Suits kind payload := by
  rcases fixedLengths_or low high with ⟨n, listed⟩ | rfl | rfl | rfl | rfl
  · refine (suits_fixed payload _ listed).2 ?_
    by_contra other
    rw [requestOf_asksFor _ listed payload other] at read
    cases read
  · exact requestOf_segWrite read
  · exact requestOf_ruleWrite read
  · exact requestOf_tableWrite read
  · exact requestOf_configWrite read

/-- Settles O9: each check that a frame fails is one that a frame with a request passes. -/
theorem malformedFramesAreRefused : Obligations.MalformedFramesAreRefused := by
  refine ⟨fun rx early => ?_, fun kind length rest fails => ?_⟩
  · match rx with
    | [] | [_] => rfl
  · by_contra carries
    obtain ⟨i, read⟩ := Option.ne_none_iff_exists'.1 carries
    obtain ⟨short, whole, crc, request⟩ := frameRequest_eq_some read
    have named : ¬ (kind.toNat = 0 ∨ 31 < kind.toNat) := fun outside => by
      rw [requestOf_outside outside] at request
      cases request
    have suits := requestOf_suits (by omega) (by omega) request
    rcases fails with long | early | crcFails | zero | above | unsuited
    · omega
    · omega
    · exact crcFails crc
    · exact named (.inl zero)
    · exact named (.inr above)
    · exact unsuited suits

end Sys2Proof.Machine
end

section
/-! PROOF. The requests to the Request Link itself: NOP and STATUS with the bytes of the status report (R65, R176, R184),
ATTENTION_READ, and the attention line (R177, R178). -/

open Sys2Proof.Claims

namespace Sys2Proof.Machine

variable {s : State}

/-! ## ATTENTION_READ and the attention line (R177, R178) -/

theorem exec_attentionRead (acts : Acts s) : exec .attentionRead s =
    .next (done (beBytes 2 s.pendingSet.toNat ++ beBytes 1 s.sm.startKind.code)
      { s with rl := { s.rl with sticky := 0 } }) := by
  show execAttentionRead s = _
  unfold execAttentionRead
  rw [whenOperating_of_acts acts]
  rfl

/-- The causes pending: the sticky ones, and LOAD_WANT, the lowest, while its flag is set. -/
theorem State.pendingSet_eq : s.pendingSet = s.rl.sticky ||| (if s.ds.loadWant then 1 else 0) := by
  unfold State.pendingSet
  cases s.ds.loadWant
  · exact BitVec.or_zero.symm
  · rfl

theorem State.getLsbD_pendingSet (k : Nat) :
    s.pendingSet.getLsbD k = true ↔ s.rl.sticky.getLsbD k = true ∨ k = 0 ∧ s.ds.loadWant = true := by
  rw [State.pendingSet_eq, BitVec.getLsbD_or, Bool.or_eq_true]
  refine or_congr_right ?_
  cases s.ds.loadWant <;> simp

/-- Two sets of causes have one in common exactly when their meet is not empty. -/
theorem and_ne_zero_iff (a b : BitVec 16) : (a &&& b != 0) = true ↔ ∃ k, b.getLsbD k = true ∧ a.getLsbD k = true := by
  rw [bne_iff_ne, ne_eq, BitVec.ofNat_eq_ofNat]
  refine ⟨fun meet => ?_, ?_⟩
  · by_contra apart
    refine meet (BitVec.eq_of_getLsbD_eq fun k _ => ?_)
    rw [BitVec.getLsbD_and, BitVec.getLsbD_zero, Bool.and_eq_false_iff, ← Bool.not_eq_true, ← Bool.not_eq_true,
      ← not_and_or]
    exact fun both => apart ⟨k, both.symm⟩
  · rintro ⟨k, inB, inA⟩ empty
    have here : (a &&& b).getLsbD k = true := by rw [BitVec.getLsbD_and, inA, inB]; rfl
    rw [empty, BitVec.getLsbD_zero] at here
    cases here

/-- Settles O12: the causes and the start kind in three bytes, and the line as R177 drives it. -/
theorem attentionReadClears : Obligations.AttentionReadClears := by
  refine ⟨fun s acts => ?_, fun s => ?_⟩
  · have fields : beBytes 2 s.pendingSet.toNat ++ beBytes 1 s.sm.startKind.code =
        fieldBytes [(2, s.pendingSet.toNat), (1, s.sm.startKind.code)] := by simp [fieldBytes]
    refine ⟨_, exec_attentionRead acts, ?_⟩
    rw [fields, ← State.pendingSet_eq]
    exact ⟨fieldBytes_length _, carries_field (widths := [2, 1]) rfl 0 rfl, carries_field (widths := [2, 1]) rfl 1 rfl⟩
  · rw [State.attentionLine, Bool.and_eq_true, and_ne_zero_iff]
    simp only [State.getLsbD_pendingSet]

/-! ## The status report (R65, R176, R184) -/

theorem exec_nop (acts : Acts s) : exec .nop s = .next (done [] s) := whenOperating_of_acts acts _

theorem exec_status (acts : Acts s) : exec .status s = .next (done s.statusReport s) := whenOperating_of_acts acts _

/-- The fields of the status report before the heads, each with its width (R184). -/
def State.statusFields (s : State) : List (Nat × Int) :=
  [(1, s.pc.state.code), (1, s.pc.cause.code), (2, s.mp.position.x), (2, s.mp.position.y), (1, boolCode s.mp.referenced),
   (2, s.reportedSegment.getD 65535), (2, s.reportedIndex.getD 65535), (2, s.reportedSpeed), (2, s.ds.pool.length),
   (3, if s.jobOpen then s.readyAhead else 0), (2, if s.jobOpen then s.nextWanted else 65535), (1, s.rt.records.length)]

/-- The states of the heads, in head order, as fields (R184). -/
def State.headStateFields (s : State) : List (Nat × Int) := allHeads.map fun h => (1, ((s.head h).state.code : Int))

theorem State.statusReport_eq : s.statusReport = fieldBytes (s.statusFields ++ s.headStateFields) := by
  have heads : fieldBytes s.headStateFields = allHeads.flatMap fun h => beBytes 1 (s.head h).state.code :=
    List.flatMap_map ..
  rw [fieldBytes_append, heads]
  simp only [State.statusReport, State.statusFields, fieldBytes, List.flatMap_cons, List.flatMap_nil, List.append_nil,
    List.append_assoc]

/-- The widths of the fields of the status report. -/
def statusWidths : List Nat := [1, 1, 2, 2, 1, 2, 2, 2, 2, 3, 2, 1] ++ List.replicate 16 1

theorem State.statusFields_widths : (s.statusFields ++ s.headStateFields).map (·.1) = statusWidths := rfl

theorem State.statusReport_length : s.statusReport.length = 37 := by
  rw [State.statusReport_eq, fieldBytes_length, State.statusFields_widths]
  rfl

/-- The status report carries each of its fields. -/
theorem State.carries_status (i : Nat) {o w : Nat} {v u : Int}
    (field : (s.statusFields ++ s.headStateFields)[i]? = some (w, v)) (same : v = u)
    (ho : (statusWidths.take i).sum = o := by decide) : Carries s.statusReport o w u :=
  same ▸ State.statusReport_eq ▸ carries_field State.statusFields_widths i field ho

/-- The status report carries the state of each head. -/
theorem State.carries_status_head (h : HeadId) : Carries s.statusReport (21 + h.val) 1 (s.head h).state.code := by
  have before : s.statusFields.length = 12 := rfl
  have offset : ∀ g : HeadId, (statusWidths.take (12 + g.val)).sum = 21 + g.val := by decide
  have head : allHeads[h.val]? = some h := by simp [allHeads]
  refine State.carries_status (12 + h.val) ?_ rfl (offset h)
  rw [List.getElem?_append_right (by omega), before, Nat.add_sub_cancel_left, State.headStateFields, List.getElem?_map,
    head]
  rfl

/-! ## What STATUS reports as current (R65, R176) -/

theorem State.reportsRepair_iff : s.reportsRepair = true ↔
    s.pc.state = .repair ∨ s.pc.state = .stopping ∧ s.mp.passKind = .repair := by
  simp [State.reportsRepair]

theorem State.reportedSegment_repairs (repairs : s.reportsRepair = true) : s.reportedSegment = s.ds.served :=
  if_pos repairs

theorem State.reportedSegment_halted (halted : s.pc.state = .halted) :
    (∀ g k, s.pc.point = some (.atStitch g k) → s.reportedSegment = some g) ∧
    (∀ g, s.pc.point = some (.atEnd g) → s.reportedSegment = some g) ∧
    ((∀ g k, s.pc.point ≠ some (.atStitch g k)) → (∀ g, s.pc.point ≠ some (.atEnd g)) → s.reportedSegment = none) := by
  have apart : ¬ s.reportsRepair = true := by simp [State.reportsRepair_iff, halted]
  unfold State.reportedSegment
  rw [if_neg apart, if_pos halted]
  refine ⟨fun g k point => by rw [point], fun g point => by rw [point], fun stitch seg => ?_⟩
  split
  · exact absurd ‹_› (stitch _ _)
  · exact absurd ‹_› (seg _)
  · rfl

theorem State.reportedSegment_active (apart : ¬ s.reportsRepair = true) (going : s.pc.state ≠ .halted) :
    s.reportedSegment = s.activeNumber := by
  rw [State.reportedSegment, if_neg apart, if_neg going]

/-- No ACTIVE record, no number of one. -/
theorem State.activeNumber_eq_none (inactive : ∀ r ∈ s.ds.segs, r.state ≠ .active) : s.activeNumber = none := by
  rw [State.activeNumber, Option.map_eq_none_iff, State.activeSeg, List.find?_eq_none]
  simpa using inactive

theorem State.reportedIndex_sews (sews : s.pc.state = .sewing ∨ s.pc.state = .repair ∨ s.pc.state = .stopping) :
    s.reportedIndex = some s.frontier := by
  unfold State.reportedIndex
  rcases sews with state | state | state <;> rw [state]

theorem State.reportedIndex_halted (halted : s.pc.state = .halted) :
    (∀ g k, s.pc.point = some (.atStitch g k) → s.reportedIndex = some k) ∧
    ((∀ g k, s.pc.point ≠ some (.atStitch g k)) → s.reportedIndex = none) := by
  unfold State.reportedIndex
  rw [halted]
  refine ⟨fun g k point => by rw [point], fun stitch => ?_⟩
  dsimp only
  split
  · exact absurd ‹_› (stitch _ _)
  · rfl

theorem State.reportedIndex_elsewhere (still : ¬ (s.pc.state = .sewing ∨ s.pc.state = .repair ∨ s.pc.state = .stopping))
    (going : s.pc.state ≠ .halted) : s.reportedIndex = none := by
  unfold State.reportedIndex
  split
  · exact absurd (.inl ‹_›) still
  · exact absurd (.inr (.inr ‹_›)) still
  · exact absurd (.inr (.inl ‹_›)) still
  · exact absurd ‹_› going
  · rfl

theorem State.ite_jobOpen {α : Type} (a b : α) :
    (if s.jobOpen then a else b) = if s.pc.state = .idle then b else a := by
  unfold State.jobOpen
  by_cases idle : s.pc.state = .idle <;> simp [idle]

/-- Settles O11: the codes and the counts; then NOP, and the status report field by field. -/
theorem nopAndStatusAnswer : Obligations.NopAndStatusAnswer := by
  refine ⟨⟨rfl, rfl, rfl, rfl, rfl, rfl, fun _ => rfl, rfl, rfl, rfl, ⟨rfl, rfl⟩, rfl, rfl, rfl⟩,
    fun s => ⟨s.nextWanted_spec, s.readyAhead_spec⟩, fun s acts => ⟨exec_nop acts, _, exec_status acts, ?_⟩⟩
  have segment {o : Option Nat} (reported : s.reportedSegment = o) :
      Carries s.statusReport 7 2 ((o.getD 65535 : Nat) : Int) := s.carries_status 5 rfl (by rw [reported])
  have index {o : Option Nat} (reported : s.reportedIndex = o) :
      Carries s.statusReport 9 2 ((o.getD 65535 : Nat) : Int) := s.carries_status 6 rfl (by rw [reported])
  refine ⟨s.statusReport_length, s.carries_status 0 rfl rfl, s.carries_status 1 rfl rfl, s.carries_status 2 rfl rfl,
    s.carries_status 3 rfl rfl, s.carries_status 4 rfl (boolCode_eq _),
    ⟨fun repairs => ?_, fun g k halted point => ?_, fun g halted point => ?_, fun halted stitch seg => ?_,
      fun apart going => ⟨fun r active => ?_, fun inactive => ?_⟩, fun sews => ?_, fun still going => ?_⟩,
    s.carries_status 7 rfl ?_, s.carries_status 8 rfl rfl, s.carries_status 9 rfl ?_, s.carries_status 10 rfl ?_,
    s.carries_status 11 rfl rfl, s.carries_status_head⟩
  · exact segment (State.reportedSegment_repairs (State.reportsRepair_iff.2 repairs))
  · obtain ⟨atStitch, -, -⟩ := State.reportedSegment_halted halted
    obtain ⟨stitchIndex, -⟩ := State.reportedIndex_halted halted
    exact ⟨segment (atStitch g k point), index (stitchIndex g k point)⟩
  · obtain ⟨-, atEnd, -⟩ := State.reportedSegment_halted halted
    obtain ⟨-, noIndex⟩ := State.reportedIndex_halted halted
    exact ⟨segment (atEnd g point), index (noIndex fun g k => by rw [point]; simp)⟩
  · obtain ⟨-, -, elsewhere⟩ := State.reportedSegment_halted halted
    obtain ⟨-, noIndex⟩ := State.reportedIndex_halted halted
    exact ⟨segment (elsewhere stitch seg), index (noIndex stitch)⟩
  · have number : s.activeNumber = some r.number := by rw [State.activeNumber, active]; rfl
    exact segment ((State.reportedSegment_active (mt State.reportsRepair_iff.1 apart) going).trans number)
  · exact segment ((State.reportedSegment_active (mt State.reportsRepair_iff.1 apart) going).trans
      (State.activeNumber_eq_none inactive))
  · exact index (State.reportedIndex_sews sews)
  · exact index (State.reportedIndex_elsewhere still going)
  · rw [State.reportedSpeed, Nat.cast_ite]
    rfl
  · exact State.ite_jobOpen _ _
  · exact State.ite_jobOpen _ _

end Sys2Proof.Machine
end

section
/-! PROOF. The number parameters (R20, R35, R57, R98, R114, R130, R175, R185): CONFIG_READ of every parameter, and
CONFIG_WRITE of a number with the parameters it brings along. -/

open Sys2Proof.Claims

namespace Sys2Proof.Machine

variable {s : State} {p : Params} {i j : Nat}

/-! ## The parameters by identifier (R185) -/

theorem configKind_eq_number_iff : configKind i = .number ↔ 1 ≤ i ∧ i ≤ 14 ∨ 19 ≤ i ∧ i ≤ 35 := by
  refine ⟨configKind_number, fun within => ?_⟩
  unfold configKind
  grind

/-- The value of a parameter is the one that the model reads under its identifier. -/
theorem Params.stored_eq (p : Params) (low : 1 ≤ i) (high : i ≤ 35) : stored p i = some (p.get i) := by
  interval_cases i <;> rfl

/-- No identifier above 35 has a value. -/
theorem Params.le_of_stored {v : Int} (there : stored p i = some v) : i ≤ 35 := by
  obtain ⟨row, at_, -⟩ := Option.map_eq_some_iff.1 there
  obtain ⟨inside, -⟩ := List.getElem?_eq_some_iff.1 at_
  have rows : (parameters p).length = 35 := rfl
  omega

/-- The row of a number parameter: its value, and the range that it is held to. -/
theorem Params.parameters_row (p : Params) (number : configKind i = .number) :
    (parameters p)[i - 1]? = some (p.get i, ((p.range i).1 : Int), ((p.range i).2 : Int)) := by
  rcases configKind_number number with ⟨low, high⟩ | ⟨low, high⟩ <;> interval_cases i <;> rfl

/-- The value stored is the nearest of the range, and an even WINDOW_DEG. -/
theorem Params.fitted_eq (p : Params) (i v : Nat) :
    let near := max ((p.range i).1 : Int) (min ((p.range i).2 : Int) v)
    (p.fitted i v : Int) = if i = 10 then near - near % 2 else near := by
  unfold Params.fitted clampNat
  generalize (p.range i).1 = low, (p.range i).2 = high
  dsimp only
  split <;> omega

/-! ## What a write brings along (R20, R57, R130) -/

/-- The values of the parameters, in the order of their identifiers. -/
def Params.values (p : Params) : List Int := (parameters p).map (·.1)

theorem Params.stored_eq_values (p : Params) (j : Nat) : stored p j = p.values[j - 1]? := List.getElem?_map.symm

/-- The number parameters whose write moves no other. -/
def aloneIdents : List Nat :=
  [2, 3, 4, 5, 8, 9, 10, 11, 12, 13, 14, 19, 20, 21, 22, 23, 24, 25, 26, 28, 29, 30, 31, 32, 33, 34, 35]

/-- The others are LOAD_LOW, S_MIN, S_MAX and YELLOW_MARK. -/
theorem aloneIdents_or (number : configKind i = .number) : i ∈ aloneIdents ∨ i = 1 ∨ i = 6 ∨ i = 7 ∨ i = 27 := by
  rcases configKind_number number with ⟨low, high⟩ | ⟨low, high⟩ <;> interval_cases i <;> simp [aloneIdents]

theorem Params.values_put_alone (p : Params) (v : Nat) :
    ∀ i ∈ aloneIdents, (p.put i v).values = p.values.set (i - 1) v := by
  intro i alone
  fin_cases alone <;> rfl

theorem Params.values_put_loadLow (p : Params) (v : Nat) :
    (p.put 1 v).values = (p.values.set 0 v).set 1 (max p.loadHigh v : Nat) := rfl

theorem Params.values_put_sMin (p : Params) (v : Nat) :
    (p.put 6 v).values = ((((p.values.set 5 v).set 6 (max p.sMax v : Nat)).set 10 (max p.jumpCap v : Nat)).set 11
      (max p.repairCap v : Nat)).set 28 (max p.yellowCap v : Nat) := rfl

theorem Params.values_put_sMax (p : Params) (v : Nat) :
    (p.put 7 v).values = (((p.values.set 6 v).set 10 (min p.jumpCap v : Nat)).set 11 (min p.repairCap v : Nat)).set 28
      (min p.yellowCap v : Nat) := rfl

theorem Params.values_put_yellowMark (p : Params) (v : Nat) :
    (p.put 27 v).values = (p.values.set 26 v).set 27 (max p.redMark v : Nat) := rfl

theorem Params.stored_put_same (p : Params) (number : configKind i = .number) (v : Nat) :
    stored (p.put i v) i = some (v : Int) := by
  rcases configKind_number number with ⟨low, high⟩ | ⟨low, high⟩ <;> interval_cases i <;> rfl

/-- A write leaves every parameter that it does not move. -/
theorem Params.stored_put_other (p : Params) (number : configKind i = .number) (v : Nat) (low : 1 ≤ j) (other : j ≠ i)
    (unmoved : ¬ Moves i j) : stored (p.put i v) j = stored p j := by
  have range := configKind_number number
  unfold Moves at unmoved
  rw [Params.stored_eq_values, Params.stored_eq_values]
  rcases aloneIdents_or number with alone | rfl | rfl | rfl | rfl
  · rw [p.values_put_alone v i alone, List.getElem?_set_ne (by omega)]
  · rw [p.values_put_loadLow, List.getElem?_set_ne (by omega), List.getElem?_set_ne (by omega)]
  · rw [p.values_put_sMin, List.getElem?_set_ne (by omega), List.getElem?_set_ne (by omega),
      List.getElem?_set_ne (by omega), List.getElem?_set_ne (by omega), List.getElem?_set_ne (by omega)]
  · rw [p.values_put_sMax, List.getElem?_set_ne (by omega), List.getElem?_set_ne (by omega),
      List.getElem?_set_ne (by omega), List.getElem?_set_ne (by omega)]
  · rw [p.values_put_yellowMark, List.getElem?_set_ne (by omega), List.getElem?_set_ne (by omega)]

/-- A parameter that a write moves keeps its order with the value written: below it for S_MAX, above it for the others. -/
theorem Params.stored_put_moved (p : Params) (v : Nat) {u : Int} (moved : Moves i j) (there : stored p j = some u) :
    stored (p.put i v) j = some (if i = 7 then min u v else max u v) := by
  rcases moved with ⟨rfl, rfl⟩ | ⟨rfl, raised⟩ | ⟨rfl, lowered⟩ | ⟨rfl, rfl⟩
  · obtain rfl := Option.some.inj there
    exact congrArg some (Nat.cast_max _ _)
  · rcases raised with rfl | rfl | rfl | rfl
    all_goals
      obtain rfl := Option.some.inj there
      exact congrArg some (Nat.cast_max _ _)
  · rcases lowered with rfl | rfl | rfl
    all_goals
      obtain rfl := Option.some.inj there
      exact congrArg some (Nat.cast_min _ _)
  · obtain rfl := Option.some.inj there
    exact congrArg some (Nat.cast_max _ _)

/-! ## CONFIG_READ of a number (R175, R185) -/

/-- The value of a parameter as CONFIG_READ sends it. -/
theorem State.configValue_number {ident : Byte} (high : ident.toNat ≤ 35) :
    s.configValue ident = beBytes (configWidth ident) (s.par.get ident.toNat) := by
  unfold State.configValue
  split
  · omega
  · omega
  · omega
  · rfl

theorem exec_configRead_stored (acts : Acts s) {ident : Byte} (low : 1 ≤ ident.toNat) {v : Int}
    (there : stored s.par ident.toNat = some v) :
    ∃ p, exec (.configRead ident) s = .next (done p s) ∧ p.length = configWidth ident ∧ Carries p 0 p.length v := by
  have high := Params.le_of_stored there
  have present : configKind ident.toNat ≠ .absent := fun absent => by
    rw [configKind_absent_iff] at absent
    omega
  obtain rfl : s.par.get ident.toNat = v := Option.some.inj ((s.par.stored_eq low high).symm.trans there)
  have width := beBytes_length (configWidth ident) (s.par.get ident.toNat)
  refine ⟨_, exec_configRead_present acts present, ?_⟩
  rw [State.configValue_number high, width]
  exact ⟨rfl, carries_beBytes _ _⟩

/-! ## CONFIG_WRITE of a number (R175) -/

theorem configWidth_eq (ident : Byte) : configWidth ident = if ident.toNat = 31 then 3 else 2 :=
  if_congr BitVec.toNat_inj.symm rfl rfl

/-- A number parameter is written in every state, the editor's and the motion's in IDLE, STANDBY and HALTED alone. -/
theorem PassState.writable_number (st : PassState) (number : configKind i = .number)
    (settable : 3 ≤ i → i ≤ 14 → st = .idle ∨ st = .standby ∨ st = .halted) : st.writable i = true := by
  by_cases motion : 3 ≤ i ∧ i ≤ 14
  · obtain ⟨low, high⟩ := motion
    exact (st.writable_motion low high).2 (settable low high)
  · have range := configKind_number number
    rw [PassState.writable, if_neg motion, if_neg (by omega)]

theorem exec_configWrite_number (acts : Acts s) {ident : Byte} {value : BitVec 24}
    (fits : value.toNat < 256 ^ configWidth ident) (number : configKind ident.toNat = .number)
    (free : s.pc.state.writable ident.toNat = true) :
    exec (.configWrite ident value) s = .next (s.writeNumber ident.toNat value.toNat) := by
  have formed : (Instr.configWrite ident value).wellFormed = true := decide_eq_true fits
  show execConfigWrite ident value s = _
  unfold execConfigWrite
  rw [whenOperating_of_acts acts, if_pos formed, State.unless_carriedOut, number]
  simp [number, free]

/-- The state with a number parameter at the value fitted for one written, LOAD_WANT evaluated again for a load mark. -/
def State.withNumber (s : State) (i v : Nat) : State :=
  let u := s.setParams (s.par.put i (s.par.fitted i v))
  { u with ds := { u.ds with loadWant := if i ≤ 2 then u.loadWantNow else s.ds.loadWant } }

theorem State.writeNumber_eq (i v : Nat) :
    s.writeNumber i v = State.stored (s.par.fitted i v != v) (s.withNumber i v) := by
  unfold State.writeNumber State.withNumber
  by_cases mark : i ≤ 2
  · simp only [if_pos mark]
    rfl
  · simp only [if_neg mark]
    rfl

/-- Settles O18: CONFIG_READ of a parameter; then CONFIG_WRITE of a number, what it moves and leaves, and its
read-back. -/
theorem numbersAreStored : Obligations.NumbersAreStored := by
  refine ⟨fun ident v s acts low there => exec_configRead_stored acts low there,
    fun ident value old low high s acts => ?_⟩
  intro i within fits settable row near v
  have number : configKind i = .number := configKind_eq_number_iff.2 within
  obtain ⟨rfl, rfl, rfl⟩ : s.par.get i = old ∧ ((s.par.range i).1 : Int) = low ∧ ((s.par.range i).2 : Int) = high := by
    simpa using (s.par.parameters_row number).symm.trans row
  have stores : (s.par.fitted i value.toNat : Int) = v := s.par.fitted_eq i value.toNat
  have writes := exec_configWrite_number acts (configWidth_eq ident ▸ fits) number
    (s.pc.state.writable_number number settable)
  rw [State.writeNumber_eq] at writes
  set t := State.stored (s.par.fitted i value.toNat != value.toNat) (s.withNumber i value.toNat)
  have kept : stored t.par i = some v := (s.par.stored_put_same number _).trans (congrArg some stores)
  obtain ⟨p, reads, length, carries⟩ := exec_configRead_stored (s := t) acts (by omega) kept
  refine ⟨t, p, writes, ?_, rfl, fun mark => ?_, fun other => if_neg (by omega), kept,
    fun j first other unmoved => s.par.stored_put_other number _ first other unmoved,
    fun j u moved there => stores ▸ s.par.stored_put_moved _ moved there, reads, length.trans (configWidth_eq ident),
    carries⟩
  · show Slot.ready _ = _
    simp only [bne_iff_ne, ne_eq, ite_not, ← stores, Nat.cast_inj]
  · exact LoadWantFollows.of_evaluated (u := s.setParams (s.par.put i (s.par.fitted i value.toNat))) rfl rfl rfl rfl rfl
      (if_pos mark)

end Sys2Proof.Machine
end

section
/-! PROOF. The step of a part with a command waiting: the command at the front of the queue is taken whole (R172). -/

namespace Sys2Proof.Machine

/-- Settles O1: where a command waits, `step` is by its definition that command's `exec` on the queue's rest. -/
theorem stepTakesFront : Obligations.StepTakesFront :=
  fun _ _ _ => rfl

end Sys2Proof.Machine
end

section
/-! PROOF. The emergency stop, the power-fail warning, the resets and the supply's events: the immediate halts they make
(R76, R166, R170), and the inputs they follow where no halt and no start is made (R72, R167, R168). -/

open Sys2Proof.Claims

namespace Sys2Proof.Machine

variable {s t : State} {c : HaltCause}

/-! ## The halts that the inputs make at once (R76, R166, R170) -/

theorem moving_iff_atWork : s.pc.state.moving = true ↔ AtWork s := by
  unfold AtWork
  cases s.pc.state <;> simp [PassState.moving]

theorem State.immediateHalt_apart (apart : ¬ AtWork s) (c : HaltCause) : s.immediateHalt c = s :=
  s.immediateHalt_rest c (Bool.eq_false_iff.2 (mt moving_iff_atWork.1 apart))

theorem State.immediateStop_eq_quiet (s : State) : s.immediateStop = quiet s s.unfinishedAfterStop := rfl

/-- The end of service is not about the supply. -/
theorem ServiceEnds.withSupply (h : ServiceEnds s t) (sm : Supply) : ServiceEnds s { t with sm := sm } := by
  obtain ⟨shape, unserved, served⟩ := h
  refine ⟨shape, unserved, fun g at_ => ⟨(served g at_).1, fun q sound found sewn pins => ?_⟩⟩
  obtain ⟨gone, others, pool, wants⟩ := (served g at_).2 q sound found sewn pins
  exact ⟨gone, others, pool, fun busy busy' => LoadWantFollows.of_busy (wants busy busy') rfl rfl rfl busy' busy'⟩

/-- An immediate halt is not about the supply. -/
theorem HaltedAtOnce.withSupply (h : HaltedAtOnce s t c) (sm : Supply) : HaltedAtOnce s { t with sm := sm } c := by
  obtain ⟨pending, par, fr, tm, se, pc, kept, raised, rl, mp, owes, service, rest⟩ := h
  exact ⟨pending, par, fr, tm, se, pc, kept, raised, rl, mp, owes, ServiceEnds.withSupply service sm, rest⟩

/-- After an immediate halt the planner is at rest, and nothing is left to stop. -/
theorem HaltedAtOnce.immediateStop (h : HaltedAtOnce s t c) : t.immediateStop = t := by
  obtain ⟨-, -, -, -, se, -, -, -, -, mp, -⟩ := h
  have still : t.mp.move = none := by rw [mp]; rfl
  have owed : t.unfinishedAfterStop = t.mp.unfinished := t.unfinishedAfterStop_owes.1 still
  have rested : (quiet t t.mp.unfinished).mp = t.mp := by rw [quiet, mp]; rfl
  have unplanned : (quiet t t.mp.unfinished).se = t.se := by rw [quiet, se]
  rw [State.immediateStop_eq_quiet, owed]
  calc quiet t t.mp.unfinished
      = { t with se := (quiet t t.mp.unfinished).se, mp := (quiet t t.mp.unfinished).mp } := rfl
    _ = t := by rw [rested, unplanned]

theorem State.resetHalt_atWork (work : AtWork s) : s.resetHalt = s.immediateHalt .reset :=
  HaltedAtOnce.immediateStop (State.immediateHalt_haltedAtOnce work .reset)

theorem State.resetHalt_apart (apart : ¬ AtWork s) : s.resetHalt = quiet s s.unfinishedAfterStop := by
  rw [State.resetHalt, State.immediateHalt_apart apart, State.immediateStop_eq_quiet]

theorem State.emergencyStop_atWork (work : AtWork s) : s.emergencyStop = s.immediateHalt .estop := by
  have notHalted : s.pc.state ≠ .halted := by rcases work with e | e | e | e | e <;> simp [e]
  exact if_neg fun starved => notHalted starved.1

/-! ## The commands of the inputs (R76, R166 to R168, R170) -/

theorem exec_estopAssert (acts : Acts s) (released : s.sm.estopInput = false) : exec .estopAssert s =
    .next { s.emergencyStop with sm := { s.emergencyStop.sm with estopInput := true } } := by
  have off : ¬ s.sm.estopInput = true := ne_true_of_eq_false released
  show execEstopAssert s = _
  rw [execEstopAssert, if_neg off, if_pos (operating_of_acts acts)]

theorem exec_powerFailWarning (backup : Bool) (powered : s.sm.powered = true) (released : s.sm.warningInput = false) :
    exec (.powerFailWarning backup) s = .next { s.immediateHalt .powerLoss with sm := { (s.immediateHalt .powerLoss).sm with
      warningInput := true, backupInput := backup, warned := true
      retention := (s.immediateHalt .powerLoss).sm.retention || backup } } := by
  have fresh : (s.sm.powered && !s.sm.warningInput) = true := by rw [powered, released]; rfl
  exact congrArg Host.Outcome.next (if_pos fresh)

theorem exec_resetLineAssert (released : s.sm.resetLine = false) (powered : s.sm.powered = true) :
    exec .resetLineAssert s = .next { s.resetHalt with sm := { s.resetHalt.sm with resetLine := true } } := by
  have off : ¬ s.sm.resetLine = true := ne_true_of_eq_false released
  show execResetLineAssert s = _
  rw [execResetLineAssert, if_neg off, if_pos powered]

theorem exec_reset_waits (acts : Acts s) (retained : s.sm.retention = true) : exec .reset s = .next { s.resetHalt with
    sm := { s.resetHalt.sm with resetWaits := true }, rl := { s.resetHalt.rl with slot := .pending .waits } } := by
  show execReset s = _
  rw [execReset, whenOperating_of_acts acts, if_pos retained]
  rfl

/-- Settles O42: each of the four makes the immediate halt and notes its input. -/
theorem immediateHalts : Obligations.ImmediateHalts := by
  intro s powered work
  have halted (c : HaltCause) := State.immediateHalt_haltedAtOnce work c
  have supply (c : HaltCause) : (s.immediateHalt c).sm = s.sm := State.immediateHalt_sm work c
  refine ⟨fun acts released => ?_, fun backup released => ?_, fun released => ?_, fun acts retained => ?_⟩
  · refine ⟨_, exec_estopAssert acts released, ?_, ?_⟩ <;> rw [State.emergencyStop_atWork work]
    · exact HaltedAtOnce.withSupply (halted .estop) _
    · rw [supply]
  · refine ⟨_, exec_powerFailWarning backup powered released, HaltedAtOnce.withSupply (halted .powerLoss) _, ?_⟩
    rw [supply]
  · refine ⟨_, exec_resetLineAssert released powered, ?_, ?_⟩ <;> rw [State.resetHalt_atWork work]
    · exact HaltedAtOnce.withSupply (halted .reset) _
    · rw [supply]
  · refine ⟨_, halted .reset, supply .reset, ?_⟩
    rw [exec_reset_waits acts retained, State.resetHalt_atWork work, supply]

/-- Settles O43: each event where no halt and no start is made. -/
theorem inputsAreTracked : Obligations.InputsAreTracked := by
  intro s sm
  have owes := s.unfinishedAfterStop_owes
  refine ⟨rfl, rfl, fun asserted => ?_, fun released apart => ?_, fun acts released halted starved => ?_,
    fun backup same => ?_, fun backup powered released apart => ?_, fun same => ?_, fun held => ?_,
    fun released unpowered => ?_, fun released => ?_, fun held unpowered => ?_, fun held powered retained => ?_,
    fun released powered apart => ⟨_, owes, ?_⟩, fun acts retained apart => ⟨_, owes, ?_⟩, fun unpowered => ?_,
    fun powered => ⟨_, owes, ?_⟩⟩
  · exact congrArg Host.Outcome.next (if_pos asserted)
  · have off : ¬ s.sm.estopInput = true := ne_true_of_eq_false released
    by_cases acts : Acts s
    · obtain ⟨notWork, notStarved⟩ := apart.resolve_left (not_not_intro acts)
      have stays : s.emergencyStop = s := (if_neg notStarved).trans (State.immediateHalt_apart notWork _)
      rw [exec_estopAssert acts released, stays]
    · show execEstopAssert s = _
      rw [execEstopAssert, if_neg off, if_neg (mt operating_iff.1 acts)]
  · have other : ¬ s.pc.cause = .estop := by simp [starved]
    rw [exec_estopAssert acts released, State.emergencyStop, if_pos ⟨halted, starved⟩, State.changeCause, if_neg other]
    rfl
  · have stays : ¬ (s.sm.powered && !s.sm.warningInput) = true := by rcases same with e | e <;> simp [e]
    exact congrArg Host.Outcome.next (if_neg stays)
  · rw [exec_powerFailWarning backup powered released, State.immediateHalt_apart apart]
  · have stays : ¬ (s.sm.powered && s.sm.warningInput) = true := by rcases same with e | e <;> simp [e]
    exact congrArg Host.Outcome.next (if_neg stays)
  · exact congrArg Host.Outcome.next (if_pos held)
  · have off : ¬ s.sm.powered = true := ne_true_of_eq_false unpowered
    show execResetLineAssert s = _
    rw [execResetLineAssert, if_neg (ne_true_of_eq_false released), if_neg off]
  · exact congrArg Host.Outcome.next (if_neg (ne_true_of_eq_false released))
  · exact congrArg Host.Outcome.next ((if_pos held).trans (if_neg (ne_true_of_eq_false unpowered)))
  · exact congrArg Host.Outcome.next ((if_pos held).trans ((if_pos powered).trans (if_pos retained)))
  · rw [exec_resetLineAssert released powered, State.resetHalt_apart apart]
    rfl
  · rw [exec_reset_waits acts retained, State.resetHalt_apart apart]
    rfl
  · exact congrArg Host.Outcome.next (if_neg (ne_true_of_eq_false unpowered))
  · exact congrArg Host.Outcome.next (if_pos powered)

end Sys2Proof.Machine
end

section
/-! PROOF. The refusals of START, RESUME and REPAIR_RUN in their order (R63, R79, R82, R166), what each carries out, and
when the Move-Time Tables are valid (R39). -/

open Sys2Proof.Claims

namespace Sys2Proof.Machine

variable {s : State}

/-! ## The Move-Time Tables (R39) -/

theorem State.tablesValid_iff (sound : s.mp.Sound) : s.tablesValid = true ↔ TablesValid s := by
  obtain ⟨-, -, lengthX, lengthY⟩ := sound
  have atX : s.mp.tableX[16]? = some (s.mp.tableX.getD 16 0) := by
    rw [List.getD_eq_getElem _ _ (by omega), List.getElem?_eq_getElem]
  have atY : s.mp.tableY[16]? = some (s.mp.tableY.getD 16 0) := by
    rw [List.getD_eq_getElem _ _ (by omega), List.getElem?_eq_getElem]
  have cap := s.geometricCap_listed (dx := 16) (dy := 16) (by decide) (by decide)
  simp only [State.tablesValid, Bool.and_eq_true, decide_eq_true_eq, nonDecreasing_iff, cap, TablesValid, atX, atY,
    Option.some.injEq, forall_eq_or_imp, forall_eq]
  exact and_congr_right fun _ => ⟨by rintro h _ _ rfl rfl; exact h, fun h => h _ _ rfl rfl⟩

/-! ## The refusals (R63, R79, R82, R166) -/

/-- The refusals of START in their order. -/
def State.startRefusals (s : State) : List (Bool × Reason) :=
  [ (s.sm.warned, .busy),
    (!s.jobOpen, .noJob),
    (s.pc.state != .standby, .busy),
    (!s.mp.referenced, .unreferenced),
    (!s.tablesValid, .tableInvalid),
    (s.sm.estopInput, .estopActive) ]

/-- The refusals that RESUME and REPAIR_RUN share, with those of each for the pass state and the halt cause. -/
def State.haltedRefusals (s : State) (elsewhere : Bool) : List (Bool × Reason) :=
  [ (s.sm.warned, .busy),
    (!s.jobOpen, .noJob),
    (elsewhere, .busy),
    (!s.mp.referenced, .unreferenced),
    (s.sm.estopInput, .estopActive),
    (!s.tablesValid, .tableInvalid) ]

/-- RESUME is not for this pass state or halt cause (R79). -/
def State.cannotResume (s : State) : Bool := s.pc.state != .halted || s.pc.cause == .starved

/-- REPAIR_RUN is not for this pass state or halt cause (R82). -/
def State.cannotRun (s : State) : Bool := s.pc.state != .halted || !s.pc.cause.permitsRun

theorem State.cannotResume_iff : s.cannotResume = true ↔ s.pc.state ≠ .halted ∨ s.pc.cause = .starved := by
  simp [State.cannotResume]

theorem HaltCause.permitsRun_iff (c : HaltCause) : c.permitsRun = true ↔ c = .stopRequest ∨ c = .designPause ∨
    c = .starved ∨ c = .pinCeiling ∨ c = .repairsOutstanding ∨ c = .powerLoss ∨ c = .reset := by
  cases c <;> simp [HaltCause.permitsRun]

theorem State.cannotRun_iff : s.cannotRun = true ↔ ¬ (s.pc.state = .halted ∧ (s.pc.cause = .stopRequest ∨
    s.pc.cause = .designPause ∨ s.pc.cause = .starved ∨ s.pc.cause = .pinCeiling ∨ s.pc.cause = .repairsOutstanding ∨
    s.pc.cause = .powerLoss ∨ s.pc.cause = .reset)) := by
  rw [← HaltCause.permitsRun_iff, State.cannotRun, Bool.or_eq_true, bne_iff_ne, Bool.not_eq_true', not_and_or,
    Bool.not_eq_true]

theorem exec_start (acts : Acts s) : exec .start s =
    .next (s.unless s.startRefusals fun t => (going (withResponse .accepted .none [] t) .change .take).drive) := by
  show execStart s = _
  rw [execStart, whenOperating_of_acts acts]
  rfl

/-- What RESUME does where it is not refused (R79). -/
def State.resumed (s : State) : State :=
  match (withResponse .accepted .none [] s).settleOwed with
  | (s, false) => s.changeCause .repairFull
  | (s, true) => s.resumeSettled.drive

theorem exec_resume (acts : Acts s) :
    exec .resume s = .next (s.unless (s.haltedRefusals s.cannotResume) State.resumed) := by
  show execResume s = _
  rw [execResume, whenOperating_of_acts acts]
  rfl

/-- What REPAIR_RUN does where it is not refused (R82). -/
def State.repairRan (s : State) : State :=
  if s.rt.records.any s.eligible then
    (({ withResponse .accepted .none [] s with pc := { s.pc with
      state := .change, cause := .none, phase := .trim .repairRun, runCause := s.pc.cause } } : State).requestTrim
        s.runTrims).drive
  else Claims.done [] s

theorem exec_repairRun (acts : Acts s) :
    exec .repairRun s = .next (s.unless (s.haltedRefusals s.cannotRun) State.repairRan) := by
  show execRepairRun s = _
  rw [execRepairRun, whenOperating_of_acts acts]
  rfl

/-! ## The requests carried out -/

theorem exec_start_accepted (acts : Acts s) (may : MayBegin s) (standby : s.pc.state = .standby) :
    exec .start s = .next (going (withResponse .accepted .none [] s) .change .take).drive := by
  obtain ⟨calm, referenced, valid, released⟩ := may
  have none_ : firstReason s.startRefusals = none := by
    simp [State.startRefusals, State.jobOpen, calm, standby, referenced, valid, released]
  rw [exec_start acts, State.unless_carriedOut none_]

theorem State.haltedRefusals_none (may : MayBegin s) (halted : s.pc.state = .halted) :
    firstReason (s.haltedRefusals false) = none := by
  obtain ⟨calm, referenced, valid, released⟩ := may
  simp [State.haltedRefusals, State.jobOpen, calm, halted, referenced, valid, released]

theorem exec_resume_accepted (acts : Acts s) (may : MayBegin s) (halted : s.pc.state = .halted)
    (fed : s.pc.cause ≠ .starved) : exec .resume s = .next s.resumed := by
  have can : s.cannotResume = false := Bool.eq_false_iff.2 fun no =>
    (State.cannotResume_iff.1 no).elim (fun apart => apart halted) fed
  rw [exec_resume acts, can, State.unless_carriedOut (State.haltedRefusals_none may halted)]

theorem exec_repairRun_accepted (acts : Acts s) (may : MayBegin s) (halted : s.pc.state = .halted)
    (permits : s.pc.cause.permitsRun = true) : exec .repairRun s = .next s.repairRan := by
  have can : s.cannotRun = false := by simp [State.cannotRun, halted, permits]
  rw [exec_repairRun acts, can, State.unless_carriedOut (State.haltedRefusals_none may halted)]

/-- Settles O31: the validity of the tables, and each refusal by what applies before it. -/
theorem startResumeRunRefusals : Obligations.StartResumeRunRefusals := by
  refine ⟨fun s sound => State.tablesValid_iff sound, ?_⟩
  intro s acts start resume run free standby halted permits ready
  have starts {why : Reason} (first : firstReason s.startRefusals = some why) : start why := by
    show exec .start s = _
    rw [exec_start acts, State.unless_refused first]
  have resumes {why : Reason} (first : firstReason (s.haltedRefusals s.cannotResume) = some why) : resume why := by
    show exec .resume s = _
    rw [exec_resume acts, State.unless_refused first]
  have runs {why : Reason} (first : firstReason (s.haltedRefusals s.cannotRun) = some why) : run why := by
    show exec .repairRun s = _
    rw [exec_repairRun acts, State.unless_refused first]
  have warned (elsewhere : Bool) (warning : s.sm.warned = true) :
      firstReason (s.haltedRefusals elsewhere) = some .busy := by simp [State.haltedRefusals, warning]
  have jobless (elsewhere : Bool) (calm : free) (idle : s.pc.state = .idle) :
      firstReason (s.haltedRefusals elsewhere) = some .noJob := by
    simp [State.haltedRefusals, State.jobOpen, show s.sm.warned = false from calm, idle]
  have elsewhere (calm : free) (busy : s.pc.state ≠ .idle) : firstReason (s.haltedRefusals true) = some .busy := by
    simp [State.haltedRefusals, State.jobOpen, show s.sm.warned = false from calm, busy]
  have opens : halted → s.cannotResume = false := fun ⟨_, state, fed⟩ => Bool.eq_false_iff.2 fun no =>
    (State.cannotResume_iff.1 no).elim (fun apart => apart state) fed
  have opensRun : ready → s.cannotRun = false := fun ⟨_, permit⟩ => Bool.eq_false_iff.2 fun no =>
    State.cannotRun_iff.1 no permit
  have here (calm : free) (state : s.pc.state = .halted) : firstReason (s.haltedRefusals false) =
      if s.mp.referenced = false then some .unreferenced else if s.sm.estopInput then some .estopActive
      else if s.tablesValid = false then some .tableInvalid else none := by
    simp [State.haltedRefusals, State.jobOpen, show s.sm.warned = false from calm, state]
  refine ⟨fun warning => ⟨starts ?_, resumes (warned _ warning), runs (warned _ warning)⟩,
    fun calm idle => ⟨starts ?_, resumes (jobless _ calm idle), runs (jobless _ calm idle)⟩,
    fun calm busy apart => starts ?_, fun calm busy apart => resumes ?_, fun calm busy apart => runs ?_,
    fun ⟨calm, state⟩ lost => starts ?_, fun ⟨calm, state⟩ known bad => starts ?_,
    fun ⟨calm, state⟩ known valid stop => starts ?_, fun at_ lost => resumes ?_, fun at_ known stop => resumes ?_,
    fun at_ known go bad => resumes ?_, fun at_ lost => runs ?_, fun at_ known stop => runs ?_,
    fun at_ known go bad => runs ?_⟩
  · simp [State.startRefusals, warning]
  · simp [State.startRefusals, State.jobOpen, show s.sm.warned = false from calm, idle]
  · simp [State.startRefusals, State.jobOpen, show s.sm.warned = false from calm, busy, apart]
  · rw [State.cannotResume_iff.2 apart]
    exact elsewhere calm busy
  · rw [State.cannotRun_iff.2 apart]
    exact elsewhere calm busy
  · simp [State.startRefusals, State.jobOpen, show s.sm.warned = false from calm, state, lost]
  · simp [State.startRefusals, State.jobOpen, show s.sm.warned = false from calm, state, known, bad]
  · simp [State.startRefusals, State.jobOpen, show s.sm.warned = false from calm, state, known, valid, stop]
  · rw [opens at_, here at_.1 at_.2.1, if_pos lost]
  · rw [opens at_, here at_.1 at_.2.1, if_neg (by simp [known]), if_pos stop]
  · rw [opens at_, here at_.1 at_.2.1, if_neg (by simp [known]), if_neg (by simp [go]), if_pos bad]
  · rw [opensRun at_, here at_.1 at_.2.1, if_pos lost]
  · rw [opensRun at_, here at_.1 at_.2.1, if_neg (by simp [known]), if_pos stop]
  · rw [opensRun at_, here at_.1 at_.2.1, if_neg (by simp [known]), if_neg (by simp [go]), if_pos bad]

end Sys2Proof.Machine
end

section
/-! PROOF. STOP (R74): the halt asked for in each pass state, and the part that waits on or makes it. -/

open Sys2Proof.Claims

namespace Sys2Proof.Machine

variable {s : State}

/-! ## STOP where the machine works (R74, R75) -/

theorem exec_stop_refused (acts : Acts s) (idle : s.pc.state = .idle) : exec .stop s = .next (refused .noJob s) := by
  show execStop s = _
  rw [execStop, whenOperating_of_acts acts, State.unless_refused (why := .noJob) (by simp [State.jobOpen, idle])]

/-- STOP where a job is open and the controller is not at rest. -/
theorem exec_stop_working (acts : Acts s) (work : AtWork s) :
    exec .stop s = .next ((withResponse .accepted .none [] s).askHalt .stopRequest).drive := by
  have open_ : firstReason [(!s.jobOpen, Reason.noJob)] = none := by
    rcases work with e | e | e | e | e <;> simp [State.jobOpen, e]
  show execStop s = _
  rw [execStop, whenOperating_of_acts acts, State.unless_carriedOut open_]
  rcases work with e | e | e | e | e <;> simp only [e] <;> rfl

/-- STOP where a job is open and the controller is at rest. -/
theorem exec_stop_resting (acts : Acts s)
    (rest : s.pc.state = .halted ∨ s.pc.state = .standby ∨ s.pc.state = .finished) :
    exec .stop s = .next (done [] (if s.pc.state = .halted ∧ s.pc.cause = .starved then s.changeCause .stopRequest
      else s)) := by
  have open_ : firstReason [(!s.jobOpen, Reason.noJob)] = none := by
    rcases rest with e | e | e <;> simp [State.jobOpen, e]
  show execStop s = _
  rw [execStop, whenOperating_of_acts acts, State.unless_carriedOut open_]
  rcases rest with e | e | e
  · simp only [e, true_and]
    split <;> rfl
  · simp only [e]
    rfl
  · simp only [e]
    rfl

/-- A halt asked for while the machine sews is a soft halt; the part sews on. -/
theorem exec_stop_sewing (acts : Acts s) (sewing : s.pc.state = .sewing ∨ s.pc.state = .repair)
    (phase : s.pc.phase = .sew) : exec .stop s = .next (withResponse .accepted .none [] { s with
      mp := { s.mp with stopCeiling := true }
      pc := { s.pc with state := .stopping, due := some .stopRequest } }) := by
  obtain ⟨slows, -⟩ := (withResponse .accepted .none [] s).askHalt_asked .stopRequest
  rw [exec_stop_working acts (sewing.imp id .inl), slows sewing]
  exact congrArg _ (State.drive_waits (State.waits_sewing phase))

/-- The halt asked for on the way leaves the halt that is due, or is due itself. -/
theorem exec_stop_onTheWay (acts : Acts s)
    (way : s.pc.state = .stopping ∨ s.pc.state = .travel ∨ s.pc.state = .change) : exec .stop s =
      .next (withResponse .accepted .none [] { s with
        pc := { s.pc with due := some (s.pc.due.getD .stopRequest) } }).drive := by
  obtain ⟨-, pends, -⟩ := (withResponse .accepted .none [] s).askHalt_asked .stopRequest
  obtain ⟨due, made, fresh, standing⟩ := pends way
  have same : due = s.pc.due.getD .stopRequest := by
    cases e : s.pc.due with
    | none => exact fresh e
    | some c => exact (standing c e).2 fun replaces => by simp at replaces
  rw [exec_stop_working acts (.inr (.inr way)), made, same]
  rfl

/-- A part that waits for a shift, a trim or a travel waits on with a halt due, and so does one whose begin-pass request
has a move in progress. -/
theorem State.waits_withHaltDue (waits : Waits s) (c : HaltCause) (l : Link)
    (phase : (∃ a, s.pc.phase = .choice a) ∨ (∃ a, s.pc.phase = .trim a) ∨ (∃ a, s.pc.phase = .travel a) ∨
      (∃ a, s.pc.phase = .begin a) ∧ s.mp.mode = .travelling) :
    Waits { s with rl := l, pc := { s.pc with due := some c } } := by
  rcases phase with ⟨a, e⟩ | ⟨a, e⟩ | ⟨a, e⟩ | ⟨⟨a, e⟩, mode⟩ <;> simp only [Waits, State.microStep, e] at waits ⊢
  · have shifting : s.anyShift = true := by simpa using waits
    exact if_pos shifting
  · have trimming : s.anyTrim = true := by simpa using waits
    exact if_pos trimming
  · have moving := (State.stepTravel_eq_none_iff (s := s) a).1 waits
    exact (State.stepTravel_eq_none_iff a).2 moving
  · obtain ⟨-, moving⟩ := (State.stepBegin_eq_none_iff (s := s)).1 waits
    exact State.stepBegin_eq_none_iff.2 ⟨fun rest => by simp [mode] at rest, moving⟩

/-- A begin-pass request at rest is given up for the halt that is due. -/
theorem State.microStep_beginDue {a : Aim} (phase : s.pc.phase = .begin a) (mode : s.mp.mode = .atRest) {c : HaltCause}
    (due : s.pc.due = some c) : s.microStep = some (s.enterHalted c s.stands) := by
  simp only [State.microStep, phase, State.stepBegin, mode, due, Option.isSome_some, if_true, State.haltDue,
    Option.getD_some]

/-- Settles O29: STOP by what the controller is doing. -/
theorem stopActs : Obligations.StopActs := by
  intro s acts waits
  have pends (way : s.pc.state = .travel ∨ s.pc.state = .change) (free : s.pc.due = none) : exec .stop s =
      .next (withResponse .accepted .none [] { s with pc := { s.pc with due := some .stopRequest } }).drive := by
    rw [exec_stop_onTheWay acts (.inr way), free]
    rfl
  refine ⟨exec_stop_refused acts, exec_stop_sewing acts, fun way free phase => ?_, fun way free ⟨a, phase⟩ mode => ?_,
    fun way free phase mode => ?_, fun c way due => ?_, fun halted starved => ?_, fun resting => ?_⟩
  · rw [pends way free]
    exact congrArg _ (State.drive_waits (State.waits_withHaltDue waits _ _ (phase.imp id (.imp id .inl))))
  · generalize hu : withResponse .accepted .none [] { s with pc := { s.pc with due := some .stopRequest } } = u at pends
    have due : u.pc.due = some .stopRequest := by rw [← hu]; rfl
    have phase' : u.pc.phase = .begin a := by rw [← hu]; exact phase
    have mode' : u.mp.mode = .atRest := by rw [← hu]; exact mode
    have halts := State.microStep_beginDue phase' mode' due
    have shape := u.enterHalted_shape .stopRequest u.stands
    refine ⟨_, (pends way free).trans (congrArg _ (State.drive_once halts (u.enterHalted_waits _ _))), ?_, ?_, ?_,
      u.enterHalted_raises _ _, ?_⟩
    · rw [Answered, shape, ← hu]
      rfl
    · rw [shape]
    · rw [shape]
    · rw [shape, ← hu]
      rfl
  · rw [pends way free]
    exact congrArg _ (State.drive_waits (State.waits_withHaltDue waits _ _ (.inr (.inr (.inr ⟨phase, mode⟩)))))
  · have same : ({ s with pc := { s.pc with due := some c } } : State) = s := by rw [← due]
    rw [exec_stop_onTheWay acts way, due, Option.getD_some, same]
    exact congrArg _ (State.drive_waits (State.waits_same waits rfl rfl rfl rfl))
  · rw [exec_stop_resting acts (.inl halted), if_pos ⟨halted, starved⟩, State.changeCause,
      if_neg (by simp [starved])]
    rfl
  · have stays : ¬ (s.pc.state = .halted ∧ s.pc.cause = .starved) := by
      rintro ⟨halted, starved⟩
      simp [halted, starved] at resting
    rw [exec_stop_resting acts (resting.imp And.left id), if_neg stays]

end Sys2Proof.Machine
end

section
/-! PROOF. The transitions that many of the round's statements share: the end of a trim request (R94, R110), the repairs
of a point that are due (R69, R77, R157), the way on from a resume point (R79), and the records carried into a segment
head by head (R151, R152). -/

open Sys2Proof.Claims

namespace Sys2Proof.Machine

variable {s t : State}

/-! ## The end of a trim request (R94, R110) -/

theorem State.endTrimRequest_shape (s : State) : s.endTrimRequest = { s with
    hs := { s.hs with heads := s.endTrimRequest.hs.heads }, ts := { s.ts with trimNamed := 0 } } := by
  obtain ⟨heads, shape⟩ := State.forHeads_setHead_shape (inSet s.ts.trimNamed) (fun t h => { t.head h with inTrim := false }) s
  unfold State.endTrimRequest
  dsimp only
  rw [shape]

theorem State.endTrimRequest_head (s : State) (h : HeadId) : s.endTrimRequest.head h =
    if inSet s.ts.trimNamed h then { s.head h with inTrim := false } else s.head h :=
  State.forHeads_at (g := State.head) (fun _ x => { x with inTrim := false })
    (fun _ _ => State.head_setHead_self _ _ _) (fun _ _ _ e => (State.head_setHead _ _ _ _).trans (if_neg e)) s h

theorem State.endTrimRequest_inTrim (s : State) (h : HeadId) : s.endTrimRequest.head h =
    { s.head h with inTrim := (s.head h).inTrim && !inSet s.ts.trimNamed h } := by
  rw [State.endTrimRequest_head]
  cases inSet s.ts.trimNamed h <;> simp

theorem State.endTrimRequest_pc (s : State) : s.endTrimRequest.pc = s.pc := by rw [State.endTrimRequest_shape]

theorem State.waits_trim {a : TrimAim} (phase : s.pc.phase = .trim a) (trimming : ∃ h x, (s.sel h).trim = some x) :
    Waits s := by
  simp only [Waits, State.microStep, phase, State.anyTrim_iff.2 trimming, if_true]

theorem State.microStep_trim {a : TrimAim} (phase : s.pc.phase = .trim a) (ended : ∀ h, (s.sel h).trim = none) :
    s.microStep = some (s.trimsComplete a) := by
  have still : ¬ s.anyTrim = true := fun trimming => by
    obtain ⟨h, x, flight⟩ := State.anyTrim_iff.1 trimming
    simp [ended] at flight
  simp only [State.microStep, phase]
  exact if_neg still

theorem State.heads_of_sel (same : ∀ h, t.sel h = s.sel h) : t.ts.heads = s.ts.heads :=
  Vector.ext fun i below => same ⟨i, below⟩

/-! ## The repairs of a point (R69, R77, R157) -/

theorem State.clearContext_noContext (s : State) : NoContext s.clearContext.pc :=
  ⟨rfl, fun h => Vector.getElem_replicate h.isLt, rfl, rfl, rfl, rfl⟩

theorem State.startRepairs_due (p : RepairPoint) (s : State) : RepairsDue s (s.startRepairs p) p := by
  have cleared := s.clearContext_noContext
  refine ⟨?_, ?_⟩
  · rintro (rfl | rfl)
    · exact ⟨cleared, rfl⟩
    · exact ⟨cleared, rfl⟩
  · rintro (rfl | rfl)
    · rfl
    · rfl

theorem State.repairsAtEnd_due (g : Nat) (s : State) :
    RepairsDue s (s.repairsAtEnd g) (if s.segmentCount ≤ g + 1 then .jobEnd else .segmentEnd) := s.startRepairs_due _

/-! ## The way on from a resume point (R79) -/

theorem inSet_everyHead (h : HeadId) : inSet everyHead h = true := by
  revert h
  decide

/-- A needle choice that covers every head. -/
theorem State.needleChoice_every (s : State) (thread g : Nat) (kind : PassKind) (start : Nat) (involved : HeadSet) :
    Chosen s (s.needleChoice thread g kind start involved everyHead) ⟨thread, g, kind, start, involved⟩ fun _ => True := by
  have covers : (fun h => inSet everyHead h = true) = fun _ => True := funext fun h => eq_true (inSet_everyHead h)
  rw [← covers]
  exact s.needleChoice_chosen thread g kind start involved everyHead

theorem State.threadOf_found {g : Nat} {r : SegRecord} (found : s.findSeg g = some r) : s.threadOf g = r.thread := by
  rw [State.threadOf, found]
  rfl

theorem State.countOf_found {g : Nat} {r : SegRecord} (found : s.findSeg g = some r) : s.countOf g = r.count := by
  rw [State.countOf, found]
  rfl

theorem State.goOn_atStitch {g k : Nat} {r : SegRecord} (point : s.pc.point = some (.atStitch g k))
    (found : s.findSeg g = some r) :
    s.goOn = (going s .change (.choice .resume)).needleChoice r.thread g .main k 0 everyHead := by
  rw [← State.threadOf_found found]
  simp only [State.goOn, point]
  rfl

theorem State.goOn_goesOn (s : State) : GoesOn s s.goOn := by
  refine ⟨fun g k r point found => ?_, fun g point => ?_, fun point => ?_, fun point => ?_⟩
  · rw [State.goOn_atStitch point found]
    exact State.needleChoice_every _ r.thread g .main k 0
  · simp only [State.goOn, point]
    exact s.repairsAtEnd_due g
  · simp only [State.goOn, point]
    rfl
  · simp only [State.goOn, point]
    exact s.startRepairs_due _

end Sys2Proof.Machine
end

section
/-! PROOF. REPAIR_RUN (R82): the trims owed, and the run that goes on at once where no head can be sent one. -/

open Sys2Proof.Claims

namespace Sys2Proof.Machine

variable {s t : State}

/-- The heads that REPAIR_RUN trims (R82). -/
theorem State.inSet_runTrims (s : State) (h : HeadId) : inSet s.runTrims h = true ↔ inSet s.pc.owedTrims h = true ∨
    (∃ g k, s.pc.point = some (.atStitch g k)) ∧ s.pc.trimmed = false ∧ (s.head h).inTrim = true := by
  have stitch : (s.pc.point.elim false fun p => p.isStitch) = true ↔ ∃ g k, s.pc.point = some (.atStitch g k) := by
    cases s.pc.point with
    | none => simp
    | some p => cases p <;> simp [ResumePoint.isStitch]
  unfold State.runTrims
  dsimp only
  split
  case isTrue last =>
    rw [Bool.and_eq_true, stitch, Bool.not_eq_true'] at last
    rw [inSet_or, Bool.or_eq_true, s.inSet_trimSet]
    simp only [last, true_and]
  case isFalse last =>
    rw [Bool.and_eq_true, stitch, Bool.not_eq_true'] at last
    rw [or_iff_left]
    rintro ⟨point, fresh, -⟩
    exact last ⟨point, fresh⟩

/-- The state in which REPAIR_RUN makes its trim request. -/
def State.runAccepted (s : State) : State := { withResponse .accepted .none [] s with pc := { s.pc with
  state := .change, cause := .none, phase := .trim .repairRun, runCause := s.pc.cause } }

theorem State.repairRan_eq (s : State) : s.repairRan =
    if s.rt.records.any s.eligible then (s.runAccepted.requestTrim s.runTrims).drive else Claims.done [] s := rfl

theorem State.any_eligible_iff (s : State) : s.rt.records.any s.eligible = true ↔ ∃ r ∈ s.rt.records, Eligible s r := by
  simp only [List.any_eq_true, State.eligible_iff]

/-- At the end of the trims of a REPAIR_RUN its repairs are due, or the halt that is due is made. -/
theorem State.trimsComplete_repairRun (s : State) : s.trimsComplete .repairRun =
    let u : State := { s.endTrimRequest with pc := { s.pc with owedTrims := 0, trimmed := true } }
    if s.pc.due.isSome then u.haltDue u.stands else u.startRepairs .run := by
  rw [← s.endTrimRequest_pc]
  rfl

/-- Settles O32: nothing eligible, the trims owed, and the run that goes on where no head can be sent a trim. -/
theorem repairRunTrimsFirst : Obligations.RepairRunTrimsFirst := by
  intro s acts may halted causes
  have ran := exec_repairRun_accepted acts may halted ((HaltCause.permitsRun_iff _).2 causes)
  rw [ran, State.repairRan_eq]
  refine ⟨fun none_ => ?_, fun some_ => ?_⟩
  · have nothing : ¬ s.rt.records.any s.eligible = true := fun any => by
      obtain ⟨r, there, eligible⟩ := s.any_eligible_iff.1 any
      exact none_ r there eligible
    rw [if_neg nothing]
  intro named
  rw [if_pos (s.any_eligible_iff.2 some_)]
  have shape := s.runAccepted.requestTrim_shape s.runTrims
  have orders : TrimOrders s (s.runAccepted.requestTrim s.runTrims) named :=
    State.requestTrim_orders (s := s.runAccepted) s.inSet_runTrims
  generalize s.runAccepted.requestTrim s.runTrims = t at shape orders
  have phase : t.pc.phase = .trim .repairRun := by rw [shape]; rfl
  refine ⟨t, rfl, fun ⟨h, name, polled⟩ => ?_, by rw [shape]; rfl, orders, fun free out calm => ?_⟩
  · have trimming : (t.sel h).trim = some ⟨.unsent, s.par.trimTimeout⟩ := by rw [(orders.2.2 h).1 name polled]
    exact congrArg _ (State.drive_waits (State.waits_trim phase ⟨h, _, trimming⟩))
  · obtain ⟨ts, names, sel⟩ := orders
    have unsent (h : HeadId) : t.sel h = s.sel h := (sel h).2 (Classical.or_iff_not_imp_left.2 fun name => out h (not_not.1 name))
    have due : t.pc.due = none := by rw [shape]; exact calm
    have step := State.microStep_trim phase fun h => (congrArg SelectorHead.trim (unsent h)).trans (free h)
    rw [State.trimsComplete_repairRun] at step
    dsimp only at step
    rw [if_neg (by simp [due])] at step
    have head := t.endTrimRequest_head
    have ended := t.endTrimRequest_shape
    have sel' : t.ts.heads = s.ts.heads := State.heads_of_sel unsent
    generalize t.endTrimRequest = e at step head ended
    refine ⟨_, step, fun v next waits => congrArg _ (State.drive_twice step next waits), ?_, fun h => ?_⟩
    · have selector : ({ t.ts with trimNamed := 0 } : Selector) = { s.ts with trimNamed := 0 } := by rw [ts, sel']
      have pc : t.pc = { s.pc with
          state := .change, cause := .none, phase := .trim .repairRun, runCause := s.pc.cause } := by rw [shape]; rfl
      rw [ended, selector, pc, shape]
      rfl
    · have before : t.head h = s.head h := State.head_congr (by rw [shape]; rfl) h
      have after := head h
      rw [before] at after
      exact ⟨fun name => after.trans (if_pos ((names h).2 name)), fun apart => after.trans (if_neg (mt (names h).1 apart))⟩

end Sys2Proof.Machine
end

section
/-! PROOF. JOB_OPEN and JOB_CLOSE (R61, R62): the job a request spells, the job opened, and the job ended with everything
it held. -/

open Sys2Proof.Claims

namespace Sys2Proof.Machine

variable {s t : State}

/-- LOAD_WANT is about the Design Store, the parameters and the controller alone (R19). -/
theorem LoadWantFollows.of_same {b : Bool} {v : State} (h : LoadWantFollows b v) (ds : t.ds = v.ds) (par : t.par = v.par)
    (job : t.pc.job = v.pc.job) (state : t.pc.state = v.pc.state) : LoadWantFollows b t := by
  have ahead : t.readyAhead = v.readyAhead := State.readyAhead_congr (by rw [ds]) (by rw [ds])
  have wanted : t.nextWanted = v.nextWanted := State.nextWanted_congr (by rw [ds]) (by rw [ds])
  unfold LoadWantFollows State.segmentCount at h ⊢
  rw [ahead, wanted, ds, par, job, state]
  exact h

/-! ## JOB_OPEN (R21, R61, R166) -/

theorem repairWhenOf_isNone_iff (b : Byte) : (repairWhenOf b).isNone = true ↔ 2 < b.toNat := by
  unfold repairWhenOf
  split <;> simp_all
  omega

/-- The job that a JOB_OPEN spells (R61). -/
def jobSpelled (n heads : BitVec 16) (when_ : Byte) (ceiling : BitVec 16) (backtrack : Byte) : Job where
  segments := n.toNat
  heads := heads
  repairWhen := (repairWhenOf when_).getD .segmentEnd
  pinCeiling := min ceiling.toNat 4096
  powerBacktrack := min backtrack.toNat 63

section
variable (n heads : BitVec 16) (when_ : Byte) (ceiling : BitVec 16) (backtrack : Byte)

/-- The refusals of JOB_OPEN in their order. -/
def State.jobOpenRefusals (s : State) (n heads : BitVec 16) (when_ : Byte) : List (Bool × Reason) :=
  [ (s.sm.warned, .busy),
    (s.jobOpen, .busy),
    (decide (n = 0) || decide (heads = 0) || (repairWhenOf when_).isNone, .badArgument) ]

theorem exec_jobOpen (acts : Acts s) : exec (.jobOpen n heads when_ ceiling backtrack) s =
    .next (s.unless (s.jobOpenRefusals n heads when_) fun t =>
      (t.openJob (jobSpelled n heads when_ ceiling backtrack)).stored
        (decide (4096 < ceiling.toNat) || decide (63 < backtrack.toNat))) := by
  show execJobOpen n heads when_ ceiling backtrack s = _
  rw [execJobOpen, whenOperating_of_acts acts]
  rfl

end

/-- The state in which a job opened has its heads, before the mark is removed. -/
def State.jobTaken (s : State) (job : Job) : State :=
  { s.clearContext with pc := { s.clearContext.pc with
    state := .standby, cause := .none, due := none, job := some job, phase := .rest } }

/-- The heads in and out of the job opened. -/
def State.headsOpened (s : State) (job : Job) : State := (s.jobTaken job).forHeads (fun _ => true) fun h t =>
  t.setHead h ((t.head h).atJobOpen (inSet job.heads h))

theorem State.openJob_eq (s : State) (job : Job) : s.openJob job =
    ({ s.headsOpened job with ds := { (s.headsOpened job).ds with mark := none, markThread := 0 } } : State).evalLoad := rfl

theorem State.headsOpened_shape (s : State) (job : Job) :
    ∃ heads, s.headsOpened job = { s.jobTaken job with hs := { s.hs with heads := heads } } :=
  State.forHeads_setHead_shape _ (fun t h => (t.head h).atJobOpen (inSet job.heads h)) (s.jobTaken job)

theorem State.headsOpened_head (s : State) (job : Job) (h : HeadId) :
    (s.headsOpened job).head h = (s.head h).atJobOpen (inSet job.heads h) :=
  State.forHeads_at (g := State.head) (fun h x => x.atJobOpen (inSet job.heads h)) (fun _ _ => State.head_setHead_self _ _ _)
    (fun _ _ _ e => (State.head_setHead _ _ _ _).trans (if_neg e)) (s.jobTaken job) h

/-- The LOAD_WANT flag after a job has been opened follows its counts (R19, R21). -/
theorem State.openJob_loadWant (s : State) (job : Job) : LoadWantFollows s.ds.loadWant (s.openJob job) := by
  obtain ⟨heads, shape⟩ := s.headsOpened_shape job
  have before : (s.headsOpened job).ds.loadWant = s.ds.loadWant := by rw [shape]; rfl
  rw [State.openJob_eq, ← before]
  generalize s.headsOpened job = v
  exact LoadWantFollows.of_evalLoad (u := { v with ds := { v.ds with mark := none, markThread := 0 } }) rfl rfl rfl

/-- A job opened, as the statements tell of it. -/
structure JobOpened (s t : State) (job : Job) : Prop where
  shape : t = { s with
    ds := { s.ds with mark := none, markThread := 0, loadWant := t.ds.loadWant }
    pc := { s.clearContext.pc with state := .standby, cause := .none, due := none, job := some job, phase := .rest }
    hs := { s.hs with heads := t.hs.heads } }
  head : ∀ h, t.head h = (s.head h).atJobOpen (inSet job.heads h)
  loadWant : LoadWantFollows s.ds.loadWant t

theorem State.openJob_opened (s : State) (job : Job) : JobOpened s (s.openJob job) job := by
  have head := s.headsOpened_head job
  have wants := s.openJob_loadWant job
  obtain ⟨heads, shape⟩ := s.headsOpened_shape job
  rw [State.openJob_eq] at wants ⊢
  generalize s.headsOpened job = v at shape head wants ⊢
  refine ⟨?_, head, wants⟩
  rw [shape]
  rfl

/-! ## JOB_CLOSE (R21, R62, R88, R116) -/

theorem State.applyStagedEdits_pages (s : State) :
    s.applyStagedEdits.ds.segs.flatMap (·.pages) = s.ds.segs.flatMap (·.pages) := by
  obtain ⟨heads, shape⟩ := s.withStagedEdits_shape
  have same (u : State) (r : SegRecord) : (u.withUnthreaded r).pages = r.pages := by
    unfold State.withUnthreaded
    split <;> rfl
  rw [State.applyStagedEdits_eq, shape]
  split
  · rw [State.computeUnthreaded_eq, List.flatMap_map]
    simp only [same]
  · rfl

theorem State.applyStagedEdits_shape (s : State) : s.applyStagedEdits = { s with
    ts := { s.ts with heads := s.applyStagedEdits.ts.heads }
    ds := { s.ds with segs := s.applyStagedEdits.ds.segs }
    rl := { s.rl with sticky := s.applyStagedEdits.rl.sticky } } := by
  obtain ⟨heads, shape⟩ := s.withStagedEdits_shape
  rw [State.applyStagedEdits_eq, shape]
  split
  · rw [State.computeUnthreaded_eq]
  · rfl

theorem State.applyStagedEdits_sel (s : State) (h : HeadId) : s.applyStagedEdits.sel h =
    { s.sel h with needles := (s.sel h).needles.map NeedleEntry.applyStaged } := by
  exact s.choosesFrom_sel ⟨0, 0, .main, 0, 0⟩ h

/-- One head at the end of its job. -/
def State.jobLeft (h : HeadId) (s : State) : State := (s.setHead h (s.head h).leaveJob).clearMeter h

/-- The heads at the end of their job. -/
def State.headsLeft (s : State) : State := s.forHeads (fun _ => true) State.jobLeft

theorem State.headsLeft_shape (s : State) : s.headsLeft =
    { s with hs := { s.hs with heads := s.headsLeft.hs.heads }, tm := s.headsLeft.tm } :=
  State.forHeads_keep (P := fun u => u = { s with hs := { s.hs with heads := u.hs.heads }, tm := u.tm })
    (fun h u _ same => by rw [same]; rfl) rfl

theorem State.headsLeft_head (s : State) (h : HeadId) : s.headsLeft.head h = (s.head h).leaveJob :=
  State.forHeads_at (f := State.jobLeft) (g := State.head) (fun _ x => x.leaveJob)
    (fun h t => State.head_setHead_self t h _) (fun h k t e => (State.head_setHead t h k _).trans (if_neg e)) s h

theorem State.headsLeft_meter (s : State) (h : HeadId) : s.headsLeft.meter h = (s.meter h).cleared :=
  State.forHeads_at (f := State.jobLeft) (g := State.meter) (fun _ x => x.cleared)
    (fun h t => State.meter_setMeter_self t h _) (fun h k t e => (State.meter_setMeter t h k _).trans (if_neg e)) s h

/-- The state in which a job's end meets the heads. -/
def State.storeLeft (s : State) : State := s.applyStagedEdits.dropRecords.freeAll

/-- The controller once its job has ended. -/
def State.jobless (s : State) : State :=
  { s.clearPolicy.clearContext.clearWorking with pc := { s.clearPolicy.clearContext.clearWorking.pc with
    state := .idle, cause := .none, due := none, job := none, phase := .rest } }

theorem State.jobless_head (s : State) (h : HeadId) : s.jobless.head h = s.head h := rfl

theorem State.jobless_meter (s : State) (h : HeadId) : s.jobless.meter h = s.meter h := rfl

theorem State.jobless_sel (s : State) (h : HeadId) : s.jobless.sel h = s.sel h := rfl

theorem State.closeJob_eq (s : State) : s.closeJob = s.storeLeft.headsLeft.jobless := rfl

theorem exec_jobClose (acts : Acts s) : exec .jobClose s =
    .next (s.unless [(!s.pc.state.closes, .busy)] fun t => Claims.done [] t.closeJob) := by
  show execJobClose s = _
  rw [execJobClose, whenOperating_of_acts acts]
  rfl

theorem PassState.closes_iff (p : PassState) : p.closes = true ↔ p = .standby ∨ p = .halted ∨ p = .finished := by
  cases p <;> simp [PassState.closes]

theorem State.closeJob_sel (s : State) (h : HeadId) : s.closeJob.sel h =
    { s.sel h with needles := (s.sel h).needles.map NeedleEntry.applyStaged } := by
  have left : s.storeLeft.headsLeft.ts = s.applyStagedEdits.ts := by
    rw [State.headsLeft_shape]
    rfl
  rw [State.closeJob_eq, State.jobless_sel, State.sel_congr left, State.applyStagedEdits_sel]

theorem State.closeJob_head (s : State) (h : HeadId) : s.closeJob.head h = (s.head h).leaveJob := by
  have before : s.storeLeft.hs = s.hs := by
    rw [State.storeLeft, State.applyStagedEdits_shape]
    rfl
  rw [State.closeJob_eq, State.jobless_head, State.headsLeft_head, State.head_congr before]

theorem State.closeJob_meter (s : State) (h : HeadId) : s.closeJob.meter h = (s.meter h).cleared := by
  have before : s.storeLeft.tm = s.tm := by
    rw [State.storeLeft, State.applyStagedEdits_shape]
    rfl
  rw [State.closeJob_eq, State.jobless_meter, State.headsLeft_meter, State.meter_congr before]

/-- All that a job's end changes. -/
theorem State.closeJob_shape (s : State) : s.closeJob = { s with
    rl := { s.rl with sticky := s.closeJob.rl.sticky }
    ds := ⟨[], s.ds.memory, s.ds.pool ++ s.ds.segs.flatMap (·.pages), none, 0, false, none⟩
    mp := { s.mp with policyCeiling := none }
    pc := { s.clearContext.pc with state := .idle, cause := .none, due := none, job := none, phase := .rest }
    ts := { s.ts with heads := s.closeJob.ts.heads, working := none }
    hs := { s.hs with heads := s.closeJob.hs.heads }
    tm := s.closeJob.tm
    rt := ⟨[], none, false, none⟩ } := by
  have pages := s.applyStagedEdits_pages
  have edits := s.applyStagedEdits_shape
  have left := s.storeLeft.headsLeft_shape
  rw [State.closeJob_eq]
  generalize s.storeLeft.headsLeft = v at left
  rw [left, State.storeLeft, State.freeAll, State.dropRecords, ← pages]
  generalize s.applyStagedEdits = u at edits
  rw [edits]
  rfl

/-- Settles O27: the refusals, the job opened and the job ended. -/
theorem jobsOpenAndClose : Obligations.JobsOpenAndClose := by
  refine ⟨fun n heads when_ ceiling backtrack s acts => ?_, fun s acts => ?_⟩
  · intro request bad
    have made : request = _ := exec_jobOpen n heads when_ ceiling backtrack acts
    have form : (decide (n = 0) || decide (heads = 0) || (repairWhenOf when_).isNone) = true ↔ bad := by
      simp only [Bool.or_eq_true, decide_eq_true_eq, repairWhenOf_isNone_iff, or_assoc, bad]
    have closed (idle : s.pc.state = .idle) : s.jobOpen = false := by simp [State.jobOpen, idle]
    refine ⟨fun busy => ?_, fun calm idle wrong => ?_, fun calm idle fine => ?_⟩
    · have first : firstReason (s.jobOpenRefusals n heads when_) = some .busy := by
        rcases busy with warned | open_
        · simp [State.jobOpenRefusals, warned]
        · simp [State.jobOpenRefusals, State.jobOpen_iff.2 open_]
      rw [made, State.unless_refused first]
    · have first : firstReason (s.jobOpenRefusals n heads when_) = some .badArgument := by
        simp only [State.jobOpenRefusals, firstReason_cons, calm, closed idle, form.2 wrong]
        rfl
      rw [made, State.unless_refused first]
    · have none_ : firstReason (s.jobOpenRefusals n heads when_) = none := by
        simp only [State.jobOpenRefusals, firstReason_cons, calm, closed idle, mt form.1 fine, firstReason_nil]
        rfl
      rw [State.unless_carriedOut none_] at made
      have open_ := s.openJob_opened (jobSpelled n heads when_ ceiling backtrack)
      generalize s.openJob (jobSpelled n heads when_ ceiling backtrack) = t at made open_
      obtain ⟨shape, head, wants⟩ := open_
      have clamps : (decide (4096 < ceiling.toNat) || decide (63 < backtrack.toNat)) = true ↔
          4096 < ceiling.toNat ∨ 63 < backtrack.toNat := by simp
      refine ⟨_, jobSpelled n heads when_ ceiling backtrack, made, ?_, ?_, by rw [shape]; rfl, by rw [shape]; rfl,
        by rw [shape]; rfl, by rw [shape]; exact s.clearContext_noContext, by rw [shape]; rfl, rfl, rfl, rfl, rfl, ?_, ?_, ?_,
        head,
        LoadWantFollows.of_same wants rfl rfl rfl rfl⟩
      · show Slot.ready ⟨if _ then _ else _, _, _⟩ = _
        simp only [clamps]
      · rw [shape]
        rfl
      · rintro rfl
        rfl
      · rintro rfl
        rfl
      · rintro rfl
        rfl
  · intro closes
    refine ⟨fun apart => ?_, fun closing => ?_⟩
    · have first : firstReason [(!s.pc.state.closes, Reason.busy)] = some .busy := by
        simp [mt (PassState.closes_iff _).1 apart]
      rw [exec_jobClose acts, State.unless_refused first]
    · have none_ : firstReason [(!s.pc.state.closes, Reason.busy)] = none := by simp [(PassState.closes_iff _).2 closing]
      have shape := s.closeJob_shape
      have head := s.closeJob_head
      have meter := s.closeJob_meter
      have sel := s.closeJob_sel
      rw [exec_jobClose acts, State.unless_carriedOut none_]
      generalize s.closeJob = t at shape head meter sel
      refine ⟨_, rfl, rfl, by rw [shape]; rfl, by rw [shape]; rfl, by rw [shape]; rfl, by rw [shape]; rfl,
        by rw [shape]; exact s.clearContext_noContext, by rw [shape]; rfl, by rw [shape]; exact .refl _, by rw [shape]; rfl,
        by rw [shape]; rfl, by rw [shape]; rfl, by rw [shape]; rfl, by rw [shape]; rfl, by rw [shape]; rfl, fun h => ?_,
        by rw [shape]; rfl, by rw [shape]; rfl, by rw [shape]; rfl, by rw [shape]; rfl, by rw [shape]; rfl,
        by rw [shape]; rfl⟩
      have kept := sel h
      refine ⟨head h, meter h, (congrArg SelectorHead.current kept :), (congrArg SelectorHead.shift kept :),
        (congrArg SelectorHead.trim kept :), fun n => ?_⟩
      have needles := congrArg SelectorHead.needles kept
      refine (congrArg (fun v : Vector NeedleEntry 12 => v[n]) needles).trans ?_
      exact (Vector.getElem_map _ n.isLt).trans (NeedleEntry.applyStaged_eq _)

end Sys2Proof.Machine
end

section
/-! PROOF. Requests made head by head until one is refused (R79, R80, R151, R152), and the take of a segment with its
carry records and its needle choice (R13, R64). -/

open Sys2Proof.Claims

namespace Sys2Proof.Machine

variable {s t : State}

/-! ## Turns that a head's refusal ends (log 53) -/

/-- The heads of a list have their turns in order, until one of them has no answer. -/
def State.attempts (f : HeadId → State → Option State) : List HeadId → State → State × Option HeadId
  | [], s => (s, none)
  | h :: rest, s =>
    match f h s with
    | some t => State.attempts f rest t
    | none => (s, some h)

section
variable {f : HeadId → State → Option State}

theorem State.attempts_some {h : HeadId} {rest : List HeadId} (turn : f h s = some t) :
    State.attempts f (h :: rest) s = State.attempts f rest t := by
  rw [State.attempts, turn]

theorem State.attempts_none {h : HeadId} {rest : List HeadId} (turn : f h s = none) :
    State.attempts f (h :: rest) s = (s, some h) := by
  rw [State.attempts, turn]

/-- Turns that all leave the state end where they began. -/
theorem State.attempts_idle (idle : ∀ h, f h s = some s) (l : List HeadId) : State.attempts f l s = (s, none) := by
  induction l with
  | nil => rfl
  | cons h rest ih => rw [State.attempts_some (idle h), ih]

theorem State.attempts_listed (f : HeadId → State → Option State) (l : List HeadId) (s : State) :
    ∃ (x : Nat → State) (k : Nat), x 0 = s ∧ k ≤ l.length ∧
      (∀ i (below : i < l.length), i < k → f l[i] (x i) = some (x (i + 1))) ∧
      (∀ below : k < l.length, f l[k] (x k) = none ∧ State.attempts f l s = (x k, some l[k])) ∧
      (k = l.length → State.attempts f l s = (x k, none)) := by
  induction l generalizing s with
  | nil => exact ⟨fun _ => s, 0, rfl, le_rfl, nofun, nofun, fun _ => rfl⟩
  | cons h rest ih =>
    cases turn : f h s with
    | none => exact ⟨fun _ => s, 0, rfl, Nat.zero_le _, nofun, fun _ => ⟨turn, State.attempts_none turn⟩, nofun⟩
    | some t =>
      obtain ⟨x, k, start, bound, turns, stops, ends⟩ := ih t
      rw [State.attempts_some turn]
      refine ⟨fun i => Nat.casesOn i s x, k + 1, rfl, Nat.succ_le_succ bound, fun i below less => ?_,
        fun below => stops (Nat.lt_of_succ_lt_succ below), fun all => ends (Nat.succ.inj all)⟩
      cases i with
      | zero => exact turn.trans (congrArg some start.symm)
      | succ i => exact turns i (Nat.lt_of_succ_lt_succ below) (Nat.lt_of_succ_lt_succ less)

/-- The states between the heads' turns, up to the head that has no answer. -/
theorem State.attempts_turns (f : HeadId → State → Option State) (s : State) : ∃ (x : Nat → State) (k : Nat),
    x 0 = s ∧ k ≤ 16 ∧ (∀ h : HeadId, h.val < k → f h (x h.val) = some (x (h.val + 1))) ∧
      (∀ h : HeadId, h.val = k → f h (x k) = none ∧ State.attempts f allHeads s = (x k, some h)) ∧
      (k = 16 → State.attempts f allHeads s = (x 16, none)) := by
  obtain ⟨x, k, start, bound, turns, stops, ends⟩ := State.attempts_listed f allHeads s
  have length : allHeads.length = 16 := List.length_finRange
  have at_ (h : HeadId) (below : h.val < allHeads.length) : allHeads[h.val] = h := by simp [allHeads]
  rw [length] at bound
  refine ⟨x, k, start, bound, fun h less => ?_, fun h here => ?_, fun all => ?_⟩
  · have turn := turns h.val (by rw [length]; exact h.isLt) less
    rwa [at_] at turn
  · subst here
    have stop := stops (by rw [length]; exact h.isLt)
    rwa [at_] at stop
  · subst all
    exact ends length.symm

/-- What every turn keeps stands between the turns. -/
theorem State.attempts_keep {P : State → Prop} (keeps : ∀ h y z, P y → f h y = some z → P z) {x : Nat → State} {k : Nat}
    (start : P (x 0)) (bound : k ≤ 16) (turns : ∀ h : HeadId, h.val < k → f h (x h.val) = some (x (h.val + 1))) {i : Nat}
    (le : i ≤ k) : P (x i) := by
  induction i with
  | zero => exact start
  | succ i ih => exact keeps ⟨i, by omega⟩ _ _ (ih (Nat.le_of_succ_le le)) (turns ⟨i, by omega⟩ le)

end

/-! ## Carry records (R152) -/

theorem State.lacks_iff (s : State) (h : HeadId) (g : Nat) :
    (s.absentee h && inSet s.jobHeads h && (s.openRecord h g).isNone) = true ↔ Lacks s h g := by
  rw [Bool.and_eq_true, Bool.and_eq_true, State.absentee_iff, State.openRecord_isNone_iff, and_assoc, and_left_comm]
  rfl

/-- A head's turn at the carry records. -/
def State.carryTurn (g : Nat) (h : HeadId) (s : State) : Option State :=
  if s.absentee h && inSet s.jobHeads h && (s.openRecord h g).isNone then s.openRequest h g 0 .carry else some s

theorem State.carryFor_attempts (g : Nat) (l : List HeadId) (s : State) :
    State.carryFor g 0 l s = State.attempts (State.carryTurn g) l s := by
  induction l generalizing s with
  | nil => rfl
  | cons h rest ih =>
    rw [State.carryFor, State.attempts, State.carryTurn]
    split
    · split <;> simp only [*]
    · exact ih s

theorem State.carryTurn_some {g : Nat} {h : HeadId} (turn : State.carryTurn g h s = some t) : CarryTurn g h s t := by
  rw [State.carryTurn] at turn
  refine ⟨fun has => ?_, fun lacks => ?_⟩
  · rw [if_neg (mt (s.lacks_iff h g).1 has)] at turn
    exact (Option.some.inj turn).symm
  · rwa [if_pos ((s.lacks_iff h g).2 lacks)] at turn

theorem State.carryTurn_none {g : Nat} {h : HeadId} (turn : State.carryTurn g h s = none) :
    Lacks s h g ∧ s.openRequest h g 0 .carry = none := by
  rw [State.carryTurn] at turn
  split at turn
  · rename_i lacks
    exact ⟨(s.lacks_iff h g).1 lacks, turn⟩
  · cases turn

theorem State.carryTurn_only {g : Nat} {h : HeadId} (turn : State.carryTurn g h s = some t) : s.OnlyRecords t := by
  rw [State.carryTurn] at turn
  split at turn
  · exact State.openRequest_only turn
  · rw [Option.some.inj turn]
    rfl

/-! ## The take (R13, R64) -/

theorem State.takeSegment_ready {n : Nat} {r : SegRecord} (found : s.findSeg n = some r) (ready : r.state = .ready) :
    s.takeSegment n = some { s.putSeg { r with state := .active } with ds :=
      { (s.putSeg { r with state := .active }).ds with mark := some n, markThread := r.thread } }.evalLoad := by
  simp only [State.takeSegment, found, ready, if_true]

theorem State.takeSegment_unready {n : Nat} (unready : ∀ r, s.findSeg n = some r → r.state ≠ .ready) :
    s.takeSegment n = none := by
  unfold State.takeSegment
  split
  · exact if_neg (unready _ ‹_›)
  · rfl

/-- The segment taken, the resume context cleared. -/
def State.takenNext (n : Nat) (r : SegRecord) (s : State) : State :=
  { s.putSeg { r with state := .active } with ds :=
      { (s.putSeg { r with state := .active }).ds with mark := some n, markThread := r.thread } }.evalLoad.clearContext

theorem State.takenNext_findSeg (sound : s.ds.Sound) {n : Nat} {r : SegRecord} (found : s.findSeg n = some r) :
    (s.takenNext n r).findSeg n = some { r with state := .active } ∧
      ∀ m, m ≠ n → (s.takenNext n r).findSeg m = s.findSeg m := by
  obtain ⟨-, -, -, sized⟩ := id sound
  obtain ⟨own, others⟩ := State.findSeg_putSeg (r' := { r with state := .active }) sound found rfl rfl rfl rfl
    (sized r (State.findSeg_mem found).1).2
  exact ⟨(State.findSeg_congr rfl n).trans own, fun m apart => (State.findSeg_congr rfl m).trans (others m apart)⟩

theorem State.takenNext_noContext (n : Nat) (r : SegRecord) (s : State) : NoContext (s.takenNext n r).pc :=
  State.clearContext_noContext _

/-- The wanted load is evaluated on the store with the segment taken; the resume context has no part in it. -/
theorem State.takenNext_loadWant (n : Nat) (r : SegRecord) (s : State) : LoadWantFollows s.ds.loadWant (s.takenNext n r) := by
  have wants : LoadWantFollows s.ds.loadWant { s.putSeg { r with state := .active } with ds :=
      { (s.putSeg { r with state := .active }).ds with mark := some n, markThread := r.thread } }.evalLoad :=
    LoadWantFollows.of_evaluated (u := { s.putSeg { r with state := .active } with ds :=
      { (s.putSeg { r with state := .active }).ds with mark := some n, markThread := r.thread } }) rfl rfl rfl rfl rfl rfl
  exact LoadWantFollows.of_same wants rfl rfl rfl rfl

theorem State.stepTake_unready (unready : ∀ r, s.findSeg s.awaited = some r → r.state ≠ .ready) :
    s.stepTake = s.enterHalted .starved (.beforeTake, true) := by
  rw [State.stepTake]
  simp only [State.takeSegment_unready unready]

theorem State.stepTake_ready {r : SegRecord} (found : s.findSeg s.awaited = some r) (ready : r.state = .ready) :
    s.stepTake = match State.attempts (State.carryTurn s.awaited) allHeads (s.takenNext s.awaited r) with
      | (y, some _) => { y.enterHalted .repairFull (.atStitch s.awaited 0, true) with pc :=
          { (y.enterHalted .repairFull (.atStitch s.awaited 0, true)).pc with carryOwed := true } }
      | (y, none) => (going y .change (.choice .segmentStart)).needleChoice (y.threadOf s.awaited) s.awaited .main 0 0
          everyHead := by
  rw [State.stepTake]
  simp only [State.takeSegment_ready found ready, State.carryFor_attempts]
  rfl

/-! ## The segments that stand while records are made (R16) -/

/-- A segment that is not SEWN stands while records come and go: its pins alone change. -/
structure Repinned (s t : State) : Prop where
  sound : t.ds.Sound
  stands : ∀ m q, s.findSeg m = some q → q.state ≠ .sewn → ∃ p, t.findSeg m = some { q with pins := p }

theorem Repinned.refl (sound : s.ds.Sound) : Repinned s s := ⟨sound, fun _ q found _ => ⟨q.pins, found⟩⟩

theorem Repinned.trans {u : State} (a : Repinned s t) (b : Repinned t u) : Repinned s u := by
  refine ⟨b.sound, fun m q found unsewn => ?_⟩
  obtain ⟨p, stands⟩ := a.stands m q found unsewn
  exact b.stands m { q with pins := p } stands unsewn

theorem Repinned.of_ds (sound : s.ds.Sound) (ds : t.ds = s.ds) : Repinned s t :=
  ⟨ds ▸ sound, fun m q found _ => ⟨q.pins, (State.findSeg_congr (by rw [ds]) m).trans found⟩⟩

theorem State.retire_repinned (sound : s.ds.Sound) (r : RepairRecord) : Repinned s (s.retire r) := by
  obtain ⟨-, others, own⟩ := State.retire_retired sound r
  refine ⟨State.retire_sound sound r, fun m q found unsewn => ?_⟩
  by_cases here : m = r.segment
  · subst here
    obtain ⟨-, stays⟩ := own q found
    obtain ⟨stands, -⟩ := stays fun ⟨sewn, _⟩ => unsewn sewn
    exact ⟨_, stands⟩
  · exact ⟨q.pins, (others m here).trans found⟩

theorem State.retireAll_repinned (sound : s.ds.Sound) (l : List RepairRecord) : Repinned s (s.retireAll l) := by
  induction l generalizing s with
  | nil => exact Repinned.refl sound
  | cons r l ih =>
    have first := State.retire_repinned sound r
    exact first.trans (ih first.sound)

theorem State.pin_repinned (sound : s.ds.Sound) (g : Nat) : Repinned s (s.pin g) := by
  unfold State.pin
  split
  case h_1 r there =>
    obtain ⟨mem, -⟩ := State.findSeg_mem there
    obtain ⟨-, -, -, pages⟩ := id sound
    obtain ⟨own, others⟩ := State.findSeg_putSeg (r' := { r with pins := r.pins + 1 }) sound there rfl rfl rfl rfl
      (pages r mem).2
    refine ⟨State.putSeg_pins_sound sound mem _, fun m q found _ => ?_⟩
    by_cases here : m = g
    · subst here
      obtain rfl := Option.some.inj (there.symm.trans found)
      exact ⟨_, own⟩
    · exact ⟨q.pins, (others m here).trans found⟩
  case h_2 => exact Repinned.refl sound

theorem State.openAt_repinned {h : HeadId} {g f : Nat} {c : RepairCause} (sound : s.ds.Sound)
    (made : s.openAt h g f c = some t) : Repinned s t := by
  cases least : leastFirst (s.mergedRecords h g f) with
  | none =>
    rw [State.openAt, show s.rt.records.filter (mergedBy h g f) = s.mergedRecords h g f from rfl] at made
    simp only [least, State.createRecord, Option.ite_none_right_eq_some, Option.some.injEq] at made
    obtain ⟨-, rfl⟩ := made
    generalize insertRecord _ s.rt.records = records
    have joined : Repinned s { s with rt := { s.rt with records := records } } := Repinned.of_ds sound rfl
    exact joined.trans (State.pin_repinned joined.sound g)
  | some r =>
    rw [State.openAt_merges least rfl, Option.some.injEq] at made
    subst made
    have put (x : RepairRecord) : Repinned s (s.putRecord x) := Repinned.of_ds sound rfl
    exact (put _).trans (State.retireAll_repinned (put _).sound _)

theorem State.openRequest_repinned {h : HeadId} {g f : Nat} {c : RepairCause} (sound : s.ds.Sound)
    (made : s.openRequest h g f c = some t) : Repinned s t := by
  rw [State.openRequest] at made
  split at made
  · exact State.openAt_repinned sound made
  · rw [Option.some.inj made]
    exact Repinned.refl (Option.some.inj made ▸ sound)

theorem State.carryTurn_repinned {g : Nat} {h : HeadId} (sound : s.ds.Sound) (turn : State.carryTurn g h s = some t) :
    Repinned s t := by
  rw [State.carryTurn] at turn
  split at turn
  · exact State.openRequest_repinned sound turn
  · rw [Option.some.inj turn]
    exact Repinned.refl (Option.some.inj turn ▸ sound)

theorem State.takenNext_sound (sound : s.ds.Sound) {n : Nat} {r : SegRecord} (found : s.findSeg n = some r) :
    (s.takenNext n r).ds.Sound := by
  obtain ⟨mem, -⟩ := State.findSeg_mem found
  obtain ⟨-, -, -, pages⟩ := id sound
  exact Store.Sound.put (r' := { r with state := .active }) sound mem rfl rfl rfl rfl (pages r mem).2

/-- The take of the next segment as the statements tell it. -/
theorem State.stepTake_made {r : SegRecord} (sound : s.ds.Sound) (found : s.findSeg s.awaited = some r)
    (ready : r.state = .ready) : TakeMade s s.stepTake s.awaited r := by
  rw [State.stepTake_ready found ready]
  obtain ⟨own, others⟩ := State.takenNext_findSeg sound found
  have context := s.takenNext_noContext s.awaited r
  have wants := s.takenNext_loadWant s.awaited r
  have shape : s.takenNext s.awaited r = { s with
      ds := { s.ds with segs := (s.takenNext s.awaited r).ds.segs, mark := some s.awaited, markThread := r.thread
                        loadWant := (s.takenNext s.awaited r).ds.loadWant }
      pc := { s.pc with point := none, faulted := (s.takenNext s.awaited r).pc.faulted, carryOwed := false
                        trimmed := false, owedTrims := 0, wasMoving := false } } := rfl
  have whole := State.takenNext_sound sound found
  generalize s.takenNext s.awaited r = e at *
  obtain ⟨x, k, start, bound, turns, stops, ends⟩ := State.attempts_turns (State.carryTurn s.awaited) e
  subst start
  refine ⟨x, k, shape, context, own, others, wants, bound, fun h less => State.carryTurn_some (turns h less),
    fun h here => ?_, fun all => ?_⟩
  · obtain ⟨turn, stopped⟩ := stops h here
    obtain ⟨lacks, refused⟩ := State.carryTurn_none turn
    rw [stopped]
    exact ⟨lacks, refused, _, State.enterHalted_halts _ _ _ _, rfl⟩
  · subst all
    have stands : Repinned (x 0) (x 16) := State.attempts_keep
      (fun _ _ _ kept turn => kept.trans (State.carryTurn_repinned kept.sound turn)) (Repinned.refl whole) bound turns le_rfl
    obtain ⟨p, active⟩ := stands.stands _ _ own (by simp)
    rw [ends rfl]
    dsimp only
    rw [State.threadOf_found active]
    exact State.needleChoice_every _ _ _ _ _ _

end Sys2Proof.Machine
end

section
/-! PROOF. The round between the runs (R13, R64, R69 to R72, R152, R156 to R158): transition after transition, the
schedule and what follows the repairs, and the moves of a travel that take no time (R48, R53, R54). -/

open Sys2Proof.Claims

namespace Sys2Proof.Machine

variable {s t : State}

/-! ## Transitions one after another (log 8) -/

/-- Transitions within the bound, up to a state that waits. -/
theorem State.driveFor_steps (f : Nat → State) {k n : Nat} (bound : k ≤ n)
    (steps : ∀ i, i < k → (f i).microStep = some (f (i + 1))) (waits : Waits (f k)) : State.driveFor n (f 0) = f k := by
  induction k generalizing f n with
  | zero => exact State.driveFor_waits waits n
  | succ k ih =>
    obtain ⟨m, rfl⟩ := Nat.exists_eq_add_of_le' (Nat.lt_of_lt_of_le (Nat.succ_pos k) bound)
    rw [State.driveFor_step (steps 0 (Nat.succ_pos k))]
    exact ih (fun i => f (i + 1)) (Nat.le_of_succ_le_succ bound) (fun i less => steps (i + 1) (Nat.succ_lt_succ less)) waits

/-! ## The schedule (R69 to R71, R82, R157) -/

/-- The pinned pages stand at or over the ceiling, as the statements tell it. -/
theorem State.overPinCeiling_iff : s.overPinCeiling = true ↔ ∃ j, s.pc.job = some j ∧ 0 < j.pinCeiling ∧
    j.pinCeiling ≤ (s.ds.segs.map fun r => if r.state = .sewn ∧ 0 < r.pins then r.pages.length else 0).sum := by
  unfold State.overPinCeiling State.pinnedPages
  cases s.pc.job <;> simp [Nat.pos_iff_ne_zero]

theorem State.stepSchedule_named {g : Nat} (named : Named s s.pc.repairPoint g) : s.stepSchedule =
    let u := s.formPass s.pc.repairPoint g
    let v : State := { going u .change (.choice .repairPass) with ds := { s.ds with served := some g } }
    v.needleChoice (s.threadOf g) g .repair (u.rt.pass.elim 0 (·.first)) u.involved u.involved := by
  rw [State.stepSchedule, State.scheduled_named.2 named]
  rfl

theorem State.stepSchedule_unnamed (unnamed : ∀ g, ¬ Named s s.pc.repairPoint g) : s.stepSchedule = s.repairsDone := by
  have nothing : s.scheduled s.pc.repairPoint = none :=
    Option.eq_none_iff_forall_ne_some.2 fun g found => unnamed g (State.scheduled_named.1 found)
  rw [State.stepSchedule, nothing]

/-- The repair pass that the schedule names, with its needle choice. -/
theorem State.stepSchedule_formed {g : Nat} {r : SegRecord} (named : Named s s.pc.repairPoint g)
    (found : s.findSeg g = some r) : ∃ u pass, Formed s u s.pc.repairPoint g pass ∧
      Chosen { going u .change (.choice .repairPass) with ds := { s.ds with served := some g } } s.stepSchedule
        ⟨r.thread, g, .repair, pass.first, pass.involved⟩ fun h => inSet pass.involved h = true := by
  obtain ⟨⟨q, selected, -, segment⟩, -⟩ := id named
  obtain ⟨pass, formed⟩ := State.formPass_formed (s := s) ⟨q, selected, segment⟩
  have rt : (s.formPass s.pc.repairPoint g).rt.pass = some pass := by rw [formed.1]
  have involved : (s.formPass s.pc.repairPoint g).involved = pass.involved := by rw [State.involved, rt, Option.elim_some]
  refine ⟨_, pass, formed, ?_⟩
  rw [State.stepSchedule_named named]
  dsimp only
  rw [rt, involved, State.threadOf_found found, Option.elim_some]
  exact State.needleChoice_chosen _ _ _ _ _ _ _

/-! ### What follows the repairs of each point -/

theorem State.repairsDone_segmentEnd (point : s.pc.repairPoint = .segmentEnd) :
    s.repairsDone = if s.overPinCeiling then s.startRepairs .forced else going s .change .take := by
  rw [State.repairsDone, point]
  rfl

theorem State.repairsDone_forced (point : s.pc.repairPoint = .forced) : s.repairsDone =
    if s.overPinCeiling then s.enterHalted .pinCeiling (.beforeTake, true) else going s .change .take := by
  rw [State.repairsDone, point]
  rfl

theorem State.repairsDone_jobEnd (point : s.pc.repairPoint = .jobEnd) : s.repairsDone =
    if s.rt.records.isEmpty then
      { going s .finished .rest with ts := { s.ts with working := none }, rl := { s.rl with sticky := s.rl.sticky ||| 0x0020 } }
    else s.enterHalted .repairsOutstanding (.jobEnd, true) := by
  rw [State.repairsDone, point]
  rfl

theorem State.repairsDone_run (point : s.pc.repairPoint = .run) :
    s.repairsDone = (s.enterHalted s.pc.runCause s.stands).starvedRepeat := by
  rw [State.repairsDone, point]

/-- A context that is held keeps its point and its "trimmed" at the entry to HALTED (R78). -/
theorem State.enterHalted_halts_held (c : HaltCause) (at_ : ResumePoint × Bool) {point : ResumePoint}
    (held : s.pc.point = some point) (p : ResumePoint) (b : Bool) : Halts s (s.enterHalted c at_) c p b := by
  obtain ⟨shape, keeps, -, rest⟩ := s.enterHalted_halts c at_.1 at_.2
  exact ⟨shape, keeps, fun fresh => absurd (by rw [held]; rfl) fresh, rest⟩

/-- The return of a REPAIR_RUN to its halt, with the take of a STARVED wait repeated (R72, R82). -/
theorem State.repairsDone_returns (point : s.pc.repairPoint = .run) {p : ResumePoint} (held : s.pc.point = some p) :
    ∃ t, Halts s t s.pc.runCause p s.pc.trimmed ∧
      let starved := s.pc.runCause = .starved ∧
        ∃ q, t.findSeg (match s.ds.mark with | some m => m + 1 | none => 0) = some q ∧ q.state = .ready
      let checked := s.mp.referenced = true ∧ s.tablesValid = true
      (¬ starved → s.repairsDone = t) ∧
      (starved → checked → s.repairsDone = going t .change .take) ∧
      (starved → ¬ checked → s.repairsDone = { t with
        pc := { t.pc with cause := .stopRequest }, rl := { t.rl with sticky := t.rl.sticky ||| 0x0002 } }) := by
  have halts := State.enterHalted_halts_held s.pc.runCause s.stands held p s.pc.trimmed
  rw [State.repairsDone_run point, State.starvedRepeat_eq, State.awaited_eq]
  generalize s.enterHalted s.pc.runCause s.stands = t at halts
  obtain ⟨shape, -, -, ⟨ds, -⟩, -⟩ := id halts
  have state : t.pc.state = .halted := by rw [shape]
  have cause : t.pc.cause = s.pc.runCause := by rw [shape]
  have mark : t.ds.mark = s.ds.mark := by rw [ds]
  have checks : (t.mp.referenced = true ∧ t.tablesValid = true) ↔ (s.mp.referenced = true ∧ s.tablesValid = true) := by
    rw [shape]
    rfl
  rw [state, cause, mark]
  refine ⟨t, halts, fun fed => if_neg fun h => fed h.2, fun starved checked => ?_, fun starved failed => ?_⟩
  · rw [if_pos ⟨rfl, starved⟩, if_pos (checks.2 checked)]
    rfl
  · rw [if_pos ⟨rfl, starved⟩, if_neg (mt checks.1 failed)]

/-! ## Moves that take no time (R48, R54, log 39) -/

theorem State.startStep_takesNoTime {d : Pos} (time : TakesNoTime s d.x d.y) (rest : List Pos) :
    s.startStep d rest = { s with
      se := { s.se with plan := some rest }
      mp := { s.mp with position := ⟨s.mp.position.x + d.x, s.mp.position.y + d.y⟩, move := none
                        dirX := d.x.sign, dirY := d.y.sign } } := by
  have instant := begun_duration_zero time .step
  obtain ⟨listedX, listedY, -⟩ := time
  have begins : ({ s with se := { s.se with plan := some rest } } : State).moveOf .step d.x d.y = begun s .step d.x d.y :=
    State.moveOf_eq_begun .step listedX listedY
  unfold State.startStep
  dsimp only
  rw [begins, if_pos instant]
  rfl

theorem retraction_duration_zero {u v : Int} (time : ¬ RetractionTakesTime s u v) : (retraction s u v).duration = 0 := by
  obtain ⟨x, y⟩ := not_or.1 time
  have alongX : (if u.natAbs = 0 then 0 else (retraction s u v).timeX) = 0 := by
    split
    · rfl
    · exact Nat.eq_zero_of_not_pos fun long => x ⟨Int.natAbs_ne_zero.1 ‹_›, long⟩
  have alongY : (if v.natAbs = 0 then 0 else (retraction s u v).timeY) = 0 := by
    split
    · rfl
    · exact Nat.eq_zero_of_not_pos fun long => y ⟨Int.natAbs_ne_zero.1 ‹_›, long⟩
  exact (congrArg₂ max alongX alongY).trans (max_self 0)

theorem State.startRetraction_takesNoTime {u v : Int} (owed : s.mp.unfinished = some (u, v))
    (listedX : units u s.par.axisScaleX ≤ 127) (listedY : units v s.par.axisScaleY ≤ 127)
    (time : ¬ RetractionTakesTime s u v) : s.startRetraction = { s with mp := { s.mp with
      mode := .travelling, move := none, unfinished := none, dirX := -u.sign, dirY := -v.sign } } := by
  have begins : ({ s with mp := { s.mp with mode := .travelling } } : State).retractionOf (u, v) = retraction s u v :=
    State.retractionOf_eq (s := { s with mp := { s.mp with mode := .travelling } }) listedX listedY
  unfold State.startRetraction
  dsimp only
  split
  case h_1 none_ => exact absurd (owed.symm.trans none_) (by simp)
  case h_2 p some_ =>
    obtain rfl : (u, v) = p := Option.some.inj (owed.symm.trans some_)
    rw [begins, if_pos (retraction_duration_zero time)]
    rfl

/-- A begin-pass request whose retraction has ended is at rest again, and waits for the shaft anew (R46). -/
theorem State.microStep_beginRetracted {a : Aim} (phase : s.pc.phase = .begin a) (mode : s.mp.mode = .travelling)
    (still : s.mp.move = none) : s.microStep = some s.toRest := by
  simp only [State.microStep, phase, State.stepBegin, mode, still]
  rfl

/-- A travel, or a begin-pass request with no halt due, waits while the shaft turns (R46, R53). -/
theorem State.waits_forShaft (mode : s.mp.mode = .atRest)
    (waiting : (∃ a, s.pc.phase = .travel a) ∨ (∃ a, s.pc.phase = .begin a) ∧ s.pc.due = none)
    (turning : s.mp.shaft = .turning) : Waits s := by
  have rests : s.mp.mode ≠ .travelling := by simp [mode]
  unfold Waits State.microStep
  rcases waiting with ⟨a, phase⟩ | ⟨⟨a, phase⟩, due⟩
  · rw [phase]
    exact (State.stepTravel_eq_none_iff a).2 ⟨fun _ => turning, fun travels => absurd travels rests⟩
  · rw [phase]
    exact State.stepBegin_eq_none_iff.2 ⟨fun _ => ⟨due, turning⟩, fun travels => absurd travels rests⟩

/-! ## The round (R64, R69 to R72, R82) -/

theorem State.microStep_take (phase : s.pc.phase = .take) : s.microStep = some s.stepTake := by
  simp only [State.microStep, phase]

theorem State.microStep_schedule (phase : s.pc.phase = .schedule) : s.microStep = some s.stepSchedule := by
  simp only [State.microStep, phase]

/-- Settles O36: the drive, the take, the schedule and what follows it, the waits for the shaft, and the travel. -/
theorem roundGoesOn : Obligations.RoundGoesOn := by
  refine ⟨fun f k bound steps waits => State.driveFor_steps f bound steps waits, fun s => ⟨?_, ?_, ?_, ?_⟩⟩
  · intro phase sound _ n
    have number : s.awaited = n := s.awaited_eq
    rw [State.microStep_take phase, ← number]
    refine ⟨fun unready => ?_, fun r found ready _ => ⟨_, rfl, State.stepTake_made sound found ready⟩⟩
    exact ⟨_, rfl, State.stepTake_unready unready ▸ s.enterHalted_halts .starved .beforeTake true⟩
  · intro phase p full
    rw [State.microStep_schedule phase]
    refine ⟨fun g r named found => ?_, fun unnamed => ?_⟩
    · obtain ⟨u, pass, formed, chosen⟩ := State.stepSchedule_formed named found
      exact ⟨_, u, pass, rfl, formed, chosen⟩
    rw [State.stepSchedule_unnamed unnamed]
    have ceiling : s.overPinCeiling = true ↔ full := State.overPinCeiling_iff
    refine ⟨fun point => ?_, fun point => ?_, fun point => ?_, fun place point held => ?_⟩
    · rw [State.repairsDone_segmentEnd point]
      exact ⟨fun room => by rw [if_neg (mt ceiling.1 room)], fun above => ⟨_, rfl, by
        rw [if_pos (ceiling.2 above)]; exact s.startRepairs_due .forced⟩⟩
    · rw [State.repairsDone_forced point]
      exact ⟨fun room => by rw [if_neg (mt ceiling.1 room)], fun above => ⟨_, rfl, by
        rw [if_pos (ceiling.2 above)]; exact s.enterHalted_halts .pinCeiling .beforeTake true⟩⟩
    · rw [State.repairsDone_jobEnd point]
      exact ⟨fun none_ => by rw [if_pos (List.isEmpty_iff.2 none_)], fun some_ => ⟨_, rfl, by
        rw [if_neg (mt List.isEmpty_iff.1 some_)]; exact s.enterHalted_halts .repairsOutstanding .jobEnd true⟩⟩
    · obtain ⟨t, halts, ends, repeats, stops⟩ := State.repairsDone_returns point held
      exact ⟨t, halts, fun fed => congrArg some (ends fed), fun starved ok => congrArg some (repeats starved ok),
        fun starved bad => congrArg some (stops starved bad)⟩
  · intro begins travels rested
    refine ⟨fun mode waiting => ⟨State.waits_forShaft mode waiting, fun shaft work => ?_, fun shaft ⟨a, phase⟩ settled => ?_,
      fun u v shaft owed listedX listedY => ?_⟩, fun c mode ⟨a, phase⟩ due => ?_,
      fun mode still ⟨a, phase⟩ => State.microStep_beginRetracted phase mode still,
      fun d rest mode still ⟨a, phase⟩ plan par => ?_⟩
    · rw [State.microStep_outOfWindow mode shaft waiting]
      exact ⟨_, rfl, State.immediateHalt_haltedAtOnce work .spindlePosition⟩
    · rw [State.microStep_travelInWindow mode shaft phase, State.startRetraction_nothing settled]
    · intro back
      rw [State.microStep_owes mode shaft (by rw [owed]; rfl) waiting]
      refine ⟨fun time => ?_, fun time => congrArg some (State.startRetraction_takesNoTime owed listedX listedY time)⟩
      rw [State.startRetraction_takesTime owed listedX listedY time]
      simp only [back, owed]
    · rw [State.microStep_beginDue phase mode due]
      exact ⟨_, _, _, rfl, s.stands_standsAt, s.enterHalted_halts c _ _⟩
    · intro stepped
      rw [State.microStep_step phase mode still plan]
      refine ⟨fun time => ?_, fun time => congrArg some (State.startStep_takesNoTime time rest)⟩
      exact congrArg some (State.startStep_takesTime par time rest)
  · intro a phase mode still plan
    rw [State.microStep_travelComplete phase mode still plan]
    refine ⟨fun due => ⟨_, rfl, State.travelComplete_arrived due a⟩, fun c due => ?_⟩
    exact ⟨_, _, _, rfl, s.stands_standsAt, State.travelComplete_due due a ▸ State.enterHalted_halts _ c _ _⟩

end Sys2Proof.Machine
end

section
/-! PROOF. START (R63, R64, R72): the take of segment 0 and, where every head is on its thread already, the travel to its
start. -/

open Sys2Proof.Claims

namespace Sys2Proof.Machine

variable {s t : State}

/-! ## Heads that are on their thread already (R89, R152) -/

theorem Threaded.congr {thread : Nat} (h : Threaded s thread) (hs : t.hs = s.hs) (ts : t.ts = s.ts) : Threaded t thread := by
  intro g
  rw [State.head_congr hs, State.sel_congr ts]
  exact h g

theorem Settled.congr (h : Settled s) (ts : t.ts = s.ts) : Settled t := by
  intro g
  rw [State.sel_congr ts]
  exact h g

/-- A needle choice that finds every head on its thread, with no edit staged, sets the working context alone. -/
theorem Chosen.threaded {w : Working} {covered : HeadId → Prop} (chosen : Chosen s t w covered)
    (threaded : Threaded s w.thread) (settled : Settled s) : t = { s with ts := { s.ts with working := some w } } := by
  obtain ⟨x, shape, sel, unstaged, -, last, turns⟩ := chosen
  have staged (h : HeadId) (n : NeedleId) : (s.sel h).needles[n].staged = none := (settled h).2.2 n
  obtain ⟨ds, rl⟩ := unstaged staged
  have same (h : HeadId) : (x 0).sel h = s.sel h := by
    obtain ⟨own, needles⟩ := sel h
    have entries : ((x 0).sel h).needles = (s.sel h).needles := Vector.ext fun i below => by
      have entry := needles ⟨i, below⟩
      rw [staged h ⟨i, below⟩] at entry
      exact entry
    rw [own, entries]
  have first : x 0 = { s with ts := { s.ts with working := some w } } := by
    have heads : (x 0).ts.heads = s.ts.heads := State.heads_of_sel same
    rw [shape, heads, ds, rl]
  have stays (k : Nat) (le : k ≤ 16) : x k = x 0 := by
    induction k with
    | zero => rfl
    | succ k ih =>
      have before := ih (Nat.le_of_succ_le le)
      obtain ⟨apart, -, keeps, -⟩ := turns ⟨k, le⟩
      dsimp only at apart keeps
      rw [before] at apart keeps
      have head : (x 0).head ⟨k, le⟩ = s.head ⟨k, le⟩ := State.head_congr (by rw [shape]) _
      rcases threaded ⟨k, le⟩ with excluded | ⟨active, n, current, fit⟩
      · exact apart fun ⟨_, chooses⟩ => by simp [excluded] at chooses
      · by_cases covers : covered ⟨k, le⟩
        · exact keeps ⟨covers, .inl active⟩ ⟨n, by rw [same]; exact ⟨current, fit⟩⟩ (by rw [head, active]; simp)
        · exact apart fun ⟨covers', _⟩ => covers covers'
  rw [← last, stays 16 le_rfl, first]

/-- No carry record is made where every head works. -/
theorem State.carryTurns_threaded {thread : Nat} (threaded : Threaded s thread) (g : Nat) (l : List HeadId) :
    State.attempts (State.carryTurn g) l s = (s, none) := by
  have turn (h : HeadId) : State.carryTurn g h s = some s := by
    refine if_neg fun lacks => ?_
    obtain ⟨-, out, -⟩ := (s.lacks_iff h g).1 lacks
    rcases threaded h with excluded | ⟨active, -⟩
    · simp [excluded] at out
    · simp [active] at out
  exact State.attempts_idle turn l

/-! ## The take that needs no shift (R64) -/

/-- The state after the take of segment n where every head is on its thread. -/
def State.tookOnThread (n : Nat) (r : SegRecord) (s : State) : State :=
  { going (s.takenNext n r) .change (.choice .segmentStart) with
    ts := { s.ts with working := some ⟨r.thread, n, .main, 0, 0⟩ } }

theorem State.stepTake_threaded {r : SegRecord} (sound : s.ds.Sound) (found : s.findSeg s.awaited = some r)
    (ready : r.state = .ready) (threaded : Threaded s r.thread) (settled : Settled s) :
    s.stepTake = s.tookOnThread s.awaited r := by
  have own := (State.takenNext_findSeg sound found).1
  have on : Threaded (s.takenNext s.awaited r) r.thread := Threaded.congr threaded rfl rfl
  rw [State.stepTake_ready found ready, State.carryTurns_threaded on]
  dsimp only
  rw [State.threadOf_found own]
  exact Chosen.threaded (State.needleChoice_every _ _ _ _ _ _) (Threaded.congr threaded rfl rfl) (Settled.congr settled rfl)

/-- The segment taken is the ACTIVE one where none was before. -/
theorem State.takenNext_active {n : Nat} {r : SegRecord} (found : s.findSeg n = some r)
    (inactive : ∀ q ∈ s.ds.segs, q.state ≠ .active) : (s.takenNext n r).activeSeg = some { r with state := .active } := by
  obtain ⟨mem, -⟩ := State.findSeg_mem found
  have listed (q : SegRecord) := State.mem_putSeg (r' := { r with state := .active }) (q := q) mem rfl
  have some_ : (s.takenNext n r).activeSeg.isSome = true :=
    List.find?_isSome.2 ⟨_, (listed _).2 (.inl rfl), rfl⟩
  obtain ⟨q, active⟩ := Option.isSome_iff_exists.1 some_
  have state : q.state = .active := beq_iff_eq.1 (List.find?_some active :)
  rcases (listed q).1 (List.mem_of_find?_eq_some active) with rfl | ⟨before, -⟩
  · exact active
  · exact absurd state (inactive q before)

/-- The part goes on from the take to the travel that leads to the segment's start. -/
theorem State.microStep_tookOnThread {n : Nat} {r : SegRecord} (sound : s.ds.Sound) (found : s.findSeg n = some r)
    (inactive : ∀ q ∈ s.ds.segs, q.state ≠ .active) (settled : Settled s) (due : s.pc.due = none) :
    (s.tookOnThread n r).microStep = some ((s.tookOnThread n r).startTravel .segmentStart r.start) := by
  rw [State.microStep_choice (s := s.tookOnThread n r) (a := .segmentStart) rfl fun h => (settled h).1,
    State.choiceComplete_segmentStart (s := s.tookOnThread n r) due (State.takenNext_active found inactive)
      (State.takenNext_sound sound found)]

/-! ## The travel that begins at once (R53) -/

/-- After four transitions the part waits. -/
theorem State.drive_fourTimes {u v w : State} (first : s.microStep = some t) (second : t.microStep = some u)
    (third : u.microStep = some v) (fourth : v.microStep = some w) (waits : Waits w) : s.drive = w := by
  have half : s.drive = State.driveFor (Config.driveBound - 2) u :=
    (State.driveFor_step first (Config.driveBound - 1)).trans (State.driveFor_step second (Config.driveBound - 2))
  have rest : State.driveFor (Config.driveBound - 2) u = State.driveFor (Config.driveBound - 4) w :=
    (State.driveFor_step third (Config.driveBound - 3)).trans (State.driveFor_step fourth (Config.driveBound - 4))
  exact half.trans (rest.trans (State.driveFor_waits waits _))

/-- A part that goes on to a travel with the shaft in the window begins its first step. -/
theorem State.drive_toFirstStep {u v : State} (first : u.microStep = some v) (second : v.microStep = some s) {a : Aim}
    (phase : s.pc.phase = .travel a) (mode : s.mp.mode = .atRest) (shaft : s.mp.shaft = .inWindow) (still : s.mp.move = none)
    (settled : s.mp.unfinished = none) {d : Pos} {rest : List Pos} (plan : s.se.plan = some (d :: rest))
    (par : s.par.Sound) (time : TakesTime s d.x d.y) : u.drive = { s with
      se := { s.se with plan := some rest }
      mp := { s.mp with mode := .travelling, move := some (begun s .step d.x d.y), dirX := d.x.sign, dirY := d.y.sign } } := by
  have enters := State.microStep_travelInWindow mode shaft phase
  rw [State.startRetraction_nothing settled] at enters
  have begins := State.microStep_step (s := { s with mp := { s.mp with mode := .travelling } }) phase rfl still plan
  rw [State.startStep_takesTime (s := { s with mp := { s.mp with mode := .travelling } }) par time] at begins
  exact State.drive_fourTimes first second enters begins (State.waits_moving rfl rfl (.inl ⟨a, phase⟩))

/-- START with segment 0 not READY waits for it, STARVED (R72). -/
theorem State.drive_take_unready (phase : s.pc.phase = .take)
    (unready : ∀ r, s.findSeg s.awaited = some r → r.state ≠ .ready) :
    s.drive = s.enterHalted .starved (.beforeTake, true) := by
  rw [← State.stepTake_unready unready]
  refine State.drive_once (State.microStep_take phase) ?_
  rw [State.stepTake_unready unready]
  exact s.enterHalted_waits _ _

/-- Settles O28: the take and what it waits for, the travel to the segment's start, and the STARVED wait. -/
theorem startTakesFirstSegment : Obligations.StartTakesFirstSegment := by
  intro s acts may standby due mark
  have run := exec_start_accepted acts may standby
  let a := going (withResponse .accepted .none [] s) .change .take
  have number : a.awaited = 0 := by rw [State.awaited_eq, show a.ds.mark = none from mark]
  have took : a.microStep = some a.stepTake := State.microStep_take rfl
  refine ⟨run, fun r found ready _ sound => ?_, fun r found ready inactive sound threaded settled rest => ?_,
    fun unready => ?_⟩
  · have made := State.stepTake_made (s := a) sound (number ▸ found) ready
    rw [number] at made
    exact ⟨a.stepTake, made, fun waits => run.trans (congrArg _ (State.drive_once took waits))⟩
  · rw [run]
    rw [State.stepTake_threaded (s := a) sound (number ▸ found) ready threaded settled, number] at took
    have travels : (a.tookOnThread 0 r).microStep = some ((a.tookOnThread 0 r).startTravel .segmentStart r.start) :=
      State.microStep_tookOnThread (s := a) sound found inactive settled due
    obtain ⟨own, others⟩ := State.takenNext_findSeg (s := a) sound found
    have wants : LoadWantFollows s.ds.loadWant (a.takenNext 0 r) := a.takenNext_loadWant 0 r
    have context := a.takenNext_noContext 0 r
    refine ⟨(a.tookOnThread 0 r).startTravel .segmentStart r.start, fun turning => ?_,
      fun d rest' shaft still settled' plan par time => ?_, rfl, rfl, rfl, due, rfl, context, own, others, ?_⟩
    · exact congrArg _ (State.drive_twice took travels (State.waits_forShaft rest (.inl ⟨_, rfl⟩) turning))
    · exact congrArg _ (State.drive_toFirstStep took travels rfl rest shaft still settled' plan par time)
    · exact LoadWantFollows.of_busy wants rfl rfl rfl (show PassState.change ≠ .idle from nofun)
        (show PassState.travel ≠ .idle from nofun)
  · rw [run, State.drive_take_unready (s := a) rfl (number.symm ▸ unready)]
    have shape := a.enterHalted_shape .starved (.beforeTake, true)
    have raised := a.enterHalted_raises .starved (.beforeTake, true)
    generalize a.enterHalted .starved (.beforeTake, true) = t at shape raised
    refine ⟨t, rfl, ?_, ?_, ?_, raised, ?_, ?_⟩ <;> rw [shape] <;> rfl

end Sys2Proof.Machine
end

section
/-! PROOF. The records a resume owes (R79, R151) and the rejoined heads of its needle choice (R80), each head's turn until
one is refused. -/

open Sys2Proof.Claims

namespace Sys2Proof.Machine

variable {s t u : State}

/-! ## Turns of the heads that pass a test -/

/-- A test that a turn leaves for every other head may be made turn by turn. -/
theorem State.attempts_filter {p : HeadId → State → Bool} {f : HeadId → State → Option State}
    (keeps : ∀ h y z, f h y = some z → ∀ g, g ≠ h → p g z = p g y) {l : List HeadId} (distinct : l.Nodup) (s : State) :
    State.attempts f (l.filter fun h => p h s) s = State.attempts (fun h y => if p h y then f h y else some y) l s := by
  induction l generalizing s with
  | nil => rfl
  | cons h rest ih =>
    obtain ⟨fresh, distinct⟩ := List.nodup_cons.1 distinct
    cases passes : p h s with
    | false =>
      rw [List.filter_cons_of_neg (p := fun g => p g s) (by simp [passes]), State.attempts_some (t := s) (by simp [passes])]
      exact ih distinct s
    | true =>
      rw [List.filter_cons_of_pos (p := fun g => p g s) passes]
      cases turn : f h s with
      | none => rw [State.attempts_none turn, State.attempts_none (by simp [passes, turn])]
      | some t =>
        have rest_ : (rest.filter fun g => p g s) = rest.filter fun g => p g t := List.filter_congr fun g mem =>
          (keeps h s t turn g fun same => fresh (same ▸ mem)).symm
        rw [State.attempts_some turn, State.attempts_some (t := t) (by simp [passes, turn]), rest_]
        exact ih distinct t

/-- All heads have one kind of turn, then all have another. -/
def State.attemptsTwice (f g : HeadId → State → Option State) (s : State) : State × Option HeadId :=
  match State.attempts f allHeads s with
  | (y, some h) => (y, some h)
  | (y, none) => State.attempts g allHeads y

/-- The states between the turns of both kinds, up to the head that has no answer. -/
theorem State.attemptsTwice_turns (f g : HeadId → State → Option State) (s : State) : ∃ (x : Nat → State) (k : Nat),
    x 0 = s ∧ k ≤ 32 ∧ (∀ h : HeadId, h.val < k → f h (x h.val) = some (x (h.val + 1))) ∧
      (∀ h : HeadId, 16 + h.val < k → g h (x (16 + h.val)) = some (x (16 + h.val + 1))) ∧
      (∀ h : HeadId, h.val = k → f h (x k) = none) ∧ (∀ h : HeadId, 16 + h.val = k → g h (x k) = none) ∧
      (k < 32 → ∃ h, State.attemptsTwice f g s = (x k, some h)) ∧ (k = 32 → State.attemptsTwice f g s = (x 32, none)) := by
  obtain ⟨x, k, start, bound, turns, stops, ends⟩ := State.attempts_turns f s
  by_cases all : k = 16
  · subst all
    obtain ⟨y, j, start', bound', turns', stops', ends'⟩ := State.attempts_turns g (x 16)
    have both : State.attemptsTwice f g s = State.attempts g allHeads (x 16) := by rw [State.attemptsTwice, ends rfl]
    have front (i : Nat) (le : i ≤ 16) : (if i ≤ 16 then x i else y (i - 16)) = x i := if_pos le
    have back (i : Nat) : (if 16 + i ≤ 16 then x (16 + i) else y (16 + i - 16)) = y i := by
      cases i with
      | zero => exact (if_pos le_rfl).trans start'.symm
      | succ i => exact (if_neg (by omega)).trans (congrArg y (by omega))
    refine ⟨fun i => if i ≤ 16 then x i else y (i - 16), 16 + j, start, by omega, fun h _ => ?_, fun h less => ?_,
      fun h here => absurd h.isLt (by omega), fun h here => ?_, fun less => ?_, fun full => ?_⟩
    · dsimp only
      rw [front _ h.isLt.le, front _ h.isLt]
      exact turns h h.isLt
    · dsimp only
      rw [back, Nat.add_assoc, back]
      exact turns' h (by omega)
    · obtain rfl : h.val = j := by omega
      dsimp only
      rw [back]
      exact (stops' h rfl).1
    · refine ⟨⟨j, by omega⟩, ?_⟩
      dsimp only
      rw [back, both]
      exact (stops' ⟨j, by omega⟩ rfl).2
    · obtain rfl : j = 16 := by omega
      rw [both, ends' rfl]
      exact congrArg (·, none) (back 16).symm
  · have less : k < 16 := by omega
    obtain ⟨stop, stopped⟩ := stops ⟨k, less⟩ rfl
    refine ⟨x, k, start, by omega, turns, fun h past => by omega, fun h here => (stops h here).1, fun h here => by omega,
      fun _ => ⟨⟨k, less⟩, ?_⟩, fun full => by omega⟩
    rw [State.attemptsTwice, stopped]

/-- What every turn of both kinds keeps stands between the turns. -/
theorem State.attemptsTwice_keep {f g : HeadId → State → Option State} {P : State → Prop}
    (first : ∀ h y z, P y → f h y = some z → P z) (second : ∀ h y z, P y → g h y = some z → P z) {x : Nat → State} {k : Nat}
    (start : P (x 0)) (bound : k ≤ 32) (turns : ∀ h : HeadId, h.val < k → f h (x h.val) = some (x (h.val + 1)))
    (turns' : ∀ h : HeadId, 16 + h.val < k → g h (x (16 + h.val)) = some (x (16 + h.val + 1))) {i : Nat} (le : i ≤ k) :
    P (x i) := by
  induction i with
  | zero => exact start
  | succ i ih =>
    have before := ih (Nat.le_of_succ_le le)
    by_cases low : i < 16
    · exact first ⟨i, low⟩ _ _ before (turns ⟨i, low⟩ le)
    · obtain ⟨j, rfl⟩ := Nat.exists_eq_add_of_le (Nat.le_of_not_lt low)
      exact second ⟨j, by omega⟩ _ _ before (turns' ⟨j, by omega⟩ le)

/-! ## The faulted heads' records (R79, R80) -/

/-- Records have been made and heads have left the faulted set, and nothing else has changed. -/
def State.OnlySettled (s t : State) : Prop := t = { s with
  rt := { s.rt with records := t.rt.records, retiredInPass := t.rt.retiredInPass }
  ds := { s.ds with segs := t.ds.segs, pool := t.ds.pool, loadWant := t.ds.loadWant }
  pc := { s.pc with faulted := t.pc.faulted } }

theorem State.OnlySettled.refl (s : State) : s.OnlySettled s := rfl

theorem State.OnlySettled.trans (a : s.OnlySettled t) (b : t.OnlySettled u) : s.OnlySettled u := by
  unfold State.OnlySettled at *
  rw [a] at b
  exact b

theorem State.OnlyRecords.settled (h : s.OnlyRecords t) : s.OnlySettled t := by
  rw [State.OnlySettled, h.pc]
  exact h

theorem State.OnlySettled.head (h : s.OnlySettled t) (g : HeadId) : t.head g = s.head g := State.head_congr (by rw [h]) g

theorem State.faultedTarget_iff {h : HeadId} {m : Nat} :
    s.faultedTarget h = some m ↔ ∃ f, s.pc.faulted[h] = some f ∧ f.target = some m := Option.bind_eq_some_iff

theorem State.isOut_iff {h : HeadId} : s.isOut h = true ↔ (s.head h).state = .off ∨ (s.head h).state = .benched := by
  simp [State.isOut]

theorem State.unfaulted_faulted (s : State) (h g : HeadId) :
    (unfaulted s h).pc.faulted[g] = if g = h then none else s.pc.faulted[g] := by
  by_cases same : g = h
  · subst same
    rw [if_pos rfl]
    exact Vector.getElem_set_self g.isLt
  · rw [if_neg same]
    exact Vector.getElem_set_ne h.isLt g.isLt fun e => same (Fin.ext e.symm)

theorem State.unfaulted_settled (s : State) (h : HeadId) : s.OnlySettled (unfaulted s h) := rfl

/-- The record owed a head from its target, which takes it out of the faulted set. -/
def State.recordTurn (g : Nat) (h : HeadId) (s : State) : Option State :=
  match s.faultedTarget h with
  | none => some s
  | some m => (s.openRequest h g m ((s.pc.faulted[h]).elim .carry (·.cause))).map fun v => unfaulted v h

/-- A faulted head's turn at the choice complete of a resume. -/
def State.resumeTurn (g : Nat) (h : HeadId) (s : State) : Option State :=
  if s.isOut h then some (unfaulted s h)
  else if (s.head h).state = .rejoinWait then s.recordTurn g h else some s

theorem State.recordTurn_owed {g m : Nat} {h : HeadId} {f : Faulted} (faulted : s.pc.faulted[h] = some f)
    (target : f.target = some m) :
    State.recordTurn g h s = (s.openRequest h g m f.cause).map fun v => unfaulted v h := by
  rw [State.recordTurn, State.faultedTarget_iff.2 ⟨f, faulted, target⟩, faulted]
  rfl

theorem State.recordTurn_targetless {g : Nat} {h : HeadId} (none_ : ∀ f, s.pc.faulted[h] = some f → f.target = none) :
    State.recordTurn g h s = some s := by
  have nothing : s.faultedTarget h = none := Option.eq_none_iff_forall_ne_some.2 fun m owed => by
    obtain ⟨f, faulted, target⟩ := State.faultedTarget_iff.1 owed
    simp [none_ f faulted] at target
  rw [State.recordTurn, nothing]

/-- A head that is owed no record keeps its place; one that is has it made, or refused. -/
theorem State.recordTurn_cases (h : HeadId) (s : State) :
    (∃ f m, s.pc.faulted[h] = some f ∧ f.target = some m) ∨ ∀ f, s.pc.faulted[h] = some f → f.target = none := by
  cases owed : s.faultedTarget h with
  | some m =>
    obtain ⟨f, faulted, target⟩ := State.faultedTarget_iff.1 owed
    exact .inl ⟨f, m, faulted, target⟩
  | none =>
    refine .inr fun f faulted => Option.eq_none_iff_forall_ne_some.2 fun m target => ?_
    rw [State.faultedTarget_iff.2 ⟨f, faulted, target⟩] at owed
    cases owed

theorem State.recordTurn_made {g : Nat} {h : HeadId} (turn : State.recordTurn g h s = some t) :
    t = s ∨ ∃ m c v, s.openRequest h g m c = some v ∧ t = unfaulted v h := by
  rw [State.recordTurn] at turn
  split at turn
  · exact .inl (Option.some.inj turn).symm
  · obtain ⟨v, made, rfl⟩ := Option.map_eq_some_iff.1 turn
    exact .inr ⟨_, _, v, made, rfl⟩

theorem State.recordTurn_refused {g : Nat} {h : HeadId} (turn : State.recordTurn g h s = none) : ∃ f m,
    s.pc.faulted[h] = some f ∧ f.target = some m ∧ s.openRequest h g m f.cause = none := by
  rcases State.recordTurn_cases h s with ⟨f, m, faulted, target⟩ | none_
  · rw [State.recordTurn_owed faulted target, Option.map_eq_none_iff] at turn
    exact ⟨f, m, faulted, target, turn⟩
  · rw [State.recordTurn_targetless none_] at turn
    cases turn

theorem State.resumeTurn_made {g : Nat} {h : HeadId} (turn : State.resumeTurn g h s = some t) :
    t = s ∨ t = unfaulted s h ∨ ∃ m c v, s.openRequest h g m c = some v ∧ t = unfaulted v h := by
  rw [State.resumeTurn] at turn
  split at turn
  · exact .inr (.inl (Option.some.inj turn).symm)
  · split at turn
    · exact (State.recordTurn_made turn).imp id .inr
    · exact .inl (Option.some.inj turn).symm

/-- What a turn that drops a head, with a record made for it or not, leaves. -/
theorem State.turn_settled {g : Nat} {h : HeadId}
    (made : t = s ∨ t = unfaulted s h ∨ ∃ m c v, s.openRequest h g m c = some v ∧ t = unfaulted v h) :
    s.OnlySettled t ∧ ∀ k, k ≠ h → t.pc.faulted[k] = s.pc.faulted[k] := by
  rcases made with rfl | rfl | ⟨m, c, v, request, rfl⟩
  · exact ⟨.refl _, fun _ _ => rfl⟩
  · exact ⟨s.unfaulted_settled h, fun k apart => (s.unfaulted_faulted h k).trans (if_neg apart)⟩
  · have only := State.openRequest_only request
    refine ⟨only.settled.trans (v.unfaulted_settled h), fun k apart => ?_⟩
    rw [v.unfaulted_faulted, if_neg apart, only.pc]

theorem State.recordTurn_settled {g : Nat} {h : HeadId} (turn : State.recordTurn g h s = some t) :
    s.OnlySettled t ∧ ∀ k, k ≠ h → t.pc.faulted[k] = s.pc.faulted[k] :=
  State.turn_settled ((State.recordTurn_made turn).imp id .inr)

theorem State.resumeTurn_settled {g : Nat} {h : HeadId} (turn : State.resumeTurn g h s = some t) :
    s.OnlySettled t ∧ ∀ k, k ≠ h → t.pc.faulted[k] = s.pc.faulted[k] := State.turn_settled (State.resumeTurn_made turn)

theorem State.recordFaulted_attempts (g : Nat) (l : List HeadId) (s : State) : State.recordFaulted g l s =
    ((State.attempts (State.recordTurn g) l s).1, (State.attempts (State.recordTurn g) l s).2.isNone) := by
  induction l generalizing s with
  | nil => rfl
  | cons h rest ih =>
    rw [State.recordFaulted, State.attempts, State.recordTurn]
    cases s.faultedTarget h with
    | none => exact ih s
    | some m =>
      dsimp only
      cases s.openRequest h g m ((s.pc.faulted[h]).elim .carry (·.cause)) with
      | none => rfl
      | some v => exact ih (unfaulted v h)

theorem State.settleRejoins_attempts (g : Nat) (l : List HeadId) (s : State) : State.settleRejoins g l s =
    ((State.attempts (State.resumeTurn g) l s).1, (State.attempts (State.resumeTurn g) l s).2.isNone) := by
  induction l generalizing s with
  | nil => rfl
  | cons h rest ih =>
    rw [State.settleRejoins, State.attempts, State.resumeTurn]
    split
    · exact ih (unfaulted s h)
    · split
      next m target waits =>
        rw [if_pos waits, State.recordTurn, target]
        dsimp only
        cases s.openRequest h g m ((s.pc.faulted[h]).elim .carry (·.cause)) with
        | none => rfl
        | some v => exact ih (unfaulted v h)
      next apart =>
        have stays : (if (s.head h).state = .rejoinWait then s.recordTurn g h else some s) = some s := by
          split
          next waits =>
            rcases State.recordTurn_cases h s with ⟨f, m, faulted, target⟩ | none_
            · exact absurd waits (apart m (State.faultedTarget_iff.2 ⟨f, faulted, target⟩))
            · exact State.recordTurn_targetless none_
          next => rfl
        rw [stays]
        exact ih s

end Sys2Proof.Machine
end

section
/-! PROOF. RESUME (R79, R80): the records owed, the trims owed or the way on by the resume point, and the start index that
the backtrack target and POWER_BACKTRACK fix. -/

open Sys2Proof.Claims

namespace Sys2Proof.Machine

variable {s t u : State}

/-! ## What a hold owes (R79) -/

/-- The head is in the faulted set and out of the work. -/
def State.owesRecord (h : HeadId) (s : State) : Bool := (s.pc.faulted[h]).isSome && s.isOut h

/-- A head's turn at the carry records owed. -/
def State.carryOwedTurn (owed : Bool) (g : Nat) (h : HeadId) (s : State) : Option State :=
  if owed then State.carryTurn g h s else some s

/-- A head's turn at the records of the faulted heads that are out. -/
def State.faultedTurn (g : Nat) (h : HeadId) (s : State) : Option State :=
  if s.owesRecord h then State.recordTurn g h s else some s

theorem State.owesRecord_keep {g : Nat} {h : HeadId} (turn : State.recordTurn g h s = some t) {k : HeadId} (apart : k ≠ h) :
    t.owesRecord k = s.owesRecord k := by
  obtain ⟨only, others⟩ := State.recordTurn_settled turn
  rw [State.owesRecord, State.owesRecord, others k apart, State.isOut, State.isOut, only.head]

/-- The carry records owed are requested, then those of the faulted heads that are out. -/
theorem State.settleOwed_attempts (s : State) : s.settleOwed =
    ((State.attemptsTwice (State.carryOwedTurn s.pc.carryOwed s.pointSegment) (State.faultedTurn s.pointSegment) s).1,
      (State.attemptsTwice (State.carryOwedTurn s.pc.carryOwed s.pointSegment) (State.faultedTurn s.pointSegment) s).2.isNone)
    := by
  have carried : (if s.pc.carryOwed then State.carryFor s.pointSegment 0 allHeads s else (s, none)) =
      State.attempts (State.carryOwedTurn s.pc.carryOwed s.pointSegment) allHeads s := by
    cases s.pc.carryOwed with
    | true => exact State.carryFor_attempts _ _ _
    | false => exact (State.attempts_idle (fun _ => rfl) allHeads).symm
  have distinct : allHeads.Nodup := List.nodup_finRange 16
  rw [State.settleOwed, State.attemptsTwice, carried]
  rcases State.attempts (State.carryOwedTurn s.pc.carryOwed s.pointSegment) allHeads s with ⟨y, _ | h⟩
  · dsimp only
    have passes := State.attempts_filter (p := State.owesRecord) (f := State.recordTurn s.pointSegment)
      (fun _ _ _ turn _ apart => State.owesRecord_keep turn apart) distinct y
    rw [State.recordFaulted_attempts]
    exact congrArg (fun r : State × Option HeadId => (r.1, r.2.isNone)) passes
  · rfl

theorem State.carryOwedTurn_settled {owed : Bool} {g : Nat} {h : HeadId}
    (turn : State.carryOwedTurn owed g h s = some t) : s.OnlySettled t := by
  rw [State.carryOwedTurn] at turn
  split at turn
  · exact (State.carryTurn_only turn).settled
  · rw [Option.some.inj turn]
    exact .refl t

theorem State.faultedTurn_settled {g : Nat} {h : HeadId} (turn : State.faultedTurn g h s = some t) : s.OnlySettled t := by
  rw [State.faultedTurn] at turn
  split at turn
  · exact (State.recordTurn_settled turn).1
  · rw [Option.some.inj turn]
    exact .refl t

theorem State.owesRecord_iff {h : HeadId} : s.owesRecord h = true ↔
    s.pc.faulted[h].isSome = true ∧ ((s.head h).state = .off ∨ (s.head h).state = .benched) := by
  rw [State.owesRecord, Bool.and_eq_true, State.isOut_iff]

/-- A faulted head's turn as the statements tell it. -/
theorem State.faultedTurn_some {g : Nat} {h : HeadId} (turn : State.faultedTurn g h s = some t) :
    let out := (s.head h).state = .off ∨ (s.head h).state = .benched
    (∀ f m, out → s.pc.faulted[h] = some f → f.target = some m →
      ∃ v, s.openRequest h g m f.cause = some v ∧ t = unfaulted v h) ∧
    ((∀ f, s.pc.faulted[h] = some f → out → f.target = none) → t = s) := by
  intro out
  rw [State.faultedTurn] at turn
  refine ⟨fun f m away faulted target => ?_, fun none_ => ?_⟩
  · rw [if_pos (State.owesRecord_iff.2 ⟨by rw [faulted]; rfl, away⟩), State.recordTurn_owed faulted target,
      Option.map_eq_some_iff] at turn
    obtain ⟨v, made, rfl⟩ := turn
    exact ⟨v, made, rfl⟩
  · split at turn
    next owes =>
      rw [State.recordTurn_targetless fun f faulted => none_ f faulted (State.owesRecord_iff.1 owes).2] at turn
      exact (Option.some.inj turn).symm
    next => exact (Option.some.inj turn).symm

theorem State.faultedTurn_none {g : Nat} {h : HeadId} (turn : State.faultedTurn g h s = none) : ∃ f m,
    ((s.head h).state = .off ∨ (s.head h).state = .benched) ∧ s.pc.faulted[h] = some f ∧ f.target = some m ∧
      s.openRequest h g m f.cause = none := by
  rw [State.faultedTurn] at turn
  split at turn
  next owes =>
    obtain ⟨f, m, faulted, target, refused⟩ := State.recordTurn_refused turn
    exact ⟨f, m, (State.owesRecord_iff.1 owes).2, faulted, target, refused⟩
  next => cases turn

/-! ## The way on once the records are settled (R79) -/

/-- The faulted heads that are out have left the set, and no carry record is owed. -/
def State.recordsSettled (s : State) : State :=
  let t := s.faultedOut.foldl (fun y h => y.dropFaulted h) s
  { t with pc := { t.pc with carryOwed := false, resumeCause := t.pc.cause } }

/-- The owed trims, or the way on by the resume point. -/
def State.trimsOrGoesOn (s : State) : State :=
  if s.pc.owedTrims = 0 then s.goOn else (going s .change (.trim .owed)).requestTrim s.pc.owedTrims

theorem State.resumeSettled_eq (s : State) : s.resumeSettled = s.recordsSettled.trimsOrGoesOn := rfl

theorem State.dropAll_faulted (l : List HeadId) (s : State) :
    l.foldl (fun y h => y.dropFaulted h) s =
      { s with pc := { s.pc with faulted := (l.foldl (fun y h => y.dropFaulted h) s).pc.faulted } } ∧
    ∀ g : HeadId, (l.foldl (fun y h => y.dropFaulted h) s).pc.faulted[g] = if g ∈ l then none else s.pc.faulted[g] := by
  induction l generalizing s with
  | nil => exact ⟨rfl, fun g => (if_neg List.not_mem_nil).symm⟩
  | cons h rest ih =>
    obtain ⟨shape, faulted⟩ := ih (unfaulted s h)
    refine ⟨shape, fun g => (faulted g).trans ?_⟩
    rw [State.unfaulted_faulted]
    by_cases later : g ∈ rest
    · rw [if_pos later, if_pos (List.mem_cons_of_mem h later)]
    · rw [if_neg later]
      refine if_congr ?_ rfl rfl
      rw [List.mem_cons, or_iff_left later]

theorem State.recordsSettled_shape (s : State) : s.recordsSettled = { s with pc := { s.pc with
    carryOwed := false, resumeCause := s.pc.cause, faulted := s.recordsSettled.pc.faulted } } := by
  rw [State.recordsSettled]
  dsimp only
  generalize hl : s.faultedOut.foldl (fun y h => y.dropFaulted h) s = t
  have shape := (State.dropAll_faulted s.faultedOut s).1
  rw [hl] at shape
  rw [shape]

theorem State.recordsSettled_faulted (s : State) (h : HeadId) : s.recordsSettled.pc.faulted[h] =
    if (s.head h).state = .off ∨ (s.head h).state = .benched then none else s.pc.faulted[h] := by
  have listed : h ∈ s.faultedOut ↔
      s.pc.faulted[h].isSome = true ∧ ((s.head h).state = .off ∨ (s.head h).state = .benched) := by
    rw [← State.owesRecord_iff]
    exact List.mem_filter.trans (and_iff_right (mem_allHeads h))
  refine ((State.dropAll_faulted s.faultedOut s).2 h).trans ?_
  by_cases out : (s.head h).state = .off ∨ (s.head h).state = .benched
  · rw [if_pos out]
    split
    next => rfl
    next apart => exact Option.not_isSome_iff_eq_none.1 fun some_ => apart (listed.2 ⟨some_, out⟩)
  · rw [if_neg out, if_neg fun there => out (listed.1 there).2]

/-- The way on as the statements tell it. -/
theorem State.trimsOrGoesOn_cases (s : State) : (s.pc.owedTrims = 0 → GoesOn s s.trimsOrGoesOn) ∧
    (s.pc.owedTrims ≠ 0 →
      s.trimsOrGoesOn = { going s .change (.trim .owed) with ts := s.trimsOrGoesOn.ts } ∧
        TrimOrders s s.trimsOrGoesOn fun h => inSet s.pc.owedTrims h = true) := by
  refine ⟨fun none_ => ?_, fun some_ => ?_⟩
  · rw [State.trimsOrGoesOn, if_pos none_]
    exact s.goOn_goesOn
  · rw [State.trimsOrGoesOn, if_neg some_]
    have shape := (going s .change (.trim .owed)).requestTrim_shape s.pc.owedTrims
    have orders : TrimOrders s ((going s .change (.trim .owed)).requestTrim s.pc.owedTrims) fun h =>
        inSet s.pc.owedTrims h = true := State.requestTrim_orders (s := going s .change (.trim .owed)) fun h => Iff.rfl
    generalize (going s .change (.trim .owed)).requestTrim s.pc.owedTrims = t at shape orders
    exact ⟨by rw [shape], orders⟩

/-! ## RESUME where all records are settled, and where one is refused -/

theorem State.changeCause_repairFull (apart : s.pc.cause ≠ .repairFull) : s.changeCause .repairFull = { s with
    pc := { s.pc with cause := .repairFull }, rl := { s.rl with sticky := s.rl.sticky ||| 0x0002 } } := if_neg apart

theorem State.changeCause_same {c : HaltCause} (same : s.pc.cause = c) : s.changeCause c = s := if_pos same

/-- The turns that a RESUME takes for the records owed. -/
def State.resumeTurns (s : State) : State × Option HeadId :=
  State.attemptsTwice (State.carryOwedTurn s.pc.carryOwed s.pointSegment) (State.faultedTurn s.pointSegment)
    (withResponse .accepted .none [] s)

/-- RESUME by the turns it takes: a head without an answer leaves the controller HALTED, REPAIR_FULL. -/
theorem State.resumed_eq (s : State) : s.resumed = match s.resumeTurns with
    | (y, some _) => y.changeCause .repairFull
    | (y, none) => y.recordsSettled.trimsOrGoesOn.drive := by
  have settles : (withResponse .accepted .none [] s).settleOwed = (s.resumeTurns.1, s.resumeTurns.2.isNone) :=
    State.settleOwed_attempts _
  rw [State.resumed, settles]
  rcases s.resumeTurns with ⟨y, _ | h⟩
  · exact congrArg State.drive y.resumeSettled_eq
  · rfl

theorem State.OnlySettled.owedTrims (h : s.OnlySettled t) : t.pc.owedTrims = s.pc.owedTrims := by rw [h]

theorem State.OnlySettled.cause (h : s.OnlySettled t) : t.pc.cause = s.pc.cause := by rw [h]

/-! ## The faulted heads at choice complete (R80) -/

/-- A faulted head's turn at the choice complete of a resume; the other heads have none. -/
def State.faultedRejoin (g : Nat) (h : HeadId) (s : State) : Option State :=
  if (s.pc.faulted[h]).isSome then State.resumeTurn g h s else some s

theorem State.settleRejoins_turns (g : Nat) (s : State) :
    State.settleRejoins g (allHeads.filter fun h => (s.pc.faulted[h]).isSome) s =
      ((State.attempts (State.faultedRejoin g) allHeads s).1, (State.attempts (State.faultedRejoin g) allHeads s).2.isNone) := by
  have passes := State.attempts_filter (p := fun h y => (y.pc.faulted[h]).isSome) (f := State.resumeTurn g)
    (fun h y z turn k apart => by rw [(State.resumeTurn_settled turn).2 k apart]) (List.nodup_finRange 16) s
  rw [State.settleRejoins_attempts]
  exact congrArg (fun r : State × Option HeadId => (r.1, r.2.isNone)) passes

theorem State.faultedRejoin_settled {g : Nat} {h : HeadId} (turn : State.faultedRejoin g h s = some t) :
    s.OnlySettled t := by
  rw [State.faultedRejoin] at turn
  split at turn
  · exact (State.resumeTurn_settled turn).1
  · rw [Option.some.inj turn]
    exact .refl t

theorem State.faultedRejoin_repinned {g : Nat} {h : HeadId} (sound : s.ds.Sound)
    (turn : State.faultedRejoin g h s = some t) : Repinned s t := by
  rw [State.faultedRejoin] at turn
  split at turn
  · rcases State.resumeTurn_made turn with rfl | rfl | ⟨m, c, v, request, rfl⟩
    · exact .refl sound
    · exact .of_ds sound rfl
    · have made := State.openRequest_repinned sound request
      exact made.trans (.of_ds made.sound rfl)
  · rw [Option.some.inj turn]
    exact .refl (Option.some.inj turn ▸ sound)

/-- A head that waits to rejoin is owed the record of its target. -/
theorem State.faultedRejoin_waits {g m : Nat} {h : HeadId} {f : Faulted} (faulted : s.pc.faulted[h] = some f)
    (target : f.target = some m) (waits : (s.head h).state = .rejoinWait) :
    State.faultedRejoin g h s = (s.openRequest h g m f.cause).map fun v => unfaulted v h := by
  have in_ : ¬ s.isOut h = true := by simp [State.isOut, waits]
  rw [State.faultedRejoin, if_pos (by rw [faulted]; rfl), State.resumeTurn, if_neg in_, if_pos waits,
    State.recordTurn_owed faulted target]

/-- The turn of a faulted head as the statements tell it. -/
theorem State.faultedRejoin_some {g : Nat} {h : HeadId} (turn : State.faultedRejoin g h s = some t) :
    let out := (s.head h).state = .off ∨ (s.head h).state = .benched
    let waits := fun (f : Faulted) (m : Nat) =>
      s.pc.faulted[h] = some f ∧ f.target = some m ∧ (s.head h).state = .rejoinWait
    (s.pc.faulted[h].isSome = true → out → t = unfaulted s h) ∧
    (∀ f m, waits f m → ∃ v, s.openRequest h g m f.cause = some v ∧ t = unfaulted v h) ∧
    (¬ (s.pc.faulted[h].isSome = true ∧ out) → (∀ f m, ¬ waits f m) → t = s) := by
  intro out waits
  refine ⟨fun faulted away => ?_, fun f m ⟨faulted, target, rejoins⟩ => ?_, fun here none_ => ?_⟩
  · rw [State.faultedRejoin, if_pos faulted, State.resumeTurn, if_pos (State.isOut_iff.2 away)] at turn
    exact (Option.some.inj turn).symm
  · rw [State.faultedRejoin_waits faulted target rejoins, Option.map_eq_some_iff] at turn
    obtain ⟨v, made, rfl⟩ := turn
    exact ⟨v, made, rfl⟩
  · rw [State.faultedRejoin] at turn
    split at turn
    next faulted =>
      rw [State.resumeTurn, if_neg fun away => here ⟨faulted, State.isOut_iff.1 away⟩] at turn
      split at turn
      next rejoins =>
        rw [State.recordTurn_targetless fun f entry => Option.eq_none_iff_forall_ne_some.2 fun m target =>
          none_ f m ⟨entry, target, rejoins⟩] at turn
        exact (Option.some.inj turn).symm
      next => exact (Option.some.inj turn).symm
    next => exact (Option.some.inj turn).symm

theorem State.faultedRejoin_none {g : Nat} {h : HeadId} (turn : State.faultedRejoin g h s = none) : ∃ f m,
    (s.pc.faulted[h] = some f ∧ f.target = some m ∧ (s.head h).state = .rejoinWait) ∧
      s.openRequest h g m f.cause = none := by
  rw [State.faultedRejoin] at turn
  split at turn
  · rw [State.resumeTurn] at turn
    split at turn
    · cases turn
    · split at turn
      next waits =>
        obtain ⟨f, m, faulted, target, refused⟩ := State.recordTurn_refused turn
        exact ⟨f, m, ⟨faulted, target, waits⟩, refused⟩
      next => cases turn
  · cases turn

/-! ## The start index (R80) -/

theorem HaltCause.backtracks_iff (c : HaltCause) :
    c.backtracks = true ↔ c = .estop ∨ c = .frameLate ∨ c = .powerLoss ∨ c = .reset := by
  cases c <;> simp [HaltCause.backtracks]

/-- The backtrack target is the least of the targets of the faulted set (R77). -/
theorem State.backtrackTarget_eq (s : State) : s.backtrackTarget = (allHeads.filterMap s.faultedTarget).min? := by
  have least (l : List Nat) : l.foldl (fun acc t => some (acc.elim t (min t))) none = l.min? := by
    cases l with
    | nil => rfl
    | cons t l =>
      rw [List.min?_cons']
      exact List.foldl_hom some fun x y => congrArg some (min_comm _ _)
  rw [← least, List.foldl_filterMap, State.backtrackTarget]
  congr 1
  funext acc h
  cases s.faultedTarget h <;> cases acc <;> rfl

theorem State.backtrackTarget_iff {m : Nat} : s.backtrackTarget = some m ↔
    (∃ h, s.faultedTarget h = some m) ∧ ∀ h i, s.faultedTarget h = some i → m ≤ i := by
  rw [State.backtrackTarget_eq, List.min?_eq_some_iff, List.mem_filterMap]
  refine and_congr ?_ ?_
  · simp [mem_allHeads]
  · simp only [List.mem_filterMap, mem_allHeads, true_and]
    exact ⟨fun below h i target => below i ⟨h, target⟩, fun below i ⟨h, target⟩ => below h i target⟩

theorem State.inSet_rejoinedFaulted (s : State) (h : HeadId) : inSet s.rejoinedFaulted h = true ↔
    (s.pc.faulted[h]).isSome = true ∧ (s.head h).state = .active := by
  rw [State.rejoinedFaulted, inSet_headSetOf, Bool.and_eq_true, beq_iff_eq]

theorem State.rejoinedFaulted_eq_zero : s.rejoinedFaulted = 0 ↔
    ¬ ∃ h : HeadId, (s.pc.faulted[h]).isSome = true ∧ (s.head h).state = .active := by
  have empty (h : HeadId) : inSet (0 : HeadSet) h = false := BitVec.getLsbD_zero
  refine ⟨fun none_ ⟨h, rejoined⟩ => ?_, fun none_ => headSet_ext fun h => ?_⟩
  · have there := (s.inSet_rejoinedFaulted h).2 rejoined
    rw [none_, empty] at there
    cases there
  · rw [s.inSet_rejoinedFaulted, empty]
    exact iff_of_false (fun rejoined => none_ ⟨h, rejoined⟩) Bool.false_ne_true

/-- The target that a resume goes back to: that of the faulted set where a head has rejoined. -/
def State.rejoinTarget (s : State) : Option Nat := if s.rejoinedFaulted = 0 then none else s.backtrackTarget

theorem State.rejoinTarget_iff {m : Nat} : s.rejoinTarget = some m ↔
    (∃ h : HeadId, (s.pc.faulted[h]).isSome = true ∧ (s.head h).state = .active) ∧
      (∃ h : HeadId, ∃ f, s.pc.faulted[h] = some f ∧ f.target = some m) ∧
      ∀ (h : HeadId) (i : Nat), (∃ f, s.pc.faulted[h] = some f ∧ f.target = some i) → m ≤ i := by
  rw [State.rejoinTarget, Option.ite_none_left_eq_some, State.rejoinedFaulted_eq_zero, not_not, State.backtrackTarget_iff]
  simp only [State.faultedTarget_iff]

theorem State.resumeStart_back (moved : (s.pc.wasMoving && s.pc.resumeCause.backtracks) = true) (k : Nat) :
    s.resumeStart k =
      let tp := k - s.pc.job.elim 0 (·.powerBacktrack)
      ⟨s.rejoinTarget.elim tp (min tp), s.rejoinTarget == some (s.rejoinTarget.elim tp (min tp)), false,
        s.rejoinedFaulted⟩ := if_pos moved

theorem State.resumeStart_on (still : ¬ (s.pc.wasMoving && s.pc.resumeCause.backtracks) = true) (k : Nat) :
    s.resumeStart k = ⟨s.rejoinTarget.getD k, s.rejoinTarget.isSome, decide (s.rejoinTarget.getD k < k),
      s.rejoinedFaulted⟩ := if_neg still

theorem State.resumeStart_rejoined (s : State) (k : Nat) : (s.resumeStart k).rejoined = s.rejoinedFaulted := by
  by_cases moved : (s.pc.wasMoving && s.pc.resumeCause.backtracks) = true
  · rw [State.resumeStart_back moved]
  · rw [State.resumeStart_on moved]

/-- The start index by the backtrack target and POWER_BACKTRACK, as the statements tell it. -/
theorem State.resumeStart_plan {j : Job} (job : s.pc.job = some j) (k : Nat) {least : Nat → Prop} {back : Prop}
    (leasts : ∀ m, s.rejoinTarget = some m ↔ least m)
    (backs : (s.pc.wasMoving && s.pc.resumeCause.backtracks) = true ↔ back) :
    let plan := s.resumeStart k
    (∀ m, ¬ back → least m → plan.start = m) ∧ (¬ back → (∀ m, ¬ least m) → plan.start = k) ∧
    (∀ m, back → least m → plan.start = min m (k - j.powerBacktrack)) ∧
    (back → (∀ m, ¬ least m) → plan.start = k - j.powerBacktrack) ∧
    (plan.fromTarget = true ↔ least plan.start) ∧ (plan.latch = true ↔ ¬ back ∧ plan.start < k) := by
  intro plan
  simp only [← leasts, ← backs, ← Option.eq_none_iff_forall_ne_some]
  by_cases moved : (s.pc.wasMoving && s.pc.resumeCause.backtracks) = true
  · have made : plan = _ := s.resumeStart_back moved k
    rw [made, job]
    dsimp only
    cases s.rejoinTarget <;> simp [moved, min_comm]
  · have made : plan = _ := s.resumeStart_on moved k
    rw [made]
    dsimp only
    cases s.rejoinTarget <;> simp [moved]

/-! ## The travel of a resume (R80) -/

theorem State.resumeTravel_eq {g k : Nat} (point : s.pc.point = some (.atStitch g k)) : s.resumeTravel =
    match State.attempts (State.faultedRejoin g) allHeads s with
    | (y, some _) => y.enterHalted .repairFull y.stands
    | (y, none) =>
      let z : State := { y with pc := { y.pc with resumePlan := y.resumeStart k } }
      z.startTravel .resume (z.placeOf g (y.resumeStart k).start) := by
  rw [State.resumeTravel, point]
  dsimp only
  rw [State.settleRejoins_turns]
  rcases State.attempts (State.faultedRejoin g) allHeads s with ⟨y, _ | h⟩ <;> rfl

/-- The positions in a segment do not turn on its pins. -/
theorem State.positionBefore_repinned (memory : t.ds.memory = s.ds.memory) (r : SegRecord) (p k : Nat) :
    t.positionBefore { r with pins := p } k = s.positionBefore r k := by
  induction k with
  | zero => rfl
  | succ k ih => rw [State.positionBefore, State.positionBefore, ih, State.storedStitch, State.storedStitch, memory]; rfl

theorem State.placeOf_repinned {g p : Nat} {r : SegRecord} (stands : t.findSeg g = some { r with pins := p })
    (memory : t.ds.memory = s.ds.memory) (k : Nat) : t.placeOf g k = s.positionBefore r k := by
  rw [State.placeOf, stands, Option.elim_some]
  exact State.positionBefore_repinned memory r p k

theorem State.choiceComplete_resume (due : s.pc.due = none) : s.choiceComplete .resume = s.resumeTravel :=
  if_neg (by simp [due])

theorem State.OnlySettled.memory (h : s.OnlySettled t) : t.ds.memory = s.ds.memory := by rw [h]

/-- The travel planned once every faulted head has had its turn. -/
theorem State.OnlySettled.startTravel (h : s.OnlySettled t) (plan : ResumePlan) (place : Pos) :
    ({ t with pc := { t.pc with resumePlan := plan } } : State).startTravel .resume place = { t with
      se := { s.se with plan := some (travelSteps (away s place) s.par.travelStep) }
      pc := { t.pc with state := .travel, cause := .none, phase := .travel .resume, resumePlan := plan } } := by
  rw [h]
  rfl

/-- Settles O34: the turns of a RESUME and what it goes on to, and the rejoined heads with the start index. -/
theorem resumeSettlesWhatIsOwed : Obligations.ResumeSettlesWhatIsOwed := by
  refine ⟨?_, ?_⟩
  · intro s acts may halted fed g out
    have run := exec_resume_accepted acts may halted fed
    obtain ⟨x, k, start, bound, carries, records, uncarried, unrecorded, stops, ends⟩ := State.attemptsTwice_turns
      (State.carryOwedTurn s.pc.carryOwed s.pointSegment) (State.faultedTurn s.pointSegment) (withResponse .accepted .none [] s)
    have resumed := s.resumed_eq
    rw [State.resumeTurns] at resumed
    have settled {i : Nat} (le : i ≤ k) : (x 0).OnlySettled (x i) := State.attemptsTwice_keep
      (fun _ _ _ kept turn => kept.trans (State.carryOwedTurn_settled turn))
      (fun _ _ _ kept turn => kept.trans (State.faultedTurn_settled turn)) (.refl _) bound carries records le
    have cause {i : Nat} (le : i ≤ k) : (x i).pc.cause = s.pc.cause := by
      rw [(settled le).cause, start]
      rfl
    refine ⟨x, k, start, bound, fun h less => ?_, fun h less => State.faultedTurn_some (records h less), fun h here => ?_,
      fun h here => State.faultedTurn_none (unrecorded h here), fun less fresh => ?_, fun less full => ?_, fun all => ?_⟩
    · have turn := carries h less
      refine ⟨fun owed => ?_, fun free => ?_⟩
      · rw [State.carryOwedTurn, if_pos owed] at turn
        exact State.carryTurn_some turn
      · rw [State.carryOwedTurn, if_neg (by simp [free])] at turn
        exact (Option.some.inj turn).symm
    · have turn := uncarried h here
      rw [State.carryOwedTurn] at turn
      split at turn
      next owed => exact ⟨owed, State.carryTurn_none turn⟩
      next => cases turn
    · obtain ⟨h, stopped⟩ := stops less
      rw [stopped] at resumed
      rw [run, resumed]
      exact congrArg _ (State.changeCause_repairFull (cause le_rfl ▸ fresh))
    · obtain ⟨h, stopped⟩ := stops less
      rw [stopped] at resumed
      rw [run, resumed]
      exact congrArg _ (State.changeCause_same ((cause le_rfl).trans full))
    · subst all
      rw [ends rfl] at resumed
      have owed : (x 32).recordsSettled.pc.owedTrims = s.pc.owedTrims := by
        rw [(x 32).recordsSettled_shape]
        exact (settled le_rfl).owedTrims.trans (by rw [start]; rfl)
      have shape := (x 32).recordsSettled_shape
      rw [cause le_rfl] at shape
      obtain ⟨goes, trims⟩ := (x 32).recordsSettled.trimsOrGoesOn_cases
      rw [owed] at goes trims
      refine ⟨(x 32).recordsSettled, _, run.trans (congrArg _ resumed), shape, fun h => ?_, goes, trims⟩
      have faulted := (x 32).recordsSettled_faulted h
      exact ⟨fun away => faulted.trans (if_pos away), fun here => faulted.trans (if_neg here)⟩
  · intro s g k r j phase free due point sound _ found active job out waits
    have step := State.microStep_choice phase free
    rw [State.choiceComplete_resume due, State.resumeTravel_eq point] at step
    obtain ⟨x, n, start, bound, turns, stops, ends⟩ := State.attempts_turns (State.faultedRejoin g) s
    have settled {i : Nat} (le : i ≤ n) : s.OnlySettled (x i) := State.attempts_keep
      (fun _ _ _ kept turn => kept.trans (State.faultedRejoin_settled turn)) (start ▸ .refl _) bound turns le
    refine ⟨x, n, start, bound, fun h less => State.faultedRejoin_some (turns h less), fun h here => ?_, fun all => ?_⟩
    · obtain ⟨turn, stopped⟩ := stops h here
      obtain ⟨f, m, rejoins, refused⟩ := State.faultedRejoin_none turn
      rw [stopped] at step
      have only := settled le_rfl
      have held : (x n).pc.point = some (.atStitch g k) := by rw [only]; exact point
      have trimmed : (x n).pc.trimmed = s.pc.trimmed := by rw [only]
      exact ⟨f, m, _, rejoins, refused, step, trimmed ▸ State.enterHalted_halts_held .repairFull _ held _ _⟩
    · subst all
      rw [ends rfl] at step
      intro rejoined target least back
      have only := settled le_rfl
      have stands : Repinned s (x 16) := State.attempts_keep
        (P := Repinned s)
        (fun _ _ _ kept turn => kept.trans (State.faultedRejoin_repinned kept.sound turn)) (start.symm ▸ .refl sound) bound
        turns le_rfl
      obtain ⟨p, stands⟩ := stands.stands g r found (by simp [active])
      have place (y : State) (ds : y.ds = (x 16).ds) (m : Nat) : y.placeOf g m = s.positionBefore r m :=
        State.placeOf_repinned ((State.findSeg_congr (by rw [ds]) g).trans stands) (by rw [ds, only.memory]) m
      have backs : ((x 16).pc.wasMoving && (x 16).pc.resumeCause.backtracks) = true ↔ back := by
        rw [Bool.and_eq_true, HaltCause.backtracks_iff, only]
      have leasts (m : Nat) : (x 16).rejoinTarget = some m ↔ least m := State.rejoinTarget_iff
      obtain ⟨ahead, stays, lesser, behind, from_, latch⟩ :=
        State.resumeStart_plan (s := x 16) (by rw [only]; exact job) k leasts backs
      refine ⟨(x 16).resumeStart k, ahead, stays, lesser, behind, from_, latch, fun h => ?_, ?_⟩
      · rw [State.resumeStart_rejoined]
        exact (x 16).inSet_rejoinedFaulted h
      · dsimp only at step
        rw [step, place { x 16 with pc := { (x 16).pc with resumePlan := (x 16).resumeStart k } } rfl]
        exact congrArg some (only.startTravel _ _)

/-! ## A resume at a stitch that owes nothing (R79, R80) -/

section
variable (whole : ∀ h : HeadId, s.pc.faulted[h] = none)
include whole

/-- RESUME goes on at once where no record is owed. -/
theorem State.resumed_free (free : s.pc.carryOwed = false) :
    s.resumed = (withResponse .accepted .none [] s).recordsSettled.trimsOrGoesOn.drive := by
  have carries (h : HeadId) : State.carryOwedTurn s.pc.carryOwed s.pointSegment h (withResponse .accepted .none [] s) =
      some (withResponse .accepted .none [] s) := if_neg (by simp [free])
  have records (h : HeadId) : State.faultedTurn s.pointSegment h (withResponse .accepted .none [] s) =
      some (withResponse .accepted .none [] s) := if_neg fun owes => by
    have faulted := (State.owesRecord_iff.1 owes).1
    rw [show (withResponse .accepted .none [] s).pc.faulted[h] = none from whole h] at faulted
    cases faulted
  rw [State.resumed_eq, State.resumeTurns, State.attemptsTwice, State.attempts_idle carries]
  dsimp only
  rw [State.attempts_idle records]

theorem State.recordsSettled_free (free : s.pc.carryOwed = false) :
    s.recordsSettled = { s with pc := { s.pc with resumeCause := s.pc.cause } } := by
  have faulted : s.recordsSettled.pc.faulted = s.pc.faulted := Vector.ext fun i below => by
    refine (s.recordsSettled_faulted ⟨i, below⟩).trans ?_
    split
    · exact (whole ⟨i, below⟩).symm
    · rfl
  rw [s.recordsSettled_shape, faulted, ← free]

theorem State.faultedRejoins_whole (g : Nat) (l : List HeadId) : State.attempts (State.faultedRejoin g) l s = (s, none) :=
  State.attempts_idle (fun h => if_neg (by rw [whole h]; exact Bool.false_ne_true)) l

theorem State.rejoinTarget_whole (m : Nat) : s.rejoinTarget = some m ↔ False := by
  rw [State.rejoinTarget_iff, iff_false]
  rintro ⟨⟨h, faulted, -⟩, -⟩
  rw [whole h] at faulted
  cases faulted

/-- A choice complete with no head faulted plans the travel to the start index. -/
theorem State.microStep_resumeWhole (phase : s.pc.phase = .choice .resume) (settled : ∀ h, (s.sel h).shift = none)
    (due : s.pc.due = none) {g k : Nat} (point : s.pc.point = some (.atStitch g k)) {r : SegRecord}
    (found : s.findSeg g = some r) : s.microStep = some { s with
      se := { s.se with plan := some (travelSteps (away s (s.positionBefore r (s.resumeStart k).start)) s.par.travelStep) }
      pc := { s.pc with state := .travel, cause := .none, phase := .travel .resume, resumePlan := s.resumeStart k } } := by
  rw [State.microStep_choice phase settled, State.choiceComplete_resume due, State.resumeTravel_eq point,
    State.faultedRejoins_whole whole]
  dsimp only
  rw [State.placeOf_repinned (s := s) (t := { s with pc := { s.pc with resumePlan := s.resumeStart k } }) (p := r.pins)
    found rfl]
  rfl

end

/-- The needle choice of a resume at a stitch with every head on its thread. -/
theorem State.goOn_threaded {g k : Nat} {r : SegRecord} (point : s.pc.point = some (.atStitch g k))
    (found : s.findSeg g = some r) (threaded : Threaded s r.thread) (settled : Settled s) : s.goOn =
      { going s .change (.choice .resume) with ts := { s.ts with working := some ⟨r.thread, g, .main, k, 0⟩ } } := by
  rw [State.goOn_atStitch point found]
  exact Chosen.threaded (State.needleChoice_every _ _ _ _ _ _) (Threaded.congr threaded rfl rfl) (Settled.congr settled rfl)

/-- The state of a resume at a stitch whose needle choice has found every head on its thread. -/
def State.resumesOnThread (g k thread : Nat) (s : State) : State := { withResponse .accepted .none [] s with
  pc := { s.pc with state := .change, cause := .none, phase := .choice .resume, resumeCause := s.pc.cause }
  ts := { s.ts with working := some ⟨thread, g, .main, k, 0⟩ } }

theorem State.resumed_onThread (whole : ∀ h : HeadId, s.pc.faulted[h] = none) (free : s.pc.carryOwed = false)
    (untrimmed : s.pc.owedTrims = 0) {g k : Nat} {r : SegRecord} (point : s.pc.point = some (.atStitch g k))
    (found : s.findSeg g = some r) (threaded : Threaded s r.thread) (settled : Settled s) :
    s.resumed = (s.resumesOnThread g k r.thread).drive := by
  let y : State := { withResponse .accepted .none [] s with pc := { s.pc with resumeCause := s.pc.cause } }
  have settles : (withResponse .accepted .none [] s).recordsSettled = y :=
    State.recordsSettled_free (s := withResponse .accepted .none [] s) whole free
  have goes : y.trimsOrGoesOn = y.goOn := if_pos untrimmed
  rw [State.resumed_free whole free, settles, goes, State.goOn_threaded (s := y) point found
    (Threaded.congr threaded rfl rfl) (Settled.congr settled rfl)]
  rfl

/-- Settles O30: RESUME goes on to its needle choice, every head keeps its needle, and the travel waits for the shaft. -/
theorem resumeTravelsBack : Obligations.ResumeTravelsBack := by
  intro s g k r j acts may halted fed job point whole free untrimmed due found threaded settled rest turning back
  have run := exec_resume_accepted acts may halted fed
  rw [State.resumed_onThread whole free untrimmed point found threaded settled] at run
  have step := State.microStep_resumeWhole (s := s.resumesOnThread g k r.thread) whole rfl (fun h => (settled h).1) due point
    found
  have place := State.positionBefore_repinned (s := s) (t := s.resumesOnThread g k r.thread) rfl r r.pins
  have backs : ((s.resumesOnThread g k r.thread).pc.wasMoving &&
      (s.resumesOnThread g k r.thread).pc.resumeCause.backtracks) = true ↔ back := by
    rw [Bool.and_eq_true, HaltCause.backtracks_iff]
    exact Iff.rfl
  obtain ⟨-, stays, -, behind, -⟩ := State.resumeStart_plan (s := s.resumesOnThread g k r.thread) job k
    (least := fun _ => False) (State.rejoinTarget_whole whole) backs
  refine ⟨_, ((s.resumesOnThread g k r.thread).resumeStart k).start, run.trans (congrArg _ (State.drive_once step ?_)),
    fun moved => behind moved fun _ => id, fun still => stays still fun _ => id, ?_⟩
  · exact State.waits_forShaft rest (.inl ⟨_, rfl⟩) turning
  · rw [place]
    rfl

end Sys2Proof.Machine
end

section
/-! PROOF. What follows the trims of a request (R66, R68, R69, R75, R79, R82, R94): the TRIM sewn, the end of a segment
and of a repair pass, a resume's way on, and the halts that are due. -/

open Sys2Proof.Claims

namespace Sys2Proof.Machine

variable {s t v : State}

/-! ## The end of a trim-only CHANGE, by its aim -/

theorem State.endTrimRequest_se (s : State) : s.endTrimRequest.se = s.se := by rw [State.endTrimRequest_shape]

theorem State.endTrimRequest_ds (s : State) : s.endTrimRequest.ds = s.ds := by rw [State.endTrimRequest_shape]

theorem State.haltDue_eq {c : HaltCause} (due : s.pc.due = some c) (at_ : ResumePoint × Bool) :
    s.haltDue at_ = s.enterHalted c at_ := by
  rw [State.haltDue, due]
  rfl

section
variable (s)

theorem State.trimsComplete_midMain : s.trimsComplete .midMain =
    if s.pc.due.isSome then
      s.endTrimRequest.trimSewn.haltDue (.atStitch s.endTrimRequest.trimSewn.activeNo s.endTrimRequest.trimSewn.frontier, true)
    else going s.endTrimRequest.trimSewn.continueIssue .change (.begin .onward) := by
  rw [← s.endTrimRequest_pc]
  rfl

theorem State.trimsComplete_midRepair : s.trimsComplete .midRepair =
    if s.pc.due.isSome then s.endTrimRequest.trimSewn.haltDue s.endTrimRequest.trimSewn.stands
    else going s.endTrimRequest.trimSewn.continueIssue .change (.begin .onward) := by
  rw [← s.endTrimRequest_pc]
  rfl

theorem State.trimsComplete_endMain : s.trimsComplete .endMain =
    if s.pc.due.isSome then
      s.endTrimRequest.endMainPass.haltDue (.atEnd s.endTrimRequest.activeNo, true)
    else s.endTrimRequest.endMainPass.repairsAtEnd s.endTrimRequest.activeNo := by
  rw [← s.endTrimRequest_pc]
  rfl

theorem State.trimsComplete_endRepair : s.trimsComplete .endRepair =
    if s.pc.due.isSome then
      s.endTrimRequest.endIssue.endService.endRepairPass.haltDue s.endTrimRequest.stands
    else going s.endTrimRequest.endIssue.endService.endRepairPass .change .schedule := by
  rw [← s.endTrimRequest_pc]
  rfl

theorem State.trimsComplete_stopRepair :
    s.trimsComplete .stopRepair = s.endTrimRequest.haltDue s.endTrimRequest.stands := rfl

theorem State.trimsComplete_owed : s.trimsComplete .owed =
    let u : State := { s.endTrimRequest with pc := { s.pc with owedTrims := 0 } }
    if s.pc.due.isSome then u.haltDue u.stands else u.goOn := by
  rw [← s.endTrimRequest_pc]
  rfl

end

/-! ## The TRIM is sewn (R32, R66, R159) -/

section
variable {c : IssueContext} {i : Nat} (open_ : s.se.context = some c) (held : c.held = some (.trim i))
include open_ held

theorem State.trimSewn_eq : s.trimSewn =
    if c.kind = .repair then
      State.passIndices c.segment ((s.sewnThrough i).frontier - s.frontier) s.frontier (s.sewnThrough i)
    else s.sewnThrough i := by
  simp only [State.trimSewn, open_, held]

theorem State.trimSewn_main (kind : c.kind = .main) : s.trimSewn =
    s.setContext { c with frontier := skipPauses (max c.frontier (i + 1)) c.passedPauses } := by
  rw [State.trimSewn_eq open_ held, if_neg (by simp [kind]), State.sewnThrough_open open_]

theorem State.trimSewn_repair (kind : c.kind = .repair) : s.trimSewn =
    State.passIndices c.segment (skipPauses (max c.frontier (i + 1)) c.passedPauses - c.frontier) c.frontier
      (s.setContext { c with frontier := skipPauses (max c.frontier (i + 1)) c.passedPauses }) := by
  have before : s.frontier = c.frontier := by rw [State.frontier, open_]; rfl
  rw [State.trimSewn_eq open_ held, if_pos kind, before, State.sewnThrough_open open_]
  rfl

end

/-! ## The place of a repair pass's halt (R78) -/

theorem State.stands_repairTrim {a : TrimAim} (phase : s.pc.phase = .trim a)
    (repairs : a = .midRepair ∨ a = .endRepair ∨ a = .stopRepair) (pc : t.pc = s.pc) (mark : t.ds.mark = s.ds.mark) :
    t.stands = s.stands := by
  have repairing : Repairing s := by rw [Repairing, phase]; exact repairs
  have repairing' : Repairing t := by rw [Repairing, pc, phase]; exact repairs
  rw [State.stands_repairing (.inl repairing), State.stands_repairing (.inl repairing'), State.repairsStand,
    State.repairsStand, pc, mark]

/-! ## The end of a segment's main pass (R15, R68, R109, R155) -/

theorem State.dropReplays_shape (g : Nat) (s : State) :
    s.dropReplays g = { s with hs := { s.hs with heads := (s.dropReplays g).hs.heads } } := by
  obtain ⟨heads, shape⟩ := State.forHeads_setHead_shape (fun h => (s.head h).replay.elim false (·.1 == g))
    (fun t h => { t.head h with replay := none }) s
  have same : s.dropReplays g = _ := shape
  rw [same]

theorem State.dropReplays_head (g : Nat) (s : State) (h : HeadId) :
    ((∃ k, (s.head h).replay = some (g, k)) → (s.dropReplays g).head h = { s.head h with replay := none }) ∧
    ((∀ k, (s.head h).replay ≠ some (g, k)) → (s.dropReplays g).head h = s.head h) := by
  have turn : (s.dropReplays g).head h =
      if (s.head h).replay.elim false (·.1 == g) then { s.head h with replay := none } else s.head h :=
    State.forHeads_at (g := State.head) (fun _ x => { x with replay := none })
      (fun _ _ => State.head_setHead_self _ _ _) (fun _ _ _ e => (State.head_setHead _ _ _ _).trans (if_neg e)) s h
  rw [turn]
  rcases (s.head h).replay with _ | ⟨m, k⟩
  · exact ⟨fun ⟨k, latched⟩ => (nomatch latched), fun _ => rfl⟩
  · refine ⟨fun ⟨k, latched⟩ => if_pos ?_, fun free => if_neg fun same => ?_⟩
    · obtain ⟨rfl, -⟩ := Prod.mk.inj (Option.some.inj latched)
      exact beq_self_eq_true _
    · obtain rfl : m = g := beq_iff_eq.1 same
      exact free k rfl

/-- The ACTIVE segment is SEWN, or freed where no record pins it (R15, R16). -/
theorem State.markSewn_sewn {r : SegRecord} (sound : s.ds.Sound) (active : s.activeSeg = some r)
    (unserved : s.ds.served = none) :
    (∀ m, m ≠ r.number → s.markSewn.findSeg m = s.findSeg m) ∧
    (0 < r.pins → s.markSewn.findSeg r.number = some { r with state := .sewn } ∧ s.markSewn.ds.pool = s.ds.pool ∧
      s.markSewn.ds.loadWant = s.ds.loadWant) ∧
    (r.pins = 0 → s.markSewn.findSeg r.number = none ∧ s.markSewn.ds.pool.Perm (s.ds.pool ++ r.pages) ∧
      LoadWantFollows s.ds.loadWant s.markSewn) := by
  have mem : r ∈ s.ds.segs := List.mem_of_find?_eq_some active
  have found : s.findSeg r.number = some r := (State.findSeg_eq_some sound).2 ⟨mem, rfl⟩
  obtain ⟨-, -, -, pages⟩ := id sound
  obtain ⟨own, others⟩ := State.findSeg_putSeg (r' := { r with state := .sewn }) sound found rfl rfl rfl rfl (pages r mem).2
  have put : (s.putSeg { r with state := .sewn }).ds.Sound := Store.Sound.put sound mem rfl rfl rfl rfl (pages r mem).2
  have sewn : s.markSewn = if r.pins = 0 then (s.putSeg { r with state := .sewn }).freeSeg { r with state := .sewn }
      else s.putSeg { r with state := .sewn } := by
    rw [State.markSewn, active]
    dsimp only
    rw [State.freeIfDone, own]
    refine if_congr ?_ rfl rfl
    simp [show (s.putSeg { r with state := .sewn }).ds.served = none from unserved]
  by_cases unpinned : r.pins = 0
  · rw [sewn, if_pos unpinned]
    obtain ⟨gone, rest⟩ := State.findSeg_freeSeg put own
    refine ⟨fun m apart => (rest m apart).trans (others m apart), fun pinned => by omega, fun _ => ⟨gone, .refl _, ?_⟩⟩
    exact LoadWantFollows.of_evaluated (u := { s.putSeg { r with state := .sewn } with ds :=
      { (s.putSeg { r with state := .sewn }).ds with
        segs := (s.putSeg { r with state := .sewn }).ds.segs.filter (·.slot != r.slot)
        pool := s.ds.pool ++ r.pages } }) rfl rfl rfl rfl rfl rfl
  · rw [sewn, if_neg unpinned]
    exact ⟨others, fun _ => ⟨own, rfl, rfl⟩, fun none_ => absurd none_ unpinned⟩

theorem State.markSewn_shape (s : State) : s.markSewn = { s with ds := { s.ds with
    segs := s.markSewn.ds.segs, pool := s.markSewn.ds.pool, loadWant := s.markSewn.ds.loadWant } } := by
  unfold State.markSewn
  split
  · rw [State.freeIfDone_shape]
    rfl
  · rfl

theorem State.activeSeg_congr (segs : t.ds.segs = s.ds.segs) : t.activeSeg = s.activeSeg := by
  rw [State.activeSeg, segs]
  rfl

theorem State.activeNo_active {r : SegRecord} (active : s.activeSeg = some r) : s.activeNo = r.number := by
  rw [State.activeNo, State.activeNumber, active]
  rfl

/-- The end of a segment's main pass as the statements tell it (R68 steps 2 to 4). -/
theorem State.endMainPass_ends {r : SegRecord} (sound : s.ds.Sound) (active : s.activeSeg = some r)
    (served : s.ds.served = some r.number) : SegmentEnds s s.endMainPass r := by
  have mem : r ∈ s.ds.segs := List.mem_of_find?_eq_some active
  have state : r.state = .active := beq_iff_eq.1 (List.find?_some active :)
  have found : s.findSeg r.number = some r := (State.findSeg_eq_some sound).2 ⟨mem, rfl⟩
  have number := State.activeNo_active active
  let w : State := { s with
    rt := (s.closeSegmentRecords r.number r.count).rt, se := { s.se with context := none }
    ds := { s.ds with served := none } }
  have ended : (s.closeSegmentRecords r.number r.count).endIssue.endService = w :=
    State.endService_keeps (s := (s.closeSegmentRecords r.number r.count).endIssue) served fun q there ⟨sewn, _⟩ => by
      obtain rfl := Option.some.inj (found.symm.trans there)
      simp [state] at sewn
  have whole : s.endMainPass = ((w.dropReplays r.number).markSewn).clearPolicy := by
    rw [← ended, ← State.countOf_found found, ← number]
    rfl
  have dropped := w.dropReplays_shape r.number
  have heads := w.dropReplays_head r.number
  generalize w.dropReplays r.number = y at whole dropped heads
  have ds : y.ds = { s.ds with served := none } := by rw [dropped]
  obtain ⟨others, pinned, freed⟩ := State.markSewn_sewn (s := y) (r := r) (by rw [ds]; exact sound)
    ((State.activeSeg_congr (by rw [ds])).trans active) (by rw [ds])
  have marked := y.markSewn_shape
  generalize y.markSewn = z at whole others pinned freed marked
  have find (m : Nat) : y.findSeg m = s.findSeg m := State.findSeg_congr (by rw [ds]) m
  rw [ds] at pinned freed
  rw [whole]
  have records : z.clearPolicy.rt.records = (s.closeSegmentRecords r.number r.count).rt.records := by
    show z.rt.records = _
    rw [marked, dropped]
  refine ⟨?_, ?_, fun i q at_ => ?_, fun h => ?_, fun m apart => (others m apart).trans (find m), pinned, fun none_ => ?_⟩
  · rw [marked, dropped]
    rfl
  · rw [records]
    exact List.length_map _
  · have after : z.clearPolicy.rt.records[i]? = some (if q.segment = r.number ∧ q.state = .opened then
        { q with last := some (r.count - 1), state := .closed } else q) := by
      rw [records, State.closeSegmentRecords, List.getElem?_map, at_]
      rfl
    rw [after]
    exact ⟨fun opened => congrArg some (if_pos opened), fun other => congrArg some (if_neg other)⟩
  · have same : z.clearPolicy.head h = y.head h := State.head_congr (by rw [marked]; rfl) h
    rw [same]
    exact heads h
  · obtain ⟨gone, pool, wants⟩ := freed none_
    exact ⟨gone, pool, LoadWantFollows.of_same wants rfl rfl rfl rfl⟩

theorem State.endMainPass_pc {r : SegRecord} (ends : SegmentEnds s s.endMainPass r) : s.endMainPass.pc = s.pc := by
  obtain ⟨shape, -⟩ := ends
  rw [shape]

/-! ## The way on from each aim -/

section
variable {c : IssueContext} {i : Nat} (open_ : s.se.context = some c) (held : c.held = some (.trim i))
include open_ held

/-- After a mid-segment TRIM of the main pass its index is sewn and the stream continues (R25, R66). -/
theorem State.midMain_goesOn (kind : c.kind = .main) (passed : c.passedPauses = []) :
    let v := s.endTrimRequest
    let f := max c.frontier (i + 1)
    (s.pc.due = none → s.trimsComplete .midMain = going { v with se := { v.se with context := some { c with
      frontier := f, held := none, tieInPending := true, tieOffDue := true, stretch := i + 1, lastIndex := none } } } .change
        (.begin .onward)) ∧
    (∀ e r, s.pc.due = some e → s.activeSeg = some r →
      Halts { v with se := { v.se with context := some { c with frontier := f } } } (s.trimsComplete .midMain) e
        (.atStitch r.number f) true) := by
  intro v f
  have issuing : v.se.context = some c := (congrArg Editor.context s.endTrimRequest_se).trans open_
  have sewn : v.trimSewn = v.setContext { c with frontier := f } := by
    rw [State.trimSewn_main issuing held kind, passed]
    rfl
  rw [State.trimsComplete_midMain, sewn]
  refine ⟨fun none_ => ?_, fun e r some_ active => ?_⟩
  · rw [if_neg (by simp [none_]), State.continueIssue_trim (c := { c with frontier := f }) rfl held, if_pos kind]
    rfl
  · have number : (v.setContext { c with frontier := f }).activeNo = r.number :=
      State.activeNo_active ((State.activeSeg_congr (congrArg Store.segs s.endTrimRequest_ds)).trans active)
    rw [if_pos (by simp [some_]), number,
      State.haltDue_eq (s := v.setContext { c with frontier := f }) ((congrArg Pass.due s.endTrimRequest_pc).trans some_)]
    exact State.enterHalted_halts _ e _ true

/-- After a mid-segment TRIM of a repair pass the frontier passes on, and the stream continues (R69, R159). -/
theorem State.midRepair_goesOn (phase : s.pc.phase = .trim .midRepair) (kind : c.kind = .repair) :
    let v := s.endTrimRequest
    let issues := fun (x : State) (c : IssueContext) => { x with se := { x.se with context := some c } }
    ∃ f w, FrontierAt c (max c.frontier (i + 1)) f ∧ PassesOver c.segment c.frontier f (issues v { c with frontier := f }) w ∧
      (s.pc.due = none → s.trimsComplete .midRepair =
        going (issues w { c with frontier := f, held := none }) .change (.begin .onward)) ∧
      (∀ e, s.pc.due = some e → ∃ p b, StandsAt s p b ∧ Halts w (s.trimsComplete .midRepair) e p b) := by
  intro v issues
  have issuing : v.se.context = some c := (congrArg Editor.context s.endTrimRequest_se).trans open_
  have sewn := State.trimSewn_repair issuing held kind
  rw [State.trimsComplete_midRepair, sewn]
  have onward := FrontierAt.skipPauses c (max c.frontier (i + 1))
  generalize skipPauses (max c.frontier (i + 1)) c.passedPauses = f at onward
  have only := State.passIndices_only c.segment (f - c.frontier) c.frontier (v.setContext { c with frontier := f })
  have passes := State.passIndices_passesOver c.segment c.frontier f (v.setContext { c with frontier := f })
  generalize State.passIndices c.segment (f - c.frontier) c.frontier (v.setContext { c with frontier := f }) = w at *
  refine ⟨f, w, onward, passes, ?_⟩
  have pc : w.pc = s.pc := only.pc.trans s.endTrimRequest_pc
  refine ⟨fun none_ => ?_, fun e some_ => ?_⟩
  · rw [if_neg (by simp [none_]), State.continueIssue_trim (c := { c with frontier := f }) (by rw [only.se]; rfl) held,
      if_neg (by simp [kind])]
    rfl
  · have mark : w.ds.mark = v.ds.mark := by rw [only]; rfl
    have stands : w.stands = s.stands := State.stands_repairTrim phase (.inl rfl) pc
      (mark.trans (congrArg Store.mark s.endTrimRequest_ds))
    rw [if_pos (by simp [some_]), stands, State.haltDue_eq (by rw [pc]; exact some_)]
    exact ⟨_, _, s.stands_standsAt, w.enterHalted_halts e _ _⟩

end

/-- At the end of a main pass the segment ends, and its repairs or the job's are due (R68). -/
theorem State.endMain_goesOn {r : SegRecord} (sound : s.ds.Sound) (active : s.activeSeg = some r)
    (served : s.ds.served = some r.number) : ∃ u, SegmentEnds s.endTrimRequest u r ∧
      (s.pc.due = none → RepairsDue u (s.trimsComplete .endMain)
        (if s.segmentCount ≤ r.number + 1 then .jobEnd else .segmentEnd)) ∧
      (∀ e, s.pc.due = some e → Halts u (s.trimsComplete .endMain) e (.atEnd r.number) true) := by
  have active' : s.endTrimRequest.activeSeg = some r :=
    (State.activeSeg_congr (congrArg Store.segs s.endTrimRequest_ds)).trans active
  have ends := State.endMainPass_ends (by rw [s.endTrimRequest_ds]; exact sound) active'
    (by rw [s.endTrimRequest_ds]; exact served)
  have pc := (State.endMainPass_pc ends).trans s.endTrimRequest_pc
  have count : s.endTrimRequest.endMainPass.segmentCount = s.segmentCount := by rw [State.segmentCount, pc]; rfl
  rw [State.trimsComplete_endMain, State.activeNo_active active']
  refine ⟨s.endTrimRequest.endMainPass, ends, fun none_ => ?_, fun e some_ => ?_⟩
  · rw [if_neg (by simp [none_]), ← count]
    exact State.repairsAtEnd_due _ _
  · rw [if_pos (by simp [some_]), State.haltDue_eq (by rw [pc]; exact some_)]
    exact State.enterHalted_halts _ e _ _

/-- At the end of a repair pass issue and service end, the pass settles, and the next is due (R69, R161). -/
theorem State.endRepair_goesOn (phase : s.pc.phase = .trim .endRepair) :
    let v := s.endTrimRequest
    ∃ u w, u = { v with se := { s.se with context := none }, ds := u.ds } ∧ ServiceEnds v u ∧ w = u.endRepairPass ∧
      (s.pc.due = none → s.trimsComplete .endRepair = going w .change .schedule) ∧
      (∀ e, s.pc.due = some e → ∃ p b, StandsAt s p b ∧ Halts w (s.trimsComplete .endRepair) e p b) := by
  intro v
  have shape := v.endIssue.endService_shape
  have services : ServiceEnds v v.endIssue.endService := ServiceEnds.of_endService (v := v.endIssue) rfl rfl rfl
    (by rw [shape]) (by rw [shape])
  have stands : v.stands = s.stands := State.stands_repairTrim phase (.inr (.inl rfl)) s.endTrimRequest_pc
    (congrArg Store.mark s.endTrimRequest_ds)
  have pc : v.endIssue.endService.endRepairPass.pc = s.pc := by
    rw [State.endRepairPass_shape, shape]
    exact s.endTrimRequest_pc
  rw [State.trimsComplete_endRepair]
  refine ⟨v.endIssue.endService, _, ?_, services, rfl, fun none_ => if_neg (by simp [none_]), fun e some_ => ?_⟩
  · rw [shape, ← s.endTrimRequest_se]
    rfl
  · rw [if_pos (by simp [some_]), stands, State.haltDue_eq (by rw [pc]; exact some_)]
    exact ⟨_, _, s.stands_standsAt, State.enterHalted_halts _ e _ _⟩

/-- After a soft halt's trims in a repair pass the controller is HALTED (R75). -/
theorem State.stopRepair_halts (phase : s.pc.phase = .trim .stopRepair) {e : HaltCause} (due : s.pc.due = some e) :
    ∃ p b, StandsAt s p b ∧ Halts s.endTrimRequest (s.trimsComplete .stopRepair) e p b := by
  have stands : s.endTrimRequest.stands = s.stands := State.stands_repairTrim phase (.inr (.inr rfl)) s.endTrimRequest_pc
    (congrArg Store.mark s.endTrimRequest_ds)
  rw [State.trimsComplete_stopRepair, stands, State.haltDue_eq (by rw [s.endTrimRequest_pc]; exact due)]
  exact ⟨_, _, s.stands_standsAt, State.enterHalted_halts _ e _ _⟩

/-- A halt that is due with a resume context held is made at its point. -/
theorem State.haltDue_held {e : HaltCause} (due : s.pc.due = some e) {p : ResumePoint} (held : s.pc.point = some p)
    (at_ : ResumePoint × Bool) (b : Bool) : Halts s (s.haltDue at_) e p b := by
  rw [State.haltDue_eq due]
  exact State.enterHalted_halts_held e at_ held p b

/-- After the trims that a hold owes a RESUME goes on by its point (R79). -/
theorem State.owed_goesOn :
    let u := { s.endTrimRequest with pc := { s.pc with owedTrims := 0 } }
    (s.pc.due = none → GoesOn u (s.trimsComplete .owed)) ∧
      (∀ e p, s.pc.due = some e → s.pc.point = some p → Halts u (s.trimsComplete .owed) e p s.pc.trimmed) := by
  intro u
  rw [State.trimsComplete_owed]
  refine ⟨fun none_ => ?_, fun e p some_ held => ?_⟩
  · rw [if_neg (by simp [none_])]
    exact u.goOn_goesOn
  · rw [if_pos (by simp [some_])]
    exact State.haltDue_held (s := u) some_ held _ _

/-- After the trims of a REPAIR_RUN its repairs are due (R82). -/
theorem State.repairRun_goesOn :
    let u := { s.endTrimRequest with pc := { s.pc with owedTrims := 0, trimmed := true } }
    (s.pc.due = none → RepairsDue u (s.trimsComplete .repairRun) .run) ∧
      (∀ e p, s.pc.due = some e → s.pc.point = some p → Halts u (s.trimsComplete .repairRun) e p true) := by
  intro u
  rw [State.trimsComplete_repairRun]
  refine ⟨fun none_ => ?_, fun e p some_ held => ?_⟩
  · rw [if_neg (by simp [none_])]
    exact u.startRepairs_due .run
  · rw [if_pos (by simp [some_])]
    exact State.haltDue_held (s := u) some_ held _ _

/-- Settles O35: the wait for the trims, and the end of the CHANGE by its aim. -/
theorem trimsCompleteGoOn : Obligations.TrimsCompleteGoOn := by
  intro s a phase
  refine ⟨State.waits_trim phase, fun ended => ⟨s.endTrimRequest, _, State.microStep_trim phase ended,
    s.endTrimRequest_shape, s.endTrimRequest_inTrim, ?_⟩⟩
  intro due issues goes
  refine ⟨?_, ?_, ?_, ?_, ?_, ?_, ?_⟩
  · rintro c i rfl open_ kind held passed
    exact State.midMain_goesOn open_ held kind passed
  · rintro c i rfl open_ kind held
    exact State.midRepair_goesOn open_ held phase kind
  · rintro r rfl sound active served
    exact State.endMain_goesOn sound active served
  · rintro rfl
    exact State.endRepair_goesOn phase
  · rintro e rfl some_
    exact State.stopRepair_halts phase some_
  · rintro rfl
    exact State.owed_goesOn
  · rintro rfl
    exact State.repairRun_goesOn

end Sys2Proof.Machine
end
